-- ==== Sys2Proof/Word.lean ====
section
/-! DEFINITION. The word types of the LZ880 and their plainest arithmetic (R3, R8). -/

namespace Sys2Proof

/-- A byte of memory. -/
abbrev Byte := BitVec 8

/-- A 32-bit location: a queue entry, an O or V register of one lane, a unit of the instruction stream. -/
abbrev W32 := BitVec 32

/-- A 64-bit register or address. -/
abbrev W64 := BitVec 64

/-- A 32-lane mask, bit l for lane l. -/
abbrev Mask := BitVec 32

namespace Word

/-- The slice x[hi:lo] of a natural number (R3). -/
def bits (x hi lo : Nat) : Nat := (x >>> lo) % 2 ^ (hi + 1 - lo)

/-- Bit n of a natural number. -/
def bit (x n : Nat) : Bool := Nat.testBit x n

/-- The signed value of the w-bit pattern x (R132: s(x)). -/
def toSigned (w x : Nat) : Int :=
  if 2 * (x % 2 ^ w) < 2 ^ w then ((x % 2 ^ w : Nat) : Int) else ((x % 2 ^ w : Nat) : Int) - (2 ^ w : Nat)

/-- The w-bit two's complement pattern of an exact integer (R67: Round on an integer format). -/
def ofInt (w : Nat) (x : Int) : Nat := (x % ((2 ^ w : Nat) : Int)).toNat

end Word
end Sys2Proof
end

