-- ==== Sys2Proof/Config.lean ====
section
/-! DEFINITION. What the implementation fixes and the spec leaves open: free values, each an opaque constant without a
stated body. No proof can see their values; a claim proved here holds whatever they are. -/

namespace Sys2Proof.Config

/-- Every choice the spec leaves to the hardware that no other definition here names: which of the steps made possible comes
first, which lane's store of an element stands, which runnable executor issues (log 2). Applied to the free-value counter. -/
opaque pick : Nat → Nat

/-- How many more issues a round of issues has than slots that may issue: every slot that stays able to is chosen once in a round
(R98). How often, less one, the steps in progress may come before an issue in a row, and issues before them (R365). -/
opaque slack : Nat

/-- The bytes of a context's save area that one image takes, by kind: 0 a divergence frame, 1 a spilled return address, 2 a spawn
record, 3 a strand, 4 a panel with its bobbin (R392; log 30). -/
opaque saveBytes : Nat → BitVec 20

/-- The L2 slice of a line of a die, which affects timing only (R180) and how many ordinal records a slice's table may hold
(R194). -/
opaque slice : Nat → Nat

/-- The order in which a tracer delivers the indices of a walk: which of the k undelivered ones comes next (R125, log 5). -/
opaque walkPick : Nat → Nat

/-- The entry header of the firmware that a released management core starts at (R427 states none; log 6). -/
opaque firmwareEntry : Nat → BitVec 64

/-- The fused contents of the one-time-programmable memory: 32-bit words by index (R428, R430; log 7). -/
opaque otpWord : Nat → BitVec 32

/-- The identity key's private scalar, derived from the device secret in a way that R430 does not state (log 7). -/
opaque identityKey : List (BitVec 8) → Nat

/-- The X.509 certificates as far as R430 leaves their form open (log 7): the device certificate, the part of the alias certificate that
is signed, by its public key, and the whole of it with its signature. -/
opaque deviceCert : List (BitVec 8)
opaque aliasBody : Nat → Nat → List (BitVec 8)
opaque aliasCert : List (BitVec 8) → Nat → Nat → List (BitVec 8)

/-- The nonces of signatures, by a counter of uses (R430, R431; log 7). -/
opaque nonce : Nat → Nat

/-- Whether one physical lane of an HBM channel passes the pattern test with its codes: socket, channel, mode, lane, read code,
write code (R436; log 8). -/
opaque lanePasses : Nat → Nat → Nat → Nat → Nat → Nat → Bool

/-- What members on other packages bring to a collective or an exchange of this module (R318; log 21): data elements, table entries and
demands, by an occasion and a place. -/
opaque outside : Nat → Nat → Nat

/-- The check value (word 1) and the other words of a context image that are not architectural (R414; log 22), by image. -/
opaque imageWord : Nat → Nat → Nat

/-- The package physical address at which the boot ROM places a section of the image, by section (R427; log 23). -/
opaque sectionAt : Nat → Nat

/-- The memory regions that firmware registers with the host agent, by key (R423; log 23): context slot, virtual base, length, read
and write permission. -/
opaque region : Nat → Option (Nat × Nat × Nat × Bool × Bool)

end Sys2Proof.Config
end

