-- ==== Sys2Proof/Syntax.lean ====
section
/-! DEFINITION. The instructions of Relane revision 3 and the module's own steps: one constructor of `Instr` per row of
spec/opcode_table.json. An instruction carries its decoded fields (R41 to R43, R60 to R62); a step carries the numbers
that say what it concerns. -/

namespace Sys2Proof

/-- The guard of an instruction: predicate register PRED and its negation PN (R41, R42). -/
structure Guard where
  pred : BitVec 3
  neg  : Bool
deriving DecidableEq, Repr

/-- An unguarded instruction: PRED = 7, PN = 0. -/
def Guard.always : Guard := { pred := 7, neg := false }

/-- A decoded operand field (R43). A destination field at `q 0` is the queue-only encoding. `illegal` is the level
[11:8] = 1111 that traps with ILLEGAL_OPERAND; `sel` is source C read as a selector (R77) or another raw code. -/
inductive Opnd where
  | q       (age : BitVec 4)
  | o       (n : BitVec 3)
  | v       (i : BitVec 10)
  | s       (n : BitVec 6)
  | imm     (x : BitVec 36)
  | vo      (n : BitVec 3)
  | illegal (raw : BitVec 8)
  | sel     (raw : BitVec 8)
deriving DecidableEq, Repr

/-- Rounding modes (R60). -/
inductive Rnd where
  | rne | rtz | rup | rdn | rna | sr
deriving DecidableEq, Repr

/-- Saturation (R60). -/
inductive Sat where
  | none | satf | sati
deriving DecidableEq, Repr

/-- The arithmetic modifier prefix (R60): NEGABS keeps its six bits, bit 0 negate A to bit 5 absolute C. -/
structure Arith where
  rnd : Rnd
  sat : Sat
  neg : BitVec 6
deriving DecidableEq, Repr

/-- No arithmetic modifier: RNE, no saturation, unmodified sources. -/
def Arith.plain : Arith := { rnd := .rne, sat := .none, neg := 0 }

/-- The memory modifier prefix (R62). -/
inductive MemPfx where
  | none
  | inline (policy : BitVec 26)
  | cls    (k : BitVec 3)
deriving DecidableEq, Repr

/-- The fields of a long instruction and its prefix group (R42, R60 to R62). -/
structure Args where
  g    : Guard
  look : BitVec 4
  d    : Opnd
  a    : Opnd
  b    : Opnd
  c    : Opnd
  ar   : Arith
  mp   : MemPfx
deriving DecidableEq, Repr

/-- The fields of a short instruction and its prefix group (R41). -/
structure SArgs where
  g  : Guard
  a  : Opnd
  b  : Opnd
  ar : Arith
deriving DecidableEq, Repr

/-- Width of an operation: .32 or .64. -/
inductive Wd where
  | w32 | w64
deriving DecidableEq, Repr

/-- Integer type t (R69). -/
inductive ITy where
  | s32 | n32 | s64 | n64
deriving DecidableEq, Repr

/-- Float format f (R69). -/
inductive FTy where
  | f32 | f16 | bf16 | f64
deriving DecidableEq, Repr

/-- Float formats of the forms restricted to f ≤ 2 (R73). -/
inductive FTy3 where
  | f32 | f16 | bf16
deriving DecidableEq, Repr

/-- Integer conditions (R69). -/
inductive ICond where
  | eq | ne | lt | le | gt | ge
deriving DecidableEq, Repr

/-- Float conditions (R69). -/
inductive FCond where
  | eq | ne | lt | le | gt | ge | num | nan
deriving DecidableEq, Repr

/-- Memory spaces (R69, R174). -/
inductive Space where
  | g | sp | sw | spool
deriving DecidableEq, Repr

/-- Access kinds of LD (R74). -/
inductive LdW where
  | n8 | s8 | n16 | s16 | b32 | b64
deriving DecidableEq, Repr

/-- Access widths of ST (R74). -/
inductive StW where
  | b8 | b16 | b32 | b64
deriving DecidableEq, Repr

/-- Operations of ATOM (R74, R191). -/
inductive AtomOp where
  | add | smin | smax | nmin | nmax | and | or | xor | exch
deriving DecidableEq, Repr

/-- Forms of RED (R74). -/
inductive RedOp where
  | addN32 | addN64 | addF32 | addBF16 | addF16 | addOrdF32 | addOrdBF16 | minS32 | maxS32 | minF32 | maxF32
deriving DecidableEq, Repr

/-- Exchange modes of QXCH (R72). -/
inductive QxMode where
  | horz | vert | diag | rot
deriving DecidableEq, Repr

/-- Modes of SHFL (R72). -/
inductive ShMode where
  | idx | up | down | bfly
deriving DecidableEq, Repr

/-- Modes of VOTE (R72). -/
inductive VoMode where
  | all | any | uni | ballot
deriving DecidableEq, Repr

/-- Element formats of MLOOP (R75). -/
inductive MFmt where
  | bf16 | e4m3 | e5m2 | e2m1
deriving DecidableEq, Repr

/-- Collective kinds (R75, R322). -/
inductive CKind where
  | ag | rs | ar | bc | pass | xch
deriving DecidableEq, Repr

/-- The instructions and steps: one constructor per row of the opcode table. -/
inductive Instr where
  -- short forms (R70)
  | nopShort   (g : Guard)
  | iadd32S    (x : SArgs)
  | isub32S    (x : SArgs)
  | imul32S    (x : SArgs)
  | iminS32S   (x : SArgs)
  | imaxS32S   (x : SArgs)
  | and32S     (x : SArgs)
  | or32S      (x : SArgs)
  | xor32S     (x : SArgs)
  | shl32S     (x : SArgs)
  | shr32S     (x : SArgs)
  | sar32S     (x : SArgs)
  | mov32S     (x : SArgs)
  | iadd64S    (x : SArgs)
  | popc32S    (x : SArgs)
  | isetEq32S  (x : SArgs)
  | isetLtS32S (x : SArgs)
  | isetLtN32S (x : SArgs)
  | faddF32S   (x : SArgs)
  | fmulF32S   (x : SArgs)
  | fminF32S   (x : SArgs)
  | fmaxF32S   (x : SArgs)
  | fsetLtF32S (x : SArgs)
  | fsetEqF32S (x : SArgs)
  | faddBF16S  (x : SArgs)
  | fmulBF16S  (x : SArgs)
  | cvtBF16F32S (x : SArgs)
  | cvtF32BF16S (x : SArgs)
  -- control (R72, R91)
  | nop    (x : Args)
  | bra    (x : Args)
  | brc    (x : Args)
  | brx    (x : Args)
  | brsp   (x : Args)
  | call   (x : Args)
  | ret    (x : Args)
  | retr   (x : Args)
  | join   (x : Args)
  | exit   (x : Args)
  | loop   (x : Args)
  | walk   (x : Args)
  | wnext  (x : Args)
  | dqpush (x : Args)
  | dqbr   (x : Args)
  -- integer, bit and address (R72, R129)
  | iadd   (w : Wd) (x : Args)
  | isub   (w : Wd) (x : Args)
  | imul   (w : Wd) (x : Args)
  | imulh  (t : ITy) (x : Args)
  | imad   (w : Wd) (x : Args)
  | imin   (t : ITy) (x : Args)
  | imax   (t : ITy) (x : Args)
  | iabs   (w : Wd) (x : Args)
  | and    (w : Wd) (x : Args)
  | or     (w : Wd) (x : Args)
  | xor    (w : Wd) (x : Args)
  | not    (w : Wd) (x : Args)
  | shl    (w : Wd) (x : Args)
  | shr    (w : Wd) (x : Args)
  | sar    (w : Wd) (x : Args)
  | rot    (w : Wd) (x : Args)
  | bfx    (t : ITy) (x : Args)
  | bfi    (w : Wd) (x : Args)
  | popc   (w : Wd) (x : Args)
  | clz    (w : Wd) (x : Args)
  | ctz    (w : Wd) (x : Args)
  | brev   (w : Wd) (x : Args)
  | bperm  (w : Wd) (x : Args)
  | clmul  (w : Wd) (x : Args)
  | clmulh (w : Wd) (x : Args)
  | sel    (w : Wd) (x : Args)
  | mov    (w : Wd) (x : Args)
  | movi   (w : Wd) (x : Args)
  | lea    (w : Wd) (x : Args)
  | iset   (k : ICond) (t : ITy) (x : Args)
  | plop   (x : Args)
  | qxch   (m : QxMode) (x : Args)
  | qbc    (l : BitVec 2) (x : Args)
  | shfl   (m : ShMode) (x : Args)
  | vote   (m : VoMode) (x : Args)
  -- floating point and conversion (R73, R159)
  | fadd   (f : FTy) (x : Args)
  | fmul   (f : FTy) (x : Args)
  | ffma   (f : FTy) (x : Args)
  | fscale (f : FTy3) (x : Args)
  | fmin   (f : FTy3) (x : Args)
  | fmax   (f : FTy3) (x : Args)
  | fset   (k : FCond) (f : FTy3) (x : Args)
  | frcp   (x : Args)
  | frsq   (x : Args)
  | fsqrt  (x : Args)
  | fexp2  (x : Args)
  | flog2  (x : Args)
  | ftanh  (x : Args)
  | fclass (f : FTy3) (x : Args)
  | hfma2  (bf : Bool) (x : Args)
  | dot2   (bf : Bool) (x : Args)
  | cvt    (x : Args)
  | pack   (x : Args)
  | unpk   (x : Args)
  | rnd    (x : Args)
  | mxsc   (x : Args)
  -- memory (R74, R187)
  | ld     (space : Space) (w : LdW) (x : Args)
  | st     (space : Space) (w : StW) (x : Args)
  | atom   (op : AtomOp) (w : Wd) (x : Args)
  | atcas  (w : Wd) (x : Args)
  | red    (op : RedOp) (x : Args)
  | ldt    (x : Args)
  | btset  (x : Args)
  | ldfe   (x : Args)
  | stfe   (x : Args)
  | pref   (x : Args)
  | sprq   (x : Args)
  | pgq    (x : Args)
  | cinv   (x : Args)
  | cflush (x : Args)
  -- ordering (R224)
  | fence  (x : Args)
  | drain  (x : Args)
  | wfence (x : Args)
  | scts   (x : Args)
  -- copy, knots and barriers (R237)
  | cpy       (x : Args)
  | cpyg      (x : Args)
  | cpym      (x : Args)
  | kninit    (x : Args)
  | knarr     (x : Args)
  | knexp     (x : Args)
  | knexpTile (x : Args)
  | knwait    (x : Args)
  | kntry     (x : Args)
  | bar       (x : Args)
  | sbar      (x : Args)
  | rsq       (x : Args)
  | rsclr     (x : Args)
  -- matrix (R273)
  | mloop  (f : MFmt) (reuse : Bool) (x : Args)
  | mzero  (x : Args)
  | mldt   (x : Args)
  | mstt   (bf : Bool) (x : Args)
  | mwait  (x : Args)
  | ofence (x : Args)
  | mspc   (x : Args)
  | mcvt   (x : Args)
  | maddt  (x : Args)
  -- attention and KV (R302)
  | kvmap  (x : Args)
  | kvld   (x : Args)
  | kvapp  (x : Args)
  | kvseal (x : Args)
  | kvfork (x : Args)
  | kvdrop (x : Args)
  | role   (x : Args)
  | tmask  (x : Args)
  | mrow   (x : Args)
  | mresc  (x : Args)
  -- collective and fabric (R325)
  | coll   (k : CKind) (x : Args)
  | norm   (x : Args)
  | mbrd   (x : Args)
  | trig   (x : Args)
  | scinc  (x : Args)
  | scrd   (x : Args)
  | scwait (x : Args)
  | cqrd   (x : Args)
  | dpost  (x : Args)
  | lpq    (x : Args)
  | vdhop  (x : Args)
  | vdq    (x : Args)
  -- scheduling (R373)
  | fork   (x : Args)
  | jctr   (x : Args)
  | lnch   (x : Args)
  | yield  (x : Args)
  | qpush  (x : Args)
  | qpop   (x : Args)
  | prio   (x : Args)
  | srd    (x : Args)
  -- system (R406)
  | trap   (x : Args)
  | tret   (x : Args)
  | syrd   (x : Args)
  | sywr   (x : Args)
  | tlbi   (x : Args)
  | ctxs   (x : Args)
  | ctxl   (x : Args)
  | dwin   (x : Args)
  | time   (x : Args)
  | waitt  (x : Args)
  | pwreq  (x : Args)
  | pwrq   (x : Args)
  | wdog   (x : Args)
  | bkpt   (x : Args)
  | halt   (x : Args)
  | svc    (x : Args)
  -- steps of the memory system
  | pendingFill   (id : Nat)
  | writeAck      (id : Nat)
  | homeL2Access  (id : Nat)
  | redApply      (id : Nat)
  | ordinalArrival (id : Nat)
  | ordinalRetry  (id : Nat)
  | l2Eviction    (line : Nat)
  | spoolRefresh  (bank : Nat)
  | pageWalk      (socket page : Nat)
  | executorPark  (panel slot : Nat)
  -- steps of the core's engines
  | copyComplete  (panel id : Nat)
  | copyFault     (panel id : Nat)
  | spoolLoadCopy (socket ctx : Nat) (src dst len : Nat)
  | knotUpdate    (id : Nat)
  | kvldComplete  (id : Nat)
  | kvEvent       (id : Nat)
  | matrixEntryStart    (socket core : Nat)
  | matstep             (socket core : Nat)
  | matrixEntryComplete (socket core : Nat)
  | msttComplete  (id : Nat)
  | powerGrant    (socket core : Nat)
  | grantReturn   (socket core : Nat)
  | grantWithdrawal (socket core : Nat)
  -- steps of the fabric
  | collComplete  (id : Nat)
  | stitchIncrement (id : Nat)
  | triggerFire   (socket idx : Nat)
  | exchangeDemand (id : Nat)
  | exchangePhase (id : Nat)
  | heartbeat
  | standbyTakeover
  | ringReopen
  -- steps of the scheduler
  | panelPlacement  (socket : Nat)
  | distributorPush (socket : Nat)
  | panelComplete   (panel : Nat)
  | joinDecrement   (id : Nat)
  | preemption      (socket : Nat)
  | forcedSave      (panel slot : Nat)
  | panelSwapOut    (panel : Nat)
  | gatherFlush     (panel : Nat)
  | gatheredStrandStart (panel : Nat)
  | watchdogExpiry  (socket ctx : Nat)
  | contextSaveDone (socket ctx : Nat)
  -- steps of the device, the firmware and the host
  | powerOn
  | powerOff
  | bootlen         (len : Nat)
  | imageVerification
  | doorbell        (m : Nat)
  | train           (socket channel : Nat) (on : Bool)
  | patternTestStart (socket channel value : Nat)
  | patternTestDone (socket channel : Nat)
  | repair          (socket channel value : Nat)
  | deviceRegisterWrite (socket offset value : Nat)
  | flogPop         (socket : Nat)
  | tbstep          (step : Nat)
  | wdata           (socket : Nat) (value : BitVec 64)
  | launch          (mailbox : Nat)
  -- steps that come from outside the machine, or from its parts failing
  | flitRetry     (port : Nat)
  | portLoss      (port : Nat)
  | computeDieLoss (socket : Nat)
  | ringSegmentLoss (position : Nat)
  | iodELoss
  | iodWLoss
  | thermalThrottle (socket : Nat)
  | thermalRecovery (socket : Nat)
  | thermalShutdown (socket : Nat)
  | rdmaWrite       (region addr : Nat) (data : List (BitVec 8))
  | rdmaRead        (region addr len : Nat)
  | send            (qp : Nat)
  | rdmaAtomic      (qp : Nat)
  | ptpEventFrame   (port : Nat) (rx : Bool)
  | quote
  | certs
  | shuttle
  | arbiterReturn
  | arbiterPackageLoss (primary : Bool)
  | otpFloorRaise
deriving DecidableEq, Repr

end Sys2Proof
end

