-- ==== Sys2Proof/Machine/Flags.lean ====
section
/-! DEFINITION. Floating values, rounding and exception flags (R67, R147 to R153, R156, R164): exact values, one rounding to a
format under a mode, and the flags the rounding raises. -/

namespace Sys2Proof.Machine

/-! Flags (R156). -/

abbrev FFlags := BitVec 6
def flNV : FFlags := 1
def flDZ : FFlags := 2
def flOF : FFlags := 4
def flUF : FFlags := 8
def flNX : FFlags := 16
def flSA : FFlags := 32

/-! Formats (R147). -/

/-- A floating format: exponent and fraction widths, bias, its largest finite value as an integer times a power of two, whether
it has infinities, whether it has NaNs, and its canonical NaN. -/
structure Fmt where
  eb   : Nat
  fb   : Nat
  bias : Int
  maxM : Nat
  maxE : Int
  inf  : Bool
  hasNan : Bool
  nan  : Nat
deriving DecidableEq, Repr

namespace Fmt
def f64 : Fmt := ⟨11, 52, 1023, 2 ^ 53 - 1, 971, true, true, 0x7FF8000000000000⟩
def f32 : Fmt := ⟨8, 23, 127, 2 ^ 24 - 1, 104, true, true, 0x7FC00000⟩
def f16 : Fmt := ⟨5, 10, 15, 2 ^ 11 - 1, 5, true, true, 0x7E00⟩
def bf16 : Fmt := ⟨8, 7, 127, 2 ^ 8 - 1, 120, true, true, 0x7FC0⟩
def e4m3 : Fmt := ⟨4, 3, 7, 14, 5, false, true, 0x7F⟩
def e5m2 : Fmt := ⟨5, 2, 15, 7, 13, true, true, 0x7E⟩
def e2m1 : Fmt := ⟨2, 1, 1, 3, 1, false, false, 0⟩
/-- The format of a code of R77 below 7. -/
def ofCode (n : Nat) : Fmt :=
  match n with
  | 0 => f32 | 1 => f16 | 2 => bf16 | 3 => f64 | 4 => e4m3 | 5 => e5m2 | _ => e2m1
def width (f : Fmt) : Nat := 1 + f.eb + f.fb
/-- The exponent of the least normal value. -/
def emin (f : Fmt) : Int := 1 - f.bias
end Fmt

/-- The format of a form's variant. -/
def fmtOf : FTy → Fmt
  | .f32 => Fmt.f32 | .f16 => Fmt.f16 | .bf16 => Fmt.bf16 | .f64 => Fmt.f64

/-- An exact value: NaN, an infinity, a signed zero, or ± m · 2^e with m ≠ 0. -/
inductive FVal where
  | nan
  | inf (neg : Bool)
  | zero (neg : Bool)
  | fin (neg : Bool) (m : Nat) (e : Int)
deriving DecidableEq, Repr

namespace FVal

/-- ± m · 2^e, a zero where m is 0. -/
def mk (neg : Bool) (m : Nat) (e : Int) : FVal := if m = 0 then .zero neg else .fin neg m e

/-- An exact integer. -/
def ofInt (x : Int) : FVal := mk (x < 0) x.natAbs 0

/-- The value of an encoding (R147): every NaN is quiet and alike (R150). -/
def decode (f : Fmt) (bits : Nat) : FVal :=
  let neg := Word.bit bits (f.eb + f.fb)
  let ex := bits / 2 ^ f.fb % 2 ^ f.eb
  let fr := bits % 2 ^ f.fb
  if f.inf && ex == 2 ^ f.eb - 1 then (if fr = 0 then .inf neg else .nan)
  else if f.hasNan && !f.inf && ex == 2 ^ f.eb - 1 && fr == 2 ^ f.fb - 1 then .nan
  else if ex = 0 then mk neg fr (f.emin - f.fb)
  else mk neg (2 ^ f.fb + fr) ((ex : Int) - f.bias - f.fb)

def neg : FVal → FVal
  | .nan => .nan
  | .inf b => .inf (!b)
  | .zero b => .zero (!b)
  | .fin b m e => .fin (!b) m e

def abs : FVal → FVal
  | .nan => .nan
  | .inf _ => .inf false
  | .zero _ => .zero false
  | .fin _ m e => .fin false m e

def isNeg : FVal → Bool
  | .nan => false
  | .inf b => b
  | .zero b => b
  | .fin b _ _ => b

/-- The exponent of the leading bit of m · 2^e. -/
def top (m : Nat) (e : Int) : Int := (Nat.log2 m : Int) + e

/-- Compare two positive magnitudes. -/
def cmpMag (m1 : Nat) (e1 : Int) (m2 : Nat) (e2 : Int) : Ordering :=
  if top m1 e1 < top m2 e2 then .lt
  else if top m2 e2 < top m1 e1 then .gt
  else if e1 ≤ e2 then compare m1 (m2 * 2 ^ (e2 - e1).toNat) else compare (m1 * 2 ^ (e1 - e2).toNat) m2

/-- Compare two values that are not NaN, with −0 = +0. -/
def cmp (a b : FVal) : Ordering :=
  let sgn (x : FVal) : Int := match x with | .zero _ => 0 | .nan => 0 | .inf n => if n then -1 else 1 | .fin n _ _ => if n then -1 else 1
  if sgn a ≠ sgn b then compare (sgn a) (sgn b)
  else
    match a, b with
    | .inf n, .inf _ => if n then .eq else .eq
    | .inf n, _ => if n then .lt else .gt
    | _, .inf n => if n then .gt else .lt
    | .fin n m1 e1, .fin _ m2 e2 => if n then cmpMag m2 e2 m1 e1 else cmpMag m1 e1 m2 e2
    | _, _ => .eq

/-- The exact sum of finite values as an integer times 2^e, with the least exponent. -/
def sumFin (xs : List (Bool × Nat × Int)) : Int × Int :=
  match xs with
  | [] => (0, 0)
  | x :: _ =>
    let e := xs.foldl (fun e y => min e y.2.2) x.2.2
    (xs.foldl (fun n y =>
      let v : Int := (y.2.1 * 2 ^ (y.2.2 - e).toNat : Nat)
      if y.1 then n - v else n + v) 0, e)

/-- The exact product (R161): NaN for 0 × ∞. -/
def mul (a b : FVal) : FVal :=
  let s := xor a.isNeg b.isNeg
  match a, b with
  | .nan, _ => .nan
  | _, .nan => .nan
  | .inf _, .zero _ => .nan
  | .zero _, .inf _ => .nan
  | .inf _, _ => .inf s
  | _, .inf _ => .inf s
  | .zero _, _ => .zero s
  | _, .zero _ => .zero s
  | .fin _ m1 e1, .fin _ m2 e2 => .fin s (m1 * m2) (e1 + e2)

/-- The exact sum of terms (R151, R161, R166): NaN when a term is NaN or infinities of both signs meet. A zero sum of zeros of
one sign keeps it; any other exact zero is +0, or −0 under RDN. -/
def sum (rdn : Bool) (xs : List FVal) : FVal :=
  let isInf (n : Bool) : Bool := xs.any fun x => x == .inf n
  if xs.any (fun x => x == .nan) || (isInf true && isInf false) then .nan
  else if isInf true then .inf true
  else if isInf false then .inf false
  else
    let fs := xs.filterMap fun x => match x with | .fin n m e => some (n, m, e) | _ => none
    let (n, e) := sumFin fs
    if n = 0 then
      if fs.isEmpty && xs.all (·.isNeg) then .zero true
      else if fs.isEmpty && xs.all (fun x => !x.isNeg) then .zero false
      else .zero rdn
    else mk (n < 0) n.natAbs e

/-- 0 × ∞ (R161: NV even beside a NaN). -/
def zeroTimesInf (a b : FVal) : Bool :=
  match a, b with
  | .inf _, .zero _ => true
  | .zero _, .inf _ => true
  | _, _ => false

/-- Infinities of both signs among the terms of a sum (R161, R166). -/
def infClash (xs : List FVal) : Bool := xs.any (· == .inf true) && xs.any (· == .inf false)

end FVal

/-! Rounding (R67, R152). -/

/-- The rounding decision for a magnitude t + (rem / 2^s), rem < 2^s, plus a tail below the last bit when `sticky`. -/
def roundUp (mode : Rnd) (rnd : Nat) (neg : Bool) (t rem s : Nat) (sticky : Bool) : Bool :=
  let twice := 2 * rem
  match mode with
  | .rne => 2 ^ s < twice || (twice == 2 ^ s && (sticky || t % 2 == 1))
  | .rna => 2 ^ s ≤ twice
  | .rtz => false
  | .rup => !neg && (rem != 0 || sticky)
  | .rdn => neg && (rem != 0 || sticky)
  | .sr => 65536 ≤ rem * 65536 / 2 ^ s + rnd

/-- ± (m + tail) · 2^e rounded at the quantum 2^q: the integer number of quanta, and whether it is inexact. A tail stands only
below at least one kept bit; a magnitude far below the quantum leaves only a tail. -/
def quantize (mode : Rnd) (rnd : Nat) (neg : Bool) (m : Nat) (e q : Int) (sticky : Bool) : Nat × Bool :=
  if q ≤ e then (m * 2 ^ (e - q).toNat + b2' (roundUp mode rnd neg (m * 2 ^ (e - q).toNat) 0 1 sticky), sticky)
  else
    let s := (q - e).toNat
    if Nat.log2 m + 40 < s then (b2' (roundUp mode rnd neg 0 1 40 true), true)
    else
      let t := m / 2 ^ s
      let rem := m % 2 ^ s
      (t + b2' (roundUp mode rnd neg t rem s sticky), rem != 0 || sticky)
where
  b2' (b : Bool) : Nat := if b then 1 else 0

/-- A result: its encoding and its flags. -/
structure FRes where
  bits  : Nat
  flags : FFlags
deriving DecidableEq, Repr

namespace Fmt

def sign (f : Fmt) (neg : Bool) : Nat := if neg then 2 ^ (f.eb + f.fb) else 0

/-- The encoding of ± t quanta of 2^q that is representable. -/
def encFin (f : Fmt) (neg : Bool) (t : Nat) (q : Int) : Nat :=
  if t = 0 then f.sign neg
  else if t < 2 ^ f.fb then f.sign neg + t
  else
    let sh := Nat.log2 t - f.fb
    f.sign neg + (q + sh + f.fb + f.bias).toNat * 2 ^ f.fb + (t / 2 ^ sh - 2 ^ f.fb)

/-- ± the largest finite value. -/
def encMax (f : Fmt) (neg : Bool) : Nat :=
  f.sign neg + ((f.maxE + f.fb + f.bias).toNat * 2 ^ f.fb + (f.maxM - 2 ^ f.fb))

/-- ±∞, or what stands for it in a format without one (R152). -/
def encInf (f : Fmt) (neg : Bool) : Nat :=
  if f.inf then f.sign neg + (2 ^ f.eb - 1) * 2 ^ f.fb
  else if f.hasNan then f.sign neg + f.nan
  else f.encMax neg

/-- The overflow table of R152. -/
def overflow (f : Fmt) (mode : Rnd) (neg : Bool) : Nat :=
  match mode with
  | .rne => f.encInf neg
  | .rna => f.encInf neg
  | .rtz => f.encMax neg
  | .rup => if neg then f.encMax neg else f.encInf neg
  | .rdn => if neg then f.encInf neg else f.encMax neg
  | .sr => f.encInf neg

/-- Round(SatF(x)) for ± (m + tail) · 2^e (R67, R152, R156). -/
def roundFin (f : Fmt) (mode : Rnd) (sat : Sat) (rnd : Nat) (neg : Bool) (m : Nat) (e : Int) (sticky : Bool) : FRes :=
  let big := FVal.cmpMag m e f.maxM f.maxE
  if sat == .satf && (big == .gt || (big == .eq && sticky)) then { bits := f.encMax neg, flags := flSA }
  else
    let tp := FVal.top m e
    let q := max tp f.emin - f.fb
    let (t, inexact) := quantize mode rnd neg m e q sticky
    if t != 0 && FVal.cmpMag t q f.maxM f.maxE == .gt then
      { bits := f.overflow mode neg, flags := flOF ||| flNX }
    else
      { bits := f.encFin neg t q,
        flags := if inexact then (if tp < f.emin then flNX ||| flUF else flNX) else 0 }

/-- Enc(f, Round(SatF(x, f, sat), f, mode, rnd)) of an exact value (R67, R150, R152). -/
def round (f : Fmt) (mode : Rnd) (sat : Sat) (rnd : Nat) (x : FVal) : FRes :=
  match x with
  | .nan => if f.hasNan then { bits := f.nan, flags := 0 } else { bits := 0, flags := flNV }
  | .inf n =>
    if sat == .satf then { bits := f.encMax n, flags := flSA }
    else if f.inf then { bits := f.encInf n, flags := 0 }
    else { bits := f.overflow mode n, flags := flOF ||| flNX }
  | .zero n => { bits := f.sign n, flags := 0 }
  | .fin n m e => f.roundFin mode sat rnd n m e false

end Fmt

/-! Functions whose value is not dyadic (R164): the leading bits, with a tail. -/

/-- ⌊√n⌋ by bits, the highest 2^k first. -/
def isqrt (n : Nat) : Nat → Nat → Nat
  | 0, r => r
  | k + 1, r => if (r + 2 ^ k) * (r + 2 ^ k) ≤ n then isqrt n k (r + 2 ^ k) else isqrt n k r

def sqrtNat (n : Nat) : Nat := isqrt n (Nat.log2 n / 2 + 1) 0

/-- The working precision of the fixed-point series, in bits (log 13). -/
def prec : Nat := 256

/-- Σ z^(2k+1) / (2k+1) for 0 ≤ k < n, with z = y / 2^prec and y² / 2^prec = y2. -/
def atanhSum (y2 : Nat) : Nat → Nat → Nat → Nat → Nat
  | 0, _, _, acc => acc
  | n + 1, k, term, acc => atanhSum y2 n (k + 1) (term * y2 / 2 ^ prec) (acc + term / (2 * k + 1))

/-- ln x for x = y / 2^prec in [1, 2], in units of 2^-prec. -/
def lnFix (y : Nat) : Nat :=
  let z := (y - 2 ^ prec) * 2 ^ prec / (y + 2 ^ prec)
  2 * atanhSum (z * z / 2 ^ prec) 90 0 z 0

/-- ln 2 in units of 2^-prec. -/
def ln2Fix : Nat := lnFix (2 * 2 ^ prec)

/-- Σ y^k / k! for k below n, in units of 2^-prec. -/
def expSum (y : Nat) : Nat → Nat → Nat → Nat → Nat
  | 0, _, _, acc => acc
  | n + 1, k, term, acc => expSum y n (k + 1) (term * y / 2 ^ prec / (k + 1)) (acc + term)

/-- 2^f for f = y / 2^prec in [0, 1), in units of 2^-prec. -/
def exp2Fix (y : Nat) : Nat := expSum (y * ln2Fix / 2 ^ prec) 70 0 (2 ^ prec) 0

/-- A value with a tail: sign, leading bits, exponent, whether a tail follows. -/
structure Approx where
  neg : Bool
  m   : Nat
  e   : Int
  tail : Bool
deriving DecidableEq, Repr

/-- 1 / (m · 2^e). -/
def recipFin (neg : Bool) (m : Nat) (e : Int) : Approx :=
  let k := Nat.log2 m + 100
  { neg := neg, m := 2 ^ k / m, e := -(k : Int) - e, tail := 2 ^ k % m != 0 }

/-- √(m · 2^e). -/
def sqrtFin (m : Nat) (e : Int) : Approx :=
  let m1 := if e % 2 = 0 then m * 2 ^ 160 else m * 2 ^ 161
  let e1 := if e % 2 = 0 then e - 160 else e - 161
  let r := sqrtNat m1
  { neg := false, m := r, e := e1 / 2, tail := r * r != m1 }

/-- 1 / √(m · 2^e). -/
def rsqrtFin (m : Nat) (e : Int) : Approx :=
  let m1 := if e % 2 = 0 then m else 2 * m
  let e1 := if e % 2 = 0 then e else e - 1
  let k := 2 * (Nat.log2 m1 + 100)
  let r := sqrtNat (2 ^ k / m1)
  { neg := false, m := r, e := -((k : Int) / 2) - e1 / 2, tail := r * r * m1 != 2 ^ k }

/-- 2^x for x = ± m · 2^e, which is exact for an integer x and irrational for every other. -/
def exp2Fin (neg : Bool) (m : Nat) (e : Int) : Approx :=
  -- far beyond every format: only the size matters
  if 40 < FVal.top m e then { neg := false, m := 1, e := if neg then -(2 ^ 40) else 2 ^ 40, tail := false }
  else
    let fx : Int := if 0 ≤ e then (m * 2 ^ e.toNat * 2 ^ prec : Nat)
      else if e.natAbs ≤ prec then (m * 2 ^ (prec - e.natAbs) : Nat) else (m * 2 ^ prec / 2 ^ e.natAbs : Nat)
    let x : Int := if neg then -fx else fx
    let n := x / (2 ^ prec : Int)
    let f := (x % (2 ^ prec : Int)).toNat
    if f = 0 then { neg := false, m := 2 ^ 60, e := n - 60, tail := !(0 ≤ e || (m % 2 ^ e.natAbs == 0)) }
    else { neg := false, m := exp2Fix f, e := n - prec, tail := true }

/-- log₂ (m · 2^e) for m · 2^e ≠ 1; exact for a power of two and irrational otherwise. -/
def log2Fin (m : Nat) (e : Int) : Approx :=
  let t := FVal.top m e
  if m = 2 ^ Nat.log2 m then { neg := t < 0, m := t.natAbs, e := 0, tail := false }
  else
    let y := m * 2 ^ prec / 2 ^ Nat.log2 m
    let fx : Int := t * (2 ^ prec : Int) + (lnFix y * 2 ^ prec / ln2Fix : Nat)
    { neg := fx < 0, m := fx.natAbs, e := -(prec : Int), tail := true }

/-- tanh (± m · 2^e), m ≠ 0. Below 2^-20 the value lies just under the operand, and from 16 up just under 1. -/
def tanhFin (neg : Bool) (m : Nat) (e : Int) : Approx :=
  let t := FVal.top m e
  if t < -20 then { neg := neg, m := m * 2 ^ 80 - 1, e := e - 80, tail := true }
  else if 4 ≤ t then { neg := neg, m := 2 ^ 80 - 1, e := -80, tail := true }
  else
    -- exp (2x) = 2^(2x / ln 2)
    let fx : Nat := if 0 ≤ e then m * 2 ^ e.toNat * 2 ^ prec else m * 2 ^ prec / 2 ^ e.natAbs
    let y := 2 * fx * 2 ^ prec / ln2Fix
    let ex := exp2Fix (y % 2 ^ prec) * 2 ^ (y / 2 ^ prec)
    { neg := neg, m := (ex - 2 ^ prec) * 2 ^ prec / (ex + 2 ^ prec), e := -(prec : Int), tail := true }

/-- Enc(F32, Round(SatF(x))) of such a value. -/
def Approx.round (a : Approx) (mode : Rnd) (sat : Sat) : FRes :=
  if a.m = 0 then { bits := Fmt.f32.sign a.neg, flags := 0 } else Fmt.f32.roundFin mode sat 0 a.neg a.m a.e a.tail

/-! Integers from values (R168). -/

/-- ⌊|x|⌋ as an integer number of units, rounded under a mode: |x| = m · 2^e. -/
def roundInt (mode : Rnd) (rnd : Nat) (neg : Bool) (m : Nat) (e : Int) : Int × Bool :=
  if 200 < FVal.top m e then ((if neg then -(2 ^ 200) else 2 ^ 200), false)
  else
    let (t, inexact) := quantize mode rnd neg m e 0 false
    ((if neg then -(t : Int) else (t : Int)), inexact)

/-! The random generator (R154). -/

/-- Mix64 (R154). -/
def mix64 (z : Nat) : Nat :=
  let z1 := ((z ^^^ (z / 2 ^ 30)) * 0xBF58476D1CE4E5B9) % 2 ^ 64
  let z2 := ((z1 ^^^ (z1 / 2 ^ 27)) * 0x94D049BB133111EB) % 2 ^ 64
  z2 ^^^ (z2 / 2 ^ 31)

end Sys2Proof.Machine
end

