-- ==== Sys2Proof/Machine/Forms.lean ====
section
/-! DEFINITION. The form table: what each instruction's fields hold, which prefixes, executors and roles it accepts
(R41 to R46, R60 to R64, R72 to R80, R129 to R131, R159, R160, R187, R188, R224, R237, R273, R274, R299, R302, R325,
R373, R406), and the opcode values (R70 to R75). -/

namespace Sys2Proof

/-- The operand levels a field accepts (R43). -/
structure Lv where
  q   : Bool
  o   : Bool
  v   : Bool
  s   : Bool
  imm : Bool
  vo  : Bool
deriving DecidableEq, Repr

namespace Lv
def any : Lv := ⟨true, true, true, true, true, true⟩
def noImm : Lv := ⟨true, true, true, true, false, true⟩
def sImm : Lv := ⟨false, false, false, true, true, false⟩
def sOnly : Lv := ⟨false, false, false, true, false, false⟩
def immOnly : Lv := ⟨false, false, false, false, true, false⟩
/-- A destination at every level (R44); `noS` leaves S out. -/
def dst : Lv := ⟨true, true, true, true, false, true⟩
def dstNoS : Lv := ⟨true, true, true, false, false, true⟩
def dstQS : Lv := ⟨true, false, false, true, false, false⟩
def vOnly : Lv := ⟨false, false, true, false, false, false⟩
def ovLink : Lv := ⟨true, true, true, false, false, false⟩
def atcasD : Lv := ⟨false, true, true, true, false, true⟩
def spAddr : Lv := ⟨false, true, true, true, true, true⟩
end Lv

/-- What a 12-bit operand field holds. -/
inductive Fld where
  | zero                       -- unused: all zeros (R42)
  | val  (l : Lv) (w : Wd)     -- an operand of w bits at one of the levels l
  | tile                       -- a tile handle at the immediate level (R273)
  | tileOpt                    -- a tile handle, or 0x000 for none (R325)
  | mgtOnly (w : Wd)           -- S or immediate on a management core, else zero (R302, R406)
  | base (l : Lv)              -- names the first register of a group; the entry checks the group
  | sbase (m : Nat)            -- an S register whose index is a multiple of m
  | smax (n : Nat)             -- an S destination with index at most n (the first of a group)
deriving DecidableEq, Repr

/-- What the 8-bit source C holds. -/
inductive CFld where
  | zero
  | val (l : Lv) (w : Wd)
  | policy                     -- S or 0x00 (R188)
  | pred                       -- a predicate selector (R77)
  | fmt                        -- a format pair (R77)
  | tile                       -- [3:0] a tile, [7:4] zero (R273)
  | sbase (m : Nat)            -- an S register whose index is a multiple of m
  | mode                       -- the selector of MRESC (R315)
deriving DecidableEq, Repr

/-- What an accepted arithmetic prefix may carry (R60, R131, R160, R188, R274). -/
structure ArAcc where
  rnds : List Rnd
  sats : List Sat
  neg  : BitVec 6
deriving DecidableEq, Repr

/-- The executors of R79. -/
structure ExSet where
  str : Bool
  bob : Bool
  mgt : Bool
  pkg : Bool
deriving DecidableEq, Repr

namespace ExSet
def all : ExSet := ⟨true, true, true, true⟩
def str' : ExSet := ⟨true, false, false, false⟩
def bob' : ExSet := ⟨false, true, false, false⟩
def sb : ExSet := ⟨true, true, false, false⟩
def sbm : ExSet := ⟨true, true, true, false⟩
def mp : ExSet := ⟨false, false, true, true⟩
def m : ExSet := ⟨false, false, true, false⟩
end ExSet

/-- The strand roles that may issue a form (R299): general, producer, matrix-issue, normaliser. -/
structure RoleSet where
  gen  : Bool
  prod : Bool
  mtx  : Bool
  norm : Bool
deriving DecidableEq, Repr

def RoleSet.all : RoleSet := ⟨true, true, true, true⟩
def RoleSet.kv : RoleSet := ⟨true, true, false, false⟩
def RoleSet.mloop : RoleSet := ⟨true, false, true, false⟩
def RoleSet.mrow : RoleSet := ⟨true, false, false, true⟩
def RoleSet.mstt : RoleSet := ⟨true, false, true, true⟩

/-- One form's description. -/
structure Spec where
  d    : Fld
  a    : Fld
  b    : Fld
  c    : CFld
  ar   : Option ArAcc := none
  long : Bool := false         -- long-latency: lookahead may be nonzero (R78)
  ex   : ExSet := ExSet.all
  role : RoleSet := RoleSet.all
deriving DecidableEq, Repr

def ITy.wd : ITy → Wd
  | .s32 => .w32 | .n32 => .w32 | .s64 => .w64 | .n64 => .w64
def ITy.signed : ITy → Bool
  | .s32 => true | .n32 => false | .s64 => true | .n64 => false
def FTy.wd : FTy → Wd
  | .f64 => .w64 | .f32 => .w32 | .f16 => .w32 | .bf16 => .w32
def FTy3.ty : FTy3 → FTy
  | .f32 => .f32 | .f16 => .f16 | .bf16 => .bf16
def Wd.n : Wd → Nat
  | .w32 => 32 | .w64 => 64
def LdW.wd : LdW → Wd
  | .b64 => .w64 | .n8 => .w32 | .s8 => .w32 | .n16 => .w32 | .s16 => .w32 | .b32 => .w32
def LdW.bytes : LdW → Nat
  | .n8 => 1 | .s8 => 1 | .n16 => 2 | .s16 => 2 | .b32 => 4 | .b64 => 8
def StW.wd : StW → Wd
  | .b64 => .w64 | .b8 => .w32 | .b16 => .w32 | .b32 => .w32
def StW.bytes : StW → Nat
  | .b8 => 1 | .b16 => 2 | .b32 => 4 | .b64 => 8
def RedOp.wd : RedOp → Wd
  | .addN64 => .w64
  | .addN32 => .w32 | .addF32 => .w32 | .addBF16 => .w32 | .addF16 => .w32 | .addOrdF32 => .w32 | .addOrdBF16 => .w32
  | .minS32 => .w32 | .maxS32 => .w32 | .minF32 => .w32 | .maxF32 => .w32
def RedOp.ord : RedOp → Bool
  | .addOrdF32 => true | .addOrdBF16 => true
  | .addN32 => false | .addN64 => false | .addF32 => false | .addBF16 => false | .addF16 => false
  | .minS32 => false | .maxS32 => false | .minF32 => false | .maxF32 => false
/-- The plain and ordered float additions, which take an arithmetic prefix (R188). -/
def RedOp.floatAdd : RedOp → Bool
  | .addF32 => true | .addBF16 => true | .addF16 => true | .addOrdF32 => true | .addOrdBF16 => true
  | .addN32 => false | .addN64 => false | .minS32 => false | .maxS32 => false | .minF32 => false | .maxF32 => false
/-- Address width of a space (R174). -/
def Space.aw : Space → Wd
  | .g => .w64 | .sp => .w32 | .sw => .w32 | .spool => .w32
def Space.ex : Space → ExSet
  | .g => ExSet.all | .spool => ExSet.all | .sp => ExSet.sb | .sw => ExSet.sb

def allRnd : List Rnd := [.rne, .rtz, .rup, .rdn, .rna, .sr]
def detRnd : List Rnd := [.rne, .rtz, .rup, .rdn, .rna]

namespace ArAcc
/-- IADD, ISUB, IMUL, IMAD, IABS (R131). -/
def sati : ArAcc := ⟨[.rne], [.none, .sati], 0⟩
/-- FADD to DOT2 (R160), with the NEGABS bits of the sources used. -/
def full (n : BitVec 6) : ArAcc := ⟨allRnd, [.none, .satf], n⟩
def cmp (n : BitVec 6) : ArAcc := ⟨[.rne], [.none], n⟩
def recip : ArAcc := ⟨detRnd, [.none, .satf], 0x03⟩
def trans : ArAcc := ⟨[.rne], [.none, .satf], 0x03⟩
def cvtF : ArAcc := ⟨allRnd, [.none, .satf], 0⟩
def cvtI : ArAcc := ⟨allRnd, [.none, .sati], 0⟩
def plain : ArAcc := ⟨[.rne], [.none], 0⟩
def red : ArAcc := ⟨[.rne, .sr], [.none, .satf], 0x0C⟩
def maddt : ArAcc := ⟨detRnd, [.none, .satf], 0⟩
end ArAcc

/-- The short instruction's fields laid out as its long twin's (R71): the destination is queue-only. Source C names
P7 in ISET and FSET, so no predicate is written. -/
def SArgs.args (x : SArgs) (c : Opnd) : Args :=
  { g := x.g, look := 0, d := .q 0, a := x.a, b := x.b, c := c, ar := x.ar, mp := .none }

/-- The format pair of CVT, PACK, RND, UNPK, MXSC: destination [7:4], source [3:0] (R77). -/
def fmtDst (c : Opnd) : Nat := match c with | .sel r => r.toNat / 16 | _ => 0
def fmtSrc (c : Opnd) : Nat := match c with | .sel r => r.toNat % 16 | _ => 0

/-- Format codes 0x0 to 0x6 are the float formats of CVT, 0x8 to 0xF the integer formats (R77). -/
def isFloatCode (n : Nat) : Bool := n < 7
def isIntCode (n : Nat) : Bool := 8 ≤ n && n < 16

/-- Pairs CVT accepts (R167). -/
def cvtPairOk (dst src : Nat) : Bool :=
  (isFloatCode src && ((isFloatCode dst && dst != src) || isIntCode dst)) ||
  (isIntCode src && (isFloatCode dst || (isIntCode dst && dst != src))) ||
  (src == 0 && dst == 7) || (src == 7 && dst == 0)

/-- Pairs PACK accepts (R169). -/
def packPairOk (dst src : Nat) : Bool :=
  (src == 0 && (dst == 1 || dst == 2 || dst == 4 || dst == 5 || dst == 6)) ||
  ((src == 0 || src == 0xB || src == 0xF) && (dst == 0x8 || dst == 0x9 || dst == 0xA || dst == 0xD || dst == 0xE))

/-- Pairs UNPK accepts (R170). -/
def unpkPairOk (dst src : Nat) : Bool :=
  (dst == 0 && (src == 1 || src == 2 || src == 4 || src == 5 || src == 6)) ||
  (dst == 0xB && (src == 0x8 || src == 0x9 || src == 0xA)) ||
  (dst == 0xF && (src == 0xD || src == 0xE))

/-- Pairs RND accepts: the target is the destination format (R171). -/
def rndPairOk (tgt src : Nat) : Bool :=
  (src == 3 && (tgt == 0 || tgt == 1 || tgt == 2 || tgt == 4 || tgt == 5 || tgt == 6)) ||
  (src == 0 && (tgt == 1 || tgt == 2 || tgt == 4 || tgt == 5 || tgt == 6)) ||
  ((src == 1 || src == 2) && (tgt == 4 || tgt == 5 || tgt == 6))

/-- Pairs MXSC accepts (R172). -/
def mxscPairOk (elem src : Nat) : Bool :=
  (src == 0 || src == 1 || src == 2) && (elem == 4 || elem == 5 || elem == 6)

/-- Pairs MCVT accepts: (fmt, F32) (R283). -/
def mcvtPairOk (dst src : Nat) : Bool :=
  src == 0 && (dst == 1 || dst == 2 || dst == 4 || dst == 5 || dst == 6)

/-- Width of a format code's operand: F64 and S64 take two locations (R148). -/
def fmtWd (n : Nat) : Wd := if n == 3 || n == 0xC then .w64 else .w32

def Spec.arith2 (w : Wd) (ar : Option ArAcc) : Spec :=
  { d := .val Lv.dst w, a := .val Lv.any w, b := .val Lv.any w, c := .zero, ar := ar }

def Spec.unary (dw w : Wd) (ar : Option ArAcc) : Spec :=
  { d := .val Lv.dst dw, a := .val Lv.any w, b := .zero, c := .zero, ar := ar }

def Spec.shift (w : Wd) : Spec :=
  { d := .val Lv.dst w, a := .val Lv.any w, b := .val Lv.any .w32, c := .zero }

def Spec.flt2 (w : Wd) (ar : ArAcc) : Spec :=
  { d := .val Lv.dstNoS w, a := .val Lv.any w, b := .val Lv.any w, c := .zero, ar := some ar, ex := ExSet.str' }

def Spec.trans (ar : ArAcc) : Spec :=
  { d := .val Lv.dstNoS .w32, a := .val Lv.any .w32, b := .zero, c := .zero, ar := some ar, long := true, ex := ExSet.str' }

def Spec.none : Spec := { d := .zero, a := .zero, b := .zero, c := .zero }

/-- A copy, with its descriptor base in source C (R237). -/
def Spec.copy : Spec :=
  { d := .zero, a := .val Lv.sImm .w32, b := .val Lv.sImm .w32, c := .sbase 16, long := true, ex := ExSet.sb }

/-- Two S-or-immediate sources and no destination. -/
def Spec.two (wa wb : Wd) (long : Bool) (ex : ExSet) : Spec :=
  { d := .zero, a := .val Lv.sImm wa, b := .val Lv.sImm wb, c := .zero, long := long, ex := ex }

/-- The description of each instruction form; none for a step. -/
def Instr.spec : Instr → Option Spec
  | .nopShort _ => some Spec.none
  | .iadd32S _ => some (Spec.arith2 .w32 (some ArAcc.sati))
  | .isub32S _ => some (Spec.arith2 .w32 (some ArAcc.sati))
  | .imul32S _ => some (Spec.arith2 .w32 (some ArAcc.sati))
  | .iminS32S _ => some (Spec.arith2 .w32 none)
  | .imaxS32S _ => some (Spec.arith2 .w32 none)
  | .and32S _ => some (Spec.arith2 .w32 none)
  | .or32S _ => some (Spec.arith2 .w32 none)
  | .xor32S _ => some (Spec.arith2 .w32 none)
  | .shl32S _ => some (Spec.shift .w32)
  | .shr32S _ => some (Spec.shift .w32)
  | .sar32S _ => some (Spec.shift .w32)
  | .mov32S _ => some (Spec.unary .w32 .w32 none)
  | .iadd64S _ => some (Spec.arith2 .w64 (some ArAcc.sati))
  | .popc32S _ => some (Spec.unary .w32 .w32 none)
  | .isetEq32S _ => some { Spec.arith2 .w32 none with c := .pred }
  | .isetLtS32S _ => some { Spec.arith2 .w32 none with c := .pred }
  | .isetLtN32S _ => some { Spec.arith2 .w32 none with c := .pred }
  | .faddF32S _ => some (Spec.flt2 .w32 (ArAcc.full 0x0F))
  | .fmulF32S _ => some (Spec.flt2 .w32 (ArAcc.full 0x0F))
  | .fminF32S _ => some (Spec.flt2 .w32 (ArAcc.cmp 0x0F))
  | .fmaxF32S _ => some (Spec.flt2 .w32 (ArAcc.cmp 0x0F))
  | .fsetLtF32S _ => some { Spec.flt2 .w32 (ArAcc.cmp 0x0F) with c := .pred }
  | .fsetEqF32S _ => some { Spec.flt2 .w32 (ArAcc.cmp 0x0F) with c := .pred }
  | .faddBF16S _ => some (Spec.flt2 .w32 (ArAcc.full 0x0F))
  | .fmulBF16S _ => some (Spec.flt2 .w32 (ArAcc.full 0x0F))
  | .cvtBF16F32S _ => some { Spec.unary .w32 .w32 (some ArAcc.cvtF) with d := .val Lv.dstNoS .w32, c := .fmt, ex := ExSet.str' }
  | .cvtF32BF16S _ => some { Spec.unary .w32 .w32 (some ArAcc.cvtF) with d := .val Lv.dstNoS .w32, c := .fmt, ex := ExSet.str' }
  | .nop _ => some Spec.none
  | .bra _ => some { Spec.none with a := .val Lv.immOnly .w64 }
  | .brc _ => some { Spec.none with a := .val Lv.immOnly .w64, b := .val Lv.any .w32 }
  | .brx _ => some { Spec.none with a := .val Lv.noImm .w64, ex := ExSet.str' }
  | .brsp _ => some { Spec.none with a := .val Lv.immOnly .w64, b := .val Lv.any .w32, ex := ExSet.str' }
  | .call _ => some { Spec.none with d := .val Lv.ovLink .w64, a := .val Lv.immOnly .w64 }
  | .ret _ => some Spec.none
  | .retr _ => some { Spec.none with a := .val Lv.noImm .w64, ex := ExSet.str' }
  | .join _ => some { Spec.none with ex := ExSet.str' }
  | .exit _ => some { Spec.none with ex := ExSet.sb }
  | .loop _ => some { Spec.none with d := .val Lv.sOnly .w64, a := .val Lv.immOnly .w64 }
  | .walk _ => some { Spec.none with a := .val Lv.sOnly .w64, ex := ExSet.bob' }
  | .wnext _ => some { Spec.none with d := .val Lv.sOnly .w64, a := .val Lv.immOnly .w64, ex := ExSet.bob' }
  | .dqpush _ => some { Spec.none with a := .val Lv.sImm .w64, b := .val Lv.sImm .w64, ex := ExSet.bob' }
  | .dqbr _ => some { Spec.none with a := .val Lv.immOnly .w64, ex := ExSet.str' }
  | .iadd w _ => some (Spec.arith2 w (some ArAcc.sati))
  | .isub w _ => some (Spec.arith2 w (some ArAcc.sati))
  | .imul w _ => some (Spec.arith2 w (some ArAcc.sati))
  | .imulh t _ => some (Spec.arith2 t.wd none)
  | .imad w _ => some { Spec.arith2 w (some ArAcc.sati) with c := .val Lv.any w }
  | .imin t _ => some (Spec.arith2 t.wd none)
  | .imax t _ => some (Spec.arith2 t.wd none)
  | .iabs w _ => some (Spec.unary w w (some ArAcc.sati))
  | .and w _ => some (Spec.arith2 w none)
  | .or w _ => some (Spec.arith2 w none)
  | .xor w _ => some (Spec.arith2 w none)
  | .not w _ => some (Spec.unary w w none)
  | .shl w _ => some (Spec.shift w)
  | .shr w _ => some (Spec.shift w)
  | .sar w _ => some (Spec.shift w)
  | .rot w _ => some (Spec.shift w)
  | .bfx t _ => some (Spec.shift t.wd)
  | .bfi w _ => some { Spec.arith2 w none with c := .val Lv.any .w32 }
  | .popc w _ => some (Spec.unary .w32 w none)
  | .clz w _ => some (Spec.unary .w32 w none)
  | .ctz w _ => some (Spec.unary .w32 w none)
  | .brev w _ => some (Spec.unary w w none)
  | .bperm w _ => some { Spec.arith2 w none with d := .val Lv.dstNoS w, c := .val Lv.any w, ex := ExSet.str' }
  | .clmul w _ => some (Spec.arith2 w none)
  | .clmulh w _ => some (Spec.arith2 w none)
  | .sel w _ => some { Spec.arith2 w none with d := .val Lv.dstNoS w, c := .pred, ex := ExSet.str' }
  | .mov w _ => some (Spec.unary w w none)
  | .movi w _ => some { Spec.unary w w none with a := .val Lv.immOnly .w64, b := .val Lv.immOnly .w64 }
  | .lea w _ => some { Spec.shift w with c := .val Lv.any .w32 }
  | .iset _ t _ => some { d := .val Lv.dst .w32, a := .val Lv.any t.wd, b := .val Lv.any t.wd, c := .pred }
  | .plop _ => some { d := .val Lv.dstNoS .w32, a := .val Lv.immOnly .w32, b := .val Lv.immOnly .w32, c := .pred, ex := ExSet.str' }
  | .qxch _ _ => some { Spec.unary .w32 .w32 none with d := .val Lv.dstNoS .w32, ex := ExSet.str' }
  | .qbc _ _ => some { Spec.unary .w32 .w32 none with d := .val Lv.dstNoS .w32, ex := ExSet.str' }
  | .shfl _ _ => some { Spec.arith2 .w32 none with d := .val Lv.dstNoS .w32, ex := ExSet.str' }
  | .vote _ _ => some { Spec.unary .w32 .w32 none with c := .pred, ex := ExSet.str' }
  | .fadd f _ => some (Spec.flt2 f.wd (ArAcc.full 0x0F))
  | .fmul f _ => some (Spec.flt2 f.wd (ArAcc.full 0x0F))
  | .ffma f _ => some { Spec.flt2 f.wd (ArAcc.full 0x3F) with c := .val Lv.any f.wd }
  | .fscale _ _ => some (Spec.flt2 .w32 (ArAcc.full 0x0F))
  | .fmin _ _ => some (Spec.flt2 .w32 (ArAcc.cmp 0x0F))
  | .fmax _ _ => some (Spec.flt2 .w32 (ArAcc.cmp 0x0F))
  | .fset _ _ _ => some { Spec.flt2 .w32 (ArAcc.cmp 0x0F) with c := .pred }
  | .frcp _ => some (Spec.trans ArAcc.recip)
  | .frsq _ => some (Spec.trans ArAcc.recip)
  | .fsqrt _ => some (Spec.trans ArAcc.recip)
  | .fexp2 _ => some (Spec.trans ArAcc.trans)
  | .flog2 _ => some (Spec.trans ArAcc.trans)
  | .ftanh _ => some (Spec.trans ArAcc.trans)
  | .fclass _ _ => some { Spec.unary .w32 .w32 (some (ArAcc.cmp 0x03)) with d := .val Lv.dstNoS .w32, ex := ExSet.str' }
  | .hfma2 _ _ => some { Spec.flt2 .w32 (ArAcc.full 0x3F) with a := .val Lv.noImm .w32, b := .val Lv.noImm .w32,
                                                               c := .val Lv.noImm .w32 }
  | .dot2 _ _ => some { Spec.flt2 .w32 (ArAcc.full 0x3F) with a := .val Lv.noImm .w32, b := .val Lv.noImm .w32,
                                                              c := .val Lv.any .w32 }
  | .cvt x => some { d := .val Lv.dstNoS (fmtWd (fmtDst x.c)), a := .val Lv.any (fmtWd (fmtSrc x.c)), b := .zero, c := .fmt,
                     ar := some (if fmtDst x.c == 7 || fmtSrc x.c == 7 then ArAcc.plain
                                 else if isIntCode (fmtDst x.c) then ArAcc.cvtI else ArAcc.cvtF), ex := ExSet.str' }
  | .pack x => some { d := .val Lv.dstNoS .w32, a := .val Lv.any .w32, b := .val Lv.any .w32, c := .fmt,
                      ar := some (if isIntCode (fmtDst x.c) then ArAcc.cvtI else ArAcc.cvtF), ex := ExSet.str' }
  -- DESIGN CHOICE: UNPK's packed word is no immediate, as R159 says of packed operands of two elements (log 77)
  | .unpk _ => some { d := .val Lv.dstNoS .w32, a := .val Lv.noImm .w32, b := .val Lv.sImm .w32, c := .fmt,
                      ar := some ArAcc.plain, ex := ExSet.str' }
  | .rnd x => some { d := .val Lv.dstNoS (fmtWd (fmtSrc x.c)), a := .val Lv.any (fmtWd (fmtSrc x.c)), b := .zero, c := .fmt,
                     ar := some ArAcc.cvtF, ex := ExSet.str' }
  | .mxsc _ => some { d := .val Lv.dstNoS .w32, a := .val Lv.any .w32, b := .zero, c := .fmt,
                      ar := some ArAcc.plain, ex := ExSet.str' }
  | .ld space w _ => some { d := .val Lv.dst w.wd, a := .val Lv.any space.aw, b := .zero, c := .policy, long := true, ex := space.ex }
  | .st space w _ => some { d := .zero, a := .val Lv.any space.aw, b := .val Lv.any w.wd, c := .policy, long := true, ex := space.ex }
  | .atom _ w _ => some { d := .val Lv.dst w, a := .val Lv.any .w64, b := .val Lv.any w, c := .policy, long := true }
  | .atcas w _ => some { d := .val Lv.atcasD w, a := .val Lv.any .w64, b := .val Lv.any w, c := .policy, long := true }
  | .red op _ => some { d := .zero, a := .val Lv.any .w64, b := .val Lv.any op.wd,
                        c := if op.ord then .val Lv.any .w32 else .policy,
                        ar := if op.floatAdd then some ArAcc.red else none, long := true }
  | .ldt _ => some { d := .val Lv.dst .w32, a := .val Lv.any .w64, b := .val Lv.sImm .w32, c := .policy, long := true, ex := ExSet.sb }
  | .btset _ => some { d := .zero, a := .val Lv.sImm .w32, b := .val Lv.sOnly .w64, c := .zero, long := true }
  | .ldfe _ => some { d := .val Lv.dst .w32, a := .val Lv.any .w32, b := .zero, c := .zero, long := true, ex := ExSet.sb }
  | .stfe _ => some { d := .zero, a := .val Lv.any .w32, b := .val Lv.any .w32, c := .zero, long := true, ex := ExSet.sb }
  | .pref _ => some { d := .zero, a := .val Lv.any .w64, b := .zero, c := .policy, long := true }
  | .sprq _ => some { d := .val Lv.dst .w32, a := .val Lv.any .w32, b := .zero, c := .zero, long := true }
  | .pgq _ => some { d := .val Lv.dst .w32, a := .val Lv.any .w64, b := .zero, c := .zero, long := true }
  | .cinv _ => some (Spec.two .w64 .w64 true ExSet.all)
  | .cflush _ => some (Spec.two .w64 .w64 true ExSet.all)
  | .fence _ => some { Spec.none with c := .policy }
  | .drain _ => some Spec.none
  | .wfence _ => some Spec.none
  | .scts _ => some { Spec.none with d := .val Lv.sOnly .w64 }
  | .cpy _ => some Spec.copy
  | .cpyg _ => some Spec.copy
  | .cpym _ => some Spec.copy
  | .kninit _ => some (Spec.two .w32 .w64 true ExSet.sb)
  | .knarr _ => some (Spec.two .w32 .w64 true ExSet.sb)
  | .knexp _ => some (Spec.two .w32 .w64 true ExSet.sb)
  | .knexpTile _ => some (Spec.two .w32 .w64 true ExSet.sb)
  | .knwait _ => some (Spec.two .w32 .w64 true ExSet.sb)
  | .kntry _ => some { Spec.two .w32 .w64 true ExSet.sb with d := .val Lv.dst .w32 }
  | .bar _ => some (Spec.two .w64 .w64 true ExSet.str')
  | .sbar _ => some (Spec.two .w64 .w64 true ExSet.str')
  | .rsq _ => some { Spec.none with d := .val Lv.sOnly .w64, a := .val Lv.sImm .w64, long := true, ex := ExSet.sb }
  | .rsclr _ => some { Spec.none with a := .val Lv.sImm .w64, long := true, ex := ExSet.sb }
  | .mloop _ _ _ => some { d := .zero, a := .base Lv.vOnly, b := .base Lv.sOnly, c := .tile, long := true, ex := ExSet.sb,
                           role := RoleSet.mloop }
  | .mzero _ => some { Spec.none with a := .val Lv.sImm .w64, long := true, ex := ExSet.sb, role := RoleSet.mloop }
  | .mldt _ => some { Spec.two .w32 .w64 true ExSet.sb with c := .tile, role := RoleSet.mloop }
  | .mstt bf _ => some { Spec.two .w32 .w64 true ExSet.sb with
                           c := .tile, role := RoleSet.mstt, ar := if bf then some ArAcc.cvtF else none }
  | .mwait _ => some { Spec.none with a := .val Lv.sImm .w64, long := true, ex := ExSet.sb, role := RoleSet.mstt }
  | .ofence _ => some { Spec.none with long := true, ex := ExSet.sb, role := RoleSet.mloop }
  | .mspc _ => some { Spec.none with a := .base Lv.sOnly, long := true, ex := ExSet.sb, role := RoleSet.mloop }
  | .mcvt _ => some { d := .zero, a := .tile, b := .tile, c := .fmt, ar := some ArAcc.cvtF, long := true, ex := ExSet.sb,
                      role := RoleSet.mloop }
  | .maddt _ => some { d := .zero, a := .tile, b := .tile, c := .zero, ar := some ArAcc.maddt, long := true, ex := ExSet.sb,
                       role := RoleSet.mloop }
  | .kvmap _ => some { Spec.none with a := .val Lv.sOnly .w64, b := .mgtOnly .w64, ex := ExSet.sbm }
  | .kvld _ => some { d := .val Lv.dstNoS .w32, a := .val Lv.noImm .w64, b := .val Lv.spAddr .w32, c := .val Lv.sOnly .w64,
                      long := true, ex := ExSet.str', role := RoleSet.kv }
  | .kvapp _ => some { d := .val Lv.dstNoS .w32, a := .val Lv.noImm .w64, b := .val Lv.spAddr .w32, c := .zero,
                       ex := ExSet.str', role := RoleSet.kv }
  | .kvseal _ => some { Spec.none with d := .val Lv.sOnly .w64, a := .val Lv.sOnly .w64, ex := ExSet.sbm }
  | .kvfork _ => some { Spec.none with d := .val Lv.sOnly .w64, a := .val Lv.sOnly .w64, b := .val Lv.sOnly .w64, ex := ExSet.sbm }
  | .kvdrop _ => some { Spec.none with d := .val Lv.sOnly .w64, a := .val Lv.sOnly .w64, b := .val Lv.sImm .w64, ex := ExSet.sbm }
  | .role _ => some { Spec.none with a := .val Lv.sImm .w64, ex := ExSet.str' }
  | .tmask _ => some { Spec.two .w32 .w64 false ExSet.str' with role := RoleSet.mrow }
  | .mrow _ => some { d := .base Lv.vOnly, a := .tile, b := .base Lv.vOnly, c := .val Lv.sOnly .w64, ex := ExSet.str',
                      role := RoleSet.mrow }
  | .mresc _ => some { d := .zero, a := .tile, b := .base Lv.vOnly, c := .mode, ex := ExSet.str', role := RoleSet.mrow }
  | .coll _ _ => some { d := .zero, a := .sbase 8, b := .tileOpt, c := .zero, long := true, ex := ExSet.sb }
  | .norm _ => some { d := .zero, a := .sbase 8, b := .tileOpt, c := .zero, long := true, ex := ExSet.sb }
  | .mbrd _ => some { Spec.none with d := .val Lv.sOnly .w64, a := .val Lv.sImm .w64, long := true, ex := ExSet.sbm }
  | .trig _ => some { Spec.none with a := .sbase 8, b := .base Lv.sOnly, long := true, ex := ExSet.sbm }
  | .scinc _ => some (Spec.two .w64 .w64 true ExSet.sbm)
  | .scrd _ => some { Spec.none with d := .val Lv.sOnly .w64, a := .val Lv.sImm .w64, long := true, ex := ExSet.sbm }
  | .scwait _ => some (Spec.two .w64 .w64 true ExSet.sbm)
  | .cqrd _ => some { Spec.none with d := .smax 60, a := .val Lv.sImm .w64, long := true, ex := ExSet.sbm }
  | .dpost _ => some { Spec.none with a := .sbase 8, b := .val Lv.sOnly .w64, long := true, ex := ExSet.sb }
  | .lpq _ => some { Spec.none with d := .smax 62, a := .sbase 8, b := .val Lv.sImm .w64, long := true, ex := ExSet.sbm }
  | .vdhop _ => some { Spec.two .w64 .w64 true ExSet.sbm with d := .val Lv.sOnly .w64 }
  | .vdq _ => some { Spec.none with d := .val Lv.sOnly .w64, a := .val Lv.sImm .w64, long := true, ex := ExSet.sbm }
  | .fork _ => some { Spec.none with a := .sbase 4, b := .val Lv.sImm .w64, ex := ExSet.sb }
  | .jctr _ => some { Spec.none with a := .val Lv.sOnly .w64, b := .val Lv.sImm .w64, c := .sbase 4, ex := ExSet.sb }
  | .lnch _ => some { Spec.none with d := .val Lv.dstQS .w64, a := .val Lv.sOnly .w64, ex := ExSet.sbm }
  | .yield _ => some { Spec.none with ex := ExSet.str' }
  | .qpush _ => some { Spec.none with a := .val Lv.sImm .w64, b := .val Lv.any .w32, ex := ExSet.sbm }
  | .qpop _ => some { Spec.none with d := .val Lv.dst .w32, a := .val Lv.sImm .w64, ex := ExSet.sbm }
  | .prio _ => some { Spec.none with a := .val Lv.sImm .w64, ex := ExSet.sb }
  | .srd _ => some { Spec.none with d := .val Lv.dst .w32, a := .val Lv.immOnly .w64 }
  | .trap _ => some { Spec.none with a := .val Lv.sImm .w64, ex := ExSet.sb }
  | .tret _ => some { Spec.none with d := .val Lv.sOnly .w64, a := .val Lv.sImm .w64, ex := ExSet.mp }
  | .syrd _ => some { Spec.none with d := .val Lv.sOnly .w64, a := .val Lv.sImm .w64 }
  | .sywr _ => some (Spec.two .w64 .w64 false ExSet.mp)
  | .tlbi _ => some { Spec.two .w64 .w64 false ExSet.m with a := .val Lv.sOnly .w64 }
  | .ctxs _ => some { Spec.none with d := .val Lv.sOnly .w64, a := .val Lv.sOnly .w64, b := .val Lv.sImm .w64, ex := ExSet.m }
  | .ctxl _ => some { Spec.none with d := .val Lv.sOnly .w64, a := .val Lv.sImm .w64, ex := ExSet.m }
  | .dwin _ => some { Spec.none with d := .val Lv.sOnly .w64, a := .val Lv.sImm .w64, ex := ExSet.m }
  | .time _ => some { Spec.none with d := .val Lv.sOnly .w64 }
  | .waitt _ => some { Spec.none with a := .val Lv.sOnly .w64 }
  | .pwreq _ => some { Spec.none with a := .val Lv.sImm .w64, b := .mgtOnly .w64, ex := ExSet.sbm }
  | .pwrq _ => some { Spec.none with d := .val Lv.sOnly .w64, a := .mgtOnly .w64 }
  | .wdog _ => some { Spec.none with d := .val Lv.sOnly .w64, a := .val Lv.sImm .w64, ex := ExSet.mp }
  | .bkpt _ => some { Spec.none with a := .val Lv.sImm .w64 }
  | .halt _ => some { Spec.none with ex := ExSet.mp }
  | .svc _ => some { Spec.none with a := .val Lv.sImm .w64, ex := ExSet.sb }
  | .pendingFill _ => none | .writeAck _ => none | .homeL2Access _ => none | .redApply _ => none
  | .ordinalArrival _ => none | .ordinalRetry _ => none | .l2Eviction _ => none | .spoolRefresh _ => none
  | .pageWalk _ _ => none | .executorPark _ _ => none | .copyComplete _ _ => none | .copyFault _ _ => none
  | .knotUpdate _ => none | .kvldComplete _ => none | .kvEvent _ => none | .matrixEntryStart _ _ => none
  | .matstep _ _ => none | .matrixEntryComplete _ _ => none | .msttComplete _ => none | .powerGrant _ _ => none
  | .grantReturn _ _ => none | .grantWithdrawal _ _ => none | .collComplete _ => none | .stitchIncrement _ => none
  | .triggerFire _ _ => none | .exchangeDemand _ => none | .exchangePhase _ => none | .heartbeat => none
  | .standbyTakeover => none | .flitRetry _ => none | .portLoss _ => none | .computeDieLoss _ => none
  | .ringSegmentLoss _ => none | .iodELoss => none | .iodWLoss => none | .ringReopen => none
  | .thermalThrottle _ => none | .thermalRecovery _ => none | .thermalShutdown _ => none | .panelPlacement _ => none
  | .distributorPush _ => none | .panelComplete _ => none | .joinDecrement _ => none | .preemption _ => none
  | .forcedSave _ _ => none | .panelSwapOut _ => none | .gatherFlush _ => none | .gatheredStrandStart _ => none
  | .watchdogExpiry _ _ => none | .contextSaveDone _ _ => none | .powerOn => none | .powerOff => none | .bootlen _ => none
  | .imageVerification => none | .rdmaWrite _ _ _ => none | .rdmaRead _ _ _ => none | .send _ => none
  | .rdmaAtomic _ => none | .ptpEventFrame _ _ => none | .doorbell _ => none | .launch _ => none | .quote => none
  | .certs => none | .shuttle => none | .train _ _ _ => none | .patternTestStart _ _ _ => none
  | .patternTestDone _ _ => none | .repair _ _ _ => none | .deviceRegisterWrite _ _ _ => none | .flogPop _ => none
  | .tbstep _ => none | .wdata _ _ => none | .spoolLoadCopy _ _ _ _ _ => none | .arbiterReturn => none
  | .arbiterPackageLoss _ => none | .otpFloorRaise => none

/-- How an instruction's opcode is written: a short opcode7 or a long opcode10. -/
inductive OpCode where
  | short (n : Nat)
  | long  (n : Nat)
deriving DecidableEq, Repr

def Wd.t : Wd → Nat
  | .w32 => 0 | .w64 => 2
def ITy.t : ITy → Nat
  | .s32 => 0 | .n32 => 1 | .s64 => 2 | .n64 => 3
def FTy.f : FTy → Nat
  | .f32 => 0 | .f16 => 1 | .bf16 => 2 | .f64 => 3
def FTy3.f : FTy3 → Nat
  | .f32 => 0 | .f16 => 1 | .bf16 => 2
def ICond.c : ICond → Nat
  | .eq => 0 | .ne => 1 | .lt => 2 | .le => 3 | .gt => 4 | .ge => 5
def FCond.c : FCond → Nat
  | .eq => 0 | .ne => 1 | .lt => 2 | .le => 3 | .gt => 4 | .ge => 5 | .num => 6 | .nan => 7
def Space.c : Space → Nat
  | .g => 0 | .sp => 1 | .sw => 2 | .spool => 3
def LdW.c : LdW → Nat
  | .n8 => 0 | .s8 => 1 | .n16 => 2 | .s16 => 3 | .b32 => 4 | .b64 => 5
def StW.c : StW → Nat
  | .b8 => 0 | .b16 => 1 | .b32 => 2 | .b64 => 3
def AtomOp.c : AtomOp → Nat
  | .add => 0 | .smin => 1 | .smax => 2 | .nmin => 3 | .nmax => 4 | .and => 5 | .or => 6 | .xor => 7 | .exch => 8
def RedOp.c : RedOp → Nat
  | .addN32 => 0 | .addN64 => 1 | .addF32 => 2 | .addBF16 => 3 | .addF16 => 4 | .addOrdF32 => 5 | .addOrdBF16 => 6
  | .minS32 => 7 | .maxS32 => 8 | .minF32 => 9 | .maxF32 => 10
def QxMode.c : QxMode → Nat
  | .horz => 0 | .vert => 1 | .diag => 2 | .rot => 3
def ShMode.c : ShMode → Nat
  | .idx => 0 | .up => 1 | .down => 2 | .bfly => 3
def VoMode.c : VoMode → Nat
  | .all => 0 | .any => 1 | .uni => 2 | .ballot => 3
def MFmt.c : MFmt → Nat
  | .bf16 => 0 | .e4m3 => 1 | .e5m2 => 2 | .e2m1 => 3
def CKind.c : CKind → Nat
  | .ag => 0 | .rs => 1 | .ar => 2 | .bc => 3 | .pass => 4 | .xch => 5

/-- The opcode of each instruction (R70, R72 to R75); none for a step. -/
def Instr.code : Instr → Option OpCode
  | .nopShort _ => some (.short 0x00)
  | .iadd32S _ => some (.short 0x01)
  | .isub32S _ => some (.short 0x02)
  | .imul32S _ => some (.short 0x03)
  | .iminS32S _ => some (.short 0x04)
  | .imaxS32S _ => some (.short 0x05)
  | .and32S _ => some (.short 0x06)
  | .or32S _ => some (.short 0x07)
  | .xor32S _ => some (.short 0x08)
  | .shl32S _ => some (.short 0x09)
  | .shr32S _ => some (.short 0x0A)
  | .sar32S _ => some (.short 0x0B)
  | .mov32S _ => some (.short 0x0C)
  | .iadd64S _ => some (.short 0x0D)
  | .popc32S _ => some (.short 0x0E)
  | .isetEq32S _ => some (.short 0x0F)
  | .isetLtS32S _ => some (.short 0x10)
  | .isetLtN32S _ => some (.short 0x11)
  | .faddF32S _ => some (.short 0x20)
  | .fmulF32S _ => some (.short 0x21)
  | .fminF32S _ => some (.short 0x22)
  | .fmaxF32S _ => some (.short 0x23)
  | .fsetLtF32S _ => some (.short 0x24)
  | .fsetEqF32S _ => some (.short 0x25)
  | .faddBF16S _ => some (.short 0x26)
  | .fmulBF16S _ => some (.short 0x27)
  | .cvtBF16F32S _ => some (.short 0x28)
  | .cvtF32BF16S _ => some (.short 0x29)
  | .nop _ => some (.long 0x000)
  | .bra _ => some (.long 0x001)
  | .brc _ => some (.long 0x002)
  | .brx _ => some (.long 0x003)
  | .brsp _ => some (.long 0x004)
  | .call _ => some (.long 0x005)
  | .ret _ => some (.long 0x006)
  | .retr _ => some (.long 0x007)
  | .join _ => some (.long 0x008)
  | .exit _ => some (.long 0x009)
  | .loop _ => some (.long 0x00A)
  | .walk _ => some (.long 0x00B)
  | .wnext _ => some (.long 0x00C)
  | .dqpush _ => some (.long 0x00D)
  | .dqbr _ => some (.long 0x00E)
  | .plop _ => some (.long 0x118)
  | .frcp _ => some (.long 0x154)
  | .frsq _ => some (.long 0x155)
  | .fsqrt _ => some (.long 0x156)
  | .fexp2 _ => some (.long 0x157)
  | .flog2 _ => some (.long 0x158)
  | .ftanh _ => some (.long 0x159)
  | .cvt _ => some (.long 0x190)
  | .pack _ => some (.long 0x191)
  | .unpk _ => some (.long 0x192)
  | .rnd _ => some (.long 0x193)
  | .mxsc _ => some (.long 0x194)
  | .ldt _ => some (.long 0x230)
  | .btset _ => some (.long 0x231)
  | .ldfe _ => some (.long 0x232)
  | .stfe _ => some (.long 0x233)
  | .pref _ => some (.long 0x234)
  | .sprq _ => some (.long 0x235)
  | .pgq _ => some (.long 0x236)
  | .cinv _ => some (.long 0x237)
  | .cflush _ => some (.long 0x238)
  | .fence _ => some (.long 0x240)
  | .drain _ => some (.long 0x241)
  | .wfence _ => some (.long 0x242)
  | .scts _ => some (.long 0x243)
  | .cpy _ => some (.long 0x260)
  | .cpyg _ => some (.long 0x261)
  | .cpym _ => some (.long 0x262)
  | .kninit _ => some (.long 0x268)
  | .knarr _ => some (.long 0x269)
  | .knexp _ => some (.long 0x26A)
  | .knexpTile _ => some (.long 0x26B)
  | .knwait _ => some (.long 0x26C)
  | .kntry _ => some (.long 0x26D)
  | .bar _ => some (.long 0x270)
  | .sbar _ => some (.long 0x271)
  | .rsq _ => some (.long 0x274)
  | .rsclr _ => some (.long 0x275)
  | .mzero _ => some (.long 0x2D0)
  | .mldt _ => some (.long 0x2D1)
  | .mwait _ => some (.long 0x2D4)
  | .ofence _ => some (.long 0x2D5)
  | .mspc _ => some (.long 0x2D6)
  | .mcvt _ => some (.long 0x2D7)
  | .maddt _ => some (.long 0x2D8)
  | .kvmap _ => some (.long 0x320)
  | .kvld _ => some (.long 0x321)
  | .kvapp _ => some (.long 0x322)
  | .kvseal _ => some (.long 0x323)
  | .kvfork _ => some (.long 0x324)
  | .kvdrop _ => some (.long 0x325)
  | .role _ => some (.long 0x326)
  | .tmask _ => some (.long 0x327)
  | .mrow _ => some (.long 0x328)
  | .mresc _ => some (.long 0x329)
  | .norm _ => some (.long 0x368)
  | .mbrd _ => some (.long 0x369)
  | .trig _ => some (.long 0x36A)
  | .scinc _ => some (.long 0x36B)
  | .scrd _ => some (.long 0x36C)
  | .scwait _ => some (.long 0x36D)
  | .cqrd _ => some (.long 0x36E)
  | .dpost _ => some (.long 0x36F)
  | .lpq _ => some (.long 0x370)
  | .vdhop _ => some (.long 0x371)
  | .vdq _ => some (.long 0x372)
  | .fork _ => some (.long 0x3B0)
  | .jctr _ => some (.long 0x3B1)
  | .lnch _ => some (.long 0x3B2)
  | .yield _ => some (.long 0x3B3)
  | .qpush _ => some (.long 0x3B4)
  | .qpop _ => some (.long 0x3B5)
  | .prio _ => some (.long 0x3B6)
  | .srd _ => some (.long 0x3B7)
  | .trap _ => some (.long 0x3D0)
  | .tret _ => some (.long 0x3D1)
  | .syrd _ => some (.long 0x3D2)
  | .sywr _ => some (.long 0x3D3)
  | .tlbi _ => some (.long 0x3D4)
  | .ctxs _ => some (.long 0x3D5)
  | .ctxl _ => some (.long 0x3D6)
  | .dwin _ => some (.long 0x3D7)
  | .time _ => some (.long 0x3D8)
  | .waitt _ => some (.long 0x3D9)
  | .pwreq _ => some (.long 0x3DA)
  | .pwrq _ => some (.long 0x3DB)
  | .wdog _ => some (.long 0x3DC)
  | .bkpt _ => some (.long 0x3DD)
  | .halt _ => some (.long 0x3DE)
  | .svc _ => some (.long 0x3DF)
  | .iadd w _ => some (.long (0x080 + w.t))
  | .isub w _ => some (.long (0x084 + w.t))
  | .imul w _ => some (.long (0x088 + w.t))
  | .imad w _ => some (.long (0x090 + w.t))
  | .iabs w _ => some (.long (0x09C + w.t))
  | .and w _ => some (.long (0x0A0 + w.t))
  | .or w _ => some (.long (0x0A4 + w.t))
  | .xor w _ => some (.long (0x0A8 + w.t))
  | .not w _ => some (.long (0x0AC + w.t))
  | .shl w _ => some (.long (0x0B0 + w.t))
  | .shr w _ => some (.long (0x0B4 + w.t))
  | .sar w _ => some (.long (0x0B8 + w.t))
  | .rot w _ => some (.long (0x0BC + w.t))
  | .bfi w _ => some (.long (0x0C4 + w.t))
  | .popc w _ => some (.long (0x0C8 + w.t))
  | .clz w _ => some (.long (0x0CC + w.t))
  | .ctz w _ => some (.long (0x0D0 + w.t))
  | .brev w _ => some (.long (0x0D4 + w.t))
  | .bperm w _ => some (.long (0x0D8 + w.t))
  | .clmul w _ => some (.long (0x0DC + w.t))
  | .clmulh w _ => some (.long (0x0E0 + w.t))
  | .sel w _ => some (.long (0x0E4 + w.t))
  | .mov w _ => some (.long (0x0E8 + w.t))
  | .movi w _ => some (.long (0x0EC + w.t))
  | .lea w _ => some (.long (0x0F0 + w.t))
  | .imulh t _ => some (.long (0x08C + t.t))
  | .imin t _ => some (.long (0x094 + t.t))
  | .imax t _ => some (.long (0x098 + t.t))
  | .bfx t _ => some (.long (0x0C0 + t.t))
  | .fadd f _ => some (.long (0x140 + f.f))
  | .fmul f _ => some (.long (0x144 + f.f))
  | .ffma f _ => some (.long (0x148 + f.f))
  | .fmin f _ => some (.long (0x14C + f.f))
  | .fmax f _ => some (.long (0x150 + f.f))
  | .fscale f _ => some (.long (0x180 + f.f))
  | .fclass f _ => some (.long (0x184 + f.f))
  | .iset k t _ => some (.long (0x100 + 4 * k.c + t.t))
  | .fset k f _ => some (.long (0x160 + 4 * k.c + f.f))
  | .qxch m _ => some (.long (0x120 + m.c))
  | .qbc l _ => some (.long (0x124 + l.toNat))
  | .shfl m _ => some (.long (0x128 + m.c))
  | .vote m _ => some (.long (0x12C + m.c))
  | .hfma2 bf _ => some (.long (if bf then 0x199 else 0x198))
  | .dot2 bf _ => some (.long (if bf then 0x19B else 0x19A))
  | .ld space w _ => some (.long (0x1E0 + 8 * space.c + w.c))
  | .st space w _ => some (.long (0x200 + 4 * space.c + w.c))
  | .atom op w _ => some (.long (0x210 + 2 * op.c + w.t / 2))
  | .atcas w _ => some (.long (0x222 + w.t / 2))
  | .red op _ => some (.long (0x224 + op.c))
  | .mloop f reuse _ => some (.long (0x2C0 + (if reuse then 4 else 0) + f.c))
  | .mstt bf _ => some (.long (if bf then 0x2D3 else 0x2D2))
  | .coll k _ => some (.long (0x360 + k.c))
  | .pendingFill _ => none
  | .writeAck _ => none
  | .homeL2Access _ => none
  | .redApply _ => none
  | .ordinalArrival _ => none
  | .ordinalRetry _ => none
  | .l2Eviction _ => none
  | .spoolRefresh _ => none
  | .pageWalk _ _ => none
  | .executorPark _ _ => none
  | .copyComplete _ _ => none
  | .copyFault _ _ => none
  | .knotUpdate _ => none
  | .kvldComplete _ => none
  | .kvEvent _ => none
  | .matrixEntryStart _ _ => none
  | .matstep _ _ => none
  | .matrixEntryComplete _ _ => none
  | .msttComplete _ => none
  | .powerGrant _ _ => none
  | .grantReturn _ _ => none
  | .grantWithdrawal _ _ => none
  | .collComplete _ => none
  | .stitchIncrement _ => none
  | .triggerFire _ _ => none
  | .exchangeDemand _ => none
  | .exchangePhase _ => none
  | .heartbeat => none
  | .standbyTakeover => none
  | .flitRetry _ => none
  | .portLoss _ => none
  | .computeDieLoss _ => none
  | .ringSegmentLoss _ => none
  | .iodELoss => none
  | .iodWLoss => none
  | .ringReopen => none
  | .thermalThrottle _ => none
  | .thermalRecovery _ => none
  | .thermalShutdown _ => none
  | .panelPlacement _ => none
  | .distributorPush _ => none
  | .panelComplete _ => none
  | .joinDecrement _ => none
  | .preemption _ => none
  | .forcedSave _ _ => none
  | .panelSwapOut _ => none
  | .gatherFlush _ => none
  | .gatheredStrandStart _ => none
  | .watchdogExpiry _ _ => none
  | .contextSaveDone _ _ => none
  | .powerOn => none
  | .powerOff => none
  | .bootlen _ => none
  | .imageVerification => none
  | .rdmaWrite _ _ _ => none
  | .rdmaRead _ _ _ => none
  | .send _ => none
  | .rdmaAtomic _ => none
  | .ptpEventFrame _ _ => none
  | .doorbell _ => none
  | .launch _ => none
  | .quote => none
  | .certs => none
  | .shuttle => none
  | .train _ _ _ => none
  | .patternTestStart _ _ _ => none
  | .patternTestDone _ _ => none
  | .repair _ _ _ => none
  | .deviceRegisterWrite _ _ _ => none
  | .flogPop _ => none
  | .tbstep _ => none
  | .wdata _ _ => none
  | .spoolLoadCopy _ _ _ _ _ => none
  | .arbiterReturn => none
  | .arbiterPackageLoss _ => none
  | .otpFloorRaise => none

/-- The fields of each instruction, a short form's laid out as its long twin's (R71); none for a step. -/
def Instr.fields : Instr → Option Args
  | .nopShort g => some { g := g, look := 0, d := .q 0, a := .q 0, b := .q 0, c := .q 0, ar := Arith.plain, mp := .none }
  | .iadd32S x => some (x.args (.q 0))
  | .isub32S x => some (x.args (.q 0))
  | .imul32S x => some (x.args (.q 0))
  | .iminS32S x => some (x.args (.q 0))
  | .imaxS32S x => some (x.args (.q 0))
  | .and32S x => some (x.args (.q 0))
  | .or32S x => some (x.args (.q 0))
  | .xor32S x => some (x.args (.q 0))
  | .shl32S x => some (x.args (.q 0))
  | .shr32S x => some (x.args (.q 0))
  | .sar32S x => some (x.args (.q 0))
  | .mov32S x => some (x.args (.q 0))
  | .iadd64S x => some (x.args (.q 0))
  | .popc32S x => some (x.args (.q 0))
  | .isetEq32S x => some (x.args (.sel 7))
  | .isetLtS32S x => some (x.args (.sel 7))
  | .isetLtN32S x => some (x.args (.sel 7))
  | .faddF32S x => some (x.args (.q 0))
  | .fmulF32S x => some (x.args (.q 0))
  | .fminF32S x => some (x.args (.q 0))
  | .fmaxF32S x => some (x.args (.q 0))
  | .fsetLtF32S x => some (x.args (.sel 7))
  | .fsetEqF32S x => some (x.args (.sel 7))
  | .faddBF16S x => some (x.args (.q 0))
  | .fmulBF16S x => some (x.args (.q 0))
  | .cvtBF16F32S x => some (x.args (.sel 0x20))
  | .cvtF32BF16S x => some (x.args (.sel 0x02))
  | .nop x => some x
  | .bra x => some x
  | .brc x => some x
  | .brx x => some x
  | .brsp x => some x
  | .call x => some x
  | .ret x => some x
  | .retr x => some x
  | .join x => some x
  | .exit x => some x
  | .loop x => some x
  | .walk x => some x
  | .wnext x => some x
  | .dqpush x => some x
  | .dqbr x => some x
  | .plop x => some x
  | .frcp x => some x
  | .frsq x => some x
  | .fsqrt x => some x
  | .fexp2 x => some x
  | .flog2 x => some x
  | .ftanh x => some x
  | .cvt x => some x
  | .pack x => some x
  | .unpk x => some x
  | .rnd x => some x
  | .mxsc x => some x
  | .ldt x => some x
  | .btset x => some x
  | .ldfe x => some x
  | .stfe x => some x
  | .pref x => some x
  | .sprq x => some x
  | .pgq x => some x
  | .cinv x => some x
  | .cflush x => some x
  | .fence x => some x
  | .drain x => some x
  | .wfence x => some x
  | .scts x => some x
  | .cpy x => some x
  | .cpyg x => some x
  | .cpym x => some x
  | .kninit x => some x
  | .knarr x => some x
  | .knexp x => some x
  | .knexpTile x => some x
  | .knwait x => some x
  | .kntry x => some x
  | .bar x => some x
  | .sbar x => some x
  | .rsq x => some x
  | .rsclr x => some x
  | .mzero x => some x
  | .mldt x => some x
  | .mwait x => some x
  | .ofence x => some x
  | .mspc x => some x
  | .mcvt x => some x
  | .maddt x => some x
  | .kvmap x => some x
  | .kvld x => some x
  | .kvapp x => some x
  | .kvseal x => some x
  | .kvfork x => some x
  | .kvdrop x => some x
  | .role x => some x
  | .tmask x => some x
  | .mrow x => some x
  | .mresc x => some x
  | .norm x => some x
  | .mbrd x => some x
  | .trig x => some x
  | .scinc x => some x
  | .scrd x => some x
  | .scwait x => some x
  | .cqrd x => some x
  | .dpost x => some x
  | .lpq x => some x
  | .vdhop x => some x
  | .vdq x => some x
  | .fork x => some x
  | .jctr x => some x
  | .lnch x => some x
  | .yield x => some x
  | .qpush x => some x
  | .qpop x => some x
  | .prio x => some x
  | .srd x => some x
  | .trap x => some x
  | .tret x => some x
  | .syrd x => some x
  | .sywr x => some x
  | .tlbi x => some x
  | .ctxs x => some x
  | .ctxl x => some x
  | .dwin x => some x
  | .time x => some x
  | .waitt x => some x
  | .pwreq x => some x
  | .pwrq x => some x
  | .wdog x => some x
  | .bkpt x => some x
  | .halt x => some x
  | .svc x => some x
  | .iadd _ x => some x
  | .isub _ x => some x
  | .imul _ x => some x
  | .imad _ x => some x
  | .iabs _ x => some x
  | .and _ x => some x
  | .or _ x => some x
  | .xor _ x => some x
  | .not _ x => some x
  | .shl _ x => some x
  | .shr _ x => some x
  | .sar _ x => some x
  | .rot _ x => some x
  | .bfi _ x => some x
  | .popc _ x => some x
  | .clz _ x => some x
  | .ctz _ x => some x
  | .brev _ x => some x
  | .bperm _ x => some x
  | .clmul _ x => some x
  | .clmulh _ x => some x
  | .sel _ x => some x
  | .mov _ x => some x
  | .movi _ x => some x
  | .lea _ x => some x
  | .imulh _ x => some x
  | .imin _ x => some x
  | .imax _ x => some x
  | .bfx _ x => some x
  | .fadd _ x => some x
  | .fmul _ x => some x
  | .ffma _ x => some x
  | .fmin _ x => some x
  | .fmax _ x => some x
  | .fscale _ x => some x
  | .fclass _ x => some x
  | .qxch _ x => some x
  | .qbc _ x => some x
  | .shfl _ x => some x
  | .vote _ x => some x
  | .hfma2 _ x => some x
  | .dot2 _ x => some x
  | .atcas _ x => some x
  | .red _ x => some x
  | .mstt _ x => some x
  | .coll _ x => some x
  | .iset _ _ x => some x
  | .fset _ _ x => some x
  | .ld _ _ x => some x
  | .st _ _ x => some x
  | .atom _ _ x => some x
  | .mloop _ _ x => some x
  | .pendingFill _ => none
  | .writeAck _ => none
  | .homeL2Access _ => none
  | .redApply _ => none
  | .ordinalArrival _ => none
  | .ordinalRetry _ => none
  | .l2Eviction _ => none
  | .spoolRefresh _ => none
  | .pageWalk _ _ => none
  | .executorPark _ _ => none
  | .copyComplete _ _ => none
  | .copyFault _ _ => none
  | .knotUpdate _ => none
  | .kvldComplete _ => none
  | .kvEvent _ => none
  | .matrixEntryStart _ _ => none
  | .matstep _ _ => none
  | .matrixEntryComplete _ _ => none
  | .msttComplete _ => none
  | .powerGrant _ _ => none
  | .grantReturn _ _ => none
  | .grantWithdrawal _ _ => none
  | .collComplete _ => none
  | .stitchIncrement _ => none
  | .triggerFire _ _ => none
  | .exchangeDemand _ => none
  | .exchangePhase _ => none
  | .heartbeat => none
  | .standbyTakeover => none
  | .flitRetry _ => none
  | .portLoss _ => none
  | .computeDieLoss _ => none
  | .ringSegmentLoss _ => none
  | .iodELoss => none
  | .iodWLoss => none
  | .ringReopen => none
  | .thermalThrottle _ => none
  | .thermalRecovery _ => none
  | .thermalShutdown _ => none
  | .panelPlacement _ => none
  | .distributorPush _ => none
  | .panelComplete _ => none
  | .joinDecrement _ => none
  | .preemption _ => none
  | .forcedSave _ _ => none
  | .panelSwapOut _ => none
  | .gatherFlush _ => none
  | .gatheredStrandStart _ => none
  | .watchdogExpiry _ _ => none
  | .contextSaveDone _ _ => none
  | .powerOn => none
  | .powerOff => none
  | .bootlen _ => none
  | .imageVerification => none
  | .rdmaWrite _ _ _ => none
  | .rdmaRead _ _ _ => none
  | .send _ => none
  | .rdmaAtomic _ => none
  | .ptpEventFrame _ _ => none
  | .doorbell _ => none
  | .launch _ => none
  | .quote => none
  | .certs => none
  | .shuttle => none
  | .train _ _ _ => none
  | .patternTestStart _ _ _ => none
  | .patternTestDone _ _ => none
  | .repair _ _ _ => none
  | .deviceRegisterWrite _ _ _ => none
  | .flogPop _ => none
  | .tbstep _ => none
  | .wdata _ _ => none
  | .spoolLoadCopy _ _ _ _ _ => none
  | .arbiterReturn => none
  | .arbiterPackageLoss _ => none
  | .otpFloorRaise => none

/-- The short form an opcode7 names, from its fields (R70). -/
def shortOf (c : Nat) (x : SArgs) : Option Instr :=
  match c with
  | 0x00 => some (.nopShort x.g)
  | 0x01 => some (.iadd32S x)
  | 0x02 => some (.isub32S x)
  | 0x03 => some (.imul32S x)
  | 0x04 => some (.iminS32S x)
  | 0x05 => some (.imaxS32S x)
  | 0x06 => some (.and32S x)
  | 0x07 => some (.or32S x)
  | 0x08 => some (.xor32S x)
  | 0x09 => some (.shl32S x)
  | 0x0A => some (.shr32S x)
  | 0x0B => some (.sar32S x)
  | 0x0C => some (.mov32S x)
  | 0x0D => some (.iadd64S x)
  | 0x0E => some (.popc32S x)
  | 0x0F => some (.isetEq32S x)
  | 0x10 => some (.isetLtS32S x)
  | 0x11 => some (.isetLtN32S x)
  | 0x20 => some (.faddF32S x)
  | 0x21 => some (.fmulF32S x)
  | 0x22 => some (.fminF32S x)
  | 0x23 => some (.fmaxF32S x)
  | 0x24 => some (.fsetLtF32S x)
  | 0x25 => some (.fsetEqF32S x)
  | 0x26 => some (.faddBF16S x)
  | 0x27 => some (.fmulBF16S x)
  | 0x28 => some (.cvtBF16F32S x)
  | 0x29 => some (.cvtF32BF16S x)
  | _ => none

/-- The width a sign-free form's variant names (R69). -/
def wdOf (t : Nat) : Option Wd :=
  match t with
  | 0 => some .w32 | 2 => some .w64 | _ => none

def ityOf (t : Nat) : Option ITy :=
  match t with
  | 0 => some .s32 | 1 => some .n32 | 2 => some .s64 | 3 => some .n64 | _ => none

def ftyOf (f : Nat) : Option FTy :=
  match f with
  | 0 => some .f32 | 1 => some .f16 | 2 => some .bf16 | 3 => some .f64 | _ => none

def fty3Of (f : Nat) : Option FTy3 :=
  match f with
  | 0 => some .f32 | 1 => some .f16 | 2 => some .bf16 | _ => none

def icondOf (c : Nat) : Option ICond :=
  match c with
  | 0 => some .eq | 1 => some .ne | 2 => some .lt | 3 => some .le | 4 => some .gt | 5 => some .ge | _ => none

def fcondOf (c : Nat) : Option FCond :=
  match c with
  | 0 => some .eq | 1 => some .ne | 2 => some .lt | 3 => some .le | 4 => some .gt | 5 => some .ge | 6 => some .num
  | 7 => some .nan | _ => none

def spaceOf (c : Nat) : Option Space :=
  match c with
  | 0 => some .g | 1 => some .sp | 2 => some .sw | 3 => some .spool | _ => none

def ldwOf (c : Nat) : Option LdW :=
  match c with
  | 0 => some .n8 | 1 => some .s8 | 2 => some .n16 | 3 => some .s16 | 4 => some .b32 | 5 => some .b64 | _ => none

def stwOf (c : Nat) : Option StW :=
  match c with
  | 0 => some .b8 | 1 => some .b16 | 2 => some .b32 | 3 => some .b64 | _ => none

def atomOf (c : Nat) : Option AtomOp :=
  match c with
  | 0 => some .add | 1 => some .smin | 2 => some .smax | 3 => some .nmin | 4 => some .nmax | 5 => some .and | 6 => some .or
  | 7 => some .xor | 8 => some .exch | _ => none

def redOf (c : Nat) : Option RedOp :=
  match c with
  | 0 => some .addN32 | 1 => some .addN64 | 2 => some .addF32 | 3 => some .addBF16 | 4 => some .addF16 | 5 => some .addOrdF32
  | 6 => some .addOrdBF16 | 7 => some .minS32 | 8 => some .maxS32 | 9 => some .minF32 | 10 => some .maxF32 | _ => none

def qxOf (c : Nat) : Option QxMode :=
  match c with
  | 0 => some .horz | 1 => some .vert | 2 => some .diag | 3 => some .rot | _ => none

def shOf (c : Nat) : Option ShMode :=
  match c with
  | 0 => some .idx | 1 => some .up | 2 => some .down | 3 => some .bfly | _ => none

def voOf (c : Nat) : Option VoMode :=
  match c with
  | 0 => some .all | 1 => some .any | 2 => some .uni | 3 => some .ballot | _ => none

def mfmtOf (c : Nat) : Option MFmt :=
  match c with
  | 0 => some .bf16 | 1 => some .e4m3 | 2 => some .e5m2 | 3 => some .e2m1 | _ => none

def ckindOf (c : Nat) : Option CKind :=
  match c with
  | 0 => some .ag | 1 => some .rs | 2 => some .ar | 3 => some .bc | 4 => some .pass | 5 => some .xch | _ => none

/-- The forms that occupy one opcode10 value each. -/
def plainOf (c : Nat) (x : Args) : Option Instr :=
  match c with
  | 0x000 => some (.nop x)
  | 0x001 => some (.bra x)
  | 0x002 => some (.brc x)
  | 0x003 => some (.brx x)
  | 0x004 => some (.brsp x)
  | 0x005 => some (.call x)
  | 0x006 => some (.ret x)
  | 0x007 => some (.retr x)
  | 0x008 => some (.join x)
  | 0x009 => some (.exit x)
  | 0x00A => some (.loop x)
  | 0x00B => some (.walk x)
  | 0x00C => some (.wnext x)
  | 0x00D => some (.dqpush x)
  | 0x00E => some (.dqbr x)
  | 0x118 => some (.plop x)
  | 0x154 => some (.frcp x)
  | 0x155 => some (.frsq x)
  | 0x156 => some (.fsqrt x)
  | 0x157 => some (.fexp2 x)
  | 0x158 => some (.flog2 x)
  | 0x159 => some (.ftanh x)
  | 0x190 => some (.cvt x)
  | 0x191 => some (.pack x)
  | 0x192 => some (.unpk x)
  | 0x193 => some (.rnd x)
  | 0x194 => some (.mxsc x)
  | 0x230 => some (.ldt x)
  | 0x231 => some (.btset x)
  | 0x232 => some (.ldfe x)
  | 0x233 => some (.stfe x)
  | 0x234 => some (.pref x)
  | 0x235 => some (.sprq x)
  | 0x236 => some (.pgq x)
  | 0x237 => some (.cinv x)
  | 0x238 => some (.cflush x)
  | 0x240 => some (.fence x)
  | 0x241 => some (.drain x)
  | 0x242 => some (.wfence x)
  | 0x243 => some (.scts x)
  | 0x260 => some (.cpy x)
  | 0x261 => some (.cpyg x)
  | 0x262 => some (.cpym x)
  | 0x268 => some (.kninit x)
  | 0x269 => some (.knarr x)
  | 0x26A => some (.knexp x)
  | 0x26B => some (.knexpTile x)
  | 0x26C => some (.knwait x)
  | 0x26D => some (.kntry x)
  | 0x270 => some (.bar x)
  | 0x271 => some (.sbar x)
  | 0x274 => some (.rsq x)
  | 0x275 => some (.rsclr x)
  | 0x2D0 => some (.mzero x)
  | 0x2D1 => some (.mldt x)
  | 0x2D4 => some (.mwait x)
  | 0x2D5 => some (.ofence x)
  | 0x2D6 => some (.mspc x)
  | 0x2D7 => some (.mcvt x)
  | 0x2D8 => some (.maddt x)
  | 0x320 => some (.kvmap x)
  | 0x321 => some (.kvld x)
  | 0x322 => some (.kvapp x)
  | 0x323 => some (.kvseal x)
  | 0x324 => some (.kvfork x)
  | 0x325 => some (.kvdrop x)
  | 0x326 => some (.role x)
  | 0x327 => some (.tmask x)
  | 0x328 => some (.mrow x)
  | 0x329 => some (.mresc x)
  | 0x368 => some (.norm x)
  | 0x369 => some (.mbrd x)
  | 0x36A => some (.trig x)
  | 0x36B => some (.scinc x)
  | 0x36C => some (.scrd x)
  | 0x36D => some (.scwait x)
  | 0x36E => some (.cqrd x)
  | 0x36F => some (.dpost x)
  | 0x370 => some (.lpq x)
  | 0x371 => some (.vdhop x)
  | 0x372 => some (.vdq x)
  | 0x3B0 => some (.fork x)
  | 0x3B1 => some (.jctr x)
  | 0x3B2 => some (.lnch x)
  | 0x3B3 => some (.yield x)
  | 0x3B4 => some (.qpush x)
  | 0x3B5 => some (.qpop x)
  | 0x3B6 => some (.prio x)
  | 0x3B7 => some (.srd x)
  | 0x3D0 => some (.trap x)
  | 0x3D1 => some (.tret x)
  | 0x3D2 => some (.syrd x)
  | 0x3D3 => some (.sywr x)
  | 0x3D4 => some (.tlbi x)
  | 0x3D5 => some (.ctxs x)
  | 0x3D6 => some (.ctxl x)
  | 0x3D7 => some (.dwin x)
  | 0x3D8 => some (.time x)
  | 0x3D9 => some (.waitt x)
  | 0x3DA => some (.pwreq x)
  | 0x3DB => some (.pwrq x)
  | 0x3DC => some (.wdog x)
  | 0x3DD => some (.bkpt x)
  | 0x3DE => some (.halt x)
  | 0x3DF => some (.svc x)
  | _ => none

/-- The integer forms of base + t, the base given as base ÷ 4 (R72). -/
def intOf (base t : Nat) (x : Args) : Option Instr :=
  match base with
  | 0x20 => (wdOf t).map fun w => .iadd w x
  | 0x21 => (wdOf t).map fun w => .isub w x
  | 0x22 => (wdOf t).map fun w => .imul w x
  | 0x23 => (ityOf t).map fun t => .imulh t x
  | 0x24 => (wdOf t).map fun w => .imad w x
  | 0x25 => (ityOf t).map fun t => .imin t x
  | 0x26 => (ityOf t).map fun t => .imax t x
  | 0x27 => (wdOf t).map fun w => .iabs w x
  | 0x28 => (wdOf t).map fun w => .and w x
  | 0x29 => (wdOf t).map fun w => .or w x
  | 0x2A => (wdOf t).map fun w => .xor w x
  | 0x2B => (wdOf t).map fun w => .not w x
  | 0x2C => (wdOf t).map fun w => .shl w x
  | 0x2D => (wdOf t).map fun w => .shr w x
  | 0x2E => (wdOf t).map fun w => .sar w x
  | 0x2F => (wdOf t).map fun w => .rot w x
  | 0x30 => (ityOf t).map fun t => .bfx t x
  | 0x31 => (wdOf t).map fun w => .bfi w x
  | 0x32 => (wdOf t).map fun w => .popc w x
  | 0x33 => (wdOf t).map fun w => .clz w x
  | 0x34 => (wdOf t).map fun w => .ctz w x
  | 0x35 => (wdOf t).map fun w => .brev w x
  | 0x36 => (wdOf t).map fun w => .bperm w x
  | 0x37 => (wdOf t).map fun w => .clmul w x
  | 0x38 => (wdOf t).map fun w => .clmulh w x
  | 0x39 => (wdOf t).map fun w => .sel w x
  | 0x3A => (wdOf t).map fun w => .mov w x
  | 0x3B => (wdOf t).map fun w => .movi w x
  | 0x3C => (wdOf t).map fun w => .lea w x
  | _ => none

/-- The floating forms of base + f, the base given as base ÷ 4 (R73). -/
def fltOf (base f : Nat) (x : Args) : Option Instr :=
  match base with
  | 0x50 => (ftyOf f).map fun f => .fadd f x
  | 0x51 => (ftyOf f).map fun f => .fmul f x
  | 0x52 => (ftyOf f).map fun f => .ffma f x
  | 0x53 => (fty3Of f).map fun f => .fmin f x
  | 0x54 => (fty3Of f).map fun f => .fmax f x
  | 0x60 => (fty3Of f).map fun f => .fscale f x
  | 0x61 => (fty3Of f).map fun f => .fclass f x
  | _ => none

/-- ISET: EQ and NE are sign-free (R69, R72). -/
def isetOf (c t : Nat) (x : Args) : Option Instr :=
  match icondOf c, ityOf t with
  | some k, some t => if (k == .eq || k == .ne) && !t.signed then none else some (.iset k t x)
  | _, _ => none

/-- The long form an opcode10 names, from its fields (R72 to R75); none where R76 makes it ILLEGAL_INSTRUCTION. -/
def longOf (c : Nat) (x : Args) : Option Instr :=
  if 0x080 ≤ c ∧ c < 0x100 then intOf (c / 4) (c % 4) x
  else if 0x100 ≤ c ∧ c < 0x118 then isetOf ((c - 0x100) / 4) (c % 4) x
  else if 0x120 ≤ c ∧ c < 0x124 then (qxOf (c - 0x120)).map fun m => .qxch m x
  else if 0x124 ≤ c ∧ c < 0x128 then some (.qbc (BitVec.ofNat 2 (c - 0x124)) x)
  else if 0x128 ≤ c ∧ c < 0x12C then (shOf (c - 0x128)).map fun m => .shfl m x
  else if 0x12C ≤ c ∧ c < 0x130 then (voOf (c - 0x12C)).map fun m => .vote m x
  else if (0x140 ≤ c ∧ c < 0x154) ∨ (0x180 ≤ c ∧ c < 0x188) then fltOf (c / 4) (c % 4) x
  else if 0x160 ≤ c ∧ c < 0x180 then
    match fcondOf ((c - 0x160) / 4), fty3Of (c % 4) with
    | some k, some f => some (.fset k f x)
    | _, _ => none
  else if 0x198 ≤ c ∧ c < 0x19A then some (.hfma2 (c == 0x199) x)
  else if 0x19A ≤ c ∧ c < 0x19C then some (.dot2 (c == 0x19B) x)
  else if 0x1E0 ≤ c ∧ c < 0x200 then
    match spaceOf ((c - 0x1E0) / 8), ldwOf (c % 8) with
    | some p, some w => some (.ld p w x)
    | _, _ => none
  else if 0x200 ≤ c ∧ c < 0x210 then
    match spaceOf ((c - 0x200) / 4), stwOf (c % 4) with
    | some p, some w => some (.st p w x)
    | _, _ => none
  else if 0x210 ≤ c ∧ c < 0x222 then
    (atomOf ((c - 0x210) / 2)).map fun op => .atom op (if c % 2 == 0 then .w32 else .w64) x
  else if 0x222 ≤ c ∧ c < 0x224 then some (.atcas (if c == 0x222 then .w32 else .w64) x)
  else if 0x224 ≤ c ∧ c < 0x22F then (redOf (c - 0x224)).map fun op => .red op x
  else if 0x2C0 ≤ c ∧ c < 0x2C8 then (mfmtOf (c % 4)).map fun f => .mloop f (0x2C4 ≤ c) x
  else if 0x2D2 ≤ c ∧ c < 0x2D4 then some (.mstt (c == 0x2D3) x)
  else if 0x360 ≤ c ∧ c < 0x366 then (ckindOf (c - 0x360)).map fun k => .coll k x
  else plainOf c x

end Sys2Proof
end

