-- ==== Sys2Proof/Machine/State.lean ====
section
/-! DEFINITION. The state of one LZ880 module as plain data: executors, panels, cores, compute dies, context slots, management
cores, memory, the steps in progress, and the state after reset. -/

namespace Sys2Proof.Machine

/-! Traps (R382). -/

/-- The trap names of R382. -/
inductive Trap where
  | illegalInstruction | illegalOperand | illegalPrefix | wrongExecutor | roleViolation | badTarget | lookaheadViolation
  | sysregAccess | divergenceOverflow | callOverflow | retUnderflow | nonuniformReturn | nonuniformJoin | dqTarget
  | dqUnderflow | walkDesc | walkState | walkOrder | policyInvalid | spRange | swRange | spoolRange | spoolStore
  | misaligned | pageFault | permission | physRange | biasFault | feDuplicate | copyPoison | dataError | remoteDenied
  | storeError | ordinalStale | nonuniformCopy | copyDesc | mcastMask | copyMismatch | nonuniformBarrier | copyFault
  | knotMisuse | matrixSource | matrixState | matrixFault | kvNomap | kvDesc | kvRange | kvFault | collDesc | scRange
  | collFail | schedDesc | tokenRange | trap | svc | bkpt | dieMapInvalid | partitionInvalid | ctxState | windowState
deriving DecidableEq, Repr

/-- The 8-bit code of a trap (R382). -/
def Trap.code : Trap → Nat
  | .illegalInstruction => 0x01 | .illegalOperand => 0x02 | .illegalPrefix => 0x03 | .wrongExecutor => 0x04
  | .roleViolation => 0x05 | .badTarget => 0x06 | .lookaheadViolation => 0x07 | .sysregAccess => 0x08
  | .divergenceOverflow => 0x10 | .callOverflow => 0x11 | .retUnderflow => 0x12 | .nonuniformReturn => 0x13
  | .nonuniformJoin => 0x14 | .dqTarget => 0x15 | .dqUnderflow => 0x16 | .walkDesc => 0x17 | .walkState => 0x18
  | .walkOrder => 0x19 | .policyInvalid => 0x20 | .spRange => 0x21 | .swRange => 0x22 | .spoolRange => 0x23
  | .spoolStore => 0x24 | .misaligned => 0x25 | .pageFault => 0x26 | .permission => 0x27 | .physRange => 0x28
  | .biasFault => 0x29 | .feDuplicate => 0x2A | .copyPoison => 0x2B | .dataError => 0x2C | .remoteDenied => 0x2D
  | .storeError => 0x2E | .ordinalStale => 0x2F | .nonuniformCopy => 0x30 | .copyDesc => 0x31 | .mcastMask => 0x32
  | .copyMismatch => 0x33 | .nonuniformBarrier => 0x34 | .copyFault => 0x35 | .knotMisuse => 0x36 | .matrixSource => 0x38
  | .matrixState => 0x39 | .matrixFault => 0x3A | .kvNomap => 0x40 | .kvDesc => 0x41 | .kvRange => 0x42 | .kvFault => 0x43
  | .collDesc => 0x48 | .scRange => 0x49 | .collFail => 0x4A | .schedDesc => 0x50 | .tokenRange => 0x51 | .trap => 0x60
  | .svc => 0x61 | .bkpt => 0x62 | .dieMapInvalid => 0x63 | .partitionInvalid => 0x64 | .ctxState => 0x65
  | .windowState => 0x66

/-- How a trap is delivered (R388, KIND). -/
inductive TKind where
  | precise | deferred | async | after
deriving DecidableEq, Repr

/-- A trap with its detail words (R383) and its lane, 0xFF when it is not a per-lane trap (R388). -/
structure TrapInfo where
  trap : Trap
  d0   : W64 := 0
  d1   : W64 := 0
  lane : Nat := 0xFF
deriving DecidableEq, Repr

/-! Sparse maps: strictly rising keys. -/

/-- A finite map from numbers, in strictly rising order of keys. -/
abbrev SMap (α : Type) := List (Nat × α)

/-! Executors (R24). -/

/-- An executor: a strand slot of a panel, the bobbin of a panel, or a management core (0 to 15 the compute dies', 16 IOD-W's,
17 IOD-E's). Panels are named by handle. -/
inductive Ex where
  | str (panel slot : Nat)
  | bob (panel : Nat)
  | mgt (m : Nat)
deriving DecidableEq, Repr

/-- How a program counter stands: inside a checked block, at a header that a control transfer entered and checked, at a
header reached by falling through, with the address of the padding unit before it (R39), or at an address a handler wrote, with the block it stood in before (R410). -/
inductive PcKind where
  | inside (blk hdr : W64)
  | entered
  | fell (pad : Option W64)
  | written (blk hdr : W64)
deriving DecidableEq, Repr

/-- A program counter. -/
structure Pos where
  pc   : W64
  kind : PcKind
deriving DecidableEq, Repr

/-- Where an access stands in its executor's program order (R206): the segment it was issued in, the segments a merge ordered before it
(R100), and every segment of its lineage, its own among them. -/
structure Po where
  seg   : Nat := 0
  past  : List Nat := []
  reach : List Nat := [0]
deriving DecidableEq, Repr

/-- A program-counter slot of a strand (R93): the return stack holds its newest entry first. Every split and every merge begins a
new segment of program order; `past` holds the segments whose accesses a merge ordered before this one's, `line` the earlier segments of
the slot it was split from, which the next merge orders too (R98, R100), `stamp` the LC part of the latest SC operation or SC FENCE of
the slot's lineage (R228). -/
structure PcSlot where
  pos     : Pos
  mask    : Mask
  stack   : List W64 := []
  waiting : Bool := false
  seg     : Nat := 0
  past    : List Nat := []
  line    : List Nat := []
  stamp   : W64 := 0
deriving DecidableEq, Repr

/-- The join record (R93). -/
inductive Join where
  | none
  | atExit
  | addr (a : W64)
deriving DecidableEq, Repr

/-- The segments of program order of the slots that EXIT or BRSP emptied since the join record was set, with what came before
them, and the LC part of their latest stamp: the merge orders their accesses too (R96, R100, R228). -/
structure Emptied where
  segs  : List Nat := []
  stamp : W64 := 0
deriving DecidableEq, Repr

/-- A divergence frame (R97): the sibling slot, the join record and the issuing slot's position (B when `posB`), and what had been
emptied under its join record. -/
structure Frame where
  sib  : Option PcSlot
  join : Join
  posB : Bool
  emptied : Emptied := {}
deriving DecidableEq, Repr

/-- One lane of a strand: the result queue (newest first, 16 entries), O0 to O7, the nonzero main-file registers, P0 to P6
and the SR counter (R47, R50, R51, R55, R155). -/
structure Lane where
  q  : List W32 := List.replicate 16 0
  o  : List W32 := List.replicate 8 0
  v  : SMap W32 := []
  p  : BitVec 7 := 0
  sr : W32 := 0
deriving DecidableEq, Repr

/-- A pending register of one lane (R48): O or V and its index. -/
inductive PReg where
  | o (n : Nat)
  | v (n : Nat)
deriving DecidableEq, Repr

/-- What one lane awaits from a long-latency form: the queue position of its newest entry (none once it passed Q15) and its
destination register; `bad` once the access came back failed (R185). -/
structure PLane where
  lane : Nat
  q    : Option Nat
  reg  : Option PReg
  bad  : Bool := false
deriving DecidableEq, Repr

/-- A long-latency form in progress (R48, R65): the lanes of the issuing slot at issue, the instructions left in its window,
whether its values have 64 bits, the lanes and the S destination still awaited or failed, and the failure of a returned
access. -/
structure Pend where
  id    : Nat
  mask  : Mask
  look  : Nat
  wide  : Bool
  lanes : List PLane
  sreg  : Option (Nat × Bool)
  fail  : Option TrapInfo := none
deriving DecidableEq, Repr

/-- Where a parked executor stands (R385): waiting for its writes, waiting in a saved image for its die, or in the parked
table at an index. -/
inductive ParkAt where
  | draining
  | table (idx : Nat)
deriving DecidableEq, Repr

/-- The record of a parked executor (R385, R388). -/
structure Park where
  info  : TrapInfo
  pc    : W64
  kind  : TKind
  slotB : Bool
  more  : Nat
  place : ParkAt := .draining
deriving DecidableEq, Repr

/-- What a waiting instruction waits for, where another rule asks (R366, R117, R257). -/
inductive Waiting where
  | none
  | form                    -- KNWAIT, LDFE, STFE, QPOP, QPUSH, SCWAIT, MBRD, SBAR
  | bar
  | brsp (n : Nat)          -- room for n records (R115)
  | ofence (upTo : Nat)     -- an OFENCE, with the next name at its first attempt (R287)
deriving DecidableEq, Repr

/-- State common to every executor: S0 to S63, the forms in progress, the recorded asynchronous trap with MORE, failed
translations of waiting accesses (page address, level), the slot whose access awaits a walk, the park record, the wait of each slot,
the stamps taken by SC operations that are performed at their issue and by SC FENCEs (slot B or A, the request held until the stamp is
safe, its LC), the copy and collective counts, and the stamp of the latest SC operation of an executor that is no strand
(R54, R48, R386, R398, R384, R385, R218, R244, R326, R228). -/
structure Thr where
  ss      : List W64 := List.replicate 64 0
  pends   : List Pend := []
  async   : Option TrapInfo := none
  more    : Nat := 0
  walkFails : List (Nat × Nat) := []
  awaiting : Option Bool := none      -- whether slot B's form awaits a walk: nothing else issues first (R384)
  park    : Option Park := none
  wait    : Waiting := .none
  waitB   : Waiting := .none          -- the same of slot B (R366, R117)
  arrival : Option (Bool × Nat × Nat) := none   -- the barrier it arrived at (swatch or panel, number, generation)
  resumeTrap : Bool := false      -- the recorded trap is taken at the resume PC (R369)
  points  : List (Bool × Nat × W64) := []
  copySeq : Nat := 0
  collSeq : Nat := 0
  scStamp : W64 := 0
  lastProgress : Nat := 0
deriving DecidableEq, Repr

/-- A strand (R93, R47 to R57, R119, R156, R298, R368, R369). -/
structure Strand where
  thr    : Thr := {}
  lanes  : List Lane := List.replicate 32 {}
  ended  : Mask := 0
  helper : Mask := 0
  a      : Option PcSlot
  b      : Option PcSlot := none
  join   : Join := .none
  frames : List Frame := []
  emptied : Emptied := {}              -- slots emptied since the present join record was set (R100)
  dq     : List Bool := []
  fflags : BitVec 6 := 0
  role   : BitVec 2 := 0
  lastB  : Bool := true
  tried  : Option Bool := none         -- the slot whose latest issue found it stalled, with none since (R98)
  segs   : Nat := 1                    -- the next segment of program order (R100)
  isOver   : Bool := false               -- the strand has ended (R95)
  yieldAt : Option W64 := none         -- target of a yield request, with its deadline (R368)
  saving : Bool := false               -- a save of it is in progress (R369)
  coop   : Option (Nat × Nat) := none  -- a cooperative one: LIVEV and LIVEQ of the YIELD's block (R369, R378)
  out    : Bool := false               -- saved while its panel stays resident (R370)
  started : Nat := 0
  spare  : SMap PcSlot := []           -- what a handler's window wrote to an empty slot, 0 A and 1 B (R389)
deriving DecidableEq, Repr

/-- An open walk: extents and the indices delivered (R123, R124). -/
structure Walk where
  x : Nat
  y : Nat
  z : Nat
  done : List Nat
deriving DecidableEq, Repr

/-- A bobbin (R24, R107, R119). -/
structure Bobbin where
  thr   : Thr := {}
  pos   : Pos
  stack : List W64 := []
  walk  : Option Walk := none
  isOver  : Bool := false
  evict : Bool := false               -- its panel leaves its core once every strand is saved (R367)
deriving DecidableEq, Repr

/-! Panels (R25, R354, R355). -/

/-- A continuation record of 32 bytes (R354). -/
structure Rec where
  hdr   : W64
  frame : W64
  join  : W64
  shape : W64
deriving DecidableEq, Repr

/-- A respawn record of one lane (R114): header, main file, queue, O and predicates. -/
structure SpawnRec where
  tgt : W64
  v   : SMap W32
  q   : List W32
  o   : List W32
  p   : BitVec 7
deriving DecidableEq, Repr

/-- Barrier state (R256, R257). -/
structure Barrier where
  arrived : Nat := 0
  gen     : Nat := 0
  target  : Nat := 0
deriving DecidableEq, Repr

/-- The sparse configuration of a panel (R288). -/
structure Sparse where
  colidx : Nat
  rowptr : Nat
  nnz    : Nat
  nbc    : Nat
  vals   : Nat
deriving DecidableEq, Repr

/-- The A latch (R280): its key, and the slabs, each 512 words in order of lane and register, with the As registers of 32 lanes;
one of either where every step reads the same. -/
structure Latch where
  strand : Nat
  a      : Nat
  ainc   : Nat
  ksteps : Nat
  fmt    : MFmt
  asreg  : Nat
  asinc  : Nat
  slabs  : List (List W32)
  scales : List (List W32)
deriving DecidableEq, Repr

/-- A scoreboard entry of a panel saved with its image (R235): the copy, and its intervals in panel bytes. -/
structure SavedEntry where
  op   : Nat
  rlo  : Nat
  rhi  : Nat
  wlo  : Nat
  whi  : Nat
  poison : Bool
deriving DecidableEq, Repr

/-- A panel. `core` is the core of its die while it is resident. -/
structure Panel where
  crec    : Rec
  panelId : Nat
  garment : Nat
  swatch  : Option Nat              -- the key of its swatch
  swIdx   : Nat := 0
  part    : Nat
  ctx     : Nat
  die     : Nat
  core    : Option Nat
  prio    : Nat
  strands : SMap Strand
  bob     : Bobbin
  spadBase : Nat := 0
  spad    : SMap Byte := []
  full    : List Nat := []          -- scratchpad words whose full bit is set, by word number
  tiles   : SMap W32 := []          -- element t·4096 + m·64 + n, the nonzero ones
  tileBad : List Nat := []          -- groups of 8 elements that hold an uncorrectable error, by element number ÷ 8 (R260)
  tileSoft : List Nat := []         -- groups that hold an error still to be corrected
  latch   : Option Latch := none
  sparse  : Option Sparse := none
  masks   : SMap W64 := []          -- tree-mask rows stored inverted: slot·64 + row (every bit 1 at start)
  bars    : SMap Barrier := []
  spawn   : List SpawnRec := []     -- lane records not yet in a formed group
  groups  : List (List SpawnRec) := []   -- formed strands that wait to start
  status  : Nat := 0
  done    : Bool := false           -- ended, while other panels of its swatch have not (R248)
  killed  : Bool := false
  joined  : Nat := 0                -- its JOIN decrement: 0 not made, 1 on its way, 2 made (R361)
  leaving : Bool := false           -- a swap-out or an eviction of the whole panel is under way
  saved   : List SavedEntry := []   -- oldest first (R232)
  copyNext : Nat := 0               -- the first copy of the strand sequence that no slice has reached (R244)
  collNext : Nat := 0               -- the same of the collective sequence (R326)
  seqNo   : Nat := 0                -- order of start on its core
deriving DecidableEq, Repr

/-- A swatch: its panels by handle and its four barriers (R256, R354). -/
structure Swatch where
  panels : List Nat
  bars   : SMap Barrier := []
deriving DecidableEq, Repr

/-! Cores. -/

/-- One range scoreboard entry (R231): the operation, the owning panel, intervals in core scratchpad bytes, poison, and its
age. -/
structure SbEntry where
  op     : Nat
  panel  : Nat
  rlo    : Nat
  rhi    : Nat
  wlo    : Nat
  whi    : Nat
  poison : Bool := false
  age    : Nat
deriving DecidableEq, Repr

/-- A tile-writing operation (R261, R315). The slabs of an MLOOP stand in its key, read at issue, which R279 allows; an MCVT
carries the values of its lanes' generators (R284), an MRESC the rows it rescales with their factors. -/
inductive EngOp where
  | mloop (reuse : Bool) (key : Latch) (baddr : Nat) (binc : Int) (sbaddr : Nat) (sbinc : Int) (sparse : Option Sparse)
  | mzero
  | mldt (a pitch : Nat)
  | madd (src : Nat) (ar : Arith)
  | mcvt (src fmt : Nat) (ar : Arith) (gens : List Nat)
  | mresc (div : Bool) (rows : List (Nat × Nat))
deriving DecidableEq, Repr

/-- An engine queue entry: its panel, issuer and instruction address, the tiles it acts on, its scoreboard entry, and its steps: what
each works on (an MLOOP's k, an MZERO's tile) and the address of its B slab; the steps done. -/
structure EngEntry where
  id     : Nat
  panel  : Nat
  issuer : Ex
  pc     : W64
  tiles  : List Nat
  op     : EngOp
  sb     : Option Nat
  steps  : List (Nat × Int) := []
  step   : Nat := 0
  running : Bool := false
deriving DecidableEq, Repr

/-- An MSTT in progress (R285): the elements to write in its panel, on the core of a key, with its scoreboard entry. -/
structure Mstt where
  panel  : Nat
  issuer : Ex
  po     : Po := {}
  tile   : Nat
  key    : Nat
  sb     : Nat
  bytes  : List (Nat × Nat × Nat)       -- offset, width in bytes, value
deriving DecidableEq, Repr

/-- The grant of a core's matrix engine (R271, R405): granted, requested, and by an MLOOP among others, the panels with a standing
request, and the instant its queue emptied. -/
structure Grant where
  granted  : Bool := false
  pending  : Bool := false
  loop     : Bool := false
  standing : List Nat := []
  mgtStanding : Bool := false
  emptyAt  : Option Nat := none
deriving DecidableEq, Repr

/-- A translation held by a TLB: context slot, virtual base, page size in bits, physical base and rights (R396, R398). -/
structure Tlb where
  ctx  : Nat
  va   : Nat
  bits : Nat
  pa   : Nat
  r    : Bool
  w    : Bool
  x    : Bool
deriving DecidableEq, Repr

/-- A core of a compute die. -/
structure Core where
  sb     : SMap SbEntry := []
  eng    : List EngEntry := []
  grant  : Grant := {}
  l1     : SMap (List Byte) := []     -- 64-byte sectors: space, context and window address ÷ 64
  l1Bad  : List Nat := []             -- lines of the L1 that hold a parity error, by key ÷ 4 (R179)
  tlb    : List Tlb := []
  ready  : List Ex := []              -- released from walks and not yet issued again, in the order their misses came (R398)
  lcAhead : W64 := 0                  -- its Lamport clock, as far as it is ahead of the count of clks (R217)
deriving DecidableEq, Repr

/-! Compute dies and context slots. -/

/-- The state of a context slot (R391). -/
inductive CtxSt where
  | free | preparing | loaded | saving | saved | ended
deriving DecidableEq, Repr

/-- A context slot of one die: state and end, the registers 0x000 to 0x040 by number (R401), the hidden write and read
indices of its completion queues (R333), the watchdog (R393, R415), and the bias table (R196). -/
structure Ctx where
  st     : CtxSt := .free
  ending : Nat := 0
  regs   : SMap W64 := []
  wi     : SMap Nat := []
  ri     : SMap Nat := []
  wdLimit : W64 := 0
  wdLast : Nat := 0
  wdLatched : Bool := false
  bias   : SMap W64 := []
  saveAt : W64 := 0
  trigDropped : Nat := 0
  abandoned : Nat := 0
  kept   : List Panel := []           -- images of the panels that an expiry during a save left (R394)
deriving DecidableEq, Repr

/-- A record in a work ring, with its garment (R362, R357), and the place of the ring in memory it lies in (none: memory does not
take it). -/
structure LUnit where
  crec    : Rec
  garment : Nat
  slot    : Option Nat := none
deriving DecidableEq, Repr

/-- A launch unit or continuation a distributor holds until its ring has room (R362, R413). -/
structure HeldUnit where
  ctx   : Nat
  part  : Nat
  level : Nat
  unit  : LUnit
deriving DecidableEq, Repr

/-- An entry of a parked table (R385): the executor, whether a window claimed it, and its order of entry. -/
structure ParkEntry where
  ex      : Ex
  claimed : Bool := false
  order   : Nat
deriving DecidableEq, Repr

/-- A fault log entry (R400). -/
structure FlogEntry where
  code   : Nat
  ctx    : Nat
  pkg    : Nat
  vdie   : Nat
  core   : Nat
  strand : Nat
  cls    : Nat
  panel  : Nat
  pc     : W64
  addr   : W64
  time   : W64
deriving DecidableEq, Repr

/-- A fault log (R400). -/
structure Flog where
  entries : List FlogEntry := []
  ovf     : Bool := false
deriving DecidableEq, Repr

/-- A home L2 line (R180, R192): generation, valid and dirty masks. -/
structure L2Line where
  gen   : BitVec 16 := 0
  valid : BitVec 256 := 0
  dirty : BitVec 256 := 0
deriving DecidableEq, Repr

/-- An ordinal record (R194). -/
structure OrdRec where
  next : Nat := 0
  size : Nat := 4
  held : List (Nat × Nat × Nat) := []   -- ordinal, contribution, request
deriving DecidableEq, Repr

/-- A pre-emption under way on a core (R367): the head it makes room for, and whether that is a swatch. -/
structure Preempt where
  core  : Nat
  sw    : Bool := false
  ctx   : Nat
  part  : Nat
  level : Nat
deriving DecidableEq, Repr

/-- A page walk queued or in progress (R398): context, page address, the executors that wait. -/
structure PWalk where
  ctx     : Nat
  page    : Nat
  waiters : List Ex
  stale   : Bool := false
deriving DecidableEq, Repr

/-- A queued trigger (R338): context slot, mode, physical counter, threshold or instant, kind, the eight words, the group and rank, and
its order of issue, and who issued it where (R326). -/
structure Trig where
  ctx    : Nat
  time   : Bool
  cnt    : Nat
  thresh : Nat
  kind   : Nat
  d      : List W64
  pkgs   : List Nat
  mask   : Nat
  rank   : Nat
  order  : Nat
  who    : Ex
  pc     : W64
deriving DecidableEq, Repr

/-- A compute die (R23). -/
structure Die where
  lost    : Bool := false
  off     : Bool := false
  ctxs    : SMap Ctx := []
  tlb     : List Tlb := []
  walks   : List PWalk := []
  parked  : SMap ParkEntry := []
  flog    : Flog := {}
  l2      : SMap L2Line := []
  ords    : SMap OrdRec := []
  spool   : SMap Byte := []
  rings   : SMap (List LUnit) := []     -- context·32 + partition·4 + level, oldest first
  held    : List HeldUnit := []
  preempts : List Preempt := []
  tails   : SMap Nat := []              -- the place of each ring that the next record takes (R362)
  rr      : SMap Nat := []              -- partition served last among equals, by PRIO (R363)
  lcHeard : W64 := 0                    -- the greatest Lamport clock a request brought to its home (R217)
  tokens  : SMap (List W32) := []
  stitch  : SMap W64 := []              -- by physical counter, the nonzero ones (R335)
  trigs   : SMap Trig := []             -- by place in the queue of 1,024 (R338)
  throttled : Bool := false
deriving DecidableEq, Repr

/-! Management cores (R24, R387 to R390). -/

/-- Whether a management core is held, running or halted (R24, R418). -/
inductive MgtSt where
  | held | running | halted
deriving DecidableEq, Repr

/-- A management core or package management core: its registers of R387, R388, R390 and R391, its own data cache (R203), and
the window it has open onto a parked-table entry, by its index and its order of entry. -/
structure Mgt where
  st     : MgtSt := .held
  thr    : Thr := {}
  pos    : Pos := { pc := 0, kind := .entered }
  stack  : List W64 := []
  ctxsel : BitVec 4 := 0
  mevent : BitVec 6 := 0        -- bits 5 to 1; bit 0 is read from the parked table
  meven  : BitVec 6 := 0
  intrap : Bool := false
  mvec   : W64 := 0
  mepc   : W64 := 0
  mcause : W64 := 0
  mdet   : W64 := 0
  mpos   : Pos := { pc := 0, kind := .entered }   -- the position SY.MEPC names, with its block
  window : Option (Nat × Nat) := none
  wsel   : W64 := 0
  lcAhead : W64 := 0            -- its Lamport clock, as far as it is ahead of the count of clks (R217)
  tlbi   : Option Nat := none   -- a TLBI under way has dropped its entries: the first request name after that (R399)
  l1     : SMap (List Byte) := []
  l1Bad  : List Nat := []
deriving DecidableEq, Repr

/-! Requests in progress. -/

/-- A place of global memory: the package, the home socket, the home virtual die by which the map names it, and the byte
within that die (R27). -/
structure Place where
  pkg    : Nat
  socket : Nat
  vd     : Nat
  byte   : Nat
deriving DecidableEq, Repr

/-- A reduction's contribution: the place of its element (none where it is denied), its bits, and its exact value when it is an
immediate (R192, R148), its lane and its address. -/
structure Contrib where
  place : Option Place
  bits  : Nat
  imm   : Option Int
  lane  : Nat
  va    : W64
  win   : Nat := 0
deriving DecidableEq, Repr

/-- What a request does at its point (R208). An element of an LDT is a place or none where another package denies it; a `point` is only
the stamp of an SC operation performed at its issue, or of an SC FENCE, held until it is safe (R218, R225). -/
inductive ROp where
  | load (w : LdW)
  | spool (w : LdW) (die off : Nat)
  | ldt (size : Nat) (els : List (Option Place))
  | store (data : Nat)
  | atom (op : AtomOp) (b : Nat)
  | cas (cmp new : Nat)
  | red (op : RedOp) (ar : Arith) (seed : W64) (replay : Bool) (cs : List Contrib)
  | ord (op : RedOp) (ar : Arith) (seed : W64) (replay : Bool) (o : Nat) (c : Contrib) (first : Bool)
  | value                              -- nothing more to do: the value is known
  | point
deriving DecidableEq, Repr

/-- How far a request has come: sent, performed with its value on the way back, or performed with its acknowledgement on
the way back, each with the failure it carries. -/
inductive RSt where
  | sent
  | held                               -- an ordered contribution accepted and not yet applied (R194)
  | data (v : Nat) (fail : Option TrapInfo)
  | ack (fail : Option TrapInfo)
deriving DecidableEq, Repr

/-- The stamp of an SC operation (R217): the Lamport clock at its issue, and its origin. -/
structure Stamp where
  lc     : W64
  pkg    : Nat
  socket : Nat
  core   : Nat
deriving DecidableEq, Repr

/-- The agent of another package that issued a request (R349); CORE 0x7F is a management core. -/
structure Origin where
  pkg    : Nat
  vdie   : Nat
  core   : Nat
  strand : Nat
  panel  : Nat
deriving DecidableEq, Repr

/-- One access of one lane (R205), or one RED; a `value` carries the flags its form raises when it completes (R157). -/
structure Req where
  ex     : Ex
  pend   : Option Nat := none
  lane   : Nat := 0
  op     : ROp
  socket : Nat := 0           -- the requester's die and core (0x7F a management core)
  core   : Nat := 0
  ctx    : Nat := 0
  panelId : Nat := 0          -- the panel's number, which a fault log entry names (R400)
  va     : W64 := 0
  pc     : W64 := 0
  win    : Nat := 0           -- package physical address: PKG, window, offset
  place  : Option Place := none   -- none: denied at another package
  n      : Nat := 0
  group  : Nat := 0           -- the instruction it belongs to: its accesses have no order among them (R205)
  po     : Po := {}           -- its place in program order (R100, R206)
  lc     : W64 := 0           -- the Lamport clock it carries (R217)
  refused : Bool := false     -- a contribution refused and not yet accepted (R194)
  bypass : Nat := 0
  acq    : Bool := false
  scope  : Nat := 0
  stamp  : Option Stamp := none
  flags  : BitVec 6 := 0
  fill   : Bool := false      -- a plain load with BYPASS 0, which fills L1 (R179, R208)
  s64    : Bool := false      -- a load made once for an S destination: its value has 64 bits (R189)
  src    : Option Origin := none  -- issued on another package (R30): checked here, and its answer leaves the module
  st     : RSt := .sent
deriving DecidableEq, Repr

/-- A form of copy (R240). -/
inductive CpyForm where
  | cpy | cpyg | cpym | load
deriving DecidableEq, Repr

/-- One element of a copy: its near address, its far address, and its index in dimension 0. -/
structure CElt where
  near : Int
  far  : Nat
  i0   : Nat
deriving DecidableEq, Repr

/-- A copy (R244, R245): the panel, its sequence and number, the sixteen descriptor words, the members still to arrive, the
slices that arrived with their issuers and instruction addresses, the scoreboard entries it holds (core key, index, panel), its
destination panels, and the knots it credits (panel and offset). Once it runs: the outer indices and the elements of the present one
still to move (R215), and the bytes written to one destination. -/
structure Copy where
  panel   : Nat
  bobSeq  : Bool
  k       : Nat
  form    : CpyForm
  d       : List W64
  missing : List Nat
  slices  : List (Ex × W64 × Nat × Nat)
  sbs     : List (Nat × Nat × Nat)
  dests   : List Nat
  knot    : Option (Nat × Nat)
  aknot   : Option (Nat × Nat)
  started : Bool := false
  todo    : Option (List Nat) := none
  elts    : List CElt := []
  moved   : Nat := 0
  fault   : Option (Nat × W64) := none   -- the code and the address of the fault it met
  bias    : W64 := 0                     -- the bias entry, read once at start (R246)
  ctx     : Nat
  socket  : Nat
deriving DecidableEq, Repr

/-- An update on its way to a knot (R253): the panel that holds it and the offset, the address a refusal reports, the changes,
the unit it must have (none: the knot's own); an engine credit of so many bytes, or one tile (R245); the drops it records (R248);
the executors a refusal is recorded for. -/
structure KnotUpd where
  panel : Nat
  off   : Nat
  addr  : Nat
  darr  : Nat := 0
  dtx   : Int := 0
  unit  : Option Bool := none
  credit : Option Nat := none
  drops : Nat := 0
  who   : List Ex
  op    : Option Nat := none    -- the engine operation it credits
  by'   : Option Ex := none     -- the executor whose KNARR, KNEXP or KNEXPT it is
  po    : Po := {}              -- and its place in program order
deriving DecidableEq, Repr

/-- A join decrement on its way to its object (R361): context, address, and the panel whose completion makes it. -/
structure JoinDec where
  ctx   : Nat
  socket : Nat
  addr  : W64
  panel : Option Nat
deriving DecidableEq, Repr

/-- A garment (R358). -/
structure Garment where
  live   : Nat
  status : W64 := 0
  nbad   : Nat := 0
  first  : Nat := 0
  fin    : Bool := false
deriving DecidableEq, Repr

/-- An installed KV map (R290, R291): its descriptor's address and the fields it had at installation; FREEN stays in memory. -/
structure KvMap where
  addr   : Nat
  lentab : Nat
  bidx   : Nat
  pool   : Nat
  reftab : Nat
  stk    : Nat
  nblk   : Nat
  nseq   : Nat
  maxb   : Nat
  heads  : Nat                          -- heads per sequence
  hd     : Nat
  es     : Nat
deriving DecidableEq, Repr

/-- A KV event's work (R306 to R310), streams by index: a run of a KVLD with its group and where it goes, an append with its bytes,
and the forms on whole streams. -/
inductive KvOp where
  | load (group t pos dim : Nat) (v : Bool) (off : Nat)
  | append (t pos : Nat) (bytes : List Byte)
  | seal (t : Nat)
  | fork (t u : Nat)
  | drop (t ctl : Nat)
deriving DecidableEq, Repr

/-- A KV event on its way to its map (R296): issuer, form and lane, the die and core it came from, context slot and partition. -/
structure KvReq where
  ex   : Ex
  pend : Nat
  lane : Nat
  die  : Nat
  core : Nat
  ctx  : Nat
  part : Nat
  op   : KvOp
  po   : Po := {}
deriving DecidableEq, Repr

/-- A KVLD whose lanes are not all done (R306): its entry, the lanes left, the bytes written, whether a lane failed, its knot. -/
structure Kvld where
  panel : Nat
  who   : Ex
  key   : Nat
  sb    : Nat
  left  : Nat
  bytes : Nat := 0
  bad   : Bool := false
  knot  : Option (Nat × Nat × Nat)      -- panel, offset, address
deriving DecidableEq, Repr

/-- A collective at one member (R318, R324, R328): kind, descriptor, tile, the panel that issued it (none for a trigger) with its
sequence and number, the members of the panel still to arrive, the slices, the scoreboard entry (core key, index), the COMPL knot,
and the group: packages by system number, virtual dies, this member's rank. Once started: its position among the COLLs of its pair, and
whether its demand was posted. Then its exchange table, its source elements by block (none where a read failed), and its own failure; the
free values that stand for members on other packages; a status decided already. While it moves data, one element in each step (R215): the
source elements still to read by block, what was read of each block, the destination elements still to write with the rank that sends
each, the bytes written and the status so far. A finished one stays until every member is. -/
structure Coll where
  kind    : Nat
  d       : List W64
  tile    : Option Nat := none
  panel   : Option Nat := none
  bobSeq  : Bool := false
  k       : Nat := 0
  missing : List Nat := []
  slices  : List (Ex × W64) := []
  sb      : Option (Nat × Nat) := none
  knot    : Option (Nat × Nat) := none
  ctx     : Nat
  socket  : Nat
  pkgs    : List Nat
  mask    : Nat
  rank    : Nat
  started : Bool := false
  seq     : Nat := 0
  posted  : Bool := false
  table   : List (Nat × Nat × Nat × Nat) := []
  src     : Option (List (List (Option Nat))) := none
  bad     : Option Nat := none
  outside : Option Nat := none
  forced  : Option Nat := none
  reads   : Option (List (Nat × Nat)) := none
  got     : List (List (Option Nat)) := []
  out     : Option (List (Nat × Option Nat × Option Nat)) := none
  bytes   : Nat := 0
  status  : Nat := 1
  since   : Option Nat := none   -- the name of the TRIG that queued it, where it is triggered
  fin     : Bool := false
deriving DecidableEq, Repr

/-- The next position in a sequence of COLLs, or of DPOSTs, of one (GROUP, TAG) pair at one member (R324). -/
structure CollSeq where
  ctx    : Nat
  socket : Nat
  group  : Nat
  tag    : Nat
  posts  : Bool
  next   : Nat
deriving DecidableEq, Repr

/-- An increment on its way to a stitch counter on die `socket`, from die `home` (R336). -/
structure ScInc where
  ctx    : Nat
  socket : Nat
  home   : Nat
  cnt    : Nat
  amt    : Nat
deriving DecidableEq, Repr

/-- A demand on its way from a die to the Lay Arbiter (R342). -/
structure Demand where
  ctx    : Nat
  socket : Nat
  group  : Nat
  tag    : Nat
  pos    : Nat
  pkgs   : List Nat
  mask   : Nat
  rank   : Nat
  counts : List Nat
deriving DecidableEq, Repr

/-- An exchange (R342 to R345): its pair and position, its group, the demands posted by rank, the number and phases of its plan, the phases
each member has begun and whether it is transferring, the bytes sent by sender · 2³² + receiver, whether a residual plan was needed,
whether it is over, and the free values of members on other packages. -/
structure Exch where
  ctx     : Nat
  group   : Nat
  tag     : Nat
  pos     : Nat
  pkgs    : List Nat
  mask    : Nat
  posts   : SMap (List Nat) := []
  num     : Nat := 0
  phases  : Option (List (List (Nat × Nat × Nat))) := none
  begun   : SMap (Nat × Bool) := []
  sent    : SMap Nat := []
  resid   : Bool := false
  isOver    : Bool := false
  outside : Nat := 0
deriving DecidableEq, Repr

/-- A context image (R414): slot, virtual die, whether the watchdog was latched, its first word, and what a load restores: registers and
indices, the GARMENTID count, the token queues of the die and the panels saved with it. -/
structure Image where
  slot    : Nat
  vdie    : Nat
  latched : Bool
  head    : Nat
  ctx     : Ctx
  gid     : Nat
  tokens  : SMap (List W32)
  panels  : List Nat
deriving DecidableEq, Repr

/-- The Lay Arbiters (R343, R345): the last plan number of the package's own and of the one that serves exchanges which span packages, the
highest each standby has seen, whether the package has a standby and a failed
primary that may return, and whether an exchange that spans packages has its primary and standby packages. -/
structure Arb where
  last    : Nat := 0
  lastCross : Nat := 0
  seen    : Nat := 0
  seenCross : Nat := 0
  standby : Bool := true
  failed  : Bool := false
  crossPrimary : Bool := true
  crossStandby : Bool := true
deriving DecidableEq, Repr

/-- Another package of the system (R317, R318): whether it lies in the exchange domain, and the die counts of its loaded contexts by
slot. -/
structure Peer where
  exch  : Bool
  slots : SMap Nat := []
deriving DecidableEq, Repr

/-- What the contexts of one slot number share across dies (R391): the garment count and the garments (R357, R358), and the KV
map of each partition (R290), and the resume lists (R366). -/
structure Job where
  gid      : Nat := 0
  garments : SMap Garment := []
  maps     : SMap KvMap := []
  resume   : List Nat := []             -- saved panels that wait for a core, oldest first (R366)
deriving DecidableEq, Repr

/-- The instruction being issued: its executor, its slot, the address a trap reports, its program counter, the block it
lies in and the position that follows it (R92). -/
structure Cur where
  ex    : Ex := .mgt 16
  slotB : Bool := false
  pc    : W64 := 0
  blk   : W64 := 0
  hdr   : W64 := 0
  nxt   : Pos := { pc := 0, kind := .entered }
deriving DecidableEq, Repr

/-! The module. -/

/-- The rings (R15 to R19): the surviving stops by position once they are wrapped, whether injections are held, whether the
chain has split. -/
structure Rings where
  chain : Option (List Nat) := none
  held  : Bool := false
  split : Bool := false
deriving DecidableEq, Repr

/-- The state of the module. -/
structure State where
  /-- Cores by socket · 128 + core; an unlisted core is `{}`. -/
  cores    : SMap Core := []
  /-- Compute dies by socket; an unlisted die is `{}`. -/
  dies     : SMap Die := []
  /-- Management cores by socket, 16 and 17 the I/O dies'. -/
  mgts     : SMap Mgt := []
  panels   : SMap Panel := []
  swatches : SMap Swatch := []
  /-- By context slot number. -/
  jobs     : SMap Job := []
  reqs     : SMap Req := []
  copies   : SMap Copy := []
  knots    : SMap KnotUpd := []
  joins    : SMap JoinDec := []
  mstts    : SMap Mstt := []
  kvs      : SMap KvReq := []
  kvlds    : SMap Kvld := []
  colls    : SMap Coll := []
  collSeqs : List CollSeq := []
  scIncs   : SMap ScInc := []
  demands  : SMap Demand := []
  exchs    : List Exch := []
  arb      : Arb := {}
  /-- The management cores whose double traps the package management core has reported to the host, oldest first (R390). -/
  doubleTraps : List Nat := []
  /-- Context images written, by the name their free words carry. -/
  images   : SMap Image := []
  /-- Global memory of the scale-up domain by canonical address (R27): package · 2⁴¹ + socket · 2³⁷ + byte. -/
  mem      : List Host.Cell := []
  /-- 32-byte groups that hold an uncorrectable error (R180), by canonical address ÷ 32, rising. -/
  badEcc   : List Nat := []
  /-- Groups that hold a soft error still to be corrected (R180). -/
  softEcc  : List Nat := []
  /-- The package time base (R32) and its fraction in 2⁻⁴⁰ ns (R404). -/
  time     : W64 := 0
  frac     : Nat := 0
  /-- The clks counted by the Lamport clock of every core (R217); what a core's clock is ahead of it stands in the core. -/
  lc       : W64 := 0
  cur      : Cur := {}
  /-- The package's number in the domain (R26), its system number (R317), and the other packages of the domain: for each
  context slot that is loaded there, the sockets of its virtual dies (R30). -/
  pkg      : Nat := 0
  sysNum   : Nat := 0
  domain   : SMap (SMap (List Nat)) := []
  /-- The other packages of the system by system number (R317). -/
  peers    : SMap Peer := []
  /-- Device registers by socket · 2²⁴ + offset, where they differ from their reset value (R419 to R437); the outcomes of the
  pattern tests that run, by the key of their channel's block; the channels held for training whose test has completed, by the same key
  (R436), and the channels released after training (R429). -/
  devRegs  : SMap Nat := []
  tests    : SMap (Nat × Nat × Nat) := []
  tested   : List Nat := []
  trained  : List Nat := []
  rings    : Rings := {}
  /-- Mailboxes whose HOSTMB signal waits for the rings to reopen (R19, R425). -/
  rung     : List Nat := []
  /-- Bykan ports lost: 0 to 7 IOD-W's, 8 to 15 IOD-E's (R347). -/
  portsLost : List Nat := []
  /-- Consecutive failed retries of a flit by port (R347). -/
  retries  : SMap Nat := []
  /-- SY.TBRATE, and SY.PTPTX0, SY.PTPTX1, SY.PTPRX0, SY.PTPRX1 (R404). -/
  tbrate   : BitVec 32 := 0
  ptp      : List W64 := List.replicate 4 0
  /-- The boot ROM's stage and last rejection (R429), the image area of its region and BOOTLEN (R427). -/
  stage    : Nat := 0
  bootErr  : Nat := 0
  image    : List Host.Cell := []
  bootLen  : Nat := 0
  /-- Of the image that runs: its SHA-256, its security version, and the SHA-256 of the shuttle firmware loaded (R431). -/
  imgHash  : List Byte := []
  svn      : Nat := 0
  shHash   : List Byte := []
  /-- The ROM's copy of the device secret still stands (R427); the alias key's private scalar, once it is derived (R430). -/
  romSecret : Bool := true
  aliasKey : Nat := 0
  /-- The OTP floor, as far as firmware has raised it (R428), and whether the module is powered off. -/
  otpFloor : Nat := 0
  off      : Bool := false
  /-- The model's own: the executor that issues next where that is already decided, the slots still to issue in this round and the
  issues left in it (R98), how often in a row the steps in progress came first, and how often an issue did (R365), steps to take next,
  steps made possible and not yet taken, the next name, and the free-value counter. -/
  turn     : Option Ex := none
  rota     : List (Ex × Bool) := []
  rotaLeft : Nat := 0
  flushes  : Nat := 0
  issues   : Nat := 0
  agenda   : List Instr := []
  inflight : List Instr := []
  nextId   : Nat := 1
  free     : Nat := 0
deriving DecidableEq, Repr

/-- Why a step stops the machine. -/
inductive Fault where
  /-- Raised by no step: every trap of the LZ880 is taken, and no address outside the address space is ever accessed. Safe. -/
  | none
deriving DecidableEq, Repr

/-- Why a step has no meaning. -/
inductive Refusal where
  /-- An instruction that has no meaning yet, by its mnemonic. Safe. -/
  | notModelled (mnemonic : String)
  /-- The issue context names no executor that exists: no step of the machine issues such an instruction. Safe. -/
  | noExecutor
deriving DecidableEq, Repr

/-- The outcome of a step. -/
abbrev Out := Host.Outcome State Fault Refusal

/-- The module once power-on reset completes, before firmware runs (R7, R427): IOD-W's package management core runs the boot
ROM, which is the steps of R427 to R429; every other management core is held. -/
def State.reset : State := { mgts := [(16, { st := .running })] }

end Sys2Proof.Machine
end

