-- ==== Sys2Proof/Machine/Maps.lean ====
section
/-! DEFINITION. Finite maps in canonical form, byte memory over them, and the accessors of the state's parts. -/

namespace Sys2Proof.Machine

/-- The value at key k. -/
def SMap.look {α : Type} : SMap α → Nat → Option α
  | [], _ => none
  | (k', v) :: m, k => if k' = k then some v else if k < k' then none else SMap.look m k

/-- The value at key k, d where there is none. -/
def SMap.lookD {α : Type} (m : SMap α) (k : Nat) (d : α) : α := (SMap.look m k).getD d

/-- The map with v at key k. -/
def SMap.put {α : Type} : SMap α → Nat → α → SMap α
  | [], k, v => [(k, v)]
  | (k', v') :: m, k, v =>
    if k' = k then (k, v) :: m else if k < k' then (k, v) :: (k', v') :: m else (k', v') :: SMap.put m k v

/-- The map without key k. -/
def SMap.del {α : Type} : SMap α → Nat → SMap α
  | [], _ => []
  | (k', v') :: m, k => if k' = k then m else if k < k' then (k', v') :: m else (k', v') :: SMap.del m k

/-- The map with v at key k, where an absent key stands for d: no entry ever holds d. -/
def SMap.putD {α : Type} [DecidableEq α] (m : SMap α) (k : Nat) (v d : α) : SMap α :=
  if v = d then SMap.del m k else SMap.put m k v

/-- Every key of the map is above b. -/
def SMap.above {α : Type} (b : Nat) : SMap α → Bool
  | [] => true
  | (k, _) :: m => b < k && SMap.above k m

/-- Strictly rising keys. -/
def SMap.rising {α : Type} : SMap α → Bool
  | [] => true
  | (k, _) :: m => SMap.above k m

/-- Rising keys, and no entry that holds d. -/
def SMap.wf {α : Type} [DecidableEq α] (d : α) (m : SMap α) : Bool := SMap.rising m && m.all fun e => e.2 != d

/-! Byte memory. An unlisted address reads as 0 (log 3). -/

/-- The canonical form of memory: rising addresses, no entry equal to what an unlisted address reads as. -/
def Memory.wf (m : List Host.Cell) : Bool := SMap.wf (0 : Byte) m

/-- The byte at an address. -/
def Memory.byte (m : List Host.Cell) (a : Nat) : Byte := SMap.lookD m a 0

/-- The memory with one byte written. -/
def Memory.setByte (m : List Host.Cell) (a : Nat) (b : Byte) : List Host.Cell := SMap.putD m a b 0

/-- The little-endian value of n bytes at an address (R3). -/
def Memory.read (m : List Host.Cell) (a : Nat) : Nat → Nat
  | 0 => 0
  | n + 1 => (Memory.byte m a).toNat + 256 * Memory.read m (a + 1) n

/-- The memory with the n low bytes of v stored at an address (R3). -/
def Memory.write (m : List Host.Cell) (a : Nat) : Nat → Nat → List Host.Cell
  | 0, _ => m
  | n + 1, v => Memory.write (Memory.setByte m a (BitVec.ofNat 8 v)) (a + 1) n (v / 256)

/-! Choices (log 2). -/

/-- An element put at a place of a list. -/
def insertAt {α : Type} (k : Nat) (x : α) : List α → List α
  | [] => [x]
  | y :: ys => if k % (ys.length + 2) = 0 then x :: y :: ys else y :: insertAt (k - 1) x ys

/-- A list in an order that is a free value, from counter n on. -/
def shuffle {α : Type} (n : Nat) : List α → List α
  | [] => []
  | x :: xs => insertAt (Config.pick n) x (shuffle (n + 1) xs)

/-- One element of a list, which one being a free value where there are several. -/
def choose {α : Type} (n : Nat) (xs : List α) : Option α :=
  match xs with
  | [] => none
  | [x] => some x
  | x :: y :: ys => (x :: y :: ys)[Config.pick n % (ys.length + 2)]?

/-! The parts of the state. -/

/-- What the form at a slot waits for (R366, R117). -/
def Thr.setWait (t : Thr) (b : Bool) (w : Waiting) : Thr := if b then { t with waitB := w } else { t with wait := w }

namespace State

def core (s : State) (k : Nat) : Core := SMap.lookD s.cores k {}
def setCore (s : State) (k : Nat) (c : Core) : State := { s with cores := SMap.put s.cores k c }
def modCore (s : State) (k : Nat) (f : Core → Core) : State := s.setCore k (f (s.core k))

def die (s : State) (k : Nat) : Die := SMap.lookD s.dies k {}
def setDie (s : State) (k : Nat) (d : Die) : State := { s with dies := SMap.put s.dies k d }
def modDie (s : State) (k : Nat) (f : Die → Die) : State := s.setDie k (f (s.die k))

def mgt (s : State) (k : Nat) : Mgt := SMap.lookD s.mgts k {}
def modMgt (s : State) (k : Nat) (f : Mgt → Mgt) : State := { s with mgts := SMap.put s.mgts k (f (s.mgt k)) }

def panel? (s : State) (h : Nat) : Option Panel := SMap.look s.panels h
def setPanel (s : State) (h : Nat) (p : Panel) : State := { s with panels := SMap.put s.panels h p }
def modPanel (s : State) (h : Nat) (f : Panel → Panel) : State :=
  match s.panel? h with
  | some p => s.setPanel h (f p)
  | none => s

def strand? (s : State) (h i : Nat) : Option Strand :=
  match s.panel? h with
  | some p => SMap.look p.strands i
  | none => none
def modStrand (s : State) (h i : Nat) (f : Strand → Strand) : State :=
  s.modPanel h fun p =>
    match SMap.look p.strands i with
    | some t => { p with strands := SMap.put p.strands i (f t) }
    | none => p

def modBob (s : State) (h : Nat) (f : Bobbin → Bobbin) : State := s.modPanel h fun p => { p with bob := f p.bob }

/-- The context slot c of a die (R391). -/
def ctx (s : State) (d c : Nat) : Ctx := SMap.lookD (s.die d).ctxs c {}
def modCtx (s : State) (d c : Nat) (f : Ctx → Ctx) : State :=
  s.modDie d fun x => { x with ctxs := SMap.put x.ctxs c (f (SMap.lookD x.ctxs c {})) }

def job (s : State) (c : Nat) : Job := SMap.lookD s.jobs c {}
def modJob (s : State) (c : Nat) (f : Job → Job) : State := { s with jobs := SMap.put s.jobs c (f (s.job c)) }

/-- What every executor holds; nothing for one that does not exist. -/
def thr? (s : State) : Ex → Option Thr
  | .str h i => (s.strand? h i).map (·.thr)
  | .bob h => (s.panel? h).map (·.bob.thr)
  | .mgt m => some (s.mgt m).thr

def thr (s : State) (e : Ex) : Thr := (s.thr? e).getD {}

def modThr (s : State) (e : Ex) (f : Thr → Thr) : State :=
  match e with
  | .str h i => s.modStrand h i fun t => { t with thr := f t.thr }
  | .bob h => s.modBob h fun b => { b with thr := f b.thr }
  | .mgt m => s.modMgt m fun g => { g with thr := f g.thr }

/-- A new name. -/
def fresh (s : State) : Nat × State := (s.nextId, { s with nextId := s.nextId + 1 })

/-- A step made possible: it happens later, in an order the agenda decides (log 2). -/
def post (s : State) (i : Instr) : State := { s with inflight := s.inflight ++ [i] }

def setMem (s : State) (m : List Host.Cell) : State := { s with mem := m }

end State

/-- The panel an executor belongs to. -/
def Ex.panel : Ex → Option Nat
  | .str h _ => some h
  | .bob h => some h
  | .mgt _ => none

/-- Executors that are no strand: one value per instruction, S registers and immediates only (R80). -/
def Ex.scalar : Ex → Bool
  | .str _ _ => false
  | .bob _ => true
  | .mgt _ => true

/-- Fields of a continuation record's SHAPE (R354). -/
def Rec.bob (r : Rec) : Int := Word.toSigned 16 (r.shape.toNat / 2 ^ 48)
def Rec.spad (r : Rec) : Nat := Word.bits r.shape.toNat 47 40
def Rec.ntiles (r : Rec) : Nat := Word.bits r.shape.toNat 39 35
def Rec.vregs8 (r : Rec) : Nat := Word.bits r.shape.toNat 34 28
def Rec.vregs (r : Rec) : Nat := 8 * r.vregs8
def Rec.nstr (r : Rec) : Nat := Word.bits r.shape.toNat 27 23 + 1
def Rec.sw (r : Rec) : Bool := Word.bit r.shape.toNat 22
def Rec.swm1 (r : Rec) : Nat := Word.bits r.shape.toNat 21 19
def Rec.panelId (r : Rec) : Nat := Word.bits r.shape.toNat 18 0
/-- The GARMENTID of a panel: a garment's key is its number with the wraps of the count and the loads of its slot above bit 24 (R357). -/
def Panel.gid (p : Panel) : Nat := p.garment % 2 ^ 24

/-- The panels a record makes (R354). -/
def Rec.panels (r : Rec) : Nat := if r.sw then r.swm1 + 1 else 1

namespace State

/-- The die and core an executor runs on; 0x7F a management core (R381). A panel off its core keeps its die. -/
def site (s : State) (e : Ex) : Nat × Nat :=
  match e with
  | .mgt m => (m, 0x7F)
  | .str h _ => match s.panel? h with | some p => (p.die, p.core.getD 0x7F) | none => (0, 0x7F)
  | .bob h => match s.panel? h with | some p => (p.die, p.core.getD 0x7F) | none => (0, 0x7F)

/-- The key of a core. -/
def coreKey (socket core : Nat) : Nat := socket * 128 + core

/-- The context slot an executor acts on: its panel's, or the one SY.CTXSEL selects (R80, R462). -/
def ctxOf (s : State) (e : Ex) : Nat :=
  match e with
  | .mgt m => (s.mgt m).ctxsel.toNat
  | .str h _ => ((s.panel? h).map (·.ctx)).getD 0
  | .bob h => ((s.panel? h).map (·.ctx)).getD 0

/-- A register of a context slot by number (R401). -/
def ctxReg (s : State) (d c n : Nat) : W64 := SMap.lookD (s.ctx d c).regs n 0

/-- The sockets of the virtual dies of a context, in order (R20). -/
def dmap (s : State) (d c : Nat) : List Nat :=
  ((List.range 16).filterMap fun n =>
    let x := (s.ctxReg d c n).toNat
    if Word.bit x 31 then some (Word.bits x 5 0) else none)

/-- The die count of a context (R21). -/
def dieCount (s : State) (d c : Nat) : Nat := (s.dmap d c).length

/-- The virtual die of a socket in a context (R23). -/
def vdie (s : State) (d c socket : Nat) : Nat := ((s.dmap d c).findIdx? (· == socket)).getD 0

end State

end Sys2Proof.Machine
end

