-- ==== Sys2Proof/Machine/Operands.lean ====
section
/-! DEFINITION. Operands: reading a source at its level, writing and pushing a result (R43 to R48, R50 to R56, R67, R68), the
static checks of operand fields (R44, R46, R51, R80, R130), and pending locations (R48, R65). -/

namespace Sys2Proof.Machine

/-- The context of one issue: who issues, where, the lanes of the issuing slot, the active and helper lanes, the active
helper lanes that meet a trap condition (R56: such a lane raises nothing and its result is 0), those of them whose destination is
a V[On] out of range, and the registers as every source reads them (R47: sources are read before any push). `quiet`: only helper
lanes are active, so that no trap condition raises anything (R56, R57); `dst` and `ar` are the destination and the rounding such an
instruction completes with. -/
structure Cx where
  ex     : Ex
  slotB  : Bool
  pc     : W64
  blk    : W64
  hdr    : W64
  nxt    : Pos
  mask   : Mask
  act    : Mask
  helper : Mask
  dead   : Mask := 0
  noDst  : Mask := 0
  lanes  : List Lane
  thr    : Thr
  quiet  : Bool := false
  dst    : Option (Wd × Opnd) := none
  ar     : Arith := Arith.plain
deriving DecidableEq, Repr

/-- The lanes of a mask, ascending. -/
def lanesOf (m : Mask) : List Nat := (List.range 32).filter fun l => m.getLsbD l

/-- The mask of one lane. -/
def laneBit (l : Nat) : Mask := BitVec.ofNat 32 (2 ^ l)

/-- The mask of a list of lanes. -/
def maskOf (ls : List Nat) : Mask := ls.foldl (fun m l => m ||| laneBit l) 0

namespace Lane

def qAt (n : Lane) (k : Nat) : W32 := n.q.getD k 0
def oAt (n : Lane) (k : Nat) : W32 := n.o.getD k 0
def vAt (n : Lane) (k : Nat) : W32 := SMap.lookD n.v k 0

def setQ (n : Lane) (k : Nat) (x : W32) : Lane := { n with q := n.q.set k x }
def setO (n : Lane) (k : Nat) (x : W32) : Lane := { n with o := n.o.set k x }
def setV (n : Lane) (k : Nat) (x : W32) : Lane := { n with v := SMap.putD n.v k x 0 }

/-- Predicate k; P7 reads 1 (R55). -/
def pAt (n : Lane) (k : Nat) : Bool := if k = 7 then true else n.p.getLsbD k

/-- A write to predicate k; a write to P7 is ignored (R55). -/
def setP (n : Lane) (k : Nat) (b : Bool) : Lane :=
  if k = 7 then n else { n with p := if b then n.p ||| BitVec.ofNat 7 (2 ^ k) else n.p &&& ~~~ (BitVec.ofNat 7 (2 ^ k)) }

/-- The push of one 32-bit value (R47): Q15 is discarded. -/
def push1 (n : Lane) (x : W32) : Lane := { n with q := (x :: n.q).take 16 }

/-- The push of a result; the high half of a 64-bit result goes first (R46). -/
def push (n : Lane) (w : Wd) (x : Nat) : Lane :=
  match w with
  | .w32 => n.push1 (BitVec.ofNat 32 x)
  | .w64 => (n.push1 (BitVec.ofNat 32 (x / 2 ^ 32))).push1 (BitVec.ofNat 32 x)

end Lane

/-- Two 32-bit halves as one value (R46). -/
def pair (lo hi : W32) : Nat := lo.toNat + 2 ^ 32 * hi.toNat

/-- Src(f, l): a source's pattern in one lane, w bits wide (R43, R45, R46, R53, R54). -/
def readOpnd (ss : List W64) (n : Lane) (w : Wd) (x : Opnd) : Nat :=
  match x, w with
  | .q k, .w32 => (n.qAt k.toNat).toNat
  | .q k, .w64 => pair (n.qAt k.toNat) (n.qAt (k.toNat + 1))
  | .o k, .w32 => (n.oAt k.toNat).toNat
  | .o k, .w64 => pair (n.oAt k.toNat) (n.oAt (k.toNat + 1))
  | .v k, .w32 => (n.vAt k.toNat).toNat
  | .v k, .w64 => pair (n.vAt k.toNat) (n.vAt (k.toNat + 1))
  | .vo k, .w32 => (n.vAt (n.oAt k.toNat).toNat).toNat
  | .vo k, .w64 => pair (n.vAt (n.oAt k.toNat).toNat) (n.vAt ((n.oAt k.toNat).toNat + 1))
  | .s k, .w32 => (ss.getD k.toNat 0).toNat % 2 ^ 32
  | .s k, .w64 => (ss.getD k.toNat 0).toNat
  | .imm i, .w32 => Word.ofInt 32 i.toInt
  | .imm i, .w64 => Word.ofInt 64 i.toInt
  | .illegal _, _ => 0
  | .sel _, _ => 0

/-- Dst(f, l, v): a result written at its level in one lane; a queue-only destination and S change no lane (R68). -/
def writeOpnd (n : Lane) (w : Wd) (x : Opnd) (v : Nat) : Lane :=
  match x, w with
  | .o k, .w32 => n.setO k.toNat (BitVec.ofNat 32 v)
  | .o k, .w64 => (n.setO k.toNat (BitVec.ofNat 32 v)).setO (k.toNat + 1) (BitVec.ofNat 32 (v / 2 ^ 32))
  | .v k, .w32 => n.setV k.toNat (BitVec.ofNat 32 v)
  | .v k, .w64 => (n.setV k.toNat (BitVec.ofNat 32 v)).setV (k.toNat + 1) (BitVec.ofNat 32 (v / 2 ^ 32))
  | .vo k, .w32 => n.setV (n.oAt k.toNat).toNat (BitVec.ofNat 32 v)
  | .vo k, .w64 =>
    (n.setV (n.oAt k.toNat).toNat (BitVec.ofNat 32 v)).setV ((n.oAt k.toNat).toNat + 1) (BitVec.ofNat 32 (v / 2 ^ 32))
  | .q _, _ => n
  | .s _, _ => n
  | .imm _, _ => n
  | .illegal _, _ => n
  | .sel _, _ => n

namespace Cx

/-- The lane a source is read in. -/
def lane (c : Cx) (l : Nat) : Lane := c.lanes.getD l {}

/-- Src(f, l) at this issue. -/
def src (c : Cx) (w : Wd) (x : Opnd) (l : Nat) : Nat := readOpnd c.thr.ss (c.lane l) w x

/-- S register n. -/
def s (c : Cx) (n : Nat) : Nat := (c.thr.ss.getD n 0).toNat

/-- The lowest active lane. -/
def low (c : Cx) : Nat := (lanesOf c.act).headD 0

/-- A uniform operand: S or an immediate. -/
def uni (c : Cx) (w : Wd) (x : Opnd) : Nat := c.src w x c.low

/-- Whether some lane is active. -/
def any (c : Cx) : Bool := c.act != 0

/-- The active lanes that are not helper lanes. -/
def parts (c : Cx) : List Nat := lanesOf (c.act &&& ~~~ c.helper)

end Cx

/-! Static checks (R66 order 5). -/

/-- What the issue checks know of the issuer: `.vregs`, `.tiles`, and whether it is a strand or a management core. -/
structure Who where
  vregs  : Nat
  tiles  : Nat
  scalar : Bool
  mgt    : Bool
  pkg    : Bool
deriving DecidableEq, Repr

/-- A source operand at an allowed level, in range and legally paired (R43, R46, R51, R80). -/
def srcOk (h : Who) (lv : Lv) (w : Wd) (x : Opnd) : Bool :=
  match x with
  | .q n => lv.q && !h.scalar && (w == .w32 || n.toNat < 15)
  | .o n => lv.o && !h.scalar && (w == .w32 || n.toNat % 2 == 0)
  | .v i => lv.v && !h.scalar && (if w == .w64 then i.toNat % 2 == 0 && i.toNat + 1 < h.vregs else i.toNat < h.vregs)
  | .s _ => lv.s
  | .imm _ => lv.imm
  | .vo _ => lv.vo && !h.scalar
  | .illegal _ => false
  | .sel _ => false

/-- A destination (R44, R46, R51, R80): queue-only is no register, and on a scalar executor stands only where the form
allows no destination. -/
def dstOk (h : Who) (lv : Lv) (w : Wd) (x : Opnd) : Bool :=
  match x with
  | .q _ => lv.q && (!h.scalar || lv == Lv.ovLink || lv == Lv.dstQS)
  | .o n => lv.o && !h.scalar && (w == .w32 || n.toNat % 2 == 0)
  | .v i => lv.v && !h.scalar && (if w == .w64 then i.toNat % 2 == 0 && i.toNat + 1 < h.vregs else i.toNat < h.vregs)
  | .s _ => lv.s
  | .vo _ => lv.vo && !h.scalar
  | .imm _ => false
  | .illegal _ => false
  | .sel _ => false

/-- A tile handle at the immediate level, below the allocation (R273). -/
def tileOk (h : Who) (x : Opnd) : Bool :=
  match x with
  | .imm i => i.toNat < 16 && i.toNat < h.tiles
  | _ => false

/-- The handle a tile operand names. -/
def tileOf (x : Opnd) : Nat :=
  match x with
  | .imm i => i.toNat
  | .sel r => r.toNat
  | _ => 0

/-- One field against its description; `dst` for the destination field. -/
def fldOk (h : Who) (dst : Bool) (f : Fld) (x : Opnd) : Bool :=
  match f with
  | .zero => true
  | .val lv w => if dst then dstOk h lv w x else srcOk h lv w x
  | .tile => tileOk h x
  | .tileOpt => x == .q 0 || tileOk h x
  | .mgtOnly w => !h.mgt || srcOk h Lv.sImm w x
  | .base lv =>
    match x with
    | .v i => lv.v && i.toNat < h.vregs
    | .s _ => lv.s
    | _ => false
  | .sbase m => (match x with | .s n => n.toNat % m == 0 | _ => false)
  | .smax k => (match x with | .s n => n.toNat ≤ k | _ => false)

/-- Source C against its description. -/
def cfldOk (h : Who) (f : CFld) (x : Opnd) : Bool :=
  match f with
  | .zero => true
  | .val lv w => srcOk h lv w x
  | .policy => (match x with | .s _ => true | .q n => n == 0 | _ => false)
  | .pred => true
  | .fmt => true
  | .mode => true
  | .tile => (match x with | .sel r => r.toNat < 16 && r.toNat < h.tiles | _ => false)
  | .sbase m => (match x with | .s n => n.toNat % m == 0 | _ => false)

/-- Whether an operand is the same in every lane: S or an immediate. -/
def uniform (x : Opnd) : Bool :=
  match x with
  | .s _ => true
  | .imm _ => true
  | _ => false

/-- R130: an S destination on a strand needs S or immediate sources, VOTE apart, and ISET with an S destination, like every
ISET of a scalar executor, names P7. -/
def sDestOk (h : Who) (i : Instr) (sp : Spec) (x : Args) : Bool :=
  let isS := match x.d with | .s _ => true | _ => false
  let uni (f : Fld) (o : Opnd) := match f with | .val _ _ => uniform o | _ => true
  let uniC := match sp.c with | .val _ _ => uniform x.c | _ => true
  let exempt := match i with | .vote _ _ => true | _ => false
  let iset := match i with | .iset _ _ _ => true | _ => false
  (!isS || h.scalar || exempt || (uni sp.a x.a && uni sp.b x.b && uniC)) &&
  (!iset || !(isS || h.scalar) || x.c == .sel 7)

/-- The bits of an immediate field at and above n, as the operation of 32 bits sees it, are zero. -/
def immBelow (n : Nat) (x : Opnd) : Bool :=
  match x with
  | .imm i => Word.ofInt 32 i.toInt < n
  | _ => true

def vIndex (x : Opnd) : Nat := match x with | .v i => i.toNat | _ => 0
def sIndex (x : Opnd) : Nat := match x with | .s n => n.toNat | _ => 0

/-- The bits of a packed element that UNPK takes, by its format code (R77, R170). -/
def unpkBits (src : Nat) : Nat :=
  if [1, 2, 0xA, 0xE].contains src then 16 else if src == 6 || src == 8 then 4 else 8

/-- What an entry asks of its fields beyond their levels, whatever the values of registers: PLOP's zero positions (R139), MOVI's
half-word number (R141), an immediate index of UNPK (R170), the second control register of MLOOP.E2M1 and MSPC (R273), the register
groups of MROW and MRESC (R313, R315). DESIGN CHOICE: these are static checks, made at order 5 of R66 whether a lane is active or not; and of a PLOP immediate that
an extension prefix widened, bits [31:6] of A and [31:4] of B must be zero, while [35:32], which no 32-bit operation sees, are not
looked at (log 71). -/
def entryOk (h : Who) (i : Instr) : Bool :=
  match i with
  | .plop x => immBelow 64 x.a && immBelow 16 x.b
  | .movi w x => (match x.b with | .imm j => decide (0 ≤ j.toInt ∧ j.toInt < (w.n / 16 : Nat)) | _ => true)
  | .unpk x => immBelow (32 / unpkBits (fmtSrc x.c)) x.b
  | .mloop f _ x => !(f == .e2m1 && sIndex x.b == 63)
  | .mspc x => sIndex x.a != 63
  | .mrow x => decide (vIndex x.d + 5 < h.vregs ∧ vIndex x.b + 63 < h.vregs)
  | .mresc x => decide (vIndex x.b + 1 < h.vregs)
  | _ => true

/-- Every field of an instruction against its form. -/
def fieldsOk (h : Who) (i : Instr) (sp : Spec) (x : Args) : Bool :=
  fldOk h true sp.d x.d && fldOk h false sp.a x.a && fldOk h false sp.b x.b && cfldOk h sp.c x.c && sDestOk h i sp x && entryOk h i

/-! Locations and pending state. -/

/-- A 32-bit location of a lane, or an S register. -/
inductive Loc where
  | q (n : Nat)
  | o (n : Nat)
  | v (n : Nat)
  | s (n : Nat)
deriving DecidableEq, Repr

/-- The locations a source names before the lane's own V[On] index is known: V[On] names On. -/
def srcLocs (w : Wd) (x : Opnd) : List Loc :=
  match x with
  | .q n => if w == .w64 then [.q n.toNat, .q (n.toNat + 1)] else [.q n.toNat]
  | .o n => if w == .w64 then [.o n.toNat, .o (n.toNat + 1)] else [.o n.toNat]
  | .v n => if w == .w64 then [.v n.toNat, .v (n.toNat + 1)] else [.v n.toNat]
  | .s n => [.s n.toNat]
  | .vo n => [.o n.toNat]
  | .imm _ => []
  | .illegal _ => []
  | .sel _ => []

/-- The locations a destination names; queue-only names none. -/
def dstLocs (w : Wd) (x : Opnd) : List Loc :=
  match x with
  | .q _ => []
  | .o _ => srcLocs w x
  | .v _ => srcLocs w x
  | .s _ => srcLocs w x
  | .vo _ => srcLocs w x
  | .imm _ => []
  | .illegal _ => []
  | .sel _ => []

/-- The V locations of a V[On] operand in one lane. -/
def voLocs (n : Lane) (w : Wd) (x : Opnd) : List Loc :=
  match x with
  | .vo k => if w == .w64 then [.v (n.oAt k.toNat).toNat, .v ((n.oAt k.toNat).toNat + 1)] else [.v (n.oAt k.toNat).toNat]
  | _ => []

def fldWd : Fld → Wd
  | .val _ w => w
  | .mgtOnly w => w
  | .zero => .w32 | .tile => .w32 | .tileOpt => .w32 | .base _ => .w32 | .sbase _ => .w32 | .smax _ => .w32

def cfldWd : CFld → Wd
  | .val _ w => w
  | .zero => .w32 | .policy => .w32 | .pred => .w32 | .fmt => .w32 | .tile => .w32 | .sbase _ => .w32 | .mode => .w32

/-- S(n) to S(n + k − 1). -/
def sRange (x : Opnd) (k : Nat) : List Loc :=
  match x with
  | .s n => (List.range k).map fun i => Loc.s (n.toNat + i)
  | _ => []

/-- V(n) to V(n + k − 1). -/
def vRange (x : Opnd) (k : Nat) : List Loc :=
  match x with
  | .v n => (List.range k).map fun i => Loc.v (n.toNat + i)
  | _ => []

/-- Locations a form reads or writes beyond its operand fields: S register groups (R241, R375, R376, R318, R337, R342, R334,
R346, R277, R288) and PACK's Q0 (R169). -/
def extraLocs (i : Instr) : List Loc :=
  match i with
  | .pack x => if fmtDst x.c == 1 || fmtDst x.c == 2 || fmtDst x.c == 0xA || fmtDst x.c == 0xE then [] else [.q 0]
  | .cpy x => sRange x.c 16
  | .cpyg x => sRange x.c 16
  | .cpym x => sRange x.c 16
  | .fork x => sRange x.a 4
  | .jctr x => sRange x.c 4
  | .coll _ x => sRange x.a 8
  | .norm x => sRange x.a 8
  | .dpost x => sRange x.a 8
  | .trig x => sRange x.a 8 ++ sRange x.b 2
  | .lpq x => sRange x.a 8 ++ sRange x.d 2
  | .cqrd x => sRange x.d 4
  | .mloop f _ x => sRange x.b (if f == .e2m1 then 2 else 1)
  | .mspc x => sRange x.a 2
  | _ => []

/-- The A registers an MLOOP names (R268, R278): the slab of each step, and each step's As register of .E2M1, from its control word w and
its scale word z. A step whose registers lie beyond every panel's is left out: its MLOOP traps. -/
def slabLocs (f : MFmt) (a w z : Nat) : List Loc :=
  let ksteps := Word.bits w 47 32
  let ainc := Word.bits w 31 26
  ((List.range (if ainc = 0 then 1 else min ksteps 64)).flatMap fun k => (List.range 16).map fun r => Loc.v (a + 16 * ainc * k + r)) ++
    (if f == .e2m1 then
      (List.range (if Word.bit z 31 then min ksteps 1024 else 1)).map fun k => Loc.v (Word.bits z 41 32 + k)
    else [])

/-- The group of V registers that a form names by its first: MROW's state and P registers (R313), MRESC's factors (R315); an MLOOP's stand
in its control words. -/
def groupLocs (i : Instr) : List Loc :=
  match i with
  | .mrow x => vRange x.d 6 ++ vRange x.b 64
  | .mresc x => vRange x.b 2
  | _ => []

/-- A V register that names a group stands for the group, which `groupAt` gives. -/
def groupBase (f : Fld) (x : Opnd) : Opnd :=
  match f, x with
  | .base _, .v _ => .imm 0
  | _, _ => x

/-- Every location an instruction names statically (R66 order 7); ATCAS also reads its destination (R191), and a field the
form does not use names nothing. -/
def usedLocs (i : Instr) (sp : Spec) (x : Args) : List Loc :=
  let a := if sp.a == .zero then .imm 0 else groupBase sp.a x.a
  let b := if sp.b == .zero then .imm 0 else groupBase sp.b x.b
  let c := match sp.c with | .policy => (match x.c with | .s n => .s n | _ => .imm 0) | .zero => .imm 0 | _ => x.c
  let d := if sp.d == .zero then .imm 0 else groupBase sp.d x.d
  let atc := match i with | .atcas _ _ => true | _ => false
  dstLocs (fldWd sp.d) d ++ (if atc then srcLocs (fldWd sp.d) d else []) ++ srcLocs (fldWd sp.a) a ++
    srcLocs (fldWd sp.b) b ++ srcLocs (cfldWd sp.c) c ++ extraLocs i

/-- The V locations of every V[On] operand in one lane (R66 order 8). -/
def laneLocs (n : Lane) (sp : Spec) (x : Args) : List Loc :=
  voLocs n (fldWd sp.d) x.d ++ voLocs n (fldWd sp.a) x.a ++ voLocs n (fldWd sp.b) x.b

/-- A V[On] operand of one lane is out of range or breaks the pairing rule (R46, R53). -/
def voBad (vregs : Nat) (n : Lane) (w : Wd) (x : Opnd) : Bool :=
  match x with
  | .vo k =>
    let i := (n.oAt k.toNat).toNat
    if w == .w64 then i % 2 != 0 || vregs ≤ i + 1 else vregs ≤ i
  | _ => false

def laneBad (vregs : Nat) (n : Lane) (sp : Spec) (x : Args) : Bool :=
  voBad vregs n (fldWd sp.d) x.d || voBad vregs n (fldWd sp.a) x.a || voBad vregs n (fldWd sp.b) x.b

/-- Whether a pending lane of a form covers a location. -/
def PLane.covers (wide : Bool) (p : PLane) (x : Loc) : Bool :=
  match x with
  | .q n => p.q == some n || (wide && 0 < n && p.q == some (n - 1))
  | .o n => p.reg == some (.o n) || (wide && 0 < n && p.reg == some (.o (n - 1)))
  | .v n => p.reg == some (.v n) || (wide && 0 < n && p.reg == some (.v (n - 1)))
  | .s _ => false

/-- Whether a form still awaits, or has failed, a location named in some lane of a mask. DESIGN CHOICE: an S register has no lanes, so
an instruction names it whether any lane of it is active or not, helpers or none; R65 leaves that open (log 101). -/
def Pend.touches (p : Pend) (bad : Bool) (lanes : Mask) (xs : List Loc) : Bool :=
  xs.any fun x =>
    (match x, p.sreg with
      | .s n, some (m, b) => n == m && b == bad
      | _, _ => false) ||
    p.lanes.any fun pl => pl.bad == bad && lanes.getLsbD pl.lane && pl.covers p.wide x

/-- Whether a form still awaits some location. -/
def Pend.open' (p : Pend) : Bool :=
  p.lanes.any (fun pl => !pl.bad) || (match p.sreg with | some (_, b) => !b | none => false)

/-- The queue positions of a form's entries after a lane pushed k values. -/
def Pend.shift (k : Nat) (lanes : Mask) (p : Pend) : Pend :=
  { p with lanes := p.lanes.map fun pl =>
      if lanes.getLsbD pl.lane then
        { pl with q := match pl.q with | some n => if n + k < 16 then some (n + k) else none | none => none }
      else pl }

def pushesOf : Wd → Nat
  | .w32 => 1 | .w64 => 2

/-- Whether a destination is an S register, and which. -/
def sregOf (x : Opnd) : Option Nat :=
  match x with
  | .s n => some n.toNat
  | _ => none

/-- The register of a lane a destination names. -/
def regOf (n : Lane) (x : Opnd) : Option PReg :=
  match x with
  | .o k => some (.o k.toNat)
  | .v k => some (.v k.toNat)
  | .vo k => some (.v (n.oAt k.toNat).toNat)
  | _ => none

/-- A helper lane that meets a trap condition has the result 0 (R56), which no destination out of range takes. -/
def Cx.deadWrite (c : Cx) (w : Wd) (d : Opnd) (l : Nat) (n : Lane) : Lane :=
  if c.noDst.getLsbD l then n else writeOpnd n w d 0

namespace State

/-- S register n of an executor written (R54). -/
def setS (s : State) (e : Ex) (n : Nat) (v : Nat) : State :=
  s.modThr e fun t => { t with ss := t.ss.set n (BitVec.ofNat 64 v) }

/-- A function applied to the lanes of a strand in a mask, and its pending entries moved by the values those lanes push. -/
def modLanes (s : State) (e : Ex) (m : Mask) (pushes : Nat) (f : Nat → Lane → Lane) : State :=
  match e with
  | .str h i => s.modStrand h i fun t =>
      { t with
               lanes := t.lanes.mapIdx (fun l n => if m.getLsbD l then f l n else n),
               thr := { t.thr with pends := t.thr.pends.map (Pend.shift pushes m) } }
  | .bob _ => s
  | .mgt _ => s

/-- The results of an instruction written and pushed: once to S, or in each active lane (R47, R54, R68). -/
def writeVec (s : State) (c : Cx) (w : Wd) (d : Opnd) (v : Nat → Nat) : State :=
  match d with
  | .s n => if c.any then s.setS c.ex n.toNat (v c.low) else s
  | _ => s.modLanes c.ex c.act (pushesOf w) fun l n =>
      if c.dead.getLsbD l then (c.deadWrite w d l n).push w 0 else (writeOpnd n w d (v l)).push w (v l)

/-- The record of a form's pending locations (R48). -/
def newPend (c : Cx) (id look : Nat) (w : Wd) (d : Opnd) : Pend :=
  let sreg := match sregOf d with | some n => some (n, false) | none => none
  let lanes := if sreg.isSome then [] else
    (lanesOf (c.act &&& ~~~ c.dead)).map fun l => ({ lane := l, q := some 0, reg := regOf (c.lane l) d } : PLane)
  { id := id, mask := c.mask, look := look, wide := w == .w64, lanes := lanes, sreg := sreg }

/-- A pending result: each active lane pushes a pending entry and its destination becomes pending (R48); an S destination
becomes pending once. In a helper lane that meets a trap condition the result is 0 at once (R56). -/
def pendVec (s : State) (c : Cx) (id look : Nat) (w : Wd) (d : Opnd) : State :=
  let s1 := if (sregOf d).isSome then s else s.modLanes c.ex c.act (pushesOf w) fun l n =>
    if c.dead.getLsbD l then (c.deadWrite w d l n).push w 0 else n.push w 0
  s1.modThr c.ex fun t => { t with pends := t.pends ++ [newPend c id look w d] }

/-- A form's record once the value of lane l came, or came back failed; none when nothing is left of it. -/
def arrived (l : Nat) (fail : Option TrapInfo) (q : Pend) : Option Pend :=
  let bad := fail.isSome
  let sreg := match q.sreg with
    | some (n, false) => if bad then some (n, true) else none
    | r => r
  let lanes := if bad then q.lanes.map fun (x : PLane) => if x.lane == l then { x with bad := true } else x
    else q.lanes.filter fun (x : PLane) => !(x.lane == l && !x.bad)
  let f := q.fail.or fail
  if lanes.isEmpty && sreg.isNone && f.isNone then none
  else some { q with sreg := sreg, lanes := lanes, fail := f }

/-- Lane l of an executor is a helper lane. -/
def isHelper (s : State) (e : Ex) (l : Nat) : Bool :=
  match e with
  | .str h i => ((s.strand? h i).map fun t => t.helper.getLsbD l).getD false
  | .bob _ => false
  | .mgt _ => false

/-- The value of lane l of form `id` arrives (R48): it fills the entry wherever it stands and the destination; a failed one
reads 0 (R185), and raises nothing where a helper lane made the access (R56), for an S destination too. -/
def fill (s : State) (e : Ex) (id l : Nat) (v : Nat) (fail0 : Option TrapInfo) : State :=
  match (s.thr e).pends.find? (fun p => p.id == id) with
  | none => s
  | some p =>
    let v := if fail0.isSome then 0 else v
    let fail := if s.isHelper e l then none else fail0
    let w : Wd := if p.wide then .w64 else .w32
    let s1 :=
      match p.sreg with
      | some (n, false) => s.setS e n v
      | _ =>
        match p.lanes.find? (fun (x : PLane) => x.lane == l && !x.bad) with
        | none => s
        | some x => s.modLanes e (laneBit l) 0 fun _ n =>
            let n1 := match x.reg with
              | some (.o k) => writeOpnd n w (.o (BitVec.ofNat 3 k)) v
              | some (.v k) => writeOpnd n w (.v (BitVec.ofNat 10 k)) v
              | none => n
            match x.q with
            | some k =>
              let n2 := n1.setQ k (BitVec.ofNat 32 v)
              if p.wide then n2.setQ (k + 1) (BitVec.ofNat 32 (v / 2 ^ 32)) else n2
            | none => n1
    s1.modThr e fun t =>
      { t with pends := t.pends.filterMap fun (q : Pend) => if q.id != id then some q else arrived l fail q }

end State

end Sys2Proof.Machine
end

