-- ==== Sys2Proof/Machine/Addr.lean ====
section
/-! DEFINITION. Addresses: windows and die maps (R26, R27, R30), translation and the table walk (R395 to R398), instruction
fetch and block headers (R37, R38, R384). -/

namespace Sys2Proof.Machine

/-- The key of a place in memory: one for both window aliases of a byte (R27, R29). -/
def Place.key (p : Place) : Nat := p.pkg * 2 ^ 41 + p.socket * 2 ^ 37 + p.byte

/-- The canonical address as the rules print it, with the virtual die (R177, R193). -/
def Place.canon (p : Place) : Nat := p.pkg * 2 ^ 41 + p.vd * 2 ^ 37 + p.byte

/-- The resolution of a package physical address: a place, out of range (PHYS_RANGE), or denied at another package. -/
inductive Rslv where
  | at' (p : Place)
  | range
  | denied
deriving DecidableEq, Repr

/-- The home virtual die and byte of an address in a window of n dies (R27). -/
def homeOf (pa n : Nat) : Nat × Nat :=
  let off := Word.bits pa 40 0
  if Word.bit pa 41 then
    let g := off / 2 ^ 14
    (g % n, g / n * 2 ^ 14 + off % 2 ^ 14)
  else (off / 2 ^ 37, off % 2 ^ 37)

/-- An address resolved in a die map: `lostOk` says whether a lost home socket may be reached. -/
def resolveIn (socks : List Nat) (pkg pa : Nat) : Option Place :=
  if socks.length * 2 ^ 37 ≤ Word.bits pa 40 0 then none
  else
    let h := homeOf pa socks.length
    some { pkg := pkg, socket := socks.getD h.1 0, vd := h.1, byte := h.2 }

namespace State

/-- A package physical address resolved for the context slot c of die d (R27, R30). -/
def resolveCtx (s : State) (d c pa : Nat) : Rslv :=
  let pkg := Word.bits pa 47 42
  if pkg = s.pkg then
    match resolveIn (s.dmap d c) pkg pa with
    | some p => .at' p
    | none => .range
  else
    match SMap.look s.domain pkg with
    | none => .range
    | some slots =>
      match SMap.look slots c with
      | none => .denied
      | some socks =>
        match resolveIn socks pkg pa with
        | some p => .at' p
        | none => .denied

/-- A package physical address resolved through the module map (R27, R30). -/
def resolveMod (s : State) (pa : Nat) : Rslv :=
  let pkg := Word.bits pa 47 42
  if pkg = s.pkg || (SMap.look s.domain pkg).isSome then
    match resolveIn (List.range 16) pkg pa with
    | some p => if pkg = s.pkg && ((s.die p.socket).lost || (s.die p.socket).off) then .range else .at' p
    | none => .range
  else .range

/-- A package physical address resolved for an executor. -/
def resolve (s : State) (e : Ex) (pa : Nat) : Rslv :=
  match e with
  | .mgt _ => s.resolveMod pa
  | .str _ _ => s.resolveCtx (s.site e).1 (s.ctxOf e) pa
  | .bob _ => s.resolveCtx (s.site e).1 (s.ctxOf e) pa

end State

/-- The outcome of a check: a value, a trap, a translation that a page walk must supply first (R384, R398), or a place that cannot be
reached yet (R19, R437). -/
inductive Res (α : Type) where
  | ok (a : α)
  | trap (t : TrapInfo)
  | miss (page : Nat)
  | held
deriving Repr

def Res.bind {α β : Type} (r : Res α) (f : α → Res β) : Res β :=
  match r with
  | .ok a => f a
  | .trap t => .trap t
  | .miss p => .miss p
  | .held => .held

/-- A read that came as far as the bytes: it has its value, or met an error in them. -/
def Res.arrived {α : Type} (r : Res α) : Bool :=
  match r with
  | .ok _ => true
  | .trap t => t.trap == .dataError
  | .miss _ => false
  | .held => false

/-- The access kinds of R383. -/
inductive Acc where
  | read | write | both | fetch
deriving DecidableEq, Repr

def Acc.n : Acc → Nat
  | .read => 0 | .write => 1 | .both => 2 | .fetch => 3

/-- PAGE_FAULT or PERMISSION with its detail (R383). -/
def xlTrap (t : Trap) (va : Nat) (level : Nat) (k : Acc) : TrapInfo :=
  { trap := t, d0 := BitVec.ofNat 64 va, d1 := BitVec.ofNat 64 (level * 2 ^ 32 + k.n) }

/-- Whether a leaf permits an access (R185, R396). -/
def Tlb.permits (t : Tlb) (k : Acc) : Bool :=
  match k with
  | .read => t.r
  | .write => t.w
  | .both => t.r && t.w
  | .fetch => t.x

/-- Whether a TLB entry translates an address of a context. -/
def Tlb.hits (t : Tlb) (c va : Nat) : Bool := t.ctx == c && va / 2 ^ t.bits == t.va / 2 ^ t.bits

def Tlb.addr (t : Tlb) (va : Nat) : Nat := t.pa + va % 2 ^ t.bits

namespace State

/-- The core TLB entry for an address, or the second-level one (R398: a hit there only takes longer). -/
def tlbFind (s : State) (e : Ex) (va : Nat) : Option Tlb :=
  let (d, k) := s.site e
  let c := s.ctxOf e
  ((s.core (coreKey d k)).tlb.find? (·.hits c va)).or ((s.die d).tlb.find? (·.hits c va))

/-- The package physical address of an access (R395 to R398); a management core's address is physical already (R24). -/
def translate (s : State) (e : Ex) (va : Nat) (k : Acc) : Res Nat :=
  match e with
  | .mgt _ => if va < 2 ^ 48 then .ok va else .trap { trap := .physRange, d0 := BitVec.ofNat 64 va }
  | _ =>
    if 2 ^ 57 ≤ va then .trap (xlTrap .pageFault va 0 k)
    else if (s.ctxReg (s.site e).1 (s.ctxOf e) 0x3E).getLsbD 0 = false then .trap (xlTrap .pageFault va 0 k)
    else
      -- a walk that failed for this access traps, whatever a later one brought (R398)
      match (s.thr e).walkFails.find? (fun (f : Nat × Nat) => f.1 == va / 2 ^ 16) with
      | some f => .trap (xlTrap .pageFault va f.2 k)
      | none =>
        match s.tlbFind e va with
        | some t => if t.permits k then .ok (t.addr va) else .trap (xlTrap .permission va 4 k)
        | none => .miss (va / 2 ^ 16)

/-- The place of an access: translation, permission, then the window (R185). A denial at another package is no trap here. -/
def placeOf (s : State) (e : Ex) (va : Nat) (k : Acc) : Res (Nat × Option Place) :=
  (s.translate e va k).bind fun pa =>
    match s.resolve e pa with
    | .at' p => .ok (pa, some p)
    | .range => .trap { trap := .physRange, d0 := BitVec.ofNat 64 va }
    | .denied => .ok (pa, none)

/-- The bytes at a place. -/
def readAt (s : State) (p : Place) (n : Nat) : Nat := Memory.read s.mem p.key n

/-- Address bits of the table levels (R395): index shift, index bits, table size in bits. -/
def levelShape (l : Nat) : Nat × Nat × Nat :=
  match l with
  | 0 => (41, 16, 19)
  | 1 => (25, 16, 19)
  | 2 => (21, 4, 7)
  | _ => (16, 5, 8)

/-- The walk from level l, with the address of its table (R395, R396): a leaf, or the level at which it stopped. `fuel` is
the number of levels left. -/
def walkFrom (s : State) (d c page : Nat) : Nat → Nat → Nat → Nat ⊕ Tlb
  | 0, l, _ => .inl l
  | fuel + 1, l, table =>
    let (sh, ib, tb) := levelShape l
    let va := page * 2 ^ 16
    let a := table + 8 * (va / 2 ^ sh % 2 ^ ib)
    if table % 2 ^ tb ≠ 0 ∨ Word.bits table 47 42 ≠ s.pkg then .inl l
    else
      match s.resolveCtx d c a with
      | .at' p =>
        let x := s.readAt p 8
        if !Word.bit x 0 || Word.bits x 63 48 != 0 || Word.bits x 6 6 != 0 || Word.bits x 2 2 != 0 then .inl l
        else if Word.bit x 1 then
          -- a leaf
          let pa := Word.bits x 47 16 * 2 ^ 16
          if l = 0 ∨ Word.bits x 15 7 ≠ 0 then .inl l
          else if pa % 2 ^ sh ≠ 0 then .inl l
          else .inr { ctx := c, va := va / 2 ^ sh * 2 ^ sh, bits := sh, pa := pa,
                      r := Word.bit x 3, w := Word.bit x 4, x := Word.bit x 5 }
        else if l = 3 ∨ Word.bits x 5 3 ≠ 0 then .inl l
        else
          let next := Word.bits x 47 7 * 2 ^ 7
          if next % 2 ^ (levelShape (l + 1)).2.2 ≠ 0 then .inl l
          else walkFrom s d c page fuel (l + 1) next
      | .range => .inl l
      | .denied => .inl l

/-- A whole walk for a page of context slot c on die d. -/
def walk (s : State) (d c page : Nat) : Nat ⊕ Tlb :=
  let pt := (s.ctxReg d c 0x3E).toNat
  if !Word.bit pt 0 then .inl 0 else walkFrom s d c page 4 0 (Word.bits pt 47 19 * 2 ^ 19)

end State

/-! What can be reached now (R19, R433, R437). -/

/-- The key of a device register. -/
def devKey (sock off : Nat) : Nat := sock * 2 ^ 24 + off

/-- What a device register reads as before it is written. -/
def devReset (sock off : Nat) : Nat :=
  let r := off % 0x1000
  if 0x20 ≤ sock ∧ (0x100 ≤ r ∧ r < 0x208 ∨ 0x300 ≤ r ∧ r < 0x408) then 32
  else if 0x20 ≤ sock ∧ r = 8 then 1
  else 0

/-- A device register's value. -/
def State.dev (s : State) (sock off : Nat) : Nat := SMap.lookD s.devRegs (devKey sock off) (devReset sock off)

/-- Whether a channel is held for training (R437). -/
def State.chanHeld (s : State) (p : Place) : Bool :=
  p.pkg == s.pkg && s.dev (0x20 + 2 * p.socket + (if Word.bit p.byte 8 then 1 else 0)) (0x10000 + 0x1000 * Word.bits p.byte 13 9) == 1

/-- The key of a home die: a socket of this package, or a die of another one. -/
def State.dieKey (s : State) (p : Place) : Nat := if p.pkg = s.pkg then p.socket else 64 * (p.pkg + 1) + p.socket

/-- The bytes [o, o + n) of a line as a mask. -/
def byteMask (o n : Nat) : BitVec 256 := BitVec.ofNat 256 ((2 ^ n - 1) * 2 ^ o)

namespace State

/-- The line of a place, where the L2 holds it. -/
def l2Line (s : State) (p : Place) : Option L2Line := SMap.look (s.die (s.dieKey p)).l2 (p.byte / 256)

/-- Whether the bytes stand valid in L2. -/
def l2Has (s : State) (p : Place) (n : Nat) : Bool :=
  match s.l2Line p with
  | some x => byteMask (p.byte % 256) n &&& ~~~ x.valid == 0
  | none => false

/-- The group of a place holds an uncorrectable error (R180). -/
def groupBad (s : State) (p : Place) : Bool := s.badEcc.contains (p.key / 32)

/-- A die answers nothing: it is lost (R18), or switched off (R433). DEDUCED: a die switched off is out of reach like a lost one
(log 73). -/
def gone (s : State) (d : Nat) : Bool := (s.die d).lost || (s.die d).off

/-- A place cannot be reached now by a requester on a die: its channel is held for training and a read needs it (R437), the rings hold
new injections (R19), or its die answers nothing. -/
def placeHeld (s : State) (socket n : Nat) (reads : Bool) (p : Place) : Bool :=
  (reads && !s.l2Has p n && s.chanHeld p) || (s.rings.held && (p.socket != socket || p.pkg != s.pkg)) ||
    (p.pkg == s.pkg && s.gone p.socket)

end State

namespace State

/-- The places a walk reads, from level l (R395): each table's entry, as far as the walk comes. -/
def walkReads (s : State) (d c page : Nat) : Nat → Nat → Nat → List Place
  | 0, _, _ => []
  | fuel + 1, l, table =>
    let (sh, ib, _) := levelShape l
    match s.resolveCtx d c (table + 8 * (page * 2 ^ 16 / 2 ^ sh % 2 ^ ib)) with
    | .at' p =>
      let x := s.readAt p 8
      p :: (if Word.bit x 0 && !Word.bit x 1 then s.walkReads d c page fuel (l + 1) (Word.bits x 47 7 * 2 ^ 7) else [])
    | .range => []
    | .denied => []

/-- A walk of die d waits: an entry it reads cannot be reached now. -/
def walkHeld (s : State) (d c page : Nat) : Bool :=
  (s.walkReads d c page 4 0 (Word.bits (s.ctxReg d c 0x3E).toNat 47 19 * 2 ^ 19)).any fun p => s.placeHeld d 8 true p

end State

/-! Instruction fetch (R3, R36, R384). -/

namespace State

/-- One unit of the instruction stream, read at its home (R384; log 11). -/
def fetchUnit (s : State) (e : Ex) (va : Nat) : Res W32 :=
  (s.placeOf e va .fetch).bind fun r =>
    match r.2 with
    | some p => if s.placeHeld (s.site e).1 4 true p then .held else .ok (BitVec.ofNat 32 (s.readAt p 4))
    | none => .trap { trap := .remoteDenied, d0 := BitVec.ofNat 64 va }

/-- The 64-bit header at an address. -/
def fetchHeader (s : State) (e : Ex) (va : Nat) : Res W64 :=
  (s.fetchUnit e va).bind fun lo => (s.fetchUnit e (va + 4)).bind fun hi => .ok (BitVec.ofNat 64 (pair lo hi))

end State

/-! Block headers (R37). -/

namespace Hdr
def len (h : W64) : Nat := Word.bits h.toNat 11 2
def livev (h : W64) : Nat := Word.bits h.toNat 21 12
def liveq (h : W64) : Nat := Word.bits h.toNat 26 22
def sl (h : W64) : Bool := Word.bit h.toNat 30
def rt (h : W64) : Bool := Word.bit h.toNat 31
def reconv (h : W64) : Int := Word.toSigned 16 (Word.bits h.toNat 47 32)
def entry (h : W64) : Bool := Word.bit h.toNat 48
def callee (h : W64) : Bool := Word.bit h.toNat 49
def isHdr (h : W64) : Bool := h.toNat % 4 == 3
end Hdr

/-- How a header is entered (R38). -/
inductive Entry where
  | branch | call | brsp | launch
deriving DecidableEq, Repr

/-- R38's first table, the fields alone: ILLEGAL_INSTRUCTION where it fails. -/
def hdrFieldsOk (h : W64) : Bool :=
  Word.bits h.toNat 63 51 == 0 && 4 ≤ Hdr.len h && Hdr.liveq h ≤ 16 && Hdr.livev h ≤ 640

/-- Both tables of R38 for a header that stands at an aligned address: `strand` says whether a strand enters, with its
`.vregs`. -/
def hdrOk (h : W64) (k : Entry) (strand : Bool) (vregs : Nat) : Bool :=
  Hdr.isHdr h && hdrFieldsOk h && (!strand || Hdr.livev h ≤ vregs) && Hdr.sl h == !strand &&
  (match k with
    | .branch => true
    | .call => Hdr.callee h
    | .brsp => Hdr.rt h
    | .launch => Hdr.entry h)

def Ex.isBob : Ex → Bool
  | .bob _ => true
  | .str _ _ => false
  | .mgt _ => false

def Ex.isStrand : Ex → Bool
  | .str _ _ => true
  | .bob _ => false
  | .mgt _ => false

namespace State

/-- The `.vregs` and `.tiles` of an executor's panel. -/
def vregs (s : State) (e : Ex) : Nat :=
  match e.panel with
  | some h => ((s.panel? h).map (·.crec.vregs)).getD 0
  | none => 0

def tiles (s : State) (e : Ex) : Nat :=
  match e.panel with
  | some h => ((s.panel? h).map (·.crec.ntiles)).getD 0
  | none => 0

/-- The check of a target header (R92): BAD_TARGET whatever condition fails, a fetch fault with its own code. -/
def checkTarget (s : State) (e : Ex) (k : Entry) (tgt : Nat) : Res W64 :=
  let bad : TrapInfo := { trap := .badTarget, d0 := BitVec.ofNat 64 tgt }
  if tgt % 8 ≠ 0 then .trap bad
  else (s.fetchHeader e tgt).bind fun h => if hdrOk h k e.isStrand (s.vregs e) then .ok h else .trap bad

end State

end Sys2Proof.Machine
end

