-- ==== Sys2Proof/Machine/Ops.lean ====
section
/-! DEFINITION. The operations every meaning shares: taking a trap (R10, R66, R385, R390) and returning from a management core's
own trap (R410), waiting, the checks of an issue in the order of R66, program-counter slots, branches and merges (R93 to R97). -/

namespace Sys2Proof.Machine

/-- The step that follows the units of an instruction (R92): inside its block, or the header it falls through to (R39). -/
def posAfter (blk hdr : W64) (next : Nat) : Pos :=
  let fin := blk.toNat + 4 * Hdr.len hdr
  if next < fin then { pc := BitVec.ofNat 64 next, kind := .inside blk hdr }
  else { pc := BitVec.ofNat 64 ((fin + 7) / 8 * 8), kind := .fell (if Hdr.len hdr % 2 = 1 then some (BitVec.ofNat 64 fin) else none) }

namespace State

/-! Positions. -/

/-- The position of a strand's slot changed, the slot otherwise kept. -/
def setSlot (t : Strand) (b : Bool) (x : Option PcSlot) : Strand := if b then { t with b := x } else { t with a := x }

def slotOf (t : Strand) (b : Bool) : Option PcSlot := if b then t.b else t.a

/-- The program counter of an executor's issuing slot set. -/
def setPos (s : State) (e : Ex) (b : Bool) (p : Pos) : State :=
  match e with
  | .str h i => s.modStrand h i fun t => setSlot t b ((slotOf t b).map fun x => { x with pos := p })
  | .bob h => s.modBob h fun x => { x with pos := p }
  | .mgt m => s.modMgt m fun x => { x with pos := p }

/-- The instruction counts in every open window of its slot (R65), its slot issued last (R98), and its executor makes
progress (R393). -/
def issued (s : State) (c : Cx) : State :=
  let tick (p : Pend) : Pend := if p.mask &&& c.mask != 0 then { p with look := p.look - 1 } else p
  let s1 := s.modThr c.ex fun t =>
    { t.setWait c.slotB .none with pends := t.pends.map tick, walkFails := [], awaiting := none, arrival := none,
                                   points := t.points.filter (·.1 != c.slotB), lastProgress := s.time.toNat }
  match c.ex with
  | .str h i => s1.modStrand h i fun t => { t with lastB := c.slotB, tried := none }
  | .bob _ => s1
  | .mgt _ => s1

/-- The instruction issued and its slot at the next one. -/
def advance (s : State) (c : Cx) : State := (s.issued c).setPos c.ex c.slotB c.nxt

/-! Waiting. -/

/-- Nothing more can happen until steps in progress do: they all become next, in an order that is a free value (log 2). -/
def flushInflight (s : State) : State :=
  { s with agenda := s.agenda ++ shuffle s.free s.inflight, inflight := [], free := s.free + s.inflight.length }

/-- A page walk asked for by a form of a slot, whose executor issues nothing else until it is answered (R384). A walk of a page
already queued on the die is shared; a core that awaits 64 pages, and a die whose queue holds 2,048, take no further page until one
is done (R398). -/
def askWalk (s : State) (e : Ex) (slotB : Bool) (page : Nat) : State :=
  let d := (s.site e).1
  let c := s.ctxOf e
  let ws := (s.die d).walks
  let same (w : PWalk) : Bool := w.ctx == c && w.page == page
  let mine (w : PWalk) : Bool := w.waiters.any fun f => s.site f == s.site e
  let s1 := s.modThr e fun t => { t with awaiting := some slotB }
  if !(ws.any fun w => same w && mine w) && 64 ≤ (ws.filter mine).length then s1
  else if ws.any same then
    s1.modDie d fun x => { x with walks := x.walks.map fun (w : PWalk) =>
      if (same w) = true then { w with waiters := if w.waiters.contains e then w.waiters else w.waiters ++ [e] } else w }
  else if 2048 ≤ ws.length then s1
  else
    (s1.modDie d fun x => { x with walks := x.walks ++ [{ ctx := c, page := page, waiters := [e] }] }).post
      (.pageWalk d (c * 2 ^ 41 + page))

end State

/-- The instruction waits and has not issued. -/
def waitOut (s : State) : Out := .next s.flushInflight

/-- The instruction waits in a way other rules ask about (R366, R117). -/
def waitAs (s : State) (c : Cx) (w : Waiting) : Out := .next (s.modThr c.ex fun t => t.setWait c.slotB w).flushInflight

/-- The instruction waits for a page walk (R384, R398). -/
def missOut (s : State) (c : Cx) (page : Nat) : Out := .next (s.askWalk c.ex c.slotB page).flushInflight

/-! Traps. -/

def TKind.n : TKind → Nat
  | .precise => 0 | .deferred => 1 | .async => 2 | .after => 3

/-- The cause word of SY.WCAUSE and SY.MCAUSE (R388). -/
def causeWord (i : TrapInfo) (k : TKind) (slotB bob : Bool) (more : Nat) : W64 :=
  BitVec.ofNat 64 (i.trap.code + (if bob then 2 ^ 28 else 0) + (if slotB then 2 ^ 29 else 0) + k.n * 2 ^ 30 +
    i.lane * 2 ^ 32 + more * 2 ^ 40)

/-- A position that will be checked at its fetch, with the block it stood in. -/
def lastBlock (k : PcKind) : PcKind :=
  match k with
  | .inside b h => .written b h
  | .written b h => .written b h
  | .entered => .written 0 0
  | .fell _ => .written 0 0

/-- The park record of a trap (R385). -/
def parkThr (pc : W64) (i : TrapInfo) (k : TKind) (slotB : Bool) (t : Thr) : Thr :=
  let more := if k == .async then t.more else 0
  { t with wait := .none, waitB := .none, walkFails := [], awaiting := none, points := [], park := some { info := i, pc := pc, kind := k, slotB := slotB, more := more } }

namespace State

/-- A trap taken (R385, R390). A strand or bobbin is parked, and enters its die's parked table once its writes are
acknowledged. A management core saves the trap's address, cause and detail and continues at SY.MVEC; a trap while INTRAP is 1
halts it, and the double trap is reported to the host. -/
def takeTrap (s : State) (e : Ex) (slotB : Bool) (pc : W64) (i : TrapInfo) (k : TKind) : State :=
  match e with
  | .mgt m =>
    let g := s.mgt m
    if g.intrap then { s.modMgt m (fun x => { x with st := .halted }) with doubleTraps := s.doubleTraps ++ [m] }
    else s.modMgt m fun x => { x with
      mepc := pc
      mpos := { pc := pc, kind := lastBlock x.pos.kind }
      mcause := causeWord i k false false (if k == .async then x.thr.more else 0)
      mdet := i.d0
      intrap := true
      thr := { x.thr with points := [] }
      pos := { pc := x.mvec, kind := .written 0 0 } }
  | .str h n =>
    (s.modThr e (parkThr pc i k slotB)).post (.executorPark h n)
  | .bob h =>
    (s.modThr e (parkThr pc i k false)).post (.executorPark h 32)

/-- The return from a management core's own trap (R410, mode 3): INTRAP is cleared and the core continues at SY.MEPC. -/
def ownReturn (s : State) (m : Nat) : State :=
  s.modMgt m fun x => { x with
    intrap := false
    pos := { pc := x.mepc, kind := lastBlock x.mpos.kind } }

/-- An asynchronous trap recorded for an executor (R386): a further one adds to MORE. DESIGN CHOICE: one recorded after the executor's image
was taken, such as the COPY_FAULT or COLL_FAIL of a saved member, is taken at its next acquire after it resumed, or at the resume PC if its
image is taken again meanwhile; R185 and R369 leave open which (log 100). -/
def recordAsync (s : State) (e : Ex) (i : TrapInfo) : State :=
  s.modThr e fun t =>
    match t.async with
    | none => { t with async := some i, more := 0 }
    | some _ => { t with more := if t.more < 255 then t.more + 1 else 255 }

end State

/-- SR counters advance in every lane of the slot's mask, active or not (R155). -/
def State.bumpSr (s : State) (c : Cx) (ar : Arith) : State :=
  match ar.rnd with
  | .sr => s.modLanes c.ex c.mask 0 fun _ n => { n with sr := n.sr + 1 }
  | _ => s

/-- An instruction that completes with nothing but the result 0 in its helper lanes (R56). -/
def State.quietly (s : State) (c : Cx) : State :=
  let s1 := (s.advance c).bumpSr c c.ar
  match c.dst with
  | some (w, d) => s1.writeVec c w d fun _ => 0
  | none => s1

/-- A trap of the issuing instruction: no effect of it is visible (R10). A condition that only helper lanes meet raises nothing, and
their result is 0 (R56, R57). -/
def trapOut (s : State) (c : Cx) (i : TrapInfo) : Out :=
  .next (if c.quiet then s.quietly c else s.takeTrap c.ex c.slotB c.pc i .precise)

/-- The recorded asynchronous trap taken at an address, and with it the record (R386). -/
def State.takeAsync (s : State) (e : Ex) (slotB : Bool) (pc : W64) (i : TrapInfo) : State :=
  (s.takeTrap e slotB pc i .async).modThr e fun t => { t with async := none, more := 0, resumeTrap := false }

/-- The recorded asynchronous trap taken at the issuing instruction (R386). -/
def asyncOut (s : State) (c : Cx) (i : TrapInfo) : Out := .next (s.takeAsync c.ex c.slotB c.pc i)

/-- A failed access's trap taken at the instruction that reads or waits for it (R185). -/
def deferredOut (s : State) (c : Cx) (p : Pend) (i : TrapInfo) : Out :=
  let s1 := s.modThr c.ex fun t => { t with pends := t.pends.filter fun (q : Pend) => q.id != p.id }
  .next (s1.takeTrap c.ex c.slotB c.pc i .deferred)

/-- A check's outcome, continued where it passed. -/
def andThen {α : Type} (s : State) (c : Cx) (r : Res α) (f : α → Out) : Out :=
  match r with
  | .ok a => f a
  | .trap t => trapOut s c t
  | .miss p => missOut s c p
  | .held => waitOut s

/-! The issue. -/

namespace State

/-- The context of the instruction being issued; none where the executor it names does not exist or cannot issue. -/
def mkCx (s : State) : Option Cx :=
  match s.cur.ex with
  | .str h i =>
    match s.strand? h i with
    | none => none
    | some t =>
      match slotOf t s.cur.slotB with
      | none => none
      | some x =>
        some { ex := .str h i, slotB := s.cur.slotB, pc := s.cur.pc, blk := s.cur.blk, hdr := s.cur.hdr, nxt := s.cur.nxt,
               mask := x.mask, act := x.mask, helper := t.helper, lanes := t.lanes, thr := t.thr }
  | .bob h =>
    match s.panel? h with
    | none => none
    | some p =>
      some { ex := .bob h, slotB := false, pc := s.cur.pc, blk := s.cur.blk, hdr := s.cur.hdr, nxt := s.cur.nxt,
             mask := 1, act := 1, helper := 0, lanes := [], thr := p.bob.thr }
  | .mgt m =>
    if m < 18 then
      some { ex := .mgt m, slotB := false, pc := s.cur.pc, blk := s.cur.blk, hdr := s.cur.hdr, nxt := s.cur.nxt,
             mask := 1, act := 1, helper := 0, lanes := [], thr := (s.mgt m).thr }
    else none

end State

/-- The context under an instruction's guard (R56): the lanes of the slot whose predicate passes. -/
def Cx.guarded (c : Cx) (g : Guard) : Cx :=
  match c.ex with
  | .str _ _ =>
    { c with act := maskOf ((lanesOf c.mask).filter fun l => xor ((c.lane l).pAt g.pred.toNat) g.neg) }
  | .bob _ => c
  | .mgt _ => c

/-- Who issues, for the operand checks. -/
def State.who (s : State) (e : Ex) : Who :=
  { vregs := s.vregs e, tiles := s.tiles e, scalar := e.scalar,
    mgt := (match e with | .mgt m => m < 16 | _ => false), pkg := (match e with | .mgt m => 16 ≤ m | _ => false) }

/-- R79: the executors that may issue a form. -/
def exOk (e : Ex) (x : ExSet) : Bool :=
  match e with
  | .str _ _ => x.str
  | .bob _ => x.bob
  | .mgt m => if m < 16 then x.mgt else x.pkg

/-- SY.ROLE of a strand (R298); 0 elsewhere. -/
def State.roleOf (s : State) (e : Ex) : Nat :=
  match e with
  | .str h i => ((s.strand? h i).map (·.role.toNat)).getD 0
  | .bob _ => 0
  | .mgt _ => 0

/-- R299: the strand roles that may issue a form; a bobbin and the management cores have no role. -/
def roleOk (s : State) (e : Ex) (r : RoleSet) : Bool :=
  match e with
  | .str _ _ =>
    (match s.roleOf e with
      | 1 => r.prod
      | 2 => r.mtx
      | 3 => r.norm
      | _ => r.gen)
  | .bob _ => true
  | .mgt _ => true

/-- A field that only a management core's form uses must be zero on every other executor (R302, R406). -/
def mgtOnlyZero (e : Ex) (f : Fld) (x : Opnd) : Bool :=
  match f, e with
  | .mgtOnly _, .mgt m => m < 16 || x == .q 0
  | .mgtOnly _, _ => x == .q 0
  | _, _ => true

/-- The lanes of a mask that a control form moves, with each helper lane at its leader's side (R57): the leader is the lowest
unended lane of the quad that is no helper. -/
def withHelpers (helper ended : Mask) (t : Mask) : Mask :=
  let leader (l : Nat) : Option Nat :=
    ((List.range 4).map (· + l / 4 * 4)).find? fun k => !helper.getLsbD k && !ended.getLsbD k
  maskOf ((List.range 32).filter fun l =>
    if helper.getLsbD l then (match leader l with | some k => t.getLsbD k | none => false) else t.getLsbD l)

/-- An immediate target: the header of the block plus 8 times the operand (R92). -/
def immTarget (c : Cx) (a : Opnd) : Nat :=
  match a with
  | .imm i => Word.ofInt 64 ((c.blk.toNat : Int) + 8 * i.toInt)
  | _ => 0

/-- The lanes of a BRC or BRSP whose condition holds (R104): 64 bits of S, the value of an immediate, else 32 bits. -/
def condLanes (c : Cx) (b : Opnd) : Mask :=
  maskOf ((lanesOf c.act).filter fun l =>
    match b with
    | .s n => c.s n.toNat != 0
    | .imm i => i != 0
    | _ => c.src .w32 b l != 0)

/-- Whether what decides a branch is still pending, or came back failed, in a lane: the lane is waited for, and where no other takes
the branch its target is checked when it issues (R65, R66). -/
def condPending (c : Cx) (i : Instr) (l : Nat) : Bool :=
  let named (x : Opnd) : Bool :=
    c.thr.pends.any fun p => [false, true].any fun bad =>
      p.touches bad (laneBit l) (srcLocs .w32 x) || p.touches bad (laneBit l) (voLocs (c.lane l) .w32 x)
  match i with
  | .brc x => named x.b
  | .brsp x => named x.b
  | .loop x => named x.d
  | _ => false

/-- The entry kind and the immediate target of a control form that some lane takes, where its operands and the bobbin's walk or the
strand's decision queue say so at the issue: what R66 checks at order 6 (log 12). Helper lanes decide nothing (R57), nor do lanes whose
condition is not known yet. -/
def earlyTarget (s : State) (c : Cx) (i : Instr) : Option (Entry × Nat) :=
  let takes (b : Bool) (k : Entry) (a : Opnd) : Option (Entry × Nat) := if b then some (k, immTarget c a) else none
  let known := c.parts.filter fun l => !condPending c i l
  match i with
  | .bra x => takes (!c.parts.isEmpty) .branch x.a
  | .brc x => takes (known.any fun l => (condLanes c x.b).getLsbD l) .branch x.a
  | .brsp x => takes (known.any fun l => (condLanes c x.b).getLsbD l) .brsp x.a
  | .call x => takes (!c.parts.isEmpty) .call x.a
  | .loop x => (match x.d with | .s n => takes (!known.isEmpty && c.s n.toNat != 1) .branch x.a | _ => none)
  | .wnext x =>
    (match c.ex with
    | .bob h =>
      (match (s.panel? h).bind (·.bob.walk) with
      | some w => takes (decide (w.x * w.y * w.z ≤ w.done.length)) .branch x.a
      | none => none)
    | _ => none)
  | .dqbr x =>
    (match c.ex with
    | .str h n => takes (!c.parts.isEmpty && ((s.strand? h n).bind (·.dq.head?)).getD false) .branch x.a
    | _ => none)
  | _ => none

/-- Forms that wait for every open window of the strand before they issue (R65). DEDUCED: a link or target of theirs that is
pending inside a window is waited for like the rest of it, and is no violation (log 72). -/
def closesWindows (i : Instr) : Bool :=
  match i with
  | .brx _ => true
  | .brsp _ => true
  | .call _ => true
  | .ret _ => true
  | .retr _ => true
  | .join _ => true
  | .exit _ => true
  | .yield _ => true
  | _ => false

/-- A form that opened a window: one that is not long-latency opens none, and is waited for only by what names its result (R128,
R303). -/
def Pend.windowed (p : Pend) : Bool := p.mask != 0

/-- The opcode field of a form. -/
def opcodeOf (i : Instr) : Nat :=
  match i.code with
  | some (.short n) => n
  | some (.long n) => n
  | none => 0

/-- A bobbin may not round by RND = SR in a matrix form (R274). -/
def bobSr (e : Ex) (i : Instr) : Bool :=
  e.isBob &&
  (match i with
    | .mstt _ x => x.ar.rnd == .sr
    | .mcvt x => x.ar.rnd == .sr
    | _ => false)

/-- The registers of a group that a form names at this issue, with the lanes they are read in: an MLOOP reads its A slabs in every lane of
its own strand, and none of them where the slabs lie in another strand (R268); until its control words are there it names none.
DESIGN CHOICE: inside a window such a register is a violation as a static name is, an MLOOP's computed ones too (R65, order 7 of R66);
outside every window, and where only a helper lane's is pending, it is waited for (R268, R313, R315; log 70): by an MLOOP after its own
checks (R278; log 34), by the others at their issue. -/
def groupAt (c : Cx) (i : Instr) : Mask × List Loc :=
  match i, c.ex with
  | .mloop f _ y, .str _ n =>
    let b := sIndex y.b
    let there := !c.thr.pends.any fun p => [false, true].any fun bad => p.touches bad c.act [.s b, .s (b + 1)]
    if c.any && there && (Word.bit (c.s b) 20 || Word.bits (c.s b) 25 21 == n) then
      (BitVec.allOnes 32, slabLocs f (vIndex y.a) (c.s b) (c.s (b + 1)))
    else (0, [])
  | .mloop _ _ _, _ => (0, [])
  | _, _ => (c.act, groupLocs i)

/-- The guard R58 asks of the bobbin and the management cores. NOP has no effect and no trap whatever its guard (R71, R90, R102). -/
def guardOk (e : Ex) (i : Instr) (g : Guard) : Bool :=
  !e.scalar || g == Guard.always ||
  (match i with
    | .nopShort _ => true
    | .nop _ => true
    | _ => false)

/-- What the checks of an issue answer. -/
inductive Issue where
  | none
  | out (o : Out)
  | go (c : Cx) (x : Args)

/-- A form of the strand that must finish first, or whose failure must be taken first (R65, R185). -/
def firstWait (ps : List Pend) (sel : Pend → Bool) : Option Pend := ps.find? sel

/-- The instruction waits for a form, or takes its deferred trap once nothing of it is outstanding. -/
def awaitPend (s : State) (c : Cx) (p : Pend) : Out :=
  if p.open' then waitOut s
  else
    match p.fail with
    | some f => deferredOut s c p f
    | none => waitOut s

/-- What follows once every open window of the strand has closed (R65). -/
def whenClosed (s : State) (c : Cx) (k : Unit → Out) : Out :=
  match firstWait c.thr.pends Pend.windowed with
  | some p => awaitPend s c p
  | none => k ()

/-- A form of which a group's register is awaited, or failed; or one whose window has ended and that failed. -/
def groupPend (c : Cx) (i : Instr) : Option Pend :=
  let g := groupAt c i
  firstWait c.thr.pends fun p => (p.mask &&& c.mask != 0 && p.look == 0) || [false, true].any fun b => p.touches b g.1 g.2

/-- An MLOOP waits for its own strand's A registers, or takes their deferred trap, where R278 says so. -/
def awaitGroup (s : State) (c : Cx) (i : Instr) (k : Unit → Out) : Out :=
  match groupPend c i with
  | some p => awaitPend s c p
  | none => k ()

/-- A form that makes the wait for its group of registers itself, after its own checks (R278). -/
def waitsLate (i : Instr) : Bool := match i with | .mloop _ _ _ => true | _ => false

/-- The checks of an issue, in the order of R66, with the waits of R65 and the traps of R185. -/
def issue (i : Instr) (s : State) : Issue :=
  match s.mkCx, i.spec, i.fields with
  | some c0, some sp, some x =>
    let c := c0.guarded x.g
    let h := s.who c.ex
    let tr (t : Trap) : Issue := .out (trapOut s c { trap := t })
    let locs := usedLocs i sp x
    let group := groupAt c i
    let parts := c.act &&& ~~~ c.helper
    let inWin (p : Pend) : Bool := p.mask &&& c.mask != 0 && p.look != 0
    -- a trap recorded in a saved image is taken at the resume PC, before any instruction issues (R369)
    if c.thr.resumeTrap && c.thr.async.isSome then
      (match c.thr.async with | some t => .out (asyncOut s c t) | none => .none)
    else if bobSr c.ex i then tr .illegalPrefix
    else if !guardOk c.ex i x.g then tr .illegalInstruction
    else if !mgtOnlyZero c.ex sp.a x.a || !mgtOnlyZero c.ex sp.b x.b then tr .illegalInstruction
    else if !exOk c.ex sp.ex then tr .wrongExecutor
    else if !roleOk s c.ex sp.role then
      .out (trapOut s c { trap := .roleViolation, d0 := BitVec.ofNat 64 (s.roleOf c.ex), d1 := BitVec.ofNat 64 (opcodeOf i * 2 ^ 32) })
    else if !fieldsOk h i sp x then tr .illegalOperand
    else
      let early : Option Out :=
        match earlyTarget s c i with
        | none => none
        | some (k, tgt) =>
          match s.checkTarget c.ex k tgt with
          | .ok _ => none
          | .trap t => some (trapOut s c t)
          | .miss p => some (missOut s c p)
          | .held => some (waitOut s)
      match early with
      | some o => .out o
      | none =>
        let closes := closesWindows i
        if !closes && c.thr.pends.any (fun p => inWin p &&
            (p.touches false parts locs || p.touches false (group.1 &&& ~~~ c.helper) group.2)) then tr .lookaheadViolation
        else
          -- a window that ended, and a location outside every window of this slot, are waited for; a helper lane's own location inside a
          -- window is a trap condition, which raises nothing (R56)
          let must (p : Pend) : Bool :=
            (p.mask &&& c.mask != 0 && p.look == 0 && (p.open' || !waitsLate i)) || (closes && p.windowed) ||
            ((closes || !(inWin p)) && p.touches false c.act locs) || p.touches true c.act locs ||
            (!waitsLate i && [false, true].any fun b => p.touches b group.1 group.2)
          match firstWait c.thr.pends must with
          | some p => .out (awaitPend s c p)
          | none =>
            let bad (l : Nat) : Bool := laneBad h.vregs (c.lane l) sp x
            let look (l : Nat) : Bool := !closes &&
              c.thr.pends.any fun p => inWin p && p.touches false (laneBit l) (laneLocs (c.lane l) sp x)
            match c.parts.find? (fun l => bad l || look l) with
            | some l =>
              .out (trapOut s c { trap := if bad l then .illegalOperand else .lookaheadViolation, lane := l })
            | none =>
              match firstWait c.thr.pends (fun p => (lanesOf c.act).any fun l =>
                  p.touches true (laneBit l) (laneLocs (c.lane l) sp x) ||
                  ((closes || !(inWin p)) && p.touches false (laneBit l) (laneLocs (c.lane l) sp x))) with
              | some p => .out (awaitPend s c p)
              | none =>
                let hidden (l : Nat) : Bool := look l || (!closes && c.thr.pends.any fun p => inWin p && p.touches false (laneBit l) locs)
                let helpers := lanesOf (c.act &&& c.helper)
                .go { c with
                  dead := maskOf (helpers.filter fun l => bad l || hidden l)
                  noDst := maskOf (helpers.filter fun l => voBad h.vregs (c.lane l) (fldWd sp.d) x.d)
                  quiet := c.any && c.parts.isEmpty
                  dst := (match sp.d with | .val _ w => some (w, x.d) | _ => none)
                  ar := x.ar } x
  | _, _, _ => .none

/-- An instruction's meaning behind the checks of its issue. -/
def run (i : Instr) (s : State) (k : Cx → Args → Out) : Out :=
  match issue i s with
  | .none => .refused .noExecutor
  | .out o => o
  | .go c x => k c x

/-! Slots, branches and merges (R93 to R97). -/

/-- Records in spawn memory, formed strands that wait included (R116, R117). -/
def Panel.records (p : Panel) : Nat := p.spawn.length + p.groups.foldl (fun n g => n + g.length) 0

/-- Entries of a return stack beyond the 8 live ones (R107). -/
def spilled (x : Option PcSlot) : Nat :=
  match x with
  | none => 0
  | some y => y.stack.length - 8

/-- What a panel keeps in its context's save area, by kind: frames, spilled return addresses, spawn records, saved strands, saved
panels (R392). -/
def Panel.areaItems (p : Panel) : List Nat :=
  let ts := p.strands.map (·.2)
  [ts.foldl (fun n t => n + t.frames.length) 0,
    ts.foldl (fun n t => n + spilled t.a + spilled t.b + t.frames.foldl (fun n f => n + spilled f.sib) 0) 0 + (p.bob.stack.length - 8),
    p.records,
    (ts.filter fun t => !t.isOver && (t.out || p.core.isNone)).length,
    if p.core.isNone then 1 else 0]

/-- What a context slot keeps in its save area. -/
def State.areaItems (s : State) (c : Nat) : List Nat :=
  s.panels.foldl (fun xs p => if p.2.ctx == c && !p.2.done then List.zipWith (· + ·) xs p.2.areaItems else xs) [0, 0, 0, 0, 0]

/-- The bytes of items by kind. -/
def areaBytes (xs : List Nat) : Nat := (xs.mapIdx fun i (n : Nat) => n * (Config.saveBytes i).toNat).sum

/-- The save area of a context on a die has room for more items, each a kind and how many (R392): SY.SVSIZE is its size. -/
def State.areaRoom (s : State) (d c : Nat) (more : List (Nat × Nat)) : Bool :=
  more.all (fun x => x.2 == 0) ||
    decide (areaBytes (s.areaItems c) + (more.map fun x => x.2 * (Config.saveBytes x.1).toNat).sum ≤ (s.ctxReg d c 0x40).toNat)

/-- The same for n items of one kind in an executor's context. -/
def State.roomFor (s : State) (e : Ex) (k n : Nat) : Bool := s.areaRoom (s.site e).1 (s.ctxOf e) [(k, n)]

/-- A slot entering an address (R93): it waits where the join record names that address. -/
def enterSlot (j : Join) (x : PcSlot) (p : Pos) : PcSlot :=
  { x with pos := p, waiting := j == .addr p.pc && (p.kind == .entered) }

def stuck (x : Option PcSlot) : Bool :=
  match x with
  | none => true
  | some y => y.waiting

/-- The segments of a slot's lineage (R98, R206): its own, those of the slots it was split from, and those a merge ordered before it. -/
def PcSlot.reach (x : PcSlot) : List Nat := x.seg :: x.line ++ x.past

/-- The place in program order of what a slot issues now. -/
def PcSlot.po (x : PcSlot) : Po := { seg := x.seg, past := x.past, reach := x.reach }

/-- The later of two stamps (R228). -/
def laterStamp (a b : W64) : W64 := if a.toNat ≤ b.toNat then b else a

/-- Two records of emptied slots together. -/
def Emptied.join (a b : Emptied) : Emptied :=
  { segs := a.segs ++ b.segs.filter (fun n => !a.segs.contains n), stamp := laterStamp a.stamp b.stamp }

/-- A slot added to a record of emptied slots. -/
def Emptied.add (e : Emptied) (x : Option PcSlot) : Emptied :=
  match x with
  | none => e
  | some y => e.join { segs := y.reach, stamp := y.stamp }

/-- One round of settling (R95); none where its condition does not hold. -/
def settleOnce (t : Strand) : Option Strand :=
  let someWaiting := (match t.a with | some x => x.waiting | none => false) || (match t.b with | some x => x.waiting | none => false)
  if t.join == .none || !(stuck t.a && stuck t.b) || (t.join == .atExit && someWaiting) then none
  else
    let m := (match t.a with | some x => x.mask | none => 0) ||| (match t.b with | some x => x.mask | none => 0)
    let st := match t.a with | some x => x.stack | none => (match t.b with | some x => x.stack | none => [])
    let addr := match t.join with | .addr a => a | _ => 0
    let before := (t.emptied.add t.a).add t.b
    let g : Option PcSlot :=
      if m = 0 then none
      else some { pos := { pc := addr, kind := .entered }, mask := m, stack := st, seg := t.segs,
                  past := before.segs, stamp := before.stamp }
    match t.frames with
    | [] => some { t with a := g, b := none, join := .none, emptied := {}, segs := t.segs + 1 }
    | f :: fs =>
      let g' := g.map fun x => enterSlot f.join x x.pos
      -- where no lane is left, what they issued comes before the merge of the level around (R100)
      let left := if m = 0 then f.emptied.join before else f.emptied
      some (if f.posB then { t with b := g', a := f.sib, join := f.join, frames := fs, emptied := left, segs := t.segs + 1 }
            else { t with a := g', b := f.sib, join := f.join, frames := fs, emptied := left, segs := t.segs + 1 })

/-- Settling, at most once per frame and once more (R95). -/
def settleN : Nat → Strand → Strand
  | 0, t => t
  | n + 1, t => match settleOnce t with
    | some t' => settleN n t'
    | none => t

def settle (t : Strand) : Strand := settleN (t.frames.length + 1) t

/-- The reconvergence point of a block (R40): at EXIT when RECONV is 0. -/
def reconvOf (blk hdr : W64) : Option Nat :=
  if Hdr.reconv hdr = 0 then none else some (Word.ofInt 64 ((blk.toNat : Int) + 8 * Hdr.reconv hdr))

/-- The control state after a branch that splits a slot (R94). -/
def splitSlot (t : Strand) (c : Cx) (tk : Mask) (tgt : Pos) (cont : Pos) (rc : Join) (adj : List W64 → List W64) : Strand :=
  match State.slotOf t c.slotB with
  | none => t
  | some x =>
    let sib := State.slotOf t (!c.slotB)
    let push := sib.isSome || t.join != .none
    let frames := if push then { sib := sib, join := t.join, posB := c.slotB, emptied := t.emptied } :: t.frames else t.frames
    let line := x.seg :: x.line
    let a : PcSlot := enterSlot rc { x with mask := x.mask &&& ~~~ tk, waiting := false, seg := t.segs, line := line } cont
    let b : PcSlot := enterSlot rc { x with mask := tk, stack := adj x.stack, waiting := false, seg := t.segs + 1, line := line } tgt
    settle { t with a := some a, b := some b, join := rc, frames := frames, emptied := {}, segs := t.segs + 2 }

/-- Branch (R94) of the issuing slot: the lanes T go to tgt, the rest to cont; `adj` changes the return stack of the slot
that holds T, and `upd` is what else the instruction changes once every check passed. A slot that falls through into the
join header enters it at its fetch. DESIGN CHOICE: where the branch enters the join address, `adj` is made on the issuing slot before the
Settle that its entry sets off, so RET's pop and CALL's push are in the stack that the merge hands on (R95, R107, R109; log 88). -/
def branch (s : State) (c : Cx) (t0 : Mask) (tgt : Nat) (k : Entry) (cont : Pos) (adj : List W64 → List W64)
    (upd : State → State) : Out :=
  let there : Pos := { pc := BitVec.ofNat 64 tgt, kind := .entered }
  let s1 := upd (s.issued c)
  match c.ex with
  | .bob h =>
    if t0 = 0 then .next (s1.setPos c.ex c.slotB cont)
    else andThen s c (s.checkTarget c.ex k tgt) fun _ =>
      .next ((s1.setPos c.ex c.slotB there).modBob h fun b => { b with stack := adj b.stack })
  | .mgt m =>
    if t0 = 0 then .next (s1.setPos c.ex c.slotB cont)
    else andThen s c (s.checkTarget c.ex k tgt) fun _ =>
      .next ((s1.setPos c.ex c.slotB there).modMgt m fun b => { b with stack := adj b.stack })
  | .str h i =>
    match s.strand? h i with
    | none => .refused .noExecutor
    | some t =>
      let tk := withHelpers c.helper t.ended t0 &&& c.mask
      if tk = 0 then .next (s1.setPos c.ex c.slotB cont)
      else andThen s c (s.checkTarget c.ex k tgt) fun _ =>
        if c.mask &&& ~~~ tk = 0 then
          .next (s1.modStrand h i fun t =>
            settle (State.setSlot t c.slotB ((State.slotOf t c.slotB).map fun x =>
              enterSlot t.join { x with stack := adj x.stack } there)))
        else
          -- a divergent branch waits for every open window of the strand (R65)
          whenClosed s c fun _ =>
            let go (rc : Join) : Out :=
              let push := t.b.isSome && t.a.isSome || t.join != .none
              if push && 64 ≤ t.frames.length then
                trapOut s c { trap := .divergenceOverflow, d0 := BitVec.ofNat 64 t.frames.length }
              -- a Push that finds the save area full waits (R392)
              else if !s.roomFor c.ex 0 (if push then 1 else 0) then waitOut s
              else .next (s1.modStrand h i fun t => splitSlot t c tk there cont rc adj)
            match reconvOf c.blk c.hdr with
            | none => go .atExit
            | some r =>
              match s.checkTarget c.ex .branch r with
              | .ok _ => go (.addr (BitVec.ofNat 64 r))
              | .trap f => trapOut s c (if f.trap == .badTarget then { trap := .badTarget } else f)
              | .miss p => missOut s c p
              | .held => waitOut s

/-! Outstanding accesses. -/

/-- A request not yet performed at its point. -/
def Req.unperformed (r : Req) : Bool := match r.st with | .sent => true | .held => false | .data _ _ => false | .ack _ => false

/-- A request that has not taken effect: an ordered contribution that is held has not (R194). -/
def Req.unapplied (r : Req) : Bool := match r.st with | .sent => true | .held => true | .data _ _ => false | .ack _ => false

/-- A request that writes. -/
def Req.writes (r : Req) : Bool :=
  match r.op with
  | .store _ => true | .atom _ _ => true | .cas _ _ => true | .red _ _ _ _ _ => true | .ord _ _ _ _ _ _ _ => true
  | .load _ => false | .spool _ _ _ => false | .ldt _ _ => false | .value => false | .point => false

/-- The requests of an executor; a stamp that waits until it is safe is no access. -/
def State.reqsOf (s : State) (e : Ex) : List (Nat × Req) := s.reqs.filter fun r => r.2.ex == e && r.2.op != .point

/-- A contribution that its home refused and has not accepted yet (R194). -/
def Req.turnedAway (r : Req) : Bool := r.unperformed && r.refused

/-- A contribution that waits for its ordinal: held at its home, or refused there (R194). -/
def Req.waitsTurn (r : Req) : Bool := r.st == .held || r.turnedAway

/-- One place comes before another in program order (R98, R206). -/
def Po.before (a b : Po) : Bool := b.reach.contains a.seg

/-- A merge orders one place before another (R100). -/
def Po.merged (a b : Po) : Bool := b.past.contains a.seg

/-! Lamport clocks (R217). -/

/-- The Lamport clock of an executor's core. -/
def State.lcOf (s : State) (e : Ex) : W64 :=
  match e with
  | .mgt m => s.lc + (s.mgt m).lcAhead
  | .str _ _ => s.lc + (s.core (State.coreKey (s.site e).1 (s.site e).2)).lcAhead
  | .bob _ => s.lc + (s.core (State.coreKey (s.site e).1 (s.site e).2)).lcAhead

/-- The stamp of an SC operation or an SC FENCE that issues now. -/
def State.stampOf (s : State) (e : Ex) : Stamp :=
  { lc := s.lcOf e, pkg := s.pkg, socket := (s.site e).1, core := (s.site e).2 }

/-- Stamps compare by clock and then by origin. -/
def Stamp.before (a b : Stamp) : Bool :=
  if a.lc ≠ b.lc then decide (a.lc.toNat < b.lc.toNat)
  else if a.pkg ≠ b.pkg then decide (a.pkg < b.pkg)
  else if a.socket ≠ b.socket then decide (a.socket < b.socket)
  else decide (a.core < b.core)

/-- A message that carries a Lamport clock reaches a core: its clock becomes the greater of its own and the carried one plus 1. -/
def State.hear (s : State) (socket core : Nat) (lc : W64) : State :=
  let ahead (a : W64) : W64 := if (s.lc + a).toNat < lc.toNat + 1 then lc + 1 - s.lc else a
  if core = 0x7F then
    if ahead (s.mgt socket).lcAhead = (s.mgt socket).lcAhead then s
    else s.modMgt socket fun g => { g with lcAhead := ahead g.lcAhead }
  else
    if ahead (s.core (State.coreKey socket core)).lcAhead = (s.core (State.coreKey socket core)).lcAhead then s
    else s.modCore (State.coreKey socket core) fun k => { k with lcAhead := ahead k.lcAhead }

/-- The program-counter slot that issues. -/
def State.slot? (s : State) (c : Cx) : Option PcSlot :=
  match c.ex with
  | .str h i => (s.strand? h i).bind fun t => State.slotOf t c.slotB
  | .bob _ => none
  | .mgt _ => none

/-- The place in program order of what the issuing slot issues; the bobbin and a management core have one segment (R206). -/
def State.po (s : State) (c : Cx) : Po := ((s.slot? c).map (·.po)).getD {}

/-- The requests of the issuing slot's lineage (R206). -/
def State.reqsIn (s : State) (c : Cx) : List (Nat × Req) := (s.reqsOf c.ex).filter fun r => r.2.po.before (s.po c)

/-- Something of an executor that a merge ordered before a place in program order is still under way (R100): an access not performed, an
update of a knot, a KV event or an MSTT. -/
def State.mergeWaits (s : State) (e : Ex) (p : Po) : Bool :=
  ((s.reqsOf e).any fun r => r.2.src.isNone && r.2.unapplied && r.2.po.merged p) ||
    (s.knots.any fun k => k.2.by' == some e && k.2.po.merged p) ||
    (s.kvs.any fun k => k.2.ex == e && k.2.po.merged p) || s.mstts.any fun m => m.2.issuer == e && m.2.po.merged p

/-- The stamp that the issuing slot has taken and holds (R218). -/
def Cx.point (c : Cx) : Option (Nat × W64) := (c.thr.points.find? fun p => p.1 == c.slotB).map (·.2)

/-- The request that holds the issuing slot's stamp. -/
def State.pointReq (s : State) (c : Cx) : Option (Nat × Req) :=
  c.point.bind fun p => ((SMap.look s.reqs p.1).filter fun r => r.op == .point).map fun r => (p.1, r)

/-- The stamp of an SC operation kept for SCTS: in the slot's lineage, where the executor is a strand (R217, R228). -/
def State.stamped (s : State) (c : Cx) (sc : Bool) : State :=
  let lc := match c.point with | some p => p.2 | none => s.lcOf c.ex
  if !sc then s
  else
    -- the access is made: what held its stamp goes (R218)
    let s := match s.pointReq c with | some p => ({ s with reqs := SMap.del s.reqs p.1 } : State) | none => s
    match c.ex with
    | .str h i => s.modStrand h i fun t =>
        State.setSlot t c.slotB ((State.slotOf t c.slotB).map fun x => { x with stamp := lc })
    | .bob _ => s.modThr c.ex fun t => { t with scStamp := lc }
    | .mgt _ => s.modThr c.ex fun t => { t with scStamp := lc }

/-- The clock of the latest stamp of the issuing slot's lineage (R228). -/
def State.lastStamp (s : State) (c : Cx) : W64 :=
  match c.ex with
  | .str _ _ => ((s.slot? c).map (·.stamp)).getD 0
  | .bob _ => c.thr.scStamp
  | .mgt _ => c.thr.scStamp

/-- A request sent, with the step that carries it on. -/
def State.addReq (s : State) (r : Req) (next : Nat → Instr) : State :=
  { s with reqs := SMap.put s.reqs s.nextId r, nextId := s.nextId + 1, inflight := s.inflight ++ [next s.nextId] }

/-- A stamp is held for an instruction that no longer waits for it: its executor was saved, parked or removed meanwhile. -/
def State.pointDead (s : State) (id : Nat) (r : Req) : Bool := r.op == .point && !(s.thr r.ex).points.any fun p => p.2.1 == id

/-- A stamp is safe: every core has advanced beyond it, and no SC operation with a lesser one is still to be performed (R218). -/
def State.stampSafe (s : State) (id : Nat) (t : Stamp) : Bool :=
  decide (t.lc.toNat < s.lc.toNat) && s.reqs.all fun q => q.1 == id || !q.2.unperformed || s.pointDead q.1 q.2 ||
    (match q.2.stamp with | some u => !u.before t | none => true)

/-- The stamp the issuing slot has taken. -/
def State.pointStamp (s : State) (c : Cx) : Option Stamp := (s.pointReq c).bind (·.2.stamp)

/-- The issuing slot has taken its stamp, and the stamp is safe (R218). -/
def State.pointSafe (s : State) (c : Cx) : Bool :=
  match s.pointReq c with
  | some p => (match p.2.stamp with | some t => s.stampSafe p.1 t | none => false)
  | none => false

/-- The issuing slot takes its stamp, which stands until the instruction is performed (R217, R218, R225). -/
def State.takePoint (s : State) (c : Cx) : State :=
  let (d, k) := s.site c.ex
  (s.addReq { ex := c.ex, op := .point, socket := d, core := k, ctx := s.ctxOf c.ex, pc := c.pc, group := s.nextId,
              stamp := some (s.stampOf c.ex), lc := s.lcOf c.ex, po := s.po c }
    .homeL2Access).modThr c.ex fun t =>
      { t with points := t.points.filter (·.1 != c.slotB) ++ [(c.slotB, s.nextId, s.lcOf c.ex)] }

/-- An access performed at its issue, or an SC FENCE, waits; an SC one takes its stamp first. -/
def pointWait (s : State) (c : Cx) (sc : Bool) : Out :=
  if sc && (s.pointReq c).isNone then waitOut (s.takePoint c) else waitOut s

/-- What an executor has sent beside its requests has taken effect, as far as it is of the segments asked about: its updates of knots
(R254), its KV events (R296) and its MSTTs (R221, R269). -/
def State.othersDone (s : State) (e : Ex) (mine : Po → Bool) : Bool :=
  (s.knots.all fun k => k.2.by' != some e || !mine k.2.po) && (s.kvs.all fun k => k.2.ex != e || !mine k.2.po) &&
    s.mstts.all fun m => m.2.issuer != e || !mine m.2.po

/-- A request is performed, and where it writes acknowledged: its value is on its way back. -/
def Req.back (r : Req) : Bool := match r.st with | .data _ _ => true | .held => false | .sent => false | .ack _ => false

/-- Every earlier write of the executor is acknowledged, and every earlier access performed: what a release waits for
(R176, R212); an ordered contribution not yet applied (R194) among them. -/
def State.released (s : State) (e : Ex) : Bool := ((s.reqsOf e).all fun r => r.2.back) && s.othersDone e fun _ => true

/-- The same of the issuing slot's lineage, which a FENCE waits for (R225). -/
def State.releasedIn (s : State) (c : Cx) : Bool :=
  ((s.reqsIn c).all fun r => r.2.back) && s.othersDone c.ex fun p => p.before (s.po c)

/-- No contribution of the executor is refused: what its releases, FENCEs and DRAINs wait for (R194). -/
def State.accepted (s : State) (e : Ex) : Bool := (s.reqsOf e).all fun r => !r.2.turnedAway

/-- Every acquire of the issuing slot's lineage is performed (R212): later accesses wait for it. -/
def State.acquired (s : State) (c : Cx) : Bool := (s.reqsIn c).all fun r => !(r.2.acq && r.2.unperformed)

/-- The L1 of the executor's core, or a management core's own data cache, emptied (R176, R203). -/
def State.dropL1 (s : State) (e : Ex) : State :=
  match e with
  | .mgt m => s.modMgt m fun g => { g with l1 := [] }
  | .str _ _ => s.modCore (State.coreKey (s.site e).1 (s.site e).2) fun k => { k with l1 := [] }
  | .bob _ => s.modCore (State.coreKey (s.site e).1 (s.site e).2) fun k => { k with l1 := [] }

/-- 64-bit words of global memory read by an instruction at its issue, each at its home: translation, permission and range as
a load's (R185); a place another package denies is REMOTE_DENIED here. -/
def State.readWords (s : State) (e : Ex) (va : Nat) : Nat → Res (List W64)
  | 0 => .ok []
  | n + 1 =>
    (s.placeOf e va .read).bind fun r =>
      match r.2 with
      | none => .trap { trap := .remoteDenied, d0 := BitVec.ofNat 64 va, d1 := s.cur.pc }
      | some p =>
        if s.groupBad p && !s.l2Has p 8 then .trap { trap := .dataError, d0 := BitVec.ofNat 64 va }
        else (s.readWords e (va + 8) n).bind fun ws => .ok (BitVec.ofNat 64 (s.readAt p 8) :: ws)

/-! Context slots of a management core (R462). -/

/-- The encoding of a slot's state (R391). -/
def CtxSt.n : CtxSt → Nat
  | .free => 0 | .preparing => 1 | .loaded => 2 | .saving => 3 | .saved => 4 | .ended => 5

/-- CTX_STATE where a management core's selected slot is in none of the states its form accepts (R462). -/
def slotGate (s : State) (c : Cx) (ok : List CtxSt) (k : Unit → Out) : Out :=
  match c.ex with
  | .mgt m =>
    let st := (s.ctx m (s.ctxOf c.ex)).st
    if ok.contains st then k () else trapOut s c { trap := .ctxState, d0 := BitVec.ofNat 64 st.n }
  | .str _ _ => k ()
  | .bob _ => k ()

/-- Partition n of a context is valid (R352). -/
def State.partOk (s : State) (d c n : Nat) : Bool := (s.ctxReg d c (0x10 + n)).getLsbD 63

/-! Results. -/

/-- A form whose value in each active lane is a function of its sources: written and pushed, the slot moves on (R68). -/
def vecForm (i : Instr) (w : Wd) (f : Cx → Args → Nat → Nat) (s : State) : Out :=
  run i s fun c x => .next ((s.advance c).writeVec c w x.d (f c x))

end Sys2Proof.Machine
end

