-- ==== Sys2Proof/Machine/Integer.lean ====
section
/-! DEFINITION. The integer, bit and address class (R127 to R146): the value of each form, and one meaning per form. -/

namespace Sys2Proof.Machine

/-- The result of an exact integer x of a w-bit operation: clamped to the signed range under SATI, else wrapped (R132). -/
def intRes (w : Wd) (ar : Arith) (x : Int) : Nat :=
  match ar.sat with
  | .sati => Word.ofInt w.n (min (max x (-(2 ^ (w.n - 1) : Int))) (2 ^ (w.n - 1) - 1))
  | .none => Word.ofInt w.n x
  | .satf => Word.ofInt w.n x

/-- s(x) and u(x) of an operand by the type of the form (R132). -/
def intVal (t : ITy) (x : Nat) : Int := if t.signed then Word.toSigned t.wd.n x else (x : Int)

/-- R132 on two w-bit sources: exact on their signed values, one wrap or one clamp. -/
def arith2 (w : Wd) (op : Int → Int → Int) (c : Cx) (x : Args) (l : Nat) : Nat :=
  intRes w x.ar (op (Word.toSigned w.n (c.src w x.a l)) (Word.toSigned w.n (c.src w x.b l)))

/-- A bitwise form on two w-bit sources (R133). -/
def bits2 (w : Wd) (op : Nat → Nat → Nat) (c : Cx) (x : Args) (l : Nat) : Nat := op (c.src w x.a l) (c.src w x.b l)

/-- IMIN and IMAX (R132): the selected source's pattern. -/
def minMax (t : ITy) (mx : Bool) (c : Cx) (x : Args) (l : Nat) : Nat :=
  let a := c.src t.wd x.a l
  let b := c.src t.wd x.b l
  if decide (intVal t b < intVal t a) == mx then a else b

/-- SHL (R133). -/
def shlVal (w n a : Nat) : Nat := if n < w then a * 2 ^ n % 2 ^ w else 0
/-- SHR (R133). -/
def shrVal (w n a : Nat) : Nat := if n < w then a / 2 ^ n else 0
/-- SAR (R133). -/
def sarVal (w n a : Nat) : Nat :=
  if n < w then Word.ofInt w (Word.toSigned w a / (2 ^ n : Int))
  else if Word.bit a (w - 1) then 2 ^ w - 1 else 0
/-- ROT (R133): left by n mod w. -/
def rotVal (w n a : Nat) : Nat := a * 2 ^ (n % w) % 2 ^ w + a / 2 ^ (w - n % w)

/-- A shift whose amount is the unsigned 32-bit value of B (R133). -/
def shiftForm (op : Nat → Nat → Nat → Nat) (w : Wd) (c : Cx) (x : Args) (l : Nat) : Nat :=
  op w.n (c.src .w32 x.b l) (c.src w x.a l)

/-- Field position and effective width of a control word (R134). -/
def fieldOf (w ctl : Nat) : Nat × Nat :=
  let p := ctl % 256
  (p, if p < w then min (ctl / 256 % 256) (w - p) else 0)

/-- BFX (R134). -/
def bfxVal (t : ITy) (a ctl : Nat) : Nat :=
  let (p, k) := fieldOf t.wd.n ctl
  if k = 0 then 0
  else
    let f := a / 2 ^ p % 2 ^ k
    if t.signed then Word.ofInt t.wd.n (Word.toSigned k f) else f

/-- BFI (R134). -/
def bfiVal (w a b ctl : Nat) : Nat :=
  let (p, k) := fieldOf w ctl
  if k = 0 then a else a - a / 2 ^ p % 2 ^ k * 2 ^ p + b % 2 ^ k * 2 ^ p

/-- The number of 1 bits among the low w (R135). -/
def popcount (w a : Nat) : Nat := (List.range w).foldl (fun n i => if Word.bit a i then n + 1 else n) 0
/-- 0 bits above the highest 1; w for zero (R135). -/
def clzVal (w a : Nat) : Nat := if a = 0 then w else w - 1 - Nat.log2 a
/-- 0 bits below the lowest 1; w for zero (R135). -/
def ctzVal (w a : Nat) : Nat := ((List.range w).find? fun i => Word.bit a i).getD w
/-- Bit i to bit w − 1 − i (R135). -/
def brevVal (w a : Nat) : Nat := (List.range w).foldl (fun n i => if Word.bit a i then n + 2 ^ (w - 1 - i) else n) 0

/-- BPERM (R136): bytes numbered with a low; in the 32-bit form the fourth nibble bit replicates the byte's sign. -/
def bpermVal (w : Wd) (a b sel : Nat) : Nat :=
  let src := a + b * 2 ^ w.n
  let byte (g : Nat) : Nat := src / 2 ^ (8 * g) % 256
  let one (k : Nat) : Nat :=
    let g := sel / 2 ^ (4 * k) % 16
    match w with
    | .w32 => if g < 8 then byte g else if 128 ≤ byte (g - 8) then 0xFF else 0
    | .w64 => byte g
  (List.range (w.n / 8)).foldl (fun n k => n + one k * 2 ^ (8 * k)) 0

/-- The product of two polynomials over GF(2) (R137). -/
def clmulVal (w a b : Nat) : Nat :=
  (List.range w).foldl (fun n i => if Word.bit b i then n ^^^ (a * 2 ^ i) else n) 0

/-- The condition of ISET (R138): by sign for the ordered ones, on the patterns for EQ and NE. -/
def icondVal (k : ICond) (t : ITy) (a b : Nat) : Bool :=
  match k with
  | .eq => a == b
  | .ne => a != b
  | .lt => intVal t a < intVal t b
  | .le => intVal t a ≤ intVal t b
  | .gt => intVal t b < intVal t a
  | .ge => intVal t b ≤ intVal t a

def b2n (b : Bool) : Nat := if b then 1 else 0

/-- The predicate register a selector names (R77). -/
def predOf (c : Opnd) : Nat := match c with | .sel r => r.toNat % 8 | _ => 7

namespace State

/-- A predicate written in each active lane. A helper lane that meets a trap condition has the result 0 here too (R56): one r goes
to the predicate, the destination and the queue (R138). DESIGN CHOICE: so also where only its V[On] destination is out of range, of
which R56 says no more than that the lane's result is 0 (log 83). -/
def writePred (s : State) (c : Cx) (k : Nat) (r : Nat → Bool) : State :=
  s.modLanes c.ex c.act 0 fun l n => n.setP k (!c.dead.getLsbD l && r l)

end State

/-- A compare (R138, R163): the predicate, the destination and the queue; nothing but S with an S destination. -/
def cmpForm (i : Instr) (f : Cx → Args → Nat → Bool) (s : State) : Out :=
  run i s fun c x =>
    .next (((s.advance c).writeVec c .w32 x.d fun l => b2n (f c x l)).writePred c (predOf x.c) (f c x))

/-! Short twins (R70, R71). -/

def execNopShort (g : Guard) (s : State) : Out := run (.nopShort g) s fun c _ => .next (s.advance c)
def execIadd32S (x : SArgs) (s : State) : Out := vecForm (.iadd32S x) .w32 (arith2 .w32 (· + ·)) s
def execIsub32S (x : SArgs) (s : State) : Out := vecForm (.isub32S x) .w32 (arith2 .w32 (· - ·)) s
def execImul32S (x : SArgs) (s : State) : Out := vecForm (.imul32S x) .w32 (arith2 .w32 (· * ·)) s
def execIminS32S (x : SArgs) (s : State) : Out := vecForm (.iminS32S x) .w32 (minMax .s32 false) s
def execImaxS32S (x : SArgs) (s : State) : Out := vecForm (.imaxS32S x) .w32 (minMax .s32 true) s
def execAnd32S (x : SArgs) (s : State) : Out := vecForm (.and32S x) .w32 (bits2 .w32 (· &&& ·)) s
def execOr32S (x : SArgs) (s : State) : Out := vecForm (.or32S x) .w32 (bits2 .w32 (· ||| ·)) s
def execXor32S (x : SArgs) (s : State) : Out := vecForm (.xor32S x) .w32 (bits2 .w32 (· ^^^ ·)) s
def execShl32S (x : SArgs) (s : State) : Out := vecForm (.shl32S x) .w32 (shiftForm shlVal .w32) s
def execShr32S (x : SArgs) (s : State) : Out := vecForm (.shr32S x) .w32 (shiftForm shrVal .w32) s
def execSar32S (x : SArgs) (s : State) : Out := vecForm (.sar32S x) .w32 (shiftForm sarVal .w32) s
def execMov32S (x : SArgs) (s : State) : Out := vecForm (.mov32S x) .w32 (fun c x l => c.src .w32 x.a l) s
def execIadd64S (x : SArgs) (s : State) : Out := vecForm (.iadd64S x) .w64 (arith2 .w64 (· + ·)) s
def execPopc32S (x : SArgs) (s : State) : Out := vecForm (.popc32S x) .w32 (fun c x l => popcount 32 (c.src .w32 x.a l)) s
/-- ISET.EQ.32, short: pushes only (R71). -/
def execIsetEq32S (x : SArgs) (s : State) : Out :=
  vecForm (.isetEq32S x) .w32 (fun c x l => b2n (icondVal .eq .n32 (c.src .w32 x.a l) (c.src .w32 x.b l))) s
def execIsetLtS32S (x : SArgs) (s : State) : Out :=
  vecForm (.isetLtS32S x) .w32 (fun c x l => b2n (icondVal .lt .s32 (c.src .w32 x.a l) (c.src .w32 x.b l))) s
def execIsetLtN32S (x : SArgs) (s : State) : Out :=
  vecForm (.isetLtN32S x) .w32 (fun c x l => b2n (icondVal .lt .n32 (c.src .w32 x.a l) (c.src .w32 x.b l))) s

/-! Arithmetic (R132). -/

def execIadd (w : Wd) (x : Args) (s : State) : Out := vecForm (.iadd w x) w (arith2 w (· + ·)) s
def execIsub (w : Wd) (x : Args) (s : State) : Out := vecForm (.isub w x) w (arith2 w (· - ·)) s
def execImul (w : Wd) (x : Args) (s : State) : Out := vecForm (.imul w x) w (arith2 w (· * ·)) s
/-- The high w bits of the exact product (R132). -/
def execImulh (t : ITy) (x : Args) (s : State) : Out :=
  vecForm (.imulh t x) t.wd (fun c x l =>
    Word.ofInt t.wd.n (intVal t (c.src t.wd x.a l) * intVal t (c.src t.wd x.b l) / (2 ^ t.wd.n : Int))) s
/-- One wrap or one clamp of a × b + c (R132). -/
def execImad (w : Wd) (x : Args) (s : State) : Out :=
  vecForm (.imad w x) w (fun c x l =>
    intRes w x.ar (Word.toSigned w.n (c.src w x.a l) * Word.toSigned w.n (c.src w x.b l) + Word.toSigned w.n (c.src w x.c l))) s
def execImin (t : ITy) (x : Args) (s : State) : Out := vecForm (.imin t x) t.wd (minMax t false) s
def execImax (t : ITy) (x : Args) (s : State) : Out := vecForm (.imax t x) t.wd (minMax t true) s
def execIabs (w : Wd) (x : Args) (s : State) : Out :=
  vecForm (.iabs w x) w (fun c x l => intRes w x.ar (Word.toSigned w.n (c.src w x.a l)).natAbs) s

/-! Logic, shifts and bit fields (R133 to R137). -/

def execAnd (w : Wd) (x : Args) (s : State) : Out := vecForm (.and w x) w (bits2 w (· &&& ·)) s
def execOr (w : Wd) (x : Args) (s : State) : Out := vecForm (.or w x) w (bits2 w (· ||| ·)) s
def execXor (w : Wd) (x : Args) (s : State) : Out := vecForm (.xor w x) w (bits2 w (· ^^^ ·)) s
def execNot (w : Wd) (x : Args) (s : State) : Out := vecForm (.not w x) w (fun c x l => 2 ^ w.n - 1 - c.src w x.a l) s
def execShl (w : Wd) (x : Args) (s : State) : Out := vecForm (.shl w x) w (shiftForm shlVal w) s
def execShr (w : Wd) (x : Args) (s : State) : Out := vecForm (.shr w x) w (shiftForm shrVal w) s
def execSar (w : Wd) (x : Args) (s : State) : Out := vecForm (.sar w x) w (shiftForm sarVal w) s
def execRot (w : Wd) (x : Args) (s : State) : Out := vecForm (.rot w x) w (shiftForm rotVal w) s
def execBfx (t : ITy) (x : Args) (s : State) : Out :=
  vecForm (.bfx t x) t.wd (fun c x l => bfxVal t (c.src t.wd x.a l) (c.src .w32 x.b l)) s
def execBfi (w : Wd) (x : Args) (s : State) : Out :=
  vecForm (.bfi w x) w (fun c x l => bfiVal w.n (c.src w x.a l) (c.src w x.b l) (c.src .w32 x.c l)) s
def execPopc (w : Wd) (x : Args) (s : State) : Out := vecForm (.popc w x) .w32 (fun c x l => popcount w.n (c.src w x.a l)) s
def execClz (w : Wd) (x : Args) (s : State) : Out := vecForm (.clz w x) .w32 (fun c x l => clzVal w.n (c.src w x.a l)) s
def execCtz (w : Wd) (x : Args) (s : State) : Out := vecForm (.ctz w x) .w32 (fun c x l => ctzVal w.n (c.src w x.a l)) s
def execBrev (w : Wd) (x : Args) (s : State) : Out := vecForm (.brev w x) w (fun c x l => brevVal w.n (c.src w x.a l)) s
def execBperm (w : Wd) (x : Args) (s : State) : Out :=
  vecForm (.bperm w x) w (fun c x l => bpermVal w (c.src w x.a l) (c.src w x.b l) (c.src w x.c l)) s
def execClmul (w : Wd) (x : Args) (s : State) : Out :=
  vecForm (.clmul w x) w (fun c x l => clmulVal w.n (c.src w x.a l) (c.src w x.b l) % 2 ^ w.n) s
def execClmulh (w : Wd) (x : Args) (s : State) : Out :=
  vecForm (.clmulh w x) w (fun c x l => clmulVal w.n (c.src w x.a l) (c.src w x.b l) / 2 ^ w.n) s

/-! Predicates, selection, moves and addresses (R138 to R142). -/

def execIset (k : ICond) (t : ITy) (x : Args) (s : State) : Out :=
  cmpForm (.iset k t x) (fun c x l => icondVal k t (c.src t.wd x.a l) (c.src t.wd x.b l)) s

/-- PLOP (R139): [2:0] and [5:3] of A name the predicates, B holds the table; other bits are refused at the issue (entryOk). -/
def execPlop (x : Args) (s : State) : Out :=
  run (.plop x) s fun c x =>
    let a := c.uni .w32 x.a
    let b := c.uni .w32 x.b
    let r (l : Nat) : Bool := Word.bit b (2 * b2n ((c.lane l).pAt (a % 8)) + b2n ((c.lane l).pAt (a / 8)))
    .next (((s.advance c).writeVec c .w32 x.d fun l => b2n (r l)).writePred c (predOf x.c) r)

def execSel (w : Wd) (x : Args) (s : State) : Out :=
  vecForm (.sel w x) w (fun c x l => if (c.lane l).pAt (predOf x.c) then c.src w x.a l else c.src w x.b l) s
def execMov (w : Wd) (x : Args) (s : State) : Out := vecForm (.mov w x) w (fun c x l => c.src w x.a l) s

/-- MOVI (R141): A's immediate times 2^(16h); an h outside 0 to 1, or 0 to 3 in the 64-bit form, is refused at the issue
(entryOk). -/
def execMovi (w : Wd) (x : Args) (s : State) : Out :=
  vecForm (.movi w x) w (fun c x l => c.src .w64 x.a l * 2 ^ (16 * c.uni .w64 x.b) % 2 ^ w.n) s

/-- LEA (R142): in the 64-bit form the index is signed and the scale unsigned, both of 32 bits. -/
def execLea (w : Wd) (x : Args) (s : State) : Out :=
  vecForm (.lea w x) w (fun c x l =>
    match w with
    | .w32 => (c.src .w32 x.a l + c.src .w32 x.b l * c.src .w32 x.c l) % 2 ^ 32
    | .w64 => Word.ofInt 64 ((c.src .w64 x.a l : Int) + Word.toSigned 32 (c.src .w32 x.b l) * (c.src .w32 x.c l : Int))) s

/-! Exchange among lanes (R143 to R146). -/

/-- What lane j supplies (R143): its source where it is active, else 0. DESIGN CHOICE: a helper lane that meets a trap condition supplies
its register as it stands, and 0 for a V[On] out of range: R56 makes only its own result 0 (log 89). -/
def supplied (c : Cx) (x : Args) (j : Nat) : Nat := if c.act.getLsbD j then c.src .w32 x.a j else 0

def execQxch (m : QxMode) (x : Args) (s : State) : Out :=
  vecForm (.qxch m x) .w32 (fun c x l =>
    let q := l % 4
    let p := match m with | .horz => q ^^^ 1 | .vert => q ^^^ 2 | .diag => q ^^^ 3 | .rot => (q + 1) % 4
    supplied c x (l - q + p)) s

def execQbc (q : BitVec 2) (x : Args) (s : State) : Out :=
  vecForm (.qbc q x) .w32 (fun c x l => supplied c x (l - l % 4 + q.toNat)) s

def execShfl (m : ShMode) (x : Args) (s : State) : Out :=
  vecForm (.shfl m x) .w32 (fun c x l =>
    let e := c.src .w32 x.b l
    match m with
    | .idx => supplied c x (e % 32)
    | .up => if l < e then c.src .w32 x.a l else supplied c x (l - e)
    | .down => if 31 < l + e then c.src .w32 x.a l else supplied c x (l + e)
    | .bfly => supplied c x (l ^^^ (e % 32))) s

/-- VOTE (R146) over the active lanes that are no helpers; every active lane receives the result. -/
def execVote (m : VoMode) (x : Args) (s : State) : Out :=
  run (.vote m x) s fun c x =>
    let y (l : Nat) : Bool := c.src .w32 x.a l != 0
    let ps := c.parts
    let r : Nat := match m with
      | .all => b2n (ps.all y)
      | .any => b2n (ps.any y)
      | .uni => b2n (ps.all fun l => c.src .w32 x.a l == c.src .w32 x.a (ps.headD 0))
      | .ballot => (maskOf (ps.filter y)).toNat
    let p (l : Nat) : Bool := match m with | .ballot => y l | _ => r != 0
    .next (((s.advance c).writeVec c .w32 x.d fun _ => r).writePred c (predOf x.c) p)

end Sys2Proof.Machine
end

