-- ==== Sys2Proof/Machine/Float.lean ====
section
/-! DEFINITION. The floating and conversion class (R147 to R173): operand values, the stochastic generator, and one meaning per
form. -/

namespace Sys2Proof.Machine

/-! Operands. -/

/-- NEGABS on a value (R60): bit 0 negates, bit 1 takes the absolute value first. -/
def negAbs (k : Nat) (x : FVal) : FVal :=
  let y := if Word.bit k 1 then x.abs else x
  if Word.bit k 0 then y.neg else y

/-- The NEGABS bits of source k: 0 A, 1 B, 2 C. -/
def Arith.of (ar : Arith) (k : Nat) : Nat := ar.neg.toNat / 4 ^ k % 4

/-- Val(f, op) (R45, R148): the decoded value, an immediate by its exact integer. DESIGN CHOICE: NEGABS takes place on the floating value,
so a negated immediate 0 is −0 (log 77). -/
def valOf (c : Cx) (f : Fmt) (w : Wd) (x : Opnd) (na l : Nat) : FVal :=
  negAbs na (match x with
    | .imm i => FVal.ofInt i.toInt
    | _ => FVal.decode f (c.src w x l % 2 ^ f.width))

/-- Sources A, B and C of a form of format f. -/
def srcF (c : Cx) (x : Args) (f : FTy) (k l : Nat) : FVal :=
  valOf c (fmtOf f) f.wd (if k = 0 then x.a else if k = 1 then x.b else x.c) (Arith.of x.ar k) l

/-! The stochastic generator (R154). -/

/-- The identity of a lane: GARMENTID, PANELID, STRANDID, LANEID (R154). -/
def laneIdent (s : State) (e : Ex) (l : Nat) : Nat :=
  match e with
  | .str h i =>
    (match s.panel? h with
    | some p => (p.gid * 2 ^ 40 + p.panelId * 2 ^ 10 + i * 2 ^ 5 + l) % 2 ^ 64
    | none => 0)
  | .bob _ => 0
  | .mgt _ => 0

/-- Gen(l, n) (R154). -/
def genAt (seed ident n : Nat) : Nat := mix64 ((mix64 (seed ^^^ mix64 ident) + n * 0x9E3779B97F4A7C15) % 2 ^ 64)

/-- g(i) of a lane at this issue (R154); only SR uses it. -/
def gOf (s : State) (c : Cx) (ar : Arith) (l i : Nat) : Nat :=
  match ar.rnd with
  | .sr => genAt (s.ctxReg (s.site c.ex).1 (s.ctxOf c.ex) 0x39).toNat (laneIdent s c.ex l) (c.lane l).sr.toNat / 2 ^ (16 * i) % 2 ^ 16
  | _ => 0

namespace State

/-- Flags of the active lanes that are no helpers added to SY.FFLAGS (R156, R157). -/
def addFlags (s : State) (e : Ex) (fl : FFlags) : State :=
  match e with
  | .str h i => s.modStrand h i fun t => { t with fflags := t.fflags ||| fl }
  | .bob _ => s
  | .mgt _ => s

end State

/-- The flags of the participating lanes together. -/
def flagsOf (c : Cx) (f : Nat → FRes) : FFlags := c.parts.foldl (fun m l => m ||| (f l).flags) 0

/-- A floating form: result and flags in each active lane (R157, R161). -/
def floatForm (i : Instr) (w : Wd) (f : State → Cx → Args → Nat → FRes) (s : State) : Out :=
  run i s fun c x =>
    .next ((((s.advance c).bumpSr c x.ar).writeVec c w x.d (fun l => (f s c x l).bits)).addFlags c.ex (flagsOf c (f s c x)))

/-- Enc(f, Round(SatF(x))) with the flags `fl` besides (R161). -/
def finish (f : Fmt) (ar : Arith) (g : Nat) (x : FVal) (fl : FFlags) : FRes :=
  let r := f.round ar.rnd ar.sat g x
  { r with flags := r.flags ||| fl }

def isRdn (ar : Arith) : Bool := ar.rnd == .rdn

/-! Arithmetic (R161). -/

/-- a + b. -/
def faddVal (f : Fmt) (ar : Arith) (g : Nat) (a b : FVal) : FRes :=
  finish f ar g (FVal.sum (isRdn ar) [a, b]) (if FVal.infClash [a, b] then flNV else 0)

/-- a × b. -/
def fmulVal (f : Fmt) (ar : Arith) (g : Nat) (a b : FVal) : FRes :=
  finish f ar g (FVal.mul a b) (if FVal.zeroTimesInf a b then flNV else 0)

/-- a × b + c, with one rounding. -/
def ffmaVal (f : Fmt) (ar : Arith) (g : Nat) (a b c : FVal) : FRes :=
  finish f ar g (FVal.sum (isRdn ar) [FVal.mul a b, c])
    (if FVal.zeroTimesInf a b || FVal.infClash [FVal.mul a b, c] then flNV else 0)

/-- a × 2^k. -/
def fscaleVal (a : FVal) (k : Int) : FVal :=
  match a with
  | .fin n m e => .fin n m (e + k)
  | .nan => .nan
  | .inf n => .inf n
  | .zero n => .zero n

/-- The exponent of FSCALE: s(Src(B)[31:0]) after NEGABS (R160, R161). -/
def fscaleExp (c : Cx) (x : Args) (l : Nat) : Int :=
  let k : Int := Word.toSigned 32 (c.src .w32 x.b l)
  let k1 := if Word.bit (Arith.of x.ar 1) 1 then (k.natAbs : Int) else k
  if Word.bit (Arith.of x.ar 1) 0 then -k1 else k1

def isImm (x : Opnd) : Bool := match x with | .imm _ => true | _ => false

/-- FMIN and FMAX (R162): a selected immediate is rounded and raises its flags; a register is returned as it is. -/
def fminMax (f : Fmt) (mx : Bool) (ia ib : Bool) (a b : FVal) : FRes :=
  let pick (y : FVal) (imm : Bool) : FRes :=
    let r := f.round .rne .none 0 y
    if imm then r else { r with flags := 0 }
  match a, b with
  | .nan, _ => pick b ib
  | _, .nan => pick a ia
  | _, _ =>
    let o := match FVal.cmp a b with
      | .eq => compare b.isNeg a.isNeg
      | o => o
    match o with
    | .eq => if ia then pick b ib else pick a ia
    | .lt => if mx then pick b ib else pick a ia
    | .gt => if mx then pick a ia else pick b ib

/-- FSET (R163): a NaN makes the pair unordered. -/
def fcondVal (k : FCond) (a b : FVal) : Bool :=
  if a == .nan || b == .nan then (match k with | .ne => true | .nan => true | _ => false)
  else
    let o := FVal.cmp a b
    match k with
    | .eq => o == .eq
    | .ne => o != .eq
    | .lt => o == .lt
    | .le => o != .gt
    | .gt => o == .gt
    | .ge => o != .lt
    | .num => true
    | .nan => false

/-! Functions (R164). -/

def frcpVal (ar : Arith) (a : FVal) : FRes :=
  match a with
  | .zero n => finish Fmt.f32 ar 0 (.inf n) flDZ
  | .inf n => finish Fmt.f32 ar 0 (.zero n) 0
  | .nan => finish Fmt.f32 ar 0 .nan 0
  | .fin n m e => (recipFin n m e).round ar.rnd ar.sat

def frsqVal (ar : Arith) (a : FVal) : FRes :=
  match a with
  | .zero n => finish Fmt.f32 ar 0 (.inf n) flDZ
  | .inf n => if n then finish Fmt.f32 ar 0 .nan flNV else finish Fmt.f32 ar 0 (.zero false) 0
  | .nan => finish Fmt.f32 ar 0 .nan 0
  | .fin n m e => if n then finish Fmt.f32 ar 0 .nan flNV else (rsqrtFin m e).round ar.rnd ar.sat

def fsqrtVal (ar : Arith) (a : FVal) : FRes :=
  match a with
  | .zero n => finish Fmt.f32 ar 0 (.zero n) 0
  | .inf n => if n then finish Fmt.f32 ar 0 .nan flNV else finish Fmt.f32 ar 0 (.inf false) 0
  | .nan => finish Fmt.f32 ar 0 .nan 0
  | .fin n m e => if n then finish Fmt.f32 ar 0 .nan flNV else (sqrtFin m e).round ar.rnd ar.sat

def fexp2Val (ar : Arith) (a : FVal) : FRes :=
  match a with
  | .zero _ => finish Fmt.f32 ar 0 (.fin false 1 0) 0
  | .inf n => if n then finish Fmt.f32 ar 0 (.zero false) 0 else finish Fmt.f32 ar 0 (.inf false) 0
  | .nan => finish Fmt.f32 ar 0 .nan 0
  | .fin n m e => (exp2Fin n m e).round ar.rnd ar.sat

def flog2Val (ar : Arith) (a : FVal) : FRes :=
  match a with
  | .zero _ => finish Fmt.f32 ar 0 (.inf true) flDZ
  | .inf n => if n then finish Fmt.f32 ar 0 .nan flNV else finish Fmt.f32 ar 0 (.inf false) 0
  | .nan => finish Fmt.f32 ar 0 .nan 0
  | .fin n m e => if n then finish Fmt.f32 ar 0 .nan flNV else (log2Fin m e).round ar.rnd ar.sat

def ftanhVal (ar : Arith) (a : FVal) : FRes :=
  match a with
  | .zero n => finish Fmt.f32 ar 0 (.zero n) 0
  | .inf n => finish Fmt.f32 ar 0 (.fin n 1 0) 0
  | .nan => finish Fmt.f32 ar 0 .nan 0
  | .fin n m e => (tanhFin n m e).round ar.rnd ar.sat

/-- A value sent back to a lane of a long-latency form, with its flags (R48, R157). -/
def State.sendValue (c : Cx) (id : Nat) (f : Nat → FRes) (s : State) (l : Nat) : State :=
  s.addReq { ex := c.ex, pend := some id, lane := l, op := .value, pc := c.pc,
             flags := (if c.helper.getLsbD l then 0 else (f l).flags), st := .data (f l).bits none } .pendingFill

/-- A transcendental form (R164): pending at issue, each lane's value on its way. -/
def transForm (i : Instr) (f : Arith → FVal → FRes) (s : State) : Out :=
  run i s fun c x =>
    let s1 := s.advance c
    if !c.any then .next s1
    else
      let v (l : Nat) : FRes := if c.dead.getLsbD l then { bits := 0, flags := 0 } else f x.ar (srcF c x .f32 0 l)
      let s2 := ({ s1 with nextId := s1.nextId + 1 }).pendVec c s1.nextId x.look.toNat .w32 x.d
      .next ((lanesOf c.act).foldl (State.sendValue c s1.nextId v) s2)

/-! Classes (R165). -/

def fclassVal (f : Fmt) (a : FVal) : Nat :=
  match a with
  | .inf n => if n then 0 else 7
  | .nan => 8
  | .zero n => if n then 3 else 4
  | .fin n m e => if FVal.top m e < f.emin then (if n then 2 else 5) else (if n then 1 else 6)

/-! Packed forms (R166). -/

def packFmt (bf : Bool) : Fmt := if bf then Fmt.bf16 else Fmt.f16

/-- Element i of a packed operand, after NEGABS. -/
def elemF (c : Cx) (f : Fmt) (x : Opnd) (na i l : Nat) : FVal :=
  negAbs na (FVal.decode f (c.src .w32 x l / 2 ^ (16 * i) % 2 ^ 16))

def hfma2Val (s : State) (c : Cx) (x : Args) (bf : Bool) (l : Nat) : FRes :=
  let f := packFmt bf
  let one (i : Nat) : FRes :=
    ffmaVal f x.ar (gOf s c x.ar l i) (elemF c f x.a (Arith.of x.ar 0) i l) (elemF c f x.b (Arith.of x.ar 1) i l)
      (elemF c f x.c (Arith.of x.ar 2) i l)
  { bits := (one 0).bits + 2 ^ 16 * (one 1).bits, flags := (one 0).flags ||| (one 1).flags }

def dot2Val (s : State) (c : Cx) (x : Args) (bf : Bool) (l : Nat) : FRes :=
  let f := packFmt bf
  let a (i : Nat) := elemF c f x.a (Arith.of x.ar 0) i l
  let b (i : Nat) := elemF c f x.b (Arith.of x.ar 1) i l
  let ts := [FVal.mul (a 0) (b 0), FVal.mul (a 1) (b 1), valOf c Fmt.f32 .w32 x.c (Arith.of x.ar 2) l]
  finish Fmt.f32 x.ar (gOf s c x.ar l 0) (FVal.sum (isRdn x.ar) ts)
    (if FVal.zeroTimesInf (a 0) (b 0) || FVal.zeroTimesInf (a 1) (b 1) || FVal.infClash ts then flNV else 0)

/-! Conversion (R167 to R172). -/

/-- Width and signedness of an integer code (R77, R147). -/
def intCode (n : Nat) : Nat × Bool :=
  match n with
  | 0x8 => (4, true) | 0x9 => (8, true) | 0xA => (16, true) | 0xB => (32, true) | 0xC => (64, true)
  | 0xD => (8, false) | 0xE => (16, false) | _ => (32, false)

def intMin (n : Nat) : Int := if (intCode n).2 then -(2 ^ ((intCode n).1 - 1) : Int) else 0
def intMax (n : Nat) : Int := if (intCode n).2 then 2 ^ ((intCode n).1 - 1) - 1 else 2 ^ (intCode n).1 - 1

/-- The value of an integer format's pattern. -/
def intDecode (n v : Nat) : Int :=
  if (intCode n).2 then Word.toSigned (intCode n).1 v else ((v % 2 ^ (intCode n).1 : Nat) : Int)

/-- A pattern of an integer format widened to its location (R148). -/
def widen (n v : Nat) : Nat :=
  if (intCode n).2 && (intCode n).1 < 64 then Word.ofInt 32 (Word.toSigned (intCode n).1 v) else v

/-- The value of an E8M0 code (R147). -/
def e8m0Val (v : Nat) : FVal := if v % 256 = 255 then .nan else .fin false 1 ((v % 256 : Nat) - 127)

/-- The value of a source pattern by its format code. -/
def codeVal (src v : Nat) : FVal :=
  if isIntCode src then FVal.ofInt (intDecode src v)
  else if src = 7 then e8m0Val v
  else FVal.decode (Fmt.ofCode src) (v % 2 ^ (Fmt.ofCode src).width)

/-- Float to integer (R168): rounded, then always clamped; NV where it clamps (log 14). -/
def toIntVal (dst : Nat) (ar : Arith) (g : Nat) (x : FVal) : FRes :=
  let enc (v : Int) : Nat := Word.ofInt (intCode dst).1 v
  match x with
  | .nan => { bits := 0, flags := flNV }
  | .inf n => { bits := enc (if n then intMin dst else intMax dst), flags := flNV }
  | .zero _ => { bits := 0, flags := 0 }
  | .fin n m e =>
    let (y, inexact) := roundInt ar.rnd g n m e
    let v := min (max y (intMin dst)) (intMax dst)
    { bits := enc v, flags := if v != y then flNV else if inexact then flNX else 0 }

/-- ⌊log₂ |x|⌋ + 127, clamped to a code (R168). -/
def toE8m0 (x : FVal) : FRes :=
  match x with
  | .nan => { bits := 0xFF, flags := 0 }
  | .inf _ => { bits := 0xFF, flags := 0 }
  | .zero _ => { bits := 0, flags := flNX }
  | .fin _ m e =>
    let k := min (max (FVal.top m e) (-127)) 127
    { bits := (k + 127).toNat, flags := if FVal.cmpMag m e 1 k == .eq then 0 else flNX }

/-- The exact integer of a value that is one. -/
def intOf (x : FVal) : Int :=
  match x with
  | .fin n m e => let v : Int := (m * 2 ^ e.toNat : Nat); if n then -v else v
  | .nan => 0
  | .inf _ => 0
  | .zero _ => 0

/-- The conversion of one value (R168), before widening. DESIGN CHOICE: an integer-to-integer conversion that wraps raises no flag, and
one that SATI clamps raises SA alone (log 77). -/
def convVal (dst src : Nat) (ar : Arith) (g : Nat) (x : FVal) : FRes :=
  if dst = 7 then toE8m0 x
  else if isIntCode dst then
    if isIntCode src then
      let v := intOf x
      let y := if ar.sat == .sati then min (max v (intMin dst)) (intMax dst) else v
      { bits := Word.ofInt (intCode dst).1 y, flags := if y != v then flSA else 0 }
    else toIntVal dst ar g x
  else (Fmt.ofCode dst).round ar.rnd ar.sat g x

/-- A source of a conversion: an immediate by its exact integer (R148). -/
def convSrc (c : Cx) (src : Nat) (x : Opnd) (l : Nat) : FVal :=
  match x with
  | .imm i => FVal.ofInt i.toInt
  | _ => codeVal src (c.src (fmtWd src) x l)

/-- CVT of one lane. -/
def cvtVal (s : State) (c : Cx) (x : Args) (dst src l : Nat) : FRes :=
  let r := convVal dst src x.ar (gOf s c x.ar l 0) (convSrc c src x.a l)
  { r with bits := if isIntCode dst then widen dst r.bits else r.bits }

/-- Element width of a packed destination (R169). -/
def elemBits (n : Nat) : Nat := if isIntCode n then (intCode n).1 else (Fmt.ofCode n).width

/-- PACK of one lane (R169). -/
def packVal (s : State) (c : Cx) (x : Args) (l : Nat) : FRes :=
  let dst := fmtDst x.c
  let src := fmtSrc x.c
  let e := elemBits dst
  let r0 := convVal dst src x.ar (gOf s c x.ar l 0) (convSrc c src x.a l)
  let r1 := convVal dst src x.ar (gOf s c x.ar l 1) (convSrc c src x.b l)
  let p := r1.bits * 2 ^ e + r0.bits
  let q0 := ((c.lane l).qAt 0).toNat
  { bits := if e = 16 then p else if e = 8 then q0 / 2 ^ 16 + p * 2 ^ 16 else q0 / 2 ^ 8 + p * 2 ^ 24,
    flags := r0.flags ||| r1.flags }

/-- UNPK of one element (R170). -/
def unpkVal (src v k : Nat) : Nat :=
  let e := elemBits src
  let x := v / 2 ^ (e * k) % 2 ^ e
  if isIntCode src then widen src x else (Fmt.f32.round .rne .none 0 (codeVal src x)).bits

/-- RND of one value (R171, R152): a NaN of the target is the source's canonical NaN, and E4M3's, to which it overflows, keeps the sign
(log 15). -/
def rndVal (tgt src : Nat) (ar : Arith) (g : Nat) (x : FVal) : FRes :=
  let f := Fmt.ofCode src
  let r := (Fmt.ofCode tgt).round ar.rnd ar.sat g x
  match FVal.decode (Fmt.ofCode tgt) r.bits with
  | .nan => { r with bits := f.sign x.isNeg + f.nan }
  | y => { r with bits := (f.round .rne .none 0 y).bits }

/-- emax of MXSC's element formats (R172). -/
def mxEmax (elem : Nat) : Int := if elem = 4 then 8 else if elem = 5 then 15 else 2

/-- The larger magnitude. -/
def maxMag (a b : FVal) : FVal :=
  match FVal.cmp a.abs b.abs with
  | .lt => b.abs
  | _ => a.abs

/-- The block scale of the participants (R172). -/
def mxscVal (elem : Nat) (xs : List FVal) : Nat :=
  if xs.any (fun x => match x with | .nan => true | .inf _ => true | _ => false) then 0xFF
  else
    match xs.foldl maxMag (.zero false) with
    | .fin _ m e => (min (max (FVal.top m e - mxEmax elem) (-127)) 127 + 127).toNat
    | _ => 0

/-! Meanings. -/

def execFaddF32S (x : SArgs) (s : State) : Out :=
  floatForm (.faddF32S x) .w32 (fun s c x l => faddVal Fmt.f32 x.ar (gOf s c x.ar l 0) (srcF c x .f32 0 l) (srcF c x .f32 1 l)) s
def execFmulF32S (x : SArgs) (s : State) : Out :=
  floatForm (.fmulF32S x) .w32 (fun s c x l => fmulVal Fmt.f32 x.ar (gOf s c x.ar l 0) (srcF c x .f32 0 l) (srcF c x .f32 1 l)) s
def execFaddBF16S (x : SArgs) (s : State) : Out :=
  floatForm (.faddBF16S x) .w32 (fun s c x l => faddVal Fmt.bf16 x.ar (gOf s c x.ar l 0) (srcF c x .bf16 0 l) (srcF c x .bf16 1 l)) s
def execFmulBF16S (x : SArgs) (s : State) : Out :=
  floatForm (.fmulBF16S x) .w32 (fun s c x l => fmulVal Fmt.bf16 x.ar (gOf s c x.ar l 0) (srcF c x .bf16 0 l) (srcF c x .bf16 1 l)) s
def execFminF32S (x : SArgs) (s : State) : Out :=
  floatForm (.fminF32S x) .w32 (fun _ c x l => fminMax Fmt.f32 false (isImm x.a) (isImm x.b) (srcF c x .f32 0 l) (srcF c x .f32 1 l)) s
def execFmaxF32S (x : SArgs) (s : State) : Out :=
  floatForm (.fmaxF32S x) .w32 (fun _ c x l => fminMax Fmt.f32 true (isImm x.a) (isImm x.b) (srcF c x .f32 0 l) (srcF c x .f32 1 l)) s
/-- FSET.LT.F32, short: pushes only (R71). -/
def execFsetLtF32S (x : SArgs) (s : State) : Out :=
  vecForm (.fsetLtF32S x) .w32 (fun c x l => b2n (fcondVal .lt (srcF c x .f32 0 l) (srcF c x .f32 1 l))) s
def execFsetEqF32S (x : SArgs) (s : State) : Out :=
  vecForm (.fsetEqF32S x) .w32 (fun c x l => b2n (fcondVal .eq (srcF c x .f32 0 l) (srcF c x .f32 1 l))) s
def execCvtBF16F32S (x : SArgs) (s : State) : Out :=
  floatForm (.cvtBF16F32S x) .w32 (fun s c x l => cvtVal s c x 2 0 l) s
def execCvtF32BF16S (x : SArgs) (s : State) : Out :=
  floatForm (.cvtF32BF16S x) .w32 (fun s c x l => cvtVal s c x 0 2 l) s

def execFadd (f : FTy) (x : Args) (s : State) : Out :=
  floatForm (.fadd f x) f.wd (fun s c x l => faddVal (fmtOf f) x.ar (gOf s c x.ar l 0) (srcF c x f 0 l) (srcF c x f 1 l)) s
def execFmul (f : FTy) (x : Args) (s : State) : Out :=
  floatForm (.fmul f x) f.wd (fun s c x l => fmulVal (fmtOf f) x.ar (gOf s c x.ar l 0) (srcF c x f 0 l) (srcF c x f 1 l)) s
def execFfma (f : FTy) (x : Args) (s : State) : Out :=
  floatForm (.ffma f x) f.wd (fun s c x l =>
    ffmaVal (fmtOf f) x.ar (gOf s c x.ar l 0) (srcF c x f 0 l) (srcF c x f 1 l) (srcF c x f 2 l)) s
def execFscale (f : FTy3) (x : Args) (s : State) : Out :=
  floatForm (.fscale f x) .w32 (fun s c x l =>
    finish (fmtOf f.ty) x.ar (gOf s c x.ar l 0) (fscaleVal (srcF c x f.ty 0 l) (fscaleExp c x l)) 0) s
def execFmin (f : FTy3) (x : Args) (s : State) : Out :=
  floatForm (.fmin f x) .w32 (fun _ c x l =>
    fminMax (fmtOf f.ty) false (isImm x.a) (isImm x.b) (srcF c x f.ty 0 l) (srcF c x f.ty 1 l)) s
def execFmax (f : FTy3) (x : Args) (s : State) : Out :=
  floatForm (.fmax f x) .w32 (fun _ c x l =>
    fminMax (fmtOf f.ty) true (isImm x.a) (isImm x.b) (srcF c x f.ty 0 l) (srcF c x f.ty 1 l)) s
def execFset (k : FCond) (f : FTy3) (x : Args) (s : State) : Out :=
  cmpForm (.fset k f x) (fun c x l => fcondVal k (srcF c x f.ty 0 l) (srcF c x f.ty 1 l)) s
def execFrcp (x : Args) (s : State) : Out := transForm (.frcp x) frcpVal s
def execFrsq (x : Args) (s : State) : Out := transForm (.frsq x) frsqVal s
def execFsqrt (x : Args) (s : State) : Out := transForm (.fsqrt x) fsqrtVal s
def execFexp2 (x : Args) (s : State) : Out := transForm (.fexp2 x) fexp2Val s
def execFlog2 (x : Args) (s : State) : Out := transForm (.flog2 x) flog2Val s
def execFtanh (x : Args) (s : State) : Out := transForm (.ftanh x) ftanhVal s
def execFclass (f : FTy3) (x : Args) (s : State) : Out :=
  vecForm (.fclass f x) .w32 (fun c x l => 2 ^ fclassVal (fmtOf f.ty) (srcF c x f.ty 0 l)) s
def execHfma2 (bf : Bool) (x : Args) (s : State) : Out := floatForm (.hfma2 bf x) .w32 (fun s c x l => hfma2Val s c x bf l) s
def execDot2 (bf : Bool) (x : Args) (s : State) : Out := floatForm (.dot2 bf x) .w32 (fun s c x l => dot2Val s c x bf l) s
def execCvt (x : Args) (s : State) : Out :=
  floatForm (.cvt x) (fmtWd (fmtDst x.c)) (fun s c x l => cvtVal s c x (fmtDst x.c) (fmtSrc x.c) l) s
def execPack (x : Args) (s : State) : Out := floatForm (.pack x) .w32 packVal s
/-- UNPK (R170): an index beyond the elements traps; an immediate one has been checked at order 5 (log 71). -/
def execUnpk (x : Args) (s : State) : Out :=
  run (.unpk x) s fun c x =>
    let src := fmtSrc x.c
    let k := c.uni .w32 x.b
    if !c.parts.isEmpty && 32 / elemBits src ≤ k then trapOut s c { trap := .illegalOperand }
    else .next ((s.advance c).writeVec c .w32 x.d fun l => unpkVal src (c.src .w32 x.a l) k)
def execRnd (x : Args) (s : State) : Out :=
  floatForm (.rnd x) (fmtWd (fmtSrc x.c)) (fun s c x l =>
    rndVal (fmtDst x.c) (fmtSrc x.c) x.ar (gOf s c x.ar l 0) (valOf c (Fmt.ofCode (fmtSrc x.c)) (fmtWd (fmtSrc x.c)) x.a 0 l)) s
/-- MXSC (R172): the participants form one block; every active lane receives its scale. -/
def execMxsc (x : Args) (s : State) : Out :=
  vecForm (.mxsc x) .w32 (fun c x _ =>
    mxscVal (fmtDst x.c) (c.parts.map fun l => valOf c (Fmt.ofCode (fmtSrc x.c)) .w32 x.a 0 l)) s

end Sys2Proof.Machine
end

