-- ==== Sys2Proof/Machine/Device.lean ====
section
/-! DEFINITION. Device registers (R419 to R421, R424, R429, R435 to R437), event bits of management cores (R387), fault logs (R400),
and the meanings of the steps that a device store makes. -/

namespace Sys2Proof.Machine

namespace State

/-! Events and fault logs. -/

/-- A bit of SY.MEVENT set on a die's management core (R387). -/
def setEvent (s : State) (m bit : Nat) : State := s.modMgt m fun g => { g with mevent := g.mevent ||| BitVec.ofNat 6 (2 ^ bit) }

/-- A free value where an entry's field names nothing that exists (log 24). -/
def openWord (s : State) (k : Nat) : W64 := BitVec.ofNat 64 (Config.pick (s.free + k))

/-- The canonical address of a virtual address of context slot c of die d (R27), free where it has none (log 24). -/
def faultAddr (s : State) (d c va : Nat) : W64 :=
  if 2 ^ 57 ≤ va then s.openWord 0
  else
    match s.walk d c (va / 2 ^ 16) with
    | .inl _ => s.openWord 0
    | .inr t =>
      match s.resolveCtx d c (t.addr va) with
      | .at' p => BitVec.ofNat 64 p.canon
      | .range => s.openWord 0
      | .denied => s.openWord 0

/-- An entry of a die's fault log, or OVF where the log is full (R400). -/
def logFault (s : State) (die : Nat) (e : FlogEntry) : State :=
  let s := { s with free := s.free + 7 }
  if 256 ≤ (s.die die).flog.entries.length then
    s.modDie die fun d => { d with flog := { d.flog with ovf := true } }
  else
    (s.modDie die fun d => { d with flog := { d.flog with entries := d.flog.entries ++ [e] } }).setEvent die 2

/-- An entry with no executor of origin (log 24). -/
def bareFlog (s : State) (code cls ctx vdie : Nat) (addr : W64) : FlogEntry :=
  { code := code, ctx := ctx, pkg := s.pkg, vdie := vdie, core := Config.pick (s.free + 1) % 2 ^ 7,
    strand := Config.pick (s.free + 2) % 2 ^ 5, cls := cls, panel := Config.pick (s.free + 3) % 2 ^ 19, pc := s.openWord 4,
    addr := addr, time := s.time }

/-- The entry of a request whose executor has ended (R400): the identity it was issued with. -/
def reqFlog (s : State) (r : Req) (code : Nat) (addr : W64) : FlogEntry :=
  { code := code, ctx := r.ctx, pkg := s.pkg, vdie := s.vdie r.socket r.ctx r.socket, core := r.core,
    strand := (match r.ex with | .str _ i => i | .bob _ => 0 | .mgt _ => 0), cls := 0, panel := r.panelId, pc := r.pc, addr := addr,
    time := s.time }

/-- The identity of an executor in a fault log entry (R400). -/
def flogOf (s : State) (e : Ex) (code cls : Nat) (pc addr : W64) : FlogEntry :=
  let (d, k) := s.site e
  let c := s.ctxOf e
  { code := code, ctx := c, pkg := s.pkg, vdie := s.vdie d c d, core := k,
    strand := (match e with | .str _ i => i | .bob _ => 0 | .mgt _ => 0), cls := cls,
    panel := (match e.panel with | some h => ((s.panel? h).map (·.panelId)).getD 0 | none => 0),
    pc := pc, addr := addr, time := s.time }

/-! Registers. -/

/-- A device register written. -/
def setDev (s : State) (sock off v : Nat) : State :=
  { s with devRegs := SMap.putD s.devRegs (devKey sock off) v (devReset sock off) }

/-- A saturating count raised by one (R421, R424). -/
def bumpDev (s : State) (sock off : Nat) : State :=
  s.setDev sock off (if s.dev sock off < 2 ^ 32 - 1 then s.dev sock off + 1 else s.dev sock off)

/-- UECNT of the die whose memory holds the error (R421); an I/O die and another package's die keep none here. -/
def bumpUe (s : State) (sock : Nat) : State := if sock < 16 then s.bumpDev sock 0xC else s

/-- An offset of a channel's block that holds a register (R435). -/
def chanReg (r : Nat) : Bool :=
  [0, 4, 8, 0x10, 0x14, 0x18, 0x20].contains r || (0x100 ≤ r && r < 0x208) || (0x300 ≤ r && r < 0x408)

/-- The maps of the register spaces, with unassigned and lost sockets left out, and those switched off (R420; log 73). -/
def devThere (s : State) (sock off : Nat) : Bool :=
  if sock < 0x10 then !s.gone sock && off < 0x10
  else if sock = 0x10 then
    !s.gone 16 &&
    (off < 4 || (0x1000 ≤ off && off < 0x1440) || (0x2000 ≤ off && off < 0x2440) ||
      (0x3000 ≤ off && off < 0x3004) || (0x3008 ≤ off && off < 0x300C))
  else if 0x20 ≤ sock ∧ sock < 0x40 then
    !s.gone ((sock - 0x20) / 2) && 0x10000 ≤ off && off < 0x30000 && chanReg (off % 0x1000 / 4 * 4)
  else false

/-- The value a device load returns. -/
def devRead (s : State) (sock off : Nat) : Nat :=
  if sock = 0x10 ∧ off = 0 then s.bootErr * 256 + s.stage
  else if sock = 0x10 ∧ off = 0x3000 then 0
  else s.dev sock off

end State

/-- The step that a device store is (R420): the register's own row, or DEVICE_REGISTER_WRITE. -/
def devStep (sock off v : Nat) : Instr :=
  let r := off % 0x1000
  let ch := (off - 0x10000) / 0x1000
  if sock = 0x10 ∧ off = 0x3000 then .doorbell v
  else if 0x20 ≤ sock ∧ r = 0 then .train sock ch (Word.bit v 0)
  else if 0x20 ≤ sock ∧ r = 4 ∧ Word.bit v 31 then .patternTestStart sock ch v
  else if 0x20 ≤ sock ∧ r = 0x20 then .repair sock ch v
  else .deviceRegisterWrite sock off v

/-! Executors that have ended. -/

/-- Whether the executor that issued a request or operation can still take a trap: a strand that took the slot of an ended one was
started under a later name (R113, R116). -/
def State.alive (s : State) (e : Ex) (id : Nat) : Bool :=
  match e with
  | .str h i => (match s.strand? h i with | some t => !t.isOver && t.started ≤ id | none => false)
  | .bob h => (match s.panel? h with | some p => !p.bob.isOver | none => false)
  | .mgt _ => true

/-- The completion status of a panel, where it has none yet (R359). -/
def State.setStatus (s : State) (e : Ex) (n : Nat) : State :=
  match e.panel with
  | some h => s.modPanel h fun p => { p with status := if p.status = 0 then n else p.status }
  | none => s

/-! Meanings. -/

/-- DEVICE_REGISTER_WRITE (R420): read-only registers and fields keep their values. -/
def execDeviceRegisterWrite (sock off v : Nat) (s : State) : Out :=
  let r := off % 0x1000
  let v := v % 2 ^ 32
  if sock < 0x10 then .next (s.setDev sock off v)
  else if sock = 0x10 then .next (if off < 0x1000 then s else s.setDev sock off v)
  else if r = 4 then .next (s.setDev sock off (v % 2))
  else if 0x100 ≤ r then .next (s.setDev sock off (v % 64))
  else .next s

/-- DOORBELL (R425): words 0 to 2 of a staging area go to a free mailbox, and HOSTMB is set, on another die once the rings take its signal
(R19); a refused doorbell is counted. -/
def execDoorbell (m : Nat) (s : State) : Out :=
  let drop := s.bumpDev 0x10 0x3008
  if 16 < m then .next drop
  else if s.dev 0x10 (0x1000 + 64 * m) ≠ s.dev 0x10 (0x1000 + 64 * m + 48) then .next drop
  else
    let s1 := (List.range 6).foldl (fun s' k => s'.setDev 0x10 (0x1000 + 64 * m + 4 * k) (s.dev 0x10 (0x2000 + 64 * m + 4 * k))) s
    .next (if m ≠ 16 ∧ s.rings.held then { s1 with rung := s1.rung ++ [m] } else s1.setEvent m 5)

/-- A channel that is held, and on which a test has completed since, the last one without a failing data lane: released now, it has
trained (R429, R436). -/
def State.trainedNow (s : State) (sock ch : Nat) : Bool :=
  let r (k : Nat) : Nat := s.dev sock (0x10000 + 0x1000 * ch + k)
  r 0 = 1 && s.tested.contains (devKey sock (0x10000 + 0x1000 * ch)) && Word.bit (r 8) 0 && !Word.bit (r 8) 1 && r 0x10 = 0 && r 0x14 = 0

/-- TRAIN (R437). DESIGN CHOICE: the firmware that runs sets STAGE to 3 in the step that releases the last of the module's channels to
train (R429; log 23). -/
def execTrain (sock ch : Nat) (on : Bool) (s : State) : Out :=
  let base := 0x10000 + 0x1000 * ch
  let s0 := if on && s.dev sock base = 1 then s else { s with tested := s.tested.filter (· != devKey sock base) }
  let s1 := s0.setDev sock base (if on then 1 else 0)
  if on || !s.trainedNow sock ch then .next s1
  else
    let k := sock * 32 + ch
    let s2 := if s1.trained.contains k then s1 else { s1 with trained := s1.trained ++ [k] }
    .next (if s2.stage = 2 ∧ s2.trained.length = 1024 then { s2 with stage := 3 } else s2)

/-- Which lanes fail a test (R436): FAIL bits of lanes 0 to 31, of 32 to 63, and of the spares. -/
def testFails (s : State) (sock ch mode : Nat) : Nat × Nat × Nat :=
  let base := 0x10000 + 0x1000 * ch
  let rep := s.dev sock (base + 0x20)
  let bad (k : Nat) : Bool :=
    !Config.lanePasses sock ch mode k (s.dev sock (base + 0x100 + 4 * k)) (if mode = 1 then s.dev sock (base + 0x300 + 4 * k) else 0)
  let phys (k : Nat) : Nat :=
    if Word.bit rep 7 && Word.bits rep 6 0 == k then 64
    else if Word.bit rep 15 && Word.bits rep 14 8 == k then 65 else k
  let word (lo n : Nat) : Nat := (List.range n).foldl (fun m k => if bad (phys (lo + k)) then m + 2 ^ k else m) 0
  (word 0 32, word 32 32, word 64 2)

/-- PATTERN_TEST_START (R436). -/
def execPatternTestStart (sock ch v : Nat) (s : State) : Out :=
  let base := 0x10000 + 0x1000 * ch
  if s.dev sock base ≠ 1 then .next (s.setDev sock (base + 8) (s.dev sock (base + 8) ||| 5))
  else if Word.bit (s.dev sock (base + 8)) 1 then .next s
  else
    let mode := v % 2
    let s1 := (s.setDev sock (base + 4) mode).setDev sock (base + 8) 2
    .next (({ s1 with tests := SMap.put s1.tests (devKey sock base) (testFails s1 sock ch mode) }).post (.patternTestDone sock ch))

/-- PATTERN_TEST_DONE (R436): the FAIL bits, then BUSY 0 and DONE 1. -/
def execPatternTestDone (sock ch : Nat) (s : State) : Out :=
  let base := 0x10000 + 0x1000 * ch
  match SMap.look s.tests (devKey sock base) with
  | none => .next s
  | some (lo, hi, sp) =>
    let s1 := ((s.setDev sock (base + 0x10) lo).setDev sock (base + 0x14) hi).setDev sock (base + 0x18) sp
    .next { s1.setDev sock (base + 8) (s.dev sock (base + 8) / 4 * 4 + 1) with
            tests := SMap.del s1.tests (devKey sock base)
            tested := s.tested.filter (· != devKey sock base) ++ [devKey sock base] }

/-- REPAIR (R435): ignored whole when a set VALID names a lane outside its half. -/
def execRepair (sock ch v : Nat) (s : State) : Out :=
  let l0 := Word.bits v 6 0
  let l1 := Word.bits v 14 8
  if (Word.bit v 7 && 32 ≤ l0) || (Word.bit v 15 && (l1 < 32 || 64 ≤ l1)) then .next s
  else .next (s.setDev sock (0x10000 + 0x1000 * ch + 0x20) (v % 2 ^ 16))

/-- FLOG_POP (R400): the oldest entry goes. -/
def execFlogPop (die : Nat) (s : State) : Out :=
  .next (s.modDie die fun d => { d with flog := { d.flog with entries := d.flog.entries.drop 1 } })

end Sys2Proof.Machine
end

