-- ==== Sys2Proof/Machine/Scratch.lean ====
section
/-! DEFINITION. The scratchpad (R174, R182), the range scoreboard (R231 to R234), the L1 (R179), and the per-lane checks of the
memory forms (R185). -/

namespace Sys2Proof.Machine

/-! Per-lane checks. -/

/-- The order of the traps of R185. DESIGN CHOICE: SP_RANGE precedes SW_RANGE where two lanes of one access meet them, which R185 lists
as one step (log 91). -/
def Trap.rank : Trap → Nat
  | .spRange => 0 | .swRange => 1 | .spoolRange => 2 | .misaligned => 3 | .pageFault => 4 | .permission => 5
  | .physRange => 6 | .biasFault => 7 | .feDuplicate => 8 | .copyPoison => 9
  | _ => 10

/-- The first kind of trap any lane meets, for the lowest lane that meets it (R66, R185): the list is in ascending lane order. -/
def pickTrap : List TrapInfo → Option TrapInfo
  | [] => none
  | t :: ts =>
    match pickTrap ts with
    | none => some t
    | some u => some (if u.trap.rank < t.trap.rank then u else t)

/-- The checks of every lane made, before any takes effect (R66, R185): a helper lane whose checks fail has no place (R56).
A translation still missing is waited for, unless a trap of an earlier kind is met. -/
def checkLanes {α : Type} (s : State) (c : Cx) (ls : List Nat) (f : Nat → Res α) : Except Out (List (Nat × Option α)) :=
  let rs := ls.map fun l => (l, f l)
  let traps := rs.filterMap fun r =>
    match r.2 with
    | .trap t => if c.helper.getLsbD r.1 then none else some { t with lane := r.1 }
    | .ok _ => none
    | .miss _ => none
    | .held => none
  let pages := rs.filterMap fun r => match r.2 with | .miss p => some p | .ok _ => none | .trap _ => none | .held => none
  match pickTrap (traps.filter fun t => t.trap.rank < 4) with
  | some t => .error (trapOut s c t)
  | none =>
    if rs.any (fun r => match r.2 with | .held => true | .ok _ => false | .trap _ => false | .miss _ => false) then .error (waitOut s)
    else
    match pages with
    | p :: ps => .error (.next ((p :: ps).foldl (fun s p => s.askWalk c.ex c.slotB p) s).flushInflight)
    | [] =>
      match pickTrap traps with
      | some t => .error (trapOut s c t)
      | none => .ok (rs.map fun r => (r.1, match r.2 with | .ok a => some a | .trap _ => none | .miss _ => none | .held => none))

/-! Scratchpad. -/

/-- Bytes of a panel's allocation (R182, R354). -/
def Panel.spBytes (p : Panel) : Nat := p.crec.spad * 4096

def Panel.spRead (p : Panel) (off n : Nat) : Nat := Memory.read p.spad off n
def Panel.spWrite (p : Panel) (off n v : Nat) : Panel := { p with spad := Memory.write p.spad off n v }

/-- A place of scratchpad: the panel that holds it, the key of its core, the offset in the panel, and the core's byte. -/
structure SpLoc where
  panel : Nat
  key   : Nat
  off   : Nat
  byte  : Nat
deriving DecidableEq, Repr

/-- A panel's byte as its core numbers it. -/
def Panel.spLoc (h : Nat) (p : Panel) (off : Nat) : SpLoc :=
  { panel := h, key := State.coreKey p.die (p.core.getD 0x7F), off := off, byte := p.spadBase * 4096 + off }

namespace State

/-- The panel of an executor's swatch on core `t` of its group (R174). -/
def swPeer (s : State) (p : Panel) (t : Nat) : Option (Nat × Panel) :=
  match p.swatch, p.core with
  | some w, some k =>
    ((SMap.lookD s.swatches w { panels := [] }).panels.filterMap fun h =>
      match s.panel? h with
      | some q => if q.core == some (k / 8 * 8 + t) && q.die == p.die then some (h, q) else none
      | none => none).head?
  | _, _ => none

/-- The place of an n-byte .SP or .SW access (R174, R185). -/
def spPlace (s : State) (e : Ex) (sw : Bool) (a n : Nat) : Res SpLoc :=
  match e.panel with
  | none => .trap { trap := .spRange, d0 := BitVec.ofNat 64 a }
  | some h =>
    match s.panel? h with
    | none => .trap { trap := .spRange, d0 := BitVec.ofNat 64 a }
    | some p =>
      let off := a % 2 ^ 19
      let t := a / 2 ^ 19 % 8
      let inside (h : Nat) (p : Panel) : Res SpLoc :=
        if p.spBytes ≤ off then .trap { trap := .spRange, d0 := BitVec.ofNat 64 a }
        else if off % n ≠ 0 then .trap { trap := .misaligned, d0 := BitVec.ofNat 64 a }
        else .ok (p.spLoc h off)
      if (if sw then 2 ^ 22 else 2 ^ 19) ≤ a then .trap { trap := .spRange, d0 := BitVec.ofNat 64 a }
      else if !sw || p.core.map (· % 8) == some t then inside h p
      else
        match s.swPeer p t with
        | some (h', q) => if q.done then .trap { trap := .swRange, d0 := BitVec.ofNat 64 a } else inside h' q
        | none => .trap { trap := .swRange, d0 := BitVec.ofNat 64 a }

end State

/-! Range scoreboard. -/

/-- The bytes two intervals share: the lowest. -/
def meetAt (a b c d : Nat) : Option Nat := if max a c < min b d then some (max a c) else none

/-- The lesser of two optional numbers. -/
def optMin (a b : Option Nat) : Option Nat :=
  match a, b with
  | some x, some y => some (min x y)
  | some x, none => some x
  | none, y => y

/-- The lowest byte of a poisoned entry that an access touches (R234). -/
def SbEntry.poisonAt (x : SbEntry) (rlo rhi wlo whi : Nat) : Option Nat :=
  optMin (optMin (meetAt rlo rhi x.rlo x.rhi) (meetAt rlo rhi x.wlo x.whi))
    (optMin (meetAt wlo whi x.rlo x.rhi) (meetAt wlo whi x.wlo x.whi))

/-- Read after write, write after read, write after write (R232). -/
def SbEntry.clash (x : SbEntry) (rlo rhi wlo whi : Nat) : Bool :=
  !x.poison && ((meetAt rlo rhi x.wlo x.whi).isSome || (meetAt wlo whi x.rlo x.rhi).isSome || (meetAt wlo whi x.wlo x.whi).isSome)

namespace State

/-- COPY_POISON of an access on a core (R234): the entry's index and the lowest overlapping byte. DESIGN CHOICE: of several poisoned entries
it overlaps, the one of the lowest index (log 105). -/
def sbPoison (s : State) (key rlo rhi wlo whi : Nat) : Option TrapInfo :=
  ((s.core key).sb.filterMap fun x =>
    if x.2.poison then (x.2.poisonAt rlo rhi wlo whi).map fun b =>
      ({ trap := .copyPoison, d0 := BitVec.ofNat 64 x.1, d1 := BitVec.ofNat 64 (b * 2 ^ 32) } : TrapInfo)
    else none).head?

/-- An access that must wait for an older entry (R232). -/
def sbBusy (s : State) (key rlo rhi wlo whi : Nat) : Bool := (s.core key).sb.any fun x => x.2.clash rlo rhi wlo whi

/-- COPY_POISON of an access: its detail names the access's address first, then the entry and the lowest byte (R185, R234, R383). -/
def poisonAs (a : Nat) (t : TrapInfo) : TrapInfo :=
  { t with d0 := BitVec.ofNat 64 a, d1 := BitVec.ofNat 64 (t.d0.toNat * 2 ^ 32 + t.d1.toNat / 2 ^ 32) }

/-- A lane's scratchpad access with its poison check: whether it also waits is asked once every lane has passed. -/
def spAccess (s : State) (e : Ex) (sw : Bool) (a n : Nat) (w : Bool) : Res SpLoc :=
  (s.spPlace e sw a n).bind fun p =>
    match (if w then s.sbPoison p.key 0 0 p.byte (p.byte + n) else s.sbPoison p.key p.byte (p.byte + n) 0 0) with
    | some t => .trap (poisonAs a t)
    | none => .ok p

def spBusy (s : State) (w : Bool) (n : Nat) (p : SpLoc) : Bool :=
  if w then s.sbBusy p.key 0 0 p.byte (p.byte + n) else s.sbBusy p.key p.byte (p.byte + n) 0 0

def spVal (s : State) (p : SpLoc) (n : Nat) : Nat := match s.panel? p.panel with | some x => x.spRead p.off n | none => 0
def spPut (s : State) (p : SpLoc) (n v : Nat) : State := s.modPanel p.panel fun x => x.spWrite p.off n v

/-- An entry's index on a core: one free of the 64 (R231, R233). DESIGN CHOICE: the lowest free one (log 95). -/
def sbFree (s : State) (key : Nat) : Option Nat :=
  (List.range 64).find? fun i => (SMap.look (s.core key).sb i).isNone

/-- An interval rounded outward to multiples of 32, an empty one empty (R231). -/
def round32 (lo hi : Nat) : Nat × Nat := if lo < hi then (lo / 32 * 32, (hi + 31) / 32 * 32) else (0, 0)

/-- An entry registered for an operation (R231). -/
def sbRegister (s : State) (key idx op panel rlo rhi wlo whi : Nat) : State :=
  let (r0, r1) := round32 rlo rhi
  let (w0, w1) := round32 wlo whi
  let x : SbEntry := { op := op, panel := panel, rlo := r0, rhi := r1, wlo := w0, whi := w1, age := s.nextId }
  ({ s with nextId := s.nextId + 1 }).modCore key fun k => { k with sb := SMap.put k.sb idx x }

/-- The entry of an operation retires; one that stands at its index for another operation stays. -/
def sbRetire (s : State) (key op idx : Nat) : State :=
  s.modCore key fun k => if (SMap.look k.sb idx).any fun x => x.op == op then { k with sb := SMap.del k.sb idx } else k

def sbPoisonIt (s : State) (key op idx : Nat) : State :=
  s.modCore key fun k =>
    match SMap.look k.sb idx with
    | some x => if x.op == op then { k with sb := SMap.put k.sb idx { x with poison := true } } else k
    | none => k

/-- An engine's part of an operation waits for older entries that conflict with it, poisoned ones too (R232, R234). -/
def sbOlder (s : State) (key idx : Nat) : Bool :=
  match SMap.look (s.core key).sb idx with
  | none => false
  | some x => (s.core key).sb.any fun y =>
      y.1 != idx && y.2.age < x.age && { y.2 with poison := false }.clash x.rlo x.rhi x.wlo x.whi

/-- A knot update of the issuing slot's lineage is under way to bytes it names (R212: same bytes). -/
def knotPending (s : State) (c : Cx) (n : Nat) (p : SpLoc) : Bool :=
  s.knots.any fun u => u.2.by' == some c.ex && u.2.po.before (s.po c) && u.2.panel == p.panel && u.2.off < p.off + n &&
    p.off < u.2.off + 16

/-- Accesses that are performed at their issue may be: nothing that a merge ordered before them is under way (R100), no knot update of
their lineage to their bytes, and the stamp of an SC operation is safe (R212, R218). -/
def pointReady (s : State) (c : Cx) (sc : Bool) (n : Nat) (ps : List SpLoc) : Bool :=
  !s.mergeWaits c.ex (s.po c) && (!sc || s.pointSafe c) && !(ps.any fun p => s.knotPending c n p)

/-! L1. -/

/-- The key of a 64-byte sector: space (0 global, 1 Spool), context slot and window address (R29, R179). -/
def l1Key (sp ctx win : Nat) : Nat := sp * 2 ^ 60 + ctx * 2 ^ 50 + win / 64

/-- The key of a global sector: a management core's addresses mean the same whichever slot it selects (R27). -/
def gKey (core ctx win : Nat) : Nat := l1Key 0 (if core = 0x7F then 0 else ctx) win

def l1Of (s : State) (d k : Nat) : SMap (List Byte) := if k = 0x7F then (s.mgt d).l1 else (s.core (coreKey d k)).l1

def modL1 (s : State) (d k : Nat) (f : SMap (List Byte) → SMap (List Byte)) : State :=
  if k = 0x7F then s.modMgt d fun g => { g with l1 := f g.l1 } else s.modCore (coreKey d k) fun g => { g with l1 := f g.l1 }

/-- The little-endian value of some bytes. -/
def leVal : List Byte → Nat
  | [] => 0
  | b :: bs => b.toNat + 256 * leVal bs

/-- A line with a parity error leaves the L1 when a load meets it, and is counted (R179, R421). -/
def l1Parity (s : State) (d k key : Nat) : State :=
  let bad := if k = 0x7F then (s.mgt d).l1Bad else (s.core (coreKey d k)).l1Bad
  if bad.contains (key / 4) && (s.l1Of d k).any (fun e => e.1 / 4 == key / 4) then
    let s1 := s.modL1 d k fun m => m.filter fun e => e.1 / 4 != key / 4
    let s2 := if k = 0x7F then s1.modMgt d fun g => { g with l1Bad := bad.filter (· != key / 4) }
      else s1.modCore (coreKey d k) fun g => { g with l1Bad := bad.filter (· != key / 4) }
    if d < 16 then s2.bumpDev d 8 else s2
  else s

/-- n bytes of a sector that is present. -/
def l1Get (s : State) (d k key off n : Nat) : Option Nat :=
  (SMap.look (s.l1Of d k) key).map fun bs => leVal ((bs.drop off).take n)

/-- Bytes of a sector replaced. -/
def patch (bs : List Byte) (off n v : Nat) : List Byte :=
  bs.mapIdx fun i b => if off ≤ i ∧ i < off + n then BitVec.ofNat 8 (v / 256 ^ (i - off)) else b

/-- A store updates a sector that is present, or drops it where it bypasses (R179). -/
def l1Store (s : State) (d k key off n v : Nat) (drop : Bool) : State :=
  s.modL1 d k fun m =>
    match SMap.look m key with
    | none => m
    | some bs => if drop then SMap.del m key else SMap.put m key (patch bs off n v)

/-- A sector fetched from a byte memory. -/
def sectorOf (m : List Host.Cell) (a : Nat) : List Byte := (List.range 64).map fun i => Memory.byte m (a / 64 * 64 + i)

/-! Spool (R183). -/

/-- The die and offset of an n-byte Spool access of context slot c on die d, within the context's share. -/
def spoolIn (s : State) (d c a n : Nat) : Res (Nat × Nat) :=
  let win := (s.ctxReg d c 0x38).toNat
  let off := a % 2 ^ 28
  let v := a / 2 ^ 28
  let lim := min (Word.bits win 28 16) 4096
  if !(Word.bits win 11 0 * 65536 ≤ off && off < lim * 65536 && v < s.dieCount d c) then
    .trap { trap := .spoolRange, d0 := BitVec.ofNat 64 a }
  else if off % n ≠ 0 then .trap { trap := .misaligned, d0 := BitVec.ofNat 64 a }
  else .ok ((s.dmap d c).getD v 0, off)

/-- The place of an executor's Spool access. -/
def spoolPlace (s : State) (e : Ex) (a n : Nat) : Res (Nat × Nat) := s.spoolIn (s.site e).1 (s.ctxOf e) a n

/-- Whether a Spool bank refreshes now (R31). -/
def refreshing (s : State) (bank : Nat) : Bool :=
  let t := s.time.toNat % 64000
  2000 * bank ≤ t && t < 2000 * bank + 2000

/-- A load from a die's Spool waits: its bank refreshes (R31), or the die cannot be reached (R19). -/
def spoolWaits (s : State) (from' d off : Nat) : Bool :=
  s.refreshing (Word.bits off 12 8) || (s.rings.held && d != from') || s.gone d

end State

end Sys2Proof.Machine
end

