-- ==== Sys2Proof/Machine/Home.lean ====
section
/-! DEFINITION. The home L2 and what is performed there (R180, R181, R191 to R195, R208, R209): lines, ECC, atomics, reductions,
ordered reductions, and the steps that carry a request on: HOME_L2_ACCESS, RED_APPLY, ORDINAL_ARRIVAL, ORDINAL_RETRY,
PENDING_FILL, WRITE_ACK, L2_EVICTION, SPOOL_REFRESH, PAGE_WALK. -/

namespace Sys2Proof.Machine

/-! Lines. -/

namespace State

def setLine (s : State) (p : Place) (x : L2Line) : State :=
  s.modDie (s.dieKey p) fun d => { d with l2 := SMap.put d.l2 (p.byte / 256) x }

/-- Bytes of a line that a fill can supply: those of groups without an error. -/
def fillMask (s : State) (p : Place) : BitVec 256 :=
  if s.badEcc.isEmpty then BitVec.allOnes 256
  else (List.range 8).foldl (fun m g =>
    if s.badEcc.contains ((p.key / 256 * 256 + 32 * g) / 32) then m else m ||| byteMask (32 * g) 32) 0

/-- A group whose bytes are dropped at their write-back (R180). The line is no context's, so the entry's slot and virtual die are
free, and its address names the die by its socket (log 24). -/
def dropGroup (s : State) (dk a : Nat) : State :=
  (s.bumpUe dk).logFault dk
    (s.bareFlog Trap.storeError.code 0 (Config.pick (s.free + 5) % 16) (Config.pick (s.free + 6) % 16) (BitVec.ofNat 64 a))

/-- The soft error of a group corrected and counted (R180, R421). -/
def corrected (s : State) (p : Place) : State :=
  if s.softEcc.contains (p.key / 32) then
    let s1 : State := { s with softEcc := s.softEcc.filter (· != p.key / 32) }
    if s.dieKey p < 16 then s1.bumpDev (s.dieKey p) 0 else s1
  else s

/-- The soft errors of places corrected. -/
def correctedAll (s : State) (ps : List Place) : State := if s.softEcc.isEmpty then s else ps.foldl corrected s

/-- The 32-byte groups that n bytes at a place touch (R180). -/
def groupsOf (p : Place) (n : Nat) : List Place :=
  (List.range ((p.byte % 32 + n + 31) / 32)).map fun i => { p with byte := p.byte / 32 * 32 + 32 * i }

/-- The line of a place fetched and merged under its valid mask; allocated unless `keep` is false (R180). The soft errors of the groups it
brings are corrected. DESIGN CHOICE: a fill merged into
a line that is present already leaves its gen as it is (R192; log 92). -/
def l2Fill (s0 : State) (p : Place) (keep : Bool) : State :=
  let s := s0.correctedAll ((groupsOf { p with byte := p.byte / 256 * 256 } 256).filter fun g => !s0.l2Has g 32)
  match s.l2Line p with
  | some x => s.setLine p { x with valid := x.valid ||| s.fillMask p }
  | none => if keep then s.setLine p { valid := s.fillMask p } else s

/-- Some of n bytes at a place lie in a group with an uncorrectable error and are not valid in L2 (R180). -/
def badIn (s : State) (p : Place) (n : Nat) : Bool :=
  (groupsOf p n).any fun g =>
    s.groupBad g && !s.l2Has { p with byte := max p.byte g.byte } (min (p.byte + n) (g.byte + 32) - max p.byte g.byte)

/-- A read at the home: the value, or none where a group of its bytes holds an error; with it the line it leaves. -/
def homeRead (s0 : State) (p : Place) (n : Nat) (keep : Bool) : State × Option Nat :=
  let s := s0.correctedAll (groupsOf p n)
  if s.l2Has p n then (s, some (s.readAt p n))
  else if s.badIn p n then ((s.l2Fill p keep).bumpUe (s.dieKey p), none)
  else (s.l2Fill p keep, some (s.readAt p n))

/-- The record of an element freed by a write other than an ordered reduction (R194): every record of the written bytes. DESIGN CHOICE: a
contribution held for a record so freed stays held: it is neither applied nor acknowledged, and its issuer's releases and DRAINs wait
(log 92). -/
def freeOrds (s : State) (p : Place) (n : Nat) : State :=
  s.modDie (s.dieKey p) fun d =>
    { d with ords := d.ords.filter fun r => r.1 + r.2.size ≤ p.byte || p.byte + n ≤ r.1 }

/-- A write at the home (R180); false where it is acknowledged with STORE_ERROR and not performed: a partial write of a bad
group whose error the L2 finds first, which is a free value. Where it finds it later and keeps no line, the write-back follows at
once, and the bytes are dropped. -/
def homeWrite (s : State) (p : Place) (n v : Nat) (keep : Bool) : State × Bool :=
  let m := byteMask (p.byte % 256) n
  let old : L2Line := (s.l2Line p).getD {}
  let stays := keep || (s.l2Line p).isSome
  let valid := old.valid ||| m
  let grp := byteMask (p.byte % 256 / 32 * 32) 32
  let whole := grp &&& ~~~ valid == 0
  let found := s.groupBad p && !whole && Config.pick s.free % 2 == 1
  let s1 := if s.groupBad p && !whole then { s with free := s.free + 1 } else s
  if found then (s1.bumpUe (s.dieKey p), false)
  else if s.groupBad p && !whole && !stays then (s1.dropGroup (s.dieKey p) (p.key / 32 * 32), true)
  else
    let s2 := if whole then { s1 with badEcc := s1.badEcc.filter fun g => g != p.key / 32 && !(p.key ≤ 32 * g && 32 * g + 32 ≤ p.key + n) } else s1
    let s3 := if stays then s2.setLine p { old with valid := valid, dirty := old.dirty ||| m } else s2
    (s3.setMem (Memory.write s3.mem p.key n v), true)

end State

/-! Requests. -/

/-- The bytes of memory a request touches: keys and how many from each. -/
def Req.spans (r : Req) : List (Nat × Nat) :=
  let own := match r.place with | some p => [(p.key, r.n)] | none => []
  match r.op with
  | .ldt n els => els.filterMap fun e => e.map fun p => (p.key, n)
  | .red _ _ _ _ cs => cs.filterMap fun c => c.place.map fun p => (p.key, r.n)
  | .ord _ _ _ _ _ c _ => (match c.place with | some p => [(p.key, r.n)] | none => [])
  | .load _ => own
  | .store _ => own
  | .atom _ _ => own
  | .cas _ _ => own
  | .spool _ _ _ => []
  | .value => []
  | .point => []

/-- The keys of the 256-byte lines a request touches. -/
def Req.lines (r : Req) : List Nat := r.spans.map fun x => x.1 / 256

/-- Two requests touch a byte in common. -/
def Req.overlaps (a b : Req) : Bool := a.spans.any fun x => b.spans.any fun y => decide (x.1 < y.1 + y.2 ∧ y.1 < x.1 + x.2)

/-- An ordered contribution (R194). -/
def Req.ordered (r : Req) : Bool := match r.op with | .ord _ _ _ _ _ _ _ => true | _ => false

/-- One of the 16 slices of a die's L2 (R180), which a line stands in. -/
def sliceOf (line : Nat) : Nat := Config.slice line % 16

/-- Two keys of lines stand in one home slice: one die, one slice (R180). -/
def sameSlice (a b : Nat) : Bool := a == b || (a / 2 ^ 29 == b / 2 ^ 29 && sliceOf (a % 2 ^ 29) == sliceOf (b % 2 ^ 29))

/-- Two accesses of one executor that must be performed in the order of their issue: they reach one home slice (R19, R181, R212).
DESIGN CHOICE: two plain accesses to one byte through the two window
aliases stand in one slice and are performed in program order, which R181 and R212 leave open (log 75). DEDUCED: a contribution that
its home holds or refused goes before what touches its bytes later in program order, and before nothing else, nor before another
ordered contribution, whose ordinal says when it applies (R194; log 86). What a merge orders is asked apart (`State.mergeWaits`). -/
def Req.before (a b : Req) : Bool :=
  a.ex == b.ex && a.src == b.src && a.group != b.group &&
    if a.waitsTurn then !b.ordered && a.po.before b.po && a.overlaps b
    else a.unperformed && a.lines.any fun l => b.lines.any fun m => sameSlice l m

/-- Bytes of a stream's tables, blocks and free stack that a KV event of a map may touch (R291 to R293), by virtual address. -/
def KvMap.covers (m : KvMap) (va n : Nat) : Bool :=
  let rows := m.nseq * m.heads
  [(m.lentab, 4 * rows), (m.bidx, 4 * rows * m.maxb), (m.pool, m.nblk * (512 * m.hd * m.es)), (m.reftab, 4 * m.nblk),
    (m.stk, 4 * m.nblk), (m.addr + 40, 4)].any fun r => decide (r.1 < va + n ∧ va < r.1 + r.2)

/-- The virtual addresses of a request's bytes; an LDT's column is not followed: it may touch any. -/
def Req.onMap (r : Req) (m : KvMap) : Bool :=
  match r.op with
  | .red _ _ _ _ cs => cs.any fun c => m.covers c.va.toNat r.n
  | .ord _ _ _ _ _ c _ => m.covers c.va.toNat r.n
  | .ldt _ _ => true
  | .load _ => m.covers r.va.toNat r.n
  | .store _ => m.covers r.va.toNat r.n
  | .atom _ _ => m.covers r.va.toNat r.n
  | .cas _ _ => m.covers r.va.toNat r.n
  | .spool _ _ _ => false
  | .value => false
  | .point => false

namespace State

/-- A KV event earlier in program order may touch the bytes of a request and is not made yet (R212, R296). -/
def kvFirst (s : State) (id : Nat) (r : Req) : Bool :=
  s.kvs.any fun k => k.1 < id && k.2.ex == r.ex && k.2.po.before r.po &&
    (match SMap.look (s.job k.2.ctx).maps k.2.part with | some m => r.onMap m | none => false)

/-- The place of a request cannot be reached now. A store needs the memory behind the L2 only where its line is absent and it allocates
none (R180, R437). -/
def blocked (s : State) (r : Req) (p : Place) : Bool :=
  s.placeHeld r.socket r.n (match r.op with | .store _ => r.bypass == 2 && (s.l2Line p).isNone | _ => true) p

/-- No port is left to another package (R347). -/
def unreachable (s : State) (pkg : Nat) : Bool := pkg != s.pkg && 16 ≤ s.portsLost.length

/-- An access of an executor to a place is free to be made, as far as its earlier ones go: none that must be performed first, no KV event
on its bytes, nothing that a merge ordered before it (R100, R181, R212). -/
def inTurnFor (s : State) (id : Nat) (r : Req) : Bool :=
  s.reqs.all (fun q => !(q.1 < id && q.2.before r)) && !s.kvFirst id r && !(r.src.isNone && s.mergeWaits r.ex r.po)

/-- A request may be performed: nothing of its executor goes before it, every core has advanced beyond its stamp, which is the least
(R218), its place can be reached. -/
def homeReady (s : State) (id : Nat) (r : Req) : Bool :=
  r.unperformed &&
  s.inTurnFor id r &&
  (match r.stamp with
    | none => true
    | some t => s.stampSafe id t) &&
  (match r.place with | some p => !s.blocked r p | none => true) &&
  (match r.op with
    | .ldt _ els => els.all fun e => match e with | some p => !s.blocked r p | none => true
    | .red _ _ _ _ cs => cs.all fun c => match c.place with | some p => !s.blocked r p | none => true
    | .ord _ _ _ _ _ c _ => (match c.place with | some p => !s.blocked r p | none => true)
    | _ => true)

def setReq (s : State) (id : Nat) (r : Req) : State := { s with reqs := SMap.put s.reqs id r }
def dropReq (s : State) (id : Nat) : State := { s with reqs := SMap.del s.reqs id }

/-- The dies on which a request is performed. -/
def homes (s : State) (r : Req) : List Nat :=
  let own := match r.place with | some p => [s.dieKey p] | none => []
  match r.op with
  | .red _ _ _ _ cs => cs.filterMap fun c => c.place.map s.dieKey
  | .ord _ _ _ _ _ c _ => (match c.place with | some p => [s.dieKey p] | none => [])
  | .ldt _ els => els.filterMap fun e => e.map s.dieKey
  | .spool _ d _ => [d]
  | _ => own

/-- A request that crossed the rings or Bykan brought its Lamport clock to its homes (R217). -/
def heardAt (s : State) (r : Req) : State :=
  (s.homes r).foldl (fun s d =>
    if (d = r.socket && r.src.isNone) || r.lc.toNat ≤ (s.die d).lcHeard.toNat then s else s.modDie d fun x => { x with lcHeard := r.lc }) s

/-- Its answer brings the requester what the homes heard. DEDUCED: a home carries the greatest clock a request brought it (log 76). -/
def hearBack (s : State) (r : Req) : State :=
  (s.homes r).foldl (fun s d => if d = r.socket then s else s.hear r.socket r.core (s.die d).lcHeard) s

/-- A message brought a die a Lamport clock (R217). -/
def tell (s : State) (h : Nat) (lc : W64) : State :=
  if lc.toNat ≤ (s.die h).lcHeard.toNat then s else s.modDie h fun x => { x with lcHeard := lc }

/-- A message between a core of die d (0x7F: the die's engines, which carry what the die has heard) and die h, and its answer: both
ends learn the greater clock (R217; log 76). -/
def cross (s : State) (d k h : Nat) : State :=
  if h = d then s
  else
    let s1 := s.tell h (if k = 0x7F then (s.die d).lcHeard else s.lc + (s.core (coreKey d k)).lcAhead)
    if k = 0x7F then s1.tell d (s1.die h).lcHeard else s1.hear d k (s1.die h).lcHeard

/-- A message from a core of die d (0x7F: the management core) to die h, and its answer (R217). -/
def crossCore (s : State) (d k h : Nat) : State :=
  if h = d then s
  else
    let s1 := s.tell h (s.lc + if k = 0x7F then (s.mgt d).lcAhead else (s.core (coreKey d k)).lcAhead)
    s1.hear d k (s1.die h).lcHeard

/-- The same between a die's engines and every home of some places. -/
def crossAll (s : State) (d k : Nat) (ps : List Place) : State := ps.foldl (fun s p => s.cross d k (s.dieKey p)) s

/-- An acquire empties its core's L1 before it completes, whatever it brings back (R176). -/
def acquireBy (s : State) (r : Req) : State := if r.acq && 2 ≤ r.scope then s.modL1 r.socket r.core fun _ => [] else s

/-- A request's value on its way back; that of another package's request leaves the module. -/
def answer (s0 : State) (id : Nat) (r : Req) (v : Nat) (f : Option TrapInfo) : State :=
  let s := (s0.heardAt r).acquireBy r
  if r.src.isSome then s.dropReq id
  else (s.setReq id { r with st := .data v f }).post (.pendingFill id)

/-- A request's acknowledgement on its way back. -/
def acknowledge (s0 : State) (id : Nat) (r : Req) (f : Option TrapInfo) : State :=
  let s := s0.heardAt r
  if r.src.isSome then s.dropReq id
  else (s.setReq id { r with st := .ack f }).post (.writeAck id)

end State

/-- A loaded value widened (R189). -/
def extendLd (w : LdW) (s64 : Bool) (v : Nat) : Nat :=
  let k := if s64 then 64 else w.wd.n
  match w with
  | .s8 => Word.ofInt k (Word.toSigned 8 v)
  | .s16 => Word.ofInt k (Word.toSigned 16 v)
  | .n8 => v
  | .n16 => v
  | .b32 => v
  | .b64 => v

/-- Op(old, b) of ATOM (R191). -/
def atomVal (op : AtomOp) (w old b : Nat) : Nat :=
  match op with
  | .add => (old + b) % 2 ^ w
  | .smin => if Word.toSigned w b < Word.toSigned w old then b else old
  | .smax => if Word.toSigned w old < Word.toSigned w b then b else old
  | .nmin => min old b
  | .nmax => max old b
  | .and => old &&& b
  | .or => old ||| b
  | .xor => old ^^^ b
  | .exch => b

/-- Bytes of an element of a reduction (R74). -/
def redBytes : RedOp → Nat
  | .addN64 => 8 | .addBF16 => 2 | .addF16 => 2 | .addOrdBF16 => 2
  | .addN32 => 4 | .addF32 => 4 | .addOrdF32 => 4 | .minS32 => 4 | .maxS32 => 4 | .minF32 => 4 | .maxF32 => 4

def redFmt : RedOp → Fmt
  | .addBF16 => Fmt.bf16 | .addOrdBF16 => Fmt.bf16 | .addF16 => Fmt.f16
  | .addN32 => Fmt.f32 | .addN64 => Fmt.f32 | .addF32 => Fmt.f32 | .addOrdF32 => Fmt.f32
  | .minS32 => Fmt.f32 | .maxS32 => Fmt.f32 | .minF32 => Fmt.f32 | .maxF32 => Fmt.f32

/-- One contribution applied to an element (R192): an immediate by its exact value (R148). -/
def redVal (op : RedOp) (ar : Arith) (rnd old : Nat) (c : Contrib) : Nat :=
  let f := redFmt op
  let b : FVal := negAbs (Arith.of ar 1) (match c.imm with | some i => FVal.ofInt i | none => FVal.decode f (c.bits % 2 ^ f.width))
  let n : Int := match c.imm with | some i => i | none => Word.toSigned 32 c.bits
  let o := Word.toSigned 32 old
  match op with
  | .addN32 => (old + c.bits) % 2 ^ 32
  | .addN64 => (old + c.bits) % 2 ^ 64
  | .minS32 => if n < o then Word.ofInt 32 n else old
  | .maxS32 => if o < n then Word.ofInt 32 n else old
  | .minF32 => (fminMax f false false c.imm.isSome (FVal.decode f old) b).bits
  | .maxF32 => (fminMax f true false c.imm.isSome (FVal.decode f old) b).bits
  | .addF32 => (f.round ar.rnd ar.sat rnd (FVal.sum (isRdn ar) [FVal.decode f old, b])).bits
  | .addBF16 => (f.round ar.rnd ar.sat rnd (FVal.sum (isRdn ar) [FVal.decode f old, b])).bits
  | .addF16 => (f.round ar.rnd ar.sat rnd (FVal.sum (isRdn ar) [FVal.decode f old, b])).bits
  | .addOrdF32 => (f.round ar.rnd ar.sat rnd (FVal.sum (isRdn ar) [FVal.decode f old, b])).bits
  | .addOrdBF16 => (f.round ar.rnd ar.sat rnd (FVal.sum (isRdn ar) [FVal.decode f old, b])).bits

/-- rnd of a memory-side rounding (R193). -/
def redRnd (replay : Bool) (seed a gen : Nat) : Nat :=
  if replay then (0x4000 * gen + 0x1000 * (a / 2 % 4)) % 2 ^ 16
  else mix64 (seed ^^^ mix64 ((a + gen * 0x9E3779B97F4A7C15) % 2 ^ 64)) % 2 ^ 16

/-- Traps of a write or a read at its home (R185, R347, R349). -/
def storeErr (va : W64) : TrapInfo := { trap := .storeError, d0 := va }
def dataErr (va : W64) : TrapInfo := { trap := .dataError, d0 := va }
/-- DESIGN CHOICE: R349 names the PC as a detail beside the address, and a PC does not fit the 32-bit items of R383: it fills the
second word (log 16). -/
def deniedErr (va pc : W64) : TrapInfo := { trap := .remoteDenied, d0 := va, d1 := pc }

namespace State

/-- The L1 of a core filled with the sector of a place, where neither of its groups holds an error that L2 does not cover (R179, R180).
Bytes of it that are not in L2 are fetched first; through a channel held for training they cannot be, and the sector is left (R437). -/
def l1Fill (s : State) (d k key : Nat) (p : Place) : State :=
  let q := { p with byte := p.byte / 64 * 64 }
  if s.badIn q 64 || (!s.l2Has q 64 && s.chanHeld q) then s
  else
    let s1 := s.correctedAll (groupsOf q 64)
    (if s.l2Has q 64 then s1 else s1.l2Fill q true).modL1 d k fun m => SMap.put m key (sectorOf s.mem p.key)

/-- gen of a line raised by one RED (R192); a line that is absent is allocated with gen 0 first. -/
def bumpGen (s : State) (p : Place) (keep : Bool) : State :=
  let x : L2Line := (s.l2Line p).getD {}
  if keep || (s.l2Line p).isSome then s.setLine p { x with gen := x.gen + 1 } else s

def genOf (s : State) (p : Place) : Nat := match s.l2Line p with | some x => x.gen.toNat | none => 1

/-- The sectors an atomic or a reduction touches are dropped from the issuing core's L1 (R179). -/
def dropSector (s : State) (r : Req) : State :=
  if r.src.isSome then s else s.modL1 r.socket r.core fun m => SMap.del m (gKey r.core r.ctx r.win)

/-- One contribution applied at its element (R192, R193), whose sector leaves the issuing core's L1 (R179): its failure, where it has
one. -/
def redOne (s0 : State) (r : Req) (op : RedOp) (ar : Arith) (seed : W64) (replay : Bool) (gen : Nat) (keep : Bool) (c : Contrib) :
    State × Option TrapInfo :=
  let s := s0.dropSector { r with win := c.win }
  match c.place with
  | none => (s, some (deniedErr c.va r.pc))
  | some p =>
    if s.unreachable p.pkg then (s, some (storeErr c.va))
    else
      match s.homeRead p (redBytes op) keep with
      | (s1, none) => (s1, some (storeErr c.va))
      | (s1, some old) =>
        let (s2, ok) := s1.homeWrite p (redBytes op) (redVal op ar (redRnd replay seed.toNat p.canon gen) old c) keep
        ((if op.ord then s2 else s2.freeOrds p (redBytes op)), if ok then none else some (storeErr c.va))

end State

/-! Failures that come back later. -/

/-- An asynchronous failure delivered: recorded for its executor (R386), or, once that has ended, entered in its die's fault
log with the panel's status STORE_ERROR (R113, R359). A failure of another package's request is delivered there. -/
def State.deliver (s : State) (id : Nat) (r : Req) (t : TrapInfo) : State :=
  if r.src.isSome then s
  else if s.alive r.ex id then s.recordAsync r.ex t
  else (s.logFault r.socket (s.reqFlog r t.trap.code (s.faultAddr r.socket r.ctx t.d0.toNat))).setStatus r.ex 1

/-! Steps. -/

/-- PENDING_FILL (R48): a value arrives, with the flags of a floating form (R157). -/
def execPendingFill (id : Nat) (s : State) : Out :=
  match SMap.look s.reqs id with
  | some r =>
    (match r.st, r.pend with
    | .data v f, some p => .next ((((s.hearBack r).dropReq id).fill r.ex p r.lane v f).addFlags r.ex r.flags)
    | .data _ _, none => .next ((s.hearBack r).dropReq id)
    | _, _ => .next s)
  | none => .next s

/-- WRITE_ACK (R222). -/
def execWriteAck (id : Nat) (s : State) : Out :=
  match SMap.look s.reqs id with
  | some r =>
    (match r.st with
    | .ack none => .next ((s.hearBack r).dropReq id)
    | .ack (some t) => .next (((s.hearBack r).dropReq id).deliver id r t)
    | _ => .next s)
  | none => .next s

/-! Requests of other packages (R30, R349): the environment places them (log 10). -/

namespace State

/-- The die map that resolves an address of another package's context slot c: that of the slot where it is LOADED here. -/
def farMap (s : State) (c : Nat) : List Nat :=
  match (List.range 16).find? fun d => (s.ctx d c).st == .loaded && (s.dmap d c).contains d with
  | some d => s.dmap d c
  | none => []

/-- The place of a package physical address named on another package; none where it is denied here (R30). -/
def farPlace (s : State) (o : Origin) (c pa : Nat) : Option Place :=
  resolveIn (if o.core = 0x7F then List.range 16 else s.farMap c) s.pkg pa

/-- A request as this package resolves it: another package's with its places found here, and no L1 of its own. -/
def received (s : State) (r : Req) : Req :=
  match r.src with
  | none => r
  | some o =>
    let at' (c : Contrib) : Contrib := { c with place := s.farPlace o r.ctx c.win }
    { r with
      socket := 64
      fill := false
      acq := false
      place := s.farPlace o r.ctx r.win
      op := match r.op with
        | .red op ar seed replay cs => .red op ar seed replay (cs.map at')
        | .ord op ar seed replay ord c first => .ord op ar seed replay ord (at' c) first
        | .load w => .load w
        | .ldt n els => .ldt n (if (s.farMap r.ctx).isEmpty then els.map fun _ => none else els)
        | .store v => .store v
        | .atom op b => .atom op b
        | .cas c n => .cas c n
        | .spool w d off => .spool w d off
        | .value => .value
        | .point => .point }

/-- The addresses of a request's writes that are denied here. -/
def deniedWrites (r : Req) : List Nat :=
  match r.op with
  | .red _ _ _ _ cs => cs.filterMap fun c => if c.place.isNone then some c.win else none
  | .ord _ _ _ _ _ c _ => if c.place.isNone then [c.win] else []
  | .store _ => if r.place.isNone then [r.win] else []
  | .atom _ _ => if r.place.isNone then [r.win] else []
  | .cas _ _ => if r.place.isNone then [r.win] else []
  | .load _ => []
  | .ldt _ _ => []
  | .spool _ _ _ => []
  | .value => []
  | .point => []

/-- REMOTE_DENIED entered in the fault log of the die that a denied write names (R349, R400): the die of the linear window, or of the
slot's die map; where the slot has none, the die and the byte of the interleaved window are free (log 79). -/
def logDenied (s : State) (r : Req) : State :=
  match r.src with
  | none => s
  | some o =>
    (deniedWrites r).foldl (fun s pa =>
      let m := if o.core = 0x7F then List.range 16 else s.farMap r.ctx
      let h := if Word.bit pa 41 && m.isEmpty then (Config.pick s.free % 16, Config.pick (s.free + 1) % 2 ^ 37)
        else homeOf pa m.length
      s.logFault (m.getD h.1 (h.1 % 16))
        { code := Trap.remoteDenied.code, ctx := r.ctx, pkg := o.pkg, vdie := o.vdie, core := o.core, strand := o.strand, cls := 0,
          panel := o.panel, pc := r.pc, addr := BitVec.ofNat 64 (s.pkg * 2 ^ 41 + h.1 * 2 ^ 37 + h.2), time := s.time }) s

end State

/-- The effect of a request at its home, once it may be performed. -/
def State.perform (s : State) (id : Nat) (r : Req) : State :=
  let keep := r.bypass != 2
  match r.op, r.place with
  | .load w, some p =>
    if s.unreachable p.pkg then s.answer id r 0 (some (dataErr r.va))
    else
      (match s.homeRead p r.n keep with
      | (s1, none) => s1.answer id r 0 (some (dataErr r.va))
      | (s1, some v) =>
        (if r.fill then s1.l1Fill r.socket r.core (gKey r.core r.ctx r.win) p else s1).answer id r (extendLd w r.s64 v) none)
  | .ldt n els, _ =>
    let one (acc : State × Option Nat) (e : Option Place) : State × Option Nat :=
      match e with
      | none => (acc.1, none)
      | some p =>
        if acc.1.unreachable p.pkg then (acc.1, none)
        else
        match acc.1.homeRead p n false with
        | (s1, some v) => (s1, acc.2.map fun x => x * 2 ^ (8 * n) + v)
        | (s1, none) => (s1, none)
    if els.any (·.isNone) then s.answer id r 0 (some (deniedErr r.va r.pc))
    else
      (match els.reverse.foldl one (s, some 0) with
      | (s1, some v) => s1.answer id r v none
      | (s1, none) => s1.answer id r 0 (some (dataErr r.va)))
  | .store v, some p =>
    if s.unreachable p.pkg then s.acknowledge id r (some (storeErr r.va))
    else
      let (s1, ok) := s.homeWrite p r.n v keep
      if ok then
        let s2 := s1.freeOrds p r.n
        (if r.src.isSome then s2
          else s2.l1Store r.socket r.core (State.gKey r.core r.ctx r.win) (r.win % 64) r.n v (r.bypass != 0)).acknowledge id r none
      else s1.acknowledge id r (some (storeErr r.va))
  | .atom op b, some p =>
    -- whatever comes of it, the sector it touches leaves the issuing core's L1 (R179)
    let s := s.dropSector r
    if s.unreachable p.pkg then s.answer id r 0 (some (dataErr r.va))
    else
      (match s.homeRead p r.n keep with
      | (s1, none) => s1.answer id r 0 (some (dataErr r.va))
      | (s1, some v) =>
        let (s2, ok) := s1.homeWrite p r.n (atomVal op (8 * r.n) v b) keep
        ((if ok then s2.freeOrds p r.n else s2.deliver id r (storeErr r.va))).answer id r v none)
  | .cas cmp new, some p =>
    let s := s.dropSector r
    if s.unreachable p.pkg then s.answer id r 0 (some (dataErr r.va))
    else
      (match s.homeRead p r.n keep with
      | (s1, none) => s1.answer id r 0 (some (dataErr r.va))
      | (s1, some v) =>
        let put := s1.homeWrite p r.n new keep
        (if v ≠ cmp then s1 else if put.2 then put.1.freeOrds p r.n else put.1.deliver id r (storeErr r.va)).answer id r v none)
  | .load _, none => s.answer id r 0 (some (deniedErr r.va r.pc))
  | .atom _ _, none => (s.dropSector r).answer id r 0 (some (deniedErr r.va r.pc))
  | .cas _ _, none => (s.dropSector r).answer id r 0 (some (deniedErr r.va r.pc))
  | .store _, none => s.acknowledge id r (some (deniedErr r.va r.pc))
  | .spool _ _ _, _ => s
  | .red _ _ _ _ _, _ => s
  | .ord _ _ _ _ _ _ _, _ => s
  | .value, _ => s
  | .point, _ => s

/-- HOME_L2_ACCESS (R209): a request performed as one event of T, or still on its way. A stamp stands until the instruction that took it
is performed, and goes where that no longer waits (R218). -/
def execHomeL2Access (id : Nat) (s : State) : Out :=
  match SMap.look s.reqs id with
  | some r =>
    let q := s.received r
    if r.op == .point then .next (if s.pointDead id r then s.dropReq id else s.post (.homeL2Access id))
    else if !r.unperformed then .next s
    else if s.homeReady id q then .next ((s.logDenied q).perform id q)
    else .next (s.post (.homeL2Access id))
  | none => .next s

/-- Distinct places of the lines of contributions. -/
def redLines (cs : List Contrib) : List Place :=
  cs.foldl (fun ps c => match c.place with
    | some p => if ps.any (fun q => q.key / 256 == p.key / 256) then ps else ps ++ [p]
    | none => ps) []

/-- RED_APPLY (R192): gen of each touched line rises once, and the contributions apply in ascending lane order. -/
def execRedApply (id : Nat) (s : State) : Out :=
  match (SMap.look s.reqs id).map s.received with
  | some r =>
    (match r.op with
    | .red op ar seed replay cs =>
      if !r.unperformed then .next s
      else if !s.homeReady id r then .next (s.post (.redApply id))
      else
        let keep := r.bypass != 2
        let s1 := (redLines cs).foldl (fun s p => s.bumpGen p keep) (s.logDenied r)
        let step (acc : State × Option TrapInfo) (c : Contrib) : State × Option TrapInfo :=
          let gen := match c.place with | some p => acc.1.genOf p | none => 0
          let (s2, f) := acc.1.redOne r op ar seed replay gen keep c
          (s2, acc.2.or f)
        let (s3, f) := cs.foldl step (s1, none)
        .next (s3.acknowledge id r f)
    | _ => .next s)
  | none => .next s

/-- The held contributions of a record that are next in turn, applied one after another (R194); `fuel` bounds them. -/
def State.drainOrd (s : State) (dk key : Nat) : Nat → State
  | 0 => s
  | fuel + 1 =>
    match SMap.look (s.die dk).ords key with
    | none => s
    | some rec' =>
      match rec'.held.find? (fun h => h.1 % 2 ^ 31 == rec'.next) with
      | none => s
      | some h =>
        match SMap.look s.reqs h.2.1 with
        | some r =>
          (match r.op with
          | .ord op ar seed replay o c _ =>
            let (s1, f) := s.redOne r op ar seed replay (rec'.next + 1) (r.bypass != 2) c
            let s2 := s1.acknowledge h.2.1 r f
            if Word.bit o 31 then s2.modDie dk fun d => { d with ords := SMap.del d.ords key }
            else
              let nx : OrdRec := { rec' with next := rec'.next + 1, held := rec'.held.filter (· != h) }
              (s2.modDie dk fun d => { d with ords := SMap.put d.ords key nx }).drainOrd dk key fuel
          | _ => s)
        | none => s

/-- ORDINAL_ARRIVAL (R194, R195). -/
def execOrdinalArrival (id : Nat) (s : State) : Out :=
  match (SMap.look s.reqs id).map s.received with
  | some r =>
    (match r.op with
    | .ord op ar seed replay o c first =>
      if !r.unperformed then .next s
      else if !s.homeReady id r then .next (s.post (.ordinalArrival id))
      else
        (match c.place with
        | none => .next ((s.logDenied r).acknowledge id r (some (deniedErr c.va r.pc)))
        | some p =>
          let dk := s.dieKey p
          let key := p.byte
          let seq := o % 2 ^ 31
          let sl := sliceOf (p.byte / 256)
          let used := ((s.die dk).ords.filter fun x => sliceOf (x.1 / 256) == sl).length
          if (SMap.look (s.die dk).ords key).isNone && 8192 ≤ used then .next (s.post (.ordinalArrival id))
          else
            let rec' : OrdRec := (SMap.look (s.die dk).ords key).getD { size := redBytes op }
            let s0 := if first then s.bumpGen p (r.bypass != 2) else s
            let r0 := { r with op := .ord op ar seed replay o c false }
            let stale : TrapInfo := { trap := .ordinalStale, d0 := c.va, d1 := BitVec.ofNat 64 (o * 2 ^ 32) }
            if seq < rec'.next || rec'.held.any (fun h => h.1 % 2 ^ 31 == seq) then
              .next (s0.acknowledge id { r0 with refused := false } (some stale))
            else if rec'.next + 64 ≤ seq then
              .next (((s0.modDie dk fun d => { d with ords := SMap.put d.ords key rec' }).setReq id { r0 with refused := true }).post
                (.ordinalRetry id))
            else
              let nx : OrdRec := { rec' with held := rec'.held ++ [(o, id, 0)] }
              let s1 := s0.modDie dk fun d => { d with ords := SMap.put d.ords key nx }
              .next ((s1.setReq id { r0 with refused := false, st := .held }).drainOrd dk key 65))
    | _ => .next s)
  | none => .next s

/-- ORDINAL_RETRY (R194). -/
def execOrdinalRetry (id : Nat) (s : State) : Out :=
  match SMap.look s.reqs id with
  | some r => .next (if r.refused then s.post (.ordinalArrival id) else s)
  | none => .next s

/-- A line leaves L2 (R180): its dirty bytes are written back, those of a bad group dropped. -/
def State.evict (s : State) (dk line : Nat) : State :=
  match SMap.look (s.die dk).l2 line with
  | none => s
  | some x =>
    let base := (if dk < 64 then s.pkg * 2 ^ 41 + dk * 2 ^ 37 else (dk / 64 - 1) * 2 ^ 41 + dk % 64 * 2 ^ 37) + line * 256
    let bad := (List.range 8).filter fun g =>
      s.badEcc.contains ((base + 32 * g) / 32) && byteMask (32 * g) 32 &&& x.dirty != 0
    let s1 := bad.foldl (fun s g => s.dropGroup dk (base + 32 * g)) s
    s1.modDie dk fun d => { d with l2 := SMap.del d.l2 line }

/-- L2_EVICTION (R180): line dk · 2²⁹ + ⌊byte ÷ 256⌋. Dirty bytes of a channel held for training wait (R437). -/
def execL2Eviction (line : Nat) (s : State) : Out :=
  let dk := line / 2 ^ 29
  let n := line % 2 ^ 29
  match SMap.look (s.die dk).l2 n with
  | none => .next s
  | some x =>
    if x.dirty != 0 && dk < 64 && s.chanHeld { pkg := s.pkg, socket := dk, vd := 0, byte := n * 256 } then .next s
    else .next (s.evict dk n)

/-- SPOOL_REFRESH (R31): once a bank no longer refreshes, the loads that wait for it are served, as far as their die can be reached. -/
def execSpoolRefresh (bank : Nat) (s : State) : Out :=
  let waits (r : Req) : Bool := match r.op with | .spool _ _ off => r.unperformed && Word.bits off 12 8 == bank | _ => false
  let again (s : State) : State := if s.reqs.any (fun q => waits q.2) then s.post (.spoolRefresh bank) else s
  if s.refreshing bank then .next (again s)
  else
    let serve (s : State) (q : Nat × Req) : State :=
      match q.2.op with
      | .spool w d off =>
        if waits q.2 && !s.spoolWaits q.2.socket d off then
          let sp := (s.die d).spool
          let s1 := if q.2.fill then
              s.modL1 q.2.socket q.2.core fun m => SMap.put m (State.l1Key 1 q.2.ctx q.2.win) (State.sectorOf sp off)
            else s
          s1.answer q.1 q.2 (extendLd w q.2.s64 (Memory.read sp off q.2.n)) none
        else s
      | _ => s
    .next (again (s.reqs.foldl serve s))

/-- What the reads of a walk do beside bringing the entries: soft errors are corrected and counted (R395, R421), and the messages carry
their clocks (R217). -/
def State.walkSoft (s0 : State) (d c page : Nat) : State :=
  let s := s0.crossAll d 0x7F (s0.walkReads d c page 4 0 (Word.bits (s0.ctxReg d c 0x3E).toNat 47 19 * 2 ^ 19))
  if s.softEcc.isEmpty then s
  else s.correctedAll (s.walkReads d c page 4 0 (Word.bits (s.ctxReg d c 0x3E).toNat 47 19 * 2 ^ 19))

/-- A translation cached on a core and in its die's second level (R398). -/
def State.cacheTlb (s : State) (d : Nat) (t : Tlb) (w : Ex) : State :=
  let add (xs : List Tlb) : List Tlb := if xs.contains t then xs else xs ++ [t]
  (s.modCore (State.coreKey d (s.site w).2) fun k => { k with tlb := add k.tlb }).modDie d fun x => { x with tlb := add x.tlb }

/-- An executor that awaits no further walk issues again, or traps, after those of its core that were released before it (R398). -/
def State.walkDone (s : State) (e : Ex) : State :=
  let (d, k) := s.site e
  if (s.die d).walks.any fun w => w.waiters.contains e then s
  else s.modCore (State.coreKey d k) fun q => { q with ready := if q.ready.contains e then q.ready else q.ready ++ [e] }

/-- PAGE_WALK (R398): socket, and context slot · 2⁴¹ + page. A leaf fills the TLBs; a failure is recorded for the waiters, whose
instructions trap when they issue again (R384). A walk overtaken by a TLBI starts again. -/
def execPageWalk (d x : Nat) (s : State) : Out :=
  let c := x / 2 ^ 41
  let page := x % 2 ^ 41
  match (s.die d).walks.find? (fun w => w.ctx == c && w.page == page) with
  | none => .next s
  | some w =>
    -- 32 walkers take the queue in order of arrival
    if 32 ≤ (s.die d).walks.findIdx (fun v => v.ctx == c && v.page == page) || s.walkHeld d c page then .next (s.post (.pageWalk d x))
    else if w.stale then
      let again (v : PWalk) : PWalk := if v.ctx == c && v.page == page then { v with stale := false } else v
      .next ((s.modDie d fun y => { y with walks := y.walks.map again }).post (.pageWalk d x))
    else
      let s1 := (s.walkSoft d c page).modDie d fun y =>
        { y with walks := y.walks.filter (fun (v : PWalk) => !(v.ctx == c && v.page == page)) }
      match s.walk d c page with
      | .inr t => .next (w.waiters.foldl (fun s e => (s.cacheTlb d t e).walkDone e) s1)
      | .inl l => .next (w.waiters.foldl (fun s e => (s.modThr e fun t => { t with walkFails := t.walkFails ++ [(page, l)] }).walkDone e) s1)

end Sys2Proof.Machine
end

