-- ==== Sys2Proof/Machine/Memory.lean ====
section
/-! DEFINITION. The memory class (R174 to R203): policies, the accesses of each form, and one meaning per form. -/

namespace Sys2Proof.Machine

/-! Policies (R175, R176, R188). -/

/-- A policy value's fields. -/
structure Pol where
  order  : Nat
  scope  : Nat
  bypass : Nat
deriving DecidableEq, Repr

/-- The policy value an instruction names: source C's S register, the prefix, or zero. DESIGN CHOICE: a management core's MPOL, RNDSEED and
RNDMODE are those of the context slot that SY.CTXSEL selects (R27, R178, R193; log 90). -/
def polRaw (s : State) (c : Cx) (x : Args) : Nat :=
  match x.c with
  | .s n => c.s n.toNat % 2 ^ 32
  | _ =>
    match x.mp with
    | .none => 0
    | .inline p => p.toNat
    | .cls k => (s.ctxReg (s.site c.ex).1 (s.ctxOf c.ex) (0x18 + k.toNat)).toNat % 2 ^ 32

def polOf (v : Nat) : Pol := { order := v % 8, scope := v / 8 % 8, bypass := v / 2 ^ 24 % 4 }

/-- A legal policy whose order the form accepts (R176). -/
def polOk (v : Nat) (orders : List Nat) : Bool :=
  v / 2 ^ 26 == 0 && v / 2 ^ 6 % 4 == 0 && v / 2 ^ 24 % 4 != 3 && v / 8 % 8 ≤ 5 && orders.contains (v % 8)

/-- The policy of a form with an active lane, or POLICY_INVALID (R176). -/
def withPol (s : State) (c : Cx) (v : Nat) (orders : List Nat) (k : Pol → Out) : Out :=
  if polOk v orders then k (polOf v) else trapOut s c { trap := .policyInvalid, d0 := BitVec.ofNat 64 v }

/-- The order's acquire side (R212). -/
def Pol.acq (p : Pol) : Bool := p.order == 2 || p.order == 4 || p.order == 5
/-- The order's release side, for a write. -/
def Pol.rel (p : Pol) : Bool := p.order == 3 || p.order == 4 || p.order == 5

/-- The waits before an access (R176, R185, R212): earlier acquires are performed; a release waits for earlier accesses; an acquire
takes the recorded asynchronous trap. -/
def ordered (s : State) (c : Cx) (rel acq : Bool) (k : Unit → Out) : Out :=
  if !s.acquired c then waitOut s
  else if rel && !s.released c.ex then waitOut s
  else
    match acq, c.thr.async with
    | true, some t => asyncOut s c t
    | _, _ => k ()

/-! Lanes and requests. -/

/-- The lanes that make an access: one where the destination is S (R54, R189). -/
def accessLanes (d : Opnd) (ls : List Nat) : List Nat :=
  if (sregOf d).isSome then ls.take 1 else ls

/-- The lanes of a load: helper lanes load where their checks pass (R189), the participants first for an S destination. -/
def loadLanes (c : Cx) (d : Opnd) : List Nat :=
  if (sregOf d).isSome then (c.parts ++ lanesOf c.act).take 1 else lanesOf (c.act &&& ~~~ c.dead)

/-- What every request of an instruction carries. -/
def reqBase (s : State) (c : Cx) (group : Nat) (pol : Pol) : Req :=
  let (d, k) := s.site c.ex
  { ex := c.ex, op := .value, socket := d, core := k, ctx := s.ctxOf c.ex, pc := c.pc, group := group, bypass := pol.bypass,
    acq := pol.acq, scope := pol.scope, stamp := if pol.order = 5 then some (s.stampOf c.ex) else none, lc := s.lcOf c.ex,
    po := s.po c,
    panelId := ((c.ex.panel.bind s.panel?).map (·.panelId)).getD 0 }

namespace State

/-- A value known at issue, on its way to lane l of a form. -/
def sendKnown (s : State) (c : Cx) (id l v : Nat) : State :=
  s.addReq { ex := c.ex, pend := some id, lane := l, op := .value, pc := c.pc, st := .data v none } .pendingFill

end State

/-- A long-latency form issued: its locations pending, and what each lane sends (R48). Lanes that access nothing receive 0. -/
def sendForm (s : State) (c : Cx) (x : Args) (w : Wd) (upd : State → Nat → State) (got : List Nat) : Out :=
  let s1 := s.advance c
  let id := s1.nextId
  let s2 := ({ s1 with nextId := id + 1 }).pendVec c id x.look.toNat w x.d
  let s3 := upd s2 id
  let idle := if (sregOf x.d).isSome then (if got.isEmpty then [c.low] else []) else (lanesOf c.act).filter fun l => !got.contains l
  .next (idle.foldl (fun s l => s.sendKnown c id l 0) s3)

/-! Global addresses. -/

/-- A lane's global access checked in the order of R185: alignment, translation, permission, range. -/
def globalPlace (s : State) (e : Ex) (va n : Nat) (k : Acc) : Res (Nat × Nat × Option Place) :=
  if va % n ≠ 0 then .trap { trap := .misaligned, d0 := BitVec.ofNat 64 va }
  else (s.placeOf e va k).bind fun r => .ok (va, r.1, r.2)

/-- A device register address of a management core (R419): its socket and offset. -/
def deviceAddr (e : Ex) (va : Nat) : Option (Nat × Nat) :=
  match e with
  | .mgt _ => if va / 2 ^ 32 = 0xFFFFFFFF then some (va / 2 ^ 24 % 256, va % 2 ^ 24) else none
  | .str _ _ => none
  | .bob _ => none

/-- The ring stop behind which a device stands: an HBM channel's is its die's (R419). -/
def devStop (sock : Nat) : Nat := if sock < 0x20 then sock else (sock - 0x20) / 2

/-- A device access by management core m under R420: the register, or the trap; one of another stop waits while the rings hold new
injections (R19). -/
def deviceCheck (s : State) (m va : Nat) (ok : Bool) (n : Nat) (r : Nat × Nat) : Res (Nat × Nat) :=
  if va % n ≠ 0 || r.2 % 4 ≠ 0 then .trap { trap := .misaligned, d0 := BitVec.ofNat 64 va }
  else if ok && s.devThere r.1 r.2 then (if s.rings.held && devStop r.1 != m then .held else .ok r)
  else .trap { trap := .physRange, d0 := BitVec.ofNat 64 va }

/-! Words that an instruction reads itself. -/

/-- Some byte of [va, va + n) cannot be read by an executor's instruction yet: an earlier write of its own to the line, or a KV event of
its own, is not performed (R181, R212), or the line cannot be reached (R19, R437). -/
def State.notYet (s : State) (e : Ex) (va n : Nat) (po : Po := {}) : Bool :=
  let d := (s.site e).1
  s.kvFirst s.nextId { ex := e, op := .load .b32, va := BitVec.ofNat 64 va, n := n, po := po } || (List.range ((va % 256 + n + 255) / 256)).any fun i =>
    let a := if i = 0 then va else (va / 256 + i) * 256
    match s.placeOf e a .read with
    | .ok (_, some p) =>
      let r : Req := { ex := e, op := .load .b32, place := some p, n := min 256 (va + n - a) }
      s.reqs.any (fun q => q.2.ex == e && q.2.writes &&
        (if q.2.waitsTurn then q.2.po.before po && q.2.overlaps r
          else q.2.unperformed && q.2.lines.contains (p.key / 256))) ||
        s.blocked { ex := e, op := .load .b32, socket := d, n := 4 } p
    | _ => false

/-- The place that a read by an executor's own instruction names. -/
def State.readPlace (s : State) (e : Ex) (va : Nat) : Option Place :=
  match s.placeOf e va .read with
  | .ok (_, q) => q
  | .trap _ => none
  | .miss _ => none
  | .held => none

/-- A DATA_ERROR that a read of words met is counted in UECNT (R421); `at'` gives the place of an address. -/
def State.countUe {α : Type} (s : State) (at' : Nat → Option Place) (r : Res α) : State :=
  match r with
  | .trap t =>
    if t.trap != .dataError then s
    else
      match at' t.d0.toNat with
      | some p => s.bumpUe (s.dieKey p)
      | none => s
  | .ok _ => s
  | .miss _ => s
  | .held => s

/-- Accesses of a core of die d to places carried its clock there and brought back the homes' (R217). -/
def State.crossHomes (s : State) (d k : Nat) (ps : List Place) : State := ps.foldl (fun s p => s.crossCore d k (s.dieKey p)) s

/-- What an outcome does beside, where the machine goes on. -/
def afterNext (o : Out) (f : State → State) : Out :=
  match o with
  | .next t => .next (f t)
  | .fault f => .fault f
  | .refused r => .refused r

/-- What follows a read of [va, va + n) by a core: the soft errors it met are corrected and counted (R180, R421), and the messages
carried their clocks (R217). -/
def withSoft (site : Nat × Nat) (at' : Nat → Option Place) (va n : Nat) (o : Out) : Out :=
  let ps := (List.range ((va % 32 + n + 31) / 32)).filterMap fun i => at' (if i = 0 then va else (va / 32 + i) * 32)
  afterNext o fun t => (t.correctedAll ps).crossHomes site.1 site.2 ps

/-- A read of n bytes by an instruction, continued where it passed; the errors it met are counted. A read whose bytes cannot be had yet
waits before it meets an error in them (R19, R181, R437). -/
def andRead {α : Type} (s : State) (c : Cx) (at' : Nat → Option Place) (va n : Nat) (wait : Bool) (r : Res α) (f : α → Out) : Out :=
  if wait && r.arrived then waitOut s
  else andThen (s.countUe at' r) c r fun a => withSoft (s.site c.ex) at' va n (f a)

/-- n 64-bit words read at issue, once that can be. -/
def withWords (s : State) (c : Cx) (va n : Nat) (k : List W64 → Out) : Out :=
  andRead s c (s.readPlace c.ex) va (8 * n) (s.notYet c.ex va (8 * n) (s.po c) || !s.pointReady c false 0 []) (s.readWords c.ex va n) k

/-! LD. -/

/-- The load of one lane sent: from L1 where it may be used and holds the bytes (R179, R208), which sends no message, else to the home. A
load does not overtake an earlier write of its executor to the line (R181). -/
def sendLoad (c : Cx) (w : LdW) (pol : Pol) (s64 : Bool) (id : Nat) (s0 : State) (p : Nat × Nat × Nat × Option Place) : State :=
  let (l, va, pa, pl) := p
  let r0 := reqBase s0 c id pol
  let plain := pol.order = 0 ∧ pol.bypass = 0
  let s := if plain then s0.l1Parity r0.socket r0.core (State.gKey r0.core r0.ctx pa) else s0
  let r : Req := { r0 with
    pend := some id, lane := l, op := .load w, va := BitVec.ofNat 64 va, win := pa, place := pl, n := w.bytes, s64 := s64, fill := plain }
  match (if plain && s.inTurnFor s.nextId r then s.l1Get r.socket r.core (State.gKey r.core r.ctx pa) (pa % 64) w.bytes else none), pl with
  | some v, some _ => s.addReq { r with place := none, st := .data (extendLd w s64 v) none } .pendingFill
  | _, _ => s.addReq r .homeL2Access

/-- LD (R189). -/
def execLd (space : Space) (w : LdW) (x : Args) (s : State) : Out :=
  run (.ld space w x) s fun c x =>
    if !c.any then .next (s.advance c)
    else
      let raw := polRaw s c x
      withPol s c raw [0, 1, 2, 5] fun pol => ordered s c false pol.acq fun _ =>
        let ls := loadLanes c x.d
        let s64 := (sregOf x.d).isSome
        let wide : Wd := w.wd
        match space with
        | .g =>
          (match ls.head?.bind fun l => (deviceAddr c.ex (c.src .w64 x.a l)).map fun r => (l, r) with
          | some (l, r) =>
            andThen s c (deviceCheck s (s.site c.ex).1 (c.src .w64 x.a l) (w == .b32 && raw == 0) w.bytes r) fun r =>
              sendForm (s.crossCore (s.site c.ex).1 (s.site c.ex).2 (devStop r.1)) c x wide (fun s id => s.sendKnown c id l (s.devRead r.1 r.2)) [l]
          | none =>
            match checkLanes s c ls (fun l => globalPlace s c.ex (c.src .w64 x.a l) w.bytes .read) with
            | .error o => o
            | .ok got =>
              let ps := got.filterMap fun g => g.2.map fun p => (g.1, p)
              sendForm s c x wide (fun s' id =>
                (ps.foldl (sendLoad c w pol s64 id) s').stamped c (pol.order == 5)) (ps.map (·.1)))
        | .spool =>
          (match checkLanes s c ls (fun l => s.spoolPlace c.ex (c.src .w32 x.a l) w.bytes) with
          | .error o => o
          | .ok got =>
            if !s.pointReady c (pol.order == 5) 0 [] then pointWait s c (pol.order == 5)
            else
            let ps := got.filterMap fun g => g.2.map fun p => (g.1, p)
            let one (id : Nat) (s0 : State) (p : Nat × Nat × Nat) : State :=
              let (l, d, off) := p
              let a := c.src .w32 x.a l
              let plain := pol.order = 0 ∧ pol.bypass = 0
              let r : Req := { reqBase s c id pol with
                pend := some id, lane := l, op := .spool w d off, va := BitVec.ofNat 64 a, win := a, n := w.bytes, s64 := s64,
                fill := plain, stamp := if pol.order = 5 then s.pointStamp c else none }
              let key := State.l1Key 1 r.ctx a
              let s' := if plain then s0.l1Parity r.socket r.core key else s0
              match (if plain then s'.l1Get r.socket r.core key (a % 64) w.bytes else none) with
              | some v => s'.addReq { r with op := .spool w r.socket off, st := .data (extendLd w s64 v) none } .pendingFill
              | none =>
                if s.spoolWaits r.socket d off then s'.addReq r fun _ => .spoolRefresh (Word.bits off 12 8)
                else
                  let sp := (s.die d).spool
                  let s1 := if plain then s'.modL1 r.socket r.core fun m => SMap.put m key (State.sectorOf sp off) else s'
                  (s1.crossCore r.socket r.core d).addReq
                    { r with st := .data (extendLd w s64 (Memory.read sp off w.bytes)) none } .pendingFill
            let s0 := if pol.acq && 2 ≤ pol.scope then s.dropL1 c.ex else s
            sendForm s0 c x wide (fun s' id => (ps.foldl (one id) s').stamped c (pol.order == 5)) (ps.map (·.1)))
        | spc =>
          (match checkLanes s c ls (fun l => s.spAccess c.ex (spc == .sw) (c.src .w32 x.a l) w.bytes false) with
          | .error o => o
          | .ok got =>
            let ps := got.filterMap fun g => g.2.map fun p => (g.1, p)
            if ps.any (fun p => s.spBusy false w.bytes p.2) then waitOut s
            else if !s.pointReady c (pol.order == 5) w.bytes (ps.map (·.2)) then pointWait s c (pol.order == 5)
            else
              let s0 := if pol.acq && 2 ≤ pol.scope then s.dropL1 c.ex else s
              sendForm s0 c x wide (fun s' id =>
                (ps.foldl (fun s' p => s'.sendKnown c id p.1 (extendLd w s64 (s.spVal p.2 w.bytes))) s').stamped c
                  (pol.order == 5)) (ps.map (·.1)))

/-! ST. -/

/-- The store of one lane sent to its home. -/
def sendStore (c : Cx) (n : Nat) (pol : Pol) (id : Nat) (v : Nat → Nat) (s : State) (p : Nat × Nat × Nat × Option Place) : State :=
  let (l, va, pa, pl) := p
  s.addReq { reqBase s c id pol with
    lane := l, op := .store (v l), va := BitVec.ofNat 64 va, win := pa, place := pl, n := n, acq := false } .homeL2Access

/-- ST (R190): of several lanes that store one scratchpad element, which one's stands is a free value (log 2). -/
def execSt (space : Space) (w : StW) (x : Args) (s : State) : Out :=
  run (.st space w x) s fun c x =>
    -- taken whatever its guard, its policy and its lanes are, helpers or not (R185, R190)
    if space = .spool then .next (s.takeTrap c.ex c.slotB c.pc { trap := .spoolStore } .precise)
    else if !c.any then .next (s.advance c)
    else
      let raw := polRaw s c x
      withPol s c raw [0, 1, 3, 5] fun pol => ordered s c pol.rel false fun _ =>
        let n := w.bytes
        let v (l : Nat) : Nat := c.src w.wd x.b l % 2 ^ (8 * n)
        match space with
        | .g =>
          (match c.parts.head?.bind fun l => (deviceAddr c.ex (c.src .w64 x.a l)).map fun r => (l, r) with
          | some (l, r) =>
            andThen s c (deviceCheck s (s.site c.ex).1 (c.src .w64 x.a l) (w == .b32 && raw == 0) n r) fun r =>
              let s1 := (s.advance c).crossCore (s.site c.ex).1 (s.site c.ex).2 (devStop r.1)
              .next { s1 with agenda := devStep r.1 r.2 (v l) :: s1.agenda }
          | none =>
            match checkLanes s c c.parts (fun l => globalPlace s c.ex (c.src .w64 x.a l) n .write) with
            | .error o => o
            | .ok got =>
              let ps := got.filterMap fun g => g.2.map fun p => (g.1, p)
              let s1 := s.advance c
              .next ((ps.foldl (sendStore c n pol s1.nextId v) { s1 with nextId := s1.nextId + 1 }).stamped c (pol.order == 5)))
        | spc =>
          (match checkLanes s c c.parts (fun l => s.spAccess c.ex (spc == .sw) (c.src .w32 x.a l) n true) with
          | .error o => o
          | .ok got =>
            let ps := got.filterMap fun g => g.2.map fun p => (g.1, p)
            if ps.any (fun p => s.spBusy true n p.2) then waitOut s
            else if !s.pointReady c (pol.order == 5) n (ps.map (·.2)) then pointWait s c (pol.order == 5)
            else
              let s1 := (shuffle s.free ps).foldl (fun s' p => s'.spPut p.2 n (v p.1)) (s.advance c)
              .next ({ s1 with free := s1.free + ps.length }.stamped c (pol.order == 5)))

/-! ATOM, ATCAS (R191). -/

/-- The atomics of the participating lanes sent. -/
def atomForm (i : Instr) (w : Wd) (op : Cx → Args → Nat → ROp) (s : State) : Out :=
  run i s fun c x =>
    if !c.any then .next (s.advance c)
    else
      withPol s c (polRaw s c x) [0, 1, 2, 3, 4, 5] fun pol => ordered s c pol.rel pol.acq fun _ =>
        let ls := accessLanes x.d c.parts
        match checkLanes s c ls (fun l => globalPlace s c.ex (c.src .w64 x.a l) (w.n / 8) .both) with
        | .error o => o
        | .ok got =>
          let ps := got.filterMap fun g => g.2.map fun p => (g.1, p)
          let one (id : Nat) (s' : State) (p : Nat × Nat × Nat × Option Place) : State :=
            let (l, va, pa, pl) := p
            s'.addReq { reqBase s c id pol with
              pend := some id, lane := l, op := op c x l, va := BitVec.ofNat 64 va, win := pa, place := pl, n := w.n / 8 }
              .homeL2Access
          sendForm s c x w (fun s' id => (ps.foldl (one id) s').stamped c (pol.order == 5)) (ps.map (·.1))

def execAtom (op : AtomOp) (w : Wd) (x : Args) (s : State) : Out :=
  atomForm (.atom op w x) w (fun c x l => .atom op (c.src w x.b l)) s

def execAtcas (w : Wd) (x : Args) (s : State) : Out :=
  atomForm (.atcas w x) w (fun c x l => .cas (c.src w x.d l) (c.src w x.b l)) s

/-! RED (R126, R192 to R194). -/

/-- Plain float additions, which trap under an open walk (R126). -/
def plainFloatRed : RedOp → Bool
  | .addF32 => true | .addBF16 => true | .addF16 => true
  | .addN32 => false | .addN64 => false | .addOrdF32 => false | .addOrdBF16 => false
  | .minS32 => false | .maxS32 => false | .minF32 => false | .maxF32 => false

/-- The executor's panel has a walk open. -/
def State.walkOpen (s : State) (e : Ex) : Bool :=
  match e with
  | .str h _ => ((s.panel? h).bind (·.bob.walk)).isSome
  | .bob _ => false
  | .mgt _ => false

/-- The contribution of a lane: its element's place, bits and exact immediate. -/
def contribOf (c : Cx) (w : Wd) (x : Args) (p : Nat × Nat × Nat × Option Place) : Contrib :=
  { place := p.2.2.2, bits := c.src w x.b p.1, imm := (match x.b with | .imm i => some i.toInt | _ => none), lane := p.1,
    va := BitVec.ofNat 64 p.2.1, win := p.2.2.1 }

/-- RED (R192): one request for all contributions; an ordered reduction sends one for each lane (R194). An SR rounding advances the
SR counters of the slot's lanes (R155). -/
def execRed (op : RedOp) (x : Args) (s : State) : Out :=
  run (.red op x) s fun c x =>
    if c.parts.isEmpty then .next ((s.advance c).bumpSr c x.ar)
    else
      let raw := if op.ord then polRaw s c { x with c := .q 0 } else polRaw s c x
      withPol s c raw [0, 1, 3] fun pol =>
        if plainFloatRed op && s.walkOpen c.ex then trapOut s c { trap := .walkOrder }
        else if op.ord && (s.reqsOf c.ex).any (fun r => r.2.refused) then waitOut s
        else ordered s c pol.rel false fun _ =>
          let n := redBytes op
          match checkLanes s c c.parts (fun l => globalPlace s c.ex (c.src .w64 x.a l) n .both) with
          | .error o => o
          | .ok got =>
            let ps := got.filterMap fun g => g.2.map fun p => (g.1, p)
            let s1 := (s.advance c).bumpSr c x.ar
            let id := s1.nextId
            let s2 := ps.foldl (fun s p => s.dropSector { reqBase s c id pol with win := p.2.2.1 }) { s1 with nextId := id + 1 }
            let seed := s.ctxReg (s.site c.ex).1 (s.ctxOf c.ex) 0x39
            let replay := (s.ctxReg (s.site c.ex).1 (s.ctxOf c.ex) 0x3A).getLsbD 0
            if ps.isEmpty then .next s2
            else if op.ord then
              let one (acc : State × List Nat) (p : Nat × Nat × Nat × Option Place) : State × List Nat :=
                let k := contribOf c op.wd x p
                let line := match k.place with | some q => [q.key / 256] | none => []
                let first := line.any fun l => !acc.2.contains l
                let r : Req := { reqBase s c id pol with
                  lane := p.1, op := .ord op x.ar seed replay (c.src .w32 x.c p.1) k first, va := k.va, win := p.2.2.1,
                  place := k.place, n := n, acq := false }
                (acc.1.addReq r .ordinalArrival, acc.2 ++ line)
              .next (ps.foldl one (s2, [])).1
            else
              let r : Req := { reqBase s c id pol with
                op := .red op x.ar seed replay (ps.map (contribOf c op.wd x)), n := n, acq := false,
                place := none, va := (match ps with | p :: _ => BitVec.ofNat 64 p.2.1 | [] => 0) }
              .next (s2.addReq r .redApply)

/-! Bias Reader (R196, R197). -/

/-- The element size a bias table entry gives (R196). -/
def biasSize (x : Nat) : Option Nat := if x / 16 % 4 = 3 then none else some (2 ^ (x / 16 % 4))

/-- A bias table entry: element size and stride, where it is valid and well formed. -/
def biasEntry (x : Nat) : Option (Nat × Nat) :=
  let sz := 2 ^ (x / 16 % 4)
  let stride := x / 2 ^ 32
  if Word.bit x 0 && x / 16 % 4 != 3 && stride != 0 && stride % sz == 0 && Word.bits x 31 6 == 0 && Word.bits x 3 1 == 0 then
    some (sz, stride)
  else none

/-- The entry of an executor's context. -/
def State.bias (s : State) (e : Ex) (i : Nat) : Nat :=
  (SMap.lookD (s.ctx (s.site e).1 (s.ctxOf e)).bias i 0).toNat

/-- BIAS_FAULT: the table index and the element offset. -/
def biasTrap (i off : Nat) : TrapInfo :=
  { trap := .biasFault, d0 := BitVec.ofNat 64 i, d1 := BitVec.ofNat 64 (off % 2 ^ 32 * 2 ^ 32) }

/-- The places of a column's elements for one lane: an address that is not aligned to the size the entry gives comes before the entry's
own fault (R185). -/
def ldtPlaces (s : State) (e : Ex) (va i : Nat) : Res (Nat × Nat × List (Option Place)) :=
  if ((biasSize (s.bias e i)).map fun n => va % n != 0).getD false then .trap { trap := .misaligned, d0 := BitVec.ofNat 64 va }
  else
    (s.placeOf e va .read).bind fun r =>
      match biasEntry (s.bias e i) with
      | none => .trap (biasTrap i 0)
      | some (sz, stride) =>
        let bits := match s.tlbFind e va with | some t => t.bits | none => 16
        let ks := List.range (4 / sz)
        match ks.find? (fun k => (va + k * stride) / 2 ^ bits ≠ va / 2 ^ bits) with
        | some k => .trap (biasTrap i (k * stride))
        | none =>
          let els := ks.map fun k => s.resolve e (r.1 + k * stride)
          if els.any (fun x => match x with | .range => true | .at' _ => false | .denied => false) then
            .trap { trap := .physRange, d0 := BitVec.ofNat 64 va }
          else .ok (r.1, sz, els.map fun x => match x with | .at' p => some p | .range => none | .denied => none)

/-- LDT (R197). DESIGN CHOICE: all 64 bits of an index in an S register are compared with 63; an index above 63, an immediate too, is a
check of order 9 of R66, made where a lane is active, before POLICY_INVALID (log 94). -/
def execLdt (x : Args) (s : State) : Out :=
  run (.ldt x) s fun c x =>
    if !c.any then .next (s.advance c)
    else
      let i := c.uni .w64 x.b
      if 64 ≤ i then trapOut s c { trap := .illegalOperand }
      else withPol s c (polRaw s c x) [0, 1] fun pol => ordered s c false false fun _ =>
        match checkLanes s c (loadLanes c x.d) (fun l => ldtPlaces s c.ex (c.src .w64 x.a l) i) with
        | .error o => o
        | .ok got =>
          let ps := got.filterMap fun g => g.2.map fun p => (g.1, p)
          let one (id : Nat) (s' : State) (p : Nat × Nat × Nat × List (Option Place)) : State :=
            s'.addReq { reqBase s c id pol with
              pend := some id, lane := p.1, op := .ldt p.2.2.1 p.2.2.2, va := BitVec.ofNat 64 (c.src .w64 x.a p.1), win := p.2.1, n := 4 }
              .homeL2Access
          sendForm s c x .w32 (fun s' id => ps.foldl (one id) s') (ps.map (·.1))

/-- The dies of a context's map on which the slot holds it, in preparation too (R391). -/
def State.holders (s : State) (d c : Nat) : List Nat :=
  (s.dmap d c).filter fun k => [CtxSt.preparing, .loaded, .saving, .saved].contains (s.ctx k c).st

/-- The context's one bias table (R196) with entry `i` set: every copy of it. -/
def State.putBias (s : State) (d c i : Nat) (v : W64) : State :=
  let set (s : State) (k : Nat) : State := s.modCtx k c fun y => { y with bias := SMap.putD y.bias i v 0 }
  set (((s.holders d c).filter (· != d)).foldl set s) d

/-- A bias table with the entries another copy has and it has not. -/
def mergeBias (a b : SMap W64) : SMap W64 :=
  b.foldl (fun m e => if (SMap.look m e.1).isSome then m else SMap.put m e.1 e.2) a

/-- The copies of a context's bias table made one, where a die was still free when another's entries were written (R196, log 41). -/
def State.shareBias (s : State) (d c : Nat) : State :=
  let ks := (s.holders d c).filter (· != d)
  let t := ks.foldl (fun t k => mergeBias t (s.ctx k c).bias) (s.ctx d c).bias
  (d :: ks).foldl (fun s k => s.modCtx k c fun y => { y with bias := t }) s

/-- BTSET (R196): the table's copies on other dies are written over the rings (R19, R217). -/
def execBtset (x : Args) (s : State) : Out :=
  run (.btset x) s fun c x =>
    if !c.any then .next (s.advance c)
    else
      let i := c.uni .w64 x.a % 64
      let v := BitVec.ofNat 64 (c.uni .w64 x.b)
      let (d, k) := s.site c.ex
      let far := (s.holders d (s.ctxOf c.ex)).filter (· != d)
      slotGate s c [.loaded, .preparing, .saved] fun _ =>
        if s.rings.held && !far.isEmpty then waitOut s
        else .next ((far.foldl (fun s h => s.crossCore d k h) (s.advance c)).putBias d (s.ctxOf c.ex) i v)

/-! Full/empty words (R198, R199). -/

/-- The lowest lane whose word another lane names too; the list is in ascending lane order. -/
def dupLane : List (Nat × SpLoc) → Option Nat
  | [] => none
  | (l, p) :: ps => if ps.any fun q => q.2 == p then some l else dupLane ps

/-- The words of the participants, once every check of R185 and R199 passed; `w` for STFE. -/
def feWords (s : State) (c : Cx) (x : Args) (ls : List Nat) (w : Bool) (k : List (Nat × SpLoc) → Out) : Out :=
  match checkLanes s c ls (fun l => s.spPlace c.ex false (c.src .w32 x.a l) 4) with
  | .error o => o
  | .ok got =>
    let ps := got.filterMap fun g => g.2.map fun p => (g.1, p)
    match dupLane ps with
    | some l => trapOut s c { trap := .feDuplicate, lane := l }
    | none =>
      match checkLanes s c ls (fun l => s.spAccess c.ex false (c.src .w32 x.a l) 4 w) with
      | .error o => o
      | .ok _ => if ps.any (fun p => s.spBusy w 4 p.2) || !s.pointReady c false 4 (ps.map (·.2)) then waitOut s else k ps

def Panel.isFull (p : Panel) (off : Nat) : Bool := p.full.contains (off / 4)

/-- LDFE (R198): an acquire at panel scope. DESIGN CHOICE: with an S destination one lane takes part, the lowest active one that is no helper,
as in any load with one (R54, R189), so several lanes that name one word are no FE_DUPLICATE there (log 103). -/
def execLdfe (x : Args) (s : State) : Out :=
  run (.ldfe x) s fun c x =>
    match c.ex.panel.bind fun h => (s.panel? h).map fun p => (h, p) with
    | none => .refused .noExecutor
    | some (h, p) =>
      if c.parts.isEmpty then .next (s.advance c)
      else ordered s c false true fun _ =>
        feWords s c x (accessLanes x.d c.parts) false fun ps =>
          if !ps.all (fun q => p.isFull q.2.off) then waitAs s c .form
          else
            let v (l : Nat) : Nat :=
              match ps.find? (fun q => q.1 == l) with
              | some q => s.spVal q.2 4
              | none => if (sregOf x.d).isSome then (match ps with | q :: _ => s.spVal q.2 4 | [] => 0) else 0
            let s1 := (s.advance c).modPanel h fun p =>
              { p with full := p.full.filter (fun k => !ps.any fun q => q.2.off / 4 == k) }
            .next (s1.writeVec c .w32 x.d v)

/-- STFE (R198): a release at panel scope. -/
def execStfe (x : Args) (s : State) : Out :=
  run (.stfe x) s fun c x =>
    match c.ex.panel.bind fun h => (s.panel? h).map fun p => (h, p) with
    | none => .refused .noExecutor
    | some (h, p) =>
      if c.parts.isEmpty then .next (s.advance c)
      else ordered s c true false fun _ =>
        feWords s c x c.parts true fun ps =>
          if ps.any (fun q => p.isFull q.2.off) then waitAs s c .form
          else
            let s1 := ps.foldl (fun s q => s.spPut q.2 4 (c.src .w32 x.b q.1)) (s.advance c)
            .next (s1.modPanel h fun p => { p with full := ps.foldl (fun f q => (q.2.off / 4) :: f) p.full })

/-! Prefetch and queries (R200 to R202). -/

/-- A valid translation of an address without an access: cached or walked (R202); its physical address and page bits. A management
core's physical addresses stand for themselves. -/
def State.peek (s : State) (e : Ex) (va : Nat) : Option (Nat × Nat × Tlb) :=
  match e with
  | .mgt _ =>
    if va < 2 ^ 48 then
      some (va, 16, { ctx := 0, va := va / 2 ^ 16 * 2 ^ 16, bits := 16, pa := va / 2 ^ 16 * 2 ^ 16, r := true, w := true, x := true })
    else none
  | _ =>
    if 2 ^ 57 ≤ va then none
    else
      match s.tlbFind e va with
      | some t => some (t.addr va, t.bits, t)
      | none =>
        match s.walk (s.site e).1 (s.ctxOf e) (va / 2 ^ 16) with
        | .inr t => some (t.addr va, t.bits, t)
        | .inl _ => none

/-- A form that asks for a translation without an access walks for it (R200, R202, R203). -/
def State.peekWalks (s : State) (e : Ex) (va : Nat) : Bool :=
  match e with
  | .mgt _ => false
  | _ => decide (va < 2 ^ 57) && (s.tlbFind e va).isNone

/-- That walk must wait: an entry it reads cannot be reached now (R19, R437). -/
def State.peekHeld (s : State) (e : Ex) (va : Nat) : Bool :=
  s.peekWalks e va && s.walkHeld (s.site e).1 (s.ctxOf e) (va / 2 ^ 16)

/-- What that walk does beside (R217, R421). -/
def State.peekSoft (s : State) (e : Ex) (va : Nat) : State :=
  if s.peekWalks e va then s.walkSoft (s.site e).1 (s.ctxOf e) (va / 2 ^ 16) else s

/-- A form waits until every walk it asks for can be made, and goes on with what the walks do beside. -/
def peeking (s : State) (e : Ex) (vas : List Nat) (k : State → Out) : Out :=
  if vas.any (s.peekHeld e) then waitOut s else k (vas.foldl (fun s va => s.peekSoft e va) s)

/-- The line of an address brought into its home L2, and its sectors without an error into L1 with BYPASS 0 (R200); a line that
cannot be reached now is left. -/
def State.prefetch (s : State) (e : Ex) (byp : Nat) (va : Nat) : State :=
  match s.peek e va with
  | none => s
  | some (pa, _, t) =>
    if !t.r then s
    else
      match s.resolve e pa with
      | .range => s
      | .denied => s
      | .at' p =>
        let (d, k) := s.site e
        if s.placeHeld d 256 true { p with byte := p.byte / 256 * 256 } || s.unreachable p.pkg then s
        else
          let s1 := (s.l2Fill p true).crossCore d k (s.dieKey p)
          let sector (s' : State) (i : Nat) : State :=
            s'.l1Fill d k (State.gKey k (s.ctxOf e) (pa / 256 * 256 + 64 * i)) { p with byte := p.byte / 256 * 256 + 64 * i }
          if byp = 0 then (List.range 4).foldl sector s1 else s1

/-- PREF (R200). -/
def execPref (x : Args) (s : State) : Out :=
  run (.pref x) s fun c x =>
    if !c.any then .next (s.advance c)
    else withPol s c (polRaw s c x) [0] fun pol => ordered s c false false fun _ =>
      let vas := (lanesOf c.act).map (c.src .w64 x.a)
      peeking s c.ex vas fun s => .next (vas.foldl (fun s va => s.prefetch c.ex pol.bypass va) (s.advance c))

/-- The lanes of a form whose value each lane knows at issue. -/
def knownLanes (c : Cx) (x : Args) : List Nat := if (sregOf x.d).isSome then [c.low] else lanesOf (c.act &&& ~~~ c.dead)

/-- Values known at issue sent to their lanes, long-latency all the same (R48). -/
def sendVals (s : State) (c : Cx) (x : Args) (w : Wd) (f : Nat → Nat) : Out :=
  sendForm s c x w (fun s' id => (knownLanes c x).foldl (fun s' l => s'.sendKnown c id l (f l)) s') (knownLanes c x)

/-- The report of a Spool bank's refresh (R201). -/
def sprqVal (time off : Nat) : Nat :=
  let t := time % 64000
  let b := Word.bits off 12 8
  let st := 2000 * b
  if st ≤ t ∧ t < st + 2000 then (st + 2000 - t) * 2 ^ 16 + 2 ^ 7 + b
  else (st + 64000 - t) % 64000 * 2 ^ 16 + b

/-- SPRQ (R201). -/
def execSprq (x : Args) (s : State) : Out :=
  run (.sprq x) s fun c x =>
    if !c.any then .next (s.advance c) else sendVals s c x .w32 fun l => sprqVal s.time.toNat (c.src .w32 x.a l)

/-- The ring position of a stop (R15). -/
def ringPos (socket : Nat) : Nat :=
  if socket = 16 then 0 else if socket = 17 then 9 else if socket < 8 then socket + 1 else socket + 2

/-- Hop distance between two stops (R16, R17). -/
def State.hops (s : State) (a b : Nat) : Nat :=
  let x := ringPos a
  let y := ringPos b
  match s.rings.chain with
  | none =>
    let d := max x y - min x y
    min d (18 - d)
  | some ch =>
    let i := (ch.findIdx? (· == x)).getD 0
    let j := (ch.findIdx? (· == y)).getD 0
    max i j - min i j

/-- HOME of an address that another package denies (R27, R202): the linear window names the die; in the other it is known where the
package has a die map for the slot, and a free value where it has none (log 39). -/
def State.deniedHome (s : State) (c pa : Nat) : Nat :=
  if !Word.bit pa 41 then Word.bits pa 40 37
  else
    match (SMap.look s.domain (Word.bits pa 47 42)).bind fun slots => SMap.look slots c with
    | some socks => if socks.isEmpty then Config.pick s.free % 16 else (homeOf pa socks.length).1
    | none => Config.pick s.free % 16

/-- The description of an address (R202). -/
def State.pgqVal (s : State) (e : Ex) (va : Nat) : Nat :=
  match s.peek e va with
  | none => 0
  | some (pa, bits, _) =>
    let base := 2 ^ 7 + (if bits = 16 then 0 else if bits = 21 then 1 else 2) * 2 ^ 5 + (if Word.bit pa 41 then 2 ^ 4 else 0)
    match s.resolve e pa with
    | .range => base + 2 ^ 16
    | .denied => base + 0xFF * 2 ^ 8 + s.deniedHome (s.ctxOf e) pa
    | .at' p => base + (if p.pkg = s.pkg then s.hops (s.site e).1 p.socket else 0xFF) * 2 ^ 8 + p.vd

/-- PGQ (R202). -/
def execPgq (x : Args) (s : State) : Out :=
  run (.pgq x) s fun c x =>
    if !c.any then .next (s.advance c)
    else
      peeking s c.ex ((knownLanes c x).map (c.src .w64 x.a)) fun s1 =>
        sendVals { s1 with free := s1.free + 1 } c x .w32 fun l => s.pgqVal c.ex (c.src .w64 x.a l)

/-! CINV, CFLUSH (R203). -/

/-- The parts of a virtual range in its 64 KiB pages: the first byte and the end of each. -/
def rangePages (a n : Nat) : List (Nat × Nat) :=
  if n = 0 then []
  else
    (List.range ((a + n - 1) / 2 ^ 16 - a / 2 ^ 16 + 1)).map fun i =>
      let page := (a / 2 ^ 16 + i) * 2 ^ 16
      (max a page, min (a + n) (page + 2 ^ 16))

/-- The physical intervals of a virtual range, one for each of its pages that is mapped. -/
def State.pieces (s : State) (e : Ex) (a n : Nat) : List (Nat × Nat) :=
  (rangePages a n).filterMap fun p => (s.peek e p.1).map fun t => (t.1, t.1 + (p.2 - p.1))

/-- CINV (R203). -/
def execCinv (x : Args) (s : State) : Out :=
  run (.cinv x) s fun c x =>
    if !c.any then .next (s.advance c)
    else
      let a := c.uni .w64 x.a
      let n := c.uni .w64 x.b
      let (d, k) := s.site c.ex
      let ctx := s.ctxOf c.ex
      let ps := s.pieces c.ex a n
      let hit (key : Nat) : Bool := ps.any fun p =>
        key / 2 ^ 50 == (if k = 0x7F then 0 else ctx) && p.1 / 64 ≤ key % 2 ^ 50 && key % 2 ^ 50 * 64 < p.2
      peeking s c.ex ((rangePages a n).map (·.1)) fun s =>
        .next ((s.advance c).modL1 d k fun m => if n = 0 then [] else m.filter fun e => !hit e.1)

/-- CFLUSH (R203): a line whose home cannot be reached now, or whose dirty bytes need a channel held for training, is waited for (R19,
R437). -/
def execCflush (x : Args) (s : State) : Out :=
  run (.cflush x) s fun c x =>
    if !c.any then .next (s.advance c)
    else
      let ps := s.pieces c.ex (c.uni .w64 x.a) (c.uni .w64 x.b)
      let lines := ps.flatMap fun p =>
        (List.range ((p.2 - 1) / 256 - p.1 / 256 + 1)).filterMap fun i =>
          match s.resolve c.ex ((p.1 / 256 + i) * 256) with
          | .at' q => some q
          | .range => none
          | .denied => none
      let (d, k) := s.site c.ex
      let held (q : Place) : Bool :=
        s.placeHeld d 1 false q || (s.chanHeld q && (match s.l2Line q with | some y => y.dirty != 0 | none => false))
      if lines.any held then waitOut s
      else
        peeking s c.ex ((rangePages (c.uni .w64 x.a) (c.uni .w64 x.b)).map (·.1)) fun s =>
          .next (lines.foldl (fun s q => (s.evict (s.dieKey q) (q.byte / 256)).crossCore d k (s.dieKey q)) (s.advance c))

end Sys2Proof.Machine
end

