-- ==== Sys2Proof/Machine/Panel.lean ====
section
/-! DEFINITION. Life of strands and panels: barriers (R256, R257), the end of lanes and strands (R95, R96, R112, R113), copies and
their members (R244, R245), and the Gather Former's records (R114 to R117). -/

namespace Sys2Proof.Machine

/-- The strand slots whose strand has not ended (R381, selector 10). -/
def Panel.live (p : Panel) : List Nat := (p.strands.filter fun t => !t.2.isOver).map (·.1)

/-! Tiles (R260). -/

/-- n consecutive values of a map from key k on, where no key of the map is below k. -/
def denseFrom : Nat → Nat → SMap W32 → List W32
  | 0, _, _ => []
  | n + 1, _, [] => 0 :: denseFrom n 0 []
  | n + 1, k, (k', v) :: m => if k' = k then v :: denseFrom n (k + 1) m else 0 :: denseFrom n (k + 1) ((k', v) :: m)

/-- The 4,096 elements of a tile, row by row. -/
def Panel.tile (p : Panel) (t : Nat) : List W32 :=
  denseFrom 4096 (t * 4096) (p.tiles.filter fun e => t * 4096 ≤ e.1)

/-- A tile replaced. -/
def Panel.setTile (p : Panel) (t : Nat) (vs : List W32) : Panel :=
  let mine := (vs.mapIdx fun i v => (t * 4096 + i, v)).filter fun e => e.2 != 0
  { p with tiles := (p.tiles.filter fun e => e.1 < t * 4096) ++ mine ++ (p.tiles.filter fun e => (t + 1) * 4096 ≤ e.1) }

namespace State

/-- Errors of the tile store in a tile that an operation reads (R260): a soft one is corrected and counted (R421); an uncorrectable
one is counted too, since it is reported with code DATA_ERROR, the group's elements become NaN, and
MATRIX_FAULT is recorded for the panel's strands and for a bobbin that issued it; where the issuer has ended it goes to the fault log
and into the panel's status (R275). -/
def scrubTile (s : State) (h t step : Nat) (who : Ex) (id : Nat) (pc : W64) : State :=
  match s.panel? h with
  | none => s
  | some p =>
    let bad := p.tileBad.filter fun g => g / 512 == t
    let soft := p.tileSoft.filter fun g => g / 512 == t
    let s0 := if soft.isEmpty then s
      else soft.foldl (fun s _ => s.bumpDev p.die 4) (s.setPanel h { p with tileSoft := p.tileSoft.filter fun g => g / 512 != t })
    if bad.isEmpty then s0
    else
      let vs := (p.tile t).mapIdx fun i v => if bad.contains ((t * 4096 + i) / 8) then (0x7FC00000 : W32) else v
      let s1 := (bad.foldl (fun s _ => s.bumpUe p.die) s0).modPanel h fun q => { q.setTile t vs with tileBad := p.tileBad.filter fun g => g / 512 != t }
      let f : TrapInfo := { trap := .matrixFault, d0 := BitVec.ofNat 64 t, d1 := BitVec.ofNat 64 (0x2C * 2 ^ 32 + step) }
      let s2 := p.live.foldl (fun s i => s.recordAsync (.str h i) f) s1
      if !s2.alive who id then
        (s2.logFault p.die (s2.flogOf who Trap.matrixFault.code 0 pc (s2.openWord 0))).setStatus who 3
      else if who.isBob then s2.recordAsync who f
      else s2

end State

/-- A barrier that reaches its target resolves (R257): its generation rises and its count restarts. `n` participants are live. -/
def Barrier.resolve (n : Nat) (b : Barrier) : Barrier :=
  if 0 < b.arrived && (if b.target = 0 then n ≤ b.arrived else b.target ≤ b.arrived) then
    { arrived := 0, gen := b.gen + 1, target := 0 }
  else b

/-- One arrival (R257): the first of a generation fixes the target. -/
def Barrier.arrive (n : Nat) (b : Barrier) : Barrier :=
  { b with arrived := b.arrived + 1, target := if b.arrived = 0 then n else b.target }

namespace State

/-- The live strands of a swatch (R257). -/
def swatchLive (s : State) (w : Nat) : Nat :=
  match SMap.look s.swatches w with
  | none => 0
  | some x => x.panels.foldl (fun n h => n + (match s.panel? h with | some p => p.live.length | none => 0)) 0

/-- Every barrier of the panel and of its swatch resolved where it can be. -/
def resolveBars (s : State) (h : Nat) : State :=
  match s.panel? h with
  | none => s
  | some p =>
    let s1 := s.modPanel h fun p => { p with bars := p.bars.map fun b => (b.1, b.2.resolve p.live.length) }
    match p.swatch with
    | none => s1
    | some w =>
      let n := s1.swatchLive w
      match SMap.look s1.swatches w with
      | none => s1
      | some x => { s1 with swatches := SMap.put s1.swatches w { x with bars := x.bars.map fun b => (b.1, b.2.resolve n) } }

/-- A copy starts once no member is missing (R245). -/
def startCopy (s : State) (id : Nat) : State :=
  match SMap.look s.copies id with
  | none => s
  | some c =>
    if c.missing.isEmpty && !c.started then
      ({ s with copies := SMap.put s.copies id { c with started := true } }).post (.copyComplete c.panel id)
    else s

/-- The next position of a sequence (R324). -/
def seqOf (s : State) (ctx socket group tag : Nat) (posts : Bool) : Nat :=
  match s.collSeqs.find? fun q => q.ctx == ctx && q.socket == socket && q.group == group && q.tag == tag && q.posts == posts with
  | some q => q.next
  | none => 0

/-- The sequence one further. -/
def bumpSeq (s : State) (ctx socket group tag : Nat) (posts : Bool) : State :=
  let n := s.seqOf ctx socket group tag posts
  let rest := s.collSeqs.filter fun q =>
    !(q.ctx == ctx && q.socket == socket && q.group == group && q.tag == tag && q.posts == posts)
  { s with collSeqs := rest ++ [{ ctx := ctx, socket := socket, group := group, tag := tag, posts := posts, next := n + 1 }] }

/-- A collective starts at its member (R324, R328): it takes its place in the sequence, and reads a tile source (R267). -/
def beginColl (s0 : State) (id : Nat) (c : Coll) : State :=
  let group := (c.d.getD 4 0).toNat
  let tag := (c.d.getD 7 0).toNat
  let by' := c.slices.headD (.mgt 16, 0)
  let s := match c.panel, c.tile with | some h, some t => s0.scrubTile h t 0 by'.1 id by'.2 | _, _ => s0
  let src : Option (List (List (Option Nat))) :=
    match c.panel, c.tile with
    | some h, some t => some [(match s.panel? h with | some p => p.tile t | none => []).map fun (v : W32) => some v.toNat]
    | _, _ => none
  let n := s.seqOf c.ctx c.socket group tag false
  let y : Coll := { c with
    started := true, seq := n, src := src, posted := decide (n < s.seqOf c.ctx c.socket group tag true) }
  (({ s with colls := SMap.put s.colls id y }).bumpSeq c.ctx c.socket group tag false).post (.collComplete id)

/-- A collective of a panel starts once no member strand is missing. -/
def startColl (s : State) (id : Nat) : State :=
  match SMap.look s.colls id with
  | none => s
  | some c => if c.missing.isEmpty && !c.started then s.beginColl id c else s

/-- A member that ended before arriving is removed from the panel's copies and collectives (R244, R326). -/
def dropMember (s : State) (h i : Nat) : State :=
  let s1 := s.copies.foldl (fun s c =>
    if c.2.panel == h && !c.2.bobSeq && c.2.missing.contains i then
      ({ s with copies := SMap.put s.copies c.1 { c.2 with missing := c.2.missing.filter (· != i) } }).startCopy c.1
    else s) s
  s1.colls.foldl (fun s c =>
    if c.2.panel == some h && !c.2.bobSeq && c.2.missing.contains i then
      ({ s with colls := SMap.put s.colls c.1 { c.2 with missing := c.2.missing.filter (· != i) } }).startColl c.1
    else s) s1

/-- Room came free on a panel's die: its distributor looks again (R363). -/
def freed (s : State) (h : Nat) : State :=
  match s.panel? h with
  | some p => s.post (.panelPlacement p.die)
  | none => s

/-- The end of a strand that has no lanes left (R95, R113): its slot and its registers are free (R363). -/
def endStrand (s : State) (h i : Nat) : State :=
  match s.strand? h i with
  | none => s
  | some t =>
    if t.a.isNone && t.b.isNone && t.join == .none && !t.isOver then
      (((((s.modStrand h i fun t => { t with isOver := true }).resolveBars h).dropMember h i).post (.gatherFlush h)).post
        (.panelComplete h)).freed h
    else s

end State

/-- The mask of the lanes that end when the non-helper lanes of `m` do: a helper lane ends with the last non-helper lane of its
quad (R57). -/
def endMask (helper ended m : Mask) : Mask :=
  let dead := ended ||| (m &&& ~~~ helper)
  let quadOver (l : Nat) : Bool :=
    ((List.range 4).map (· + l / 4 * 4)).all fun k => helper.getLsbD k || dead.getLsbD k
  (m &&& ~~~ helper) ||| maskOf ((lanesOf helper).filter fun l => !ended.getLsbD l && quadOver l)

/-- A mask with every helper lane of the strand on its leader's side (R57). -/
def rehome (helper ended m : Mask) : Mask :=
  let leader (l : Nat) : Option Nat :=
    ((List.range 4).map (· + l / 4 * 4)).find? fun k => !helper.getLsbD k && !ended.getLsbD k
  (m &&& ~~~ helper) ||| maskOf ((lanesOf (helper &&& ~~~ ended)).filter fun l =>
    match leader l with
    | some k => m.getLsbD k
    | none => false)

/-- A slot with its mask changed; empty when no lane is left (R96). -/
def PcSlot.remask (f : Mask → Mask) (x : Option PcSlot) : Option PcSlot :=
  match x with
  | none => none
  | some y => if f y.mask = 0 then none else some { y with mask := f y.mask }

/-- A record of emptied slots with a slot that a change of masks empties. -/
def Emptied.remask (e : Emptied) (f : Mask → Mask) (x : Option PcSlot) : Emptied :=
  if (PcSlot.remask f x).isNone then e.add x else e

/-- Lanes ended (R96, R112): they leave their slots, helper lanes follow their leaders, and the strand settles. -/
def endLanes (t : Strand) (m : Mask) : Strand :=
  let e := endMask t.helper t.ended m
  let f (x : Mask) : Mask := rehome t.helper (t.ended ||| e) (x &&& ~~~ e)
  settle { t with
    ended := t.ended ||| e
    a := PcSlot.remask f t.a
    b := PcSlot.remask f t.b
    emptied := if t.join == .none then t.emptied else (t.emptied.remask f t.a).remask f t.b
    frames := t.frames.map fun x => { x with sib := PcSlot.remask f x.sib, emptied := x.emptied.remask f x.sib } }

/-- The first k queue entries, then zeros (R49). -/
def liveQueue (k : Nat) (q : List W32) : List W32 := q.take k ++ List.replicate (16 - k) 0

/-- The registers below k (R49). -/
def liveV (k : Nat) (v : SMap W32) : SMap W32 := v.filter fun r => r.1 < k

/-- A lane's respawn record (R114) under the target header. -/
def spawnRec (tgt : W64) (hdr : W64) (n : Lane) : SpawnRec :=
  { tgt := tgt, v := liveV (Hdr.livev hdr) n.v, q := liveQueue (Hdr.liveq hdr) n.q, o := n.o, p := n.p }

/-- A group of 32 records of one target formed as soon as it fills (R116). -/
def formFull (p : Panel) (tgt : W64) : Panel :=
  let same := p.spawn.filter fun r => r.tgt == tgt
  if 32 ≤ same.length then
    { p with spawn := p.spawn.filter (fun r => r.tgt != tgt) ++ same.drop 32, groups := p.groups ++ [same.take 32] }
  else p

/-- Records added one by one. -/
def addRecords (p : Panel) (rs : List SpawnRec) : Panel :=
  rs.foldl (fun p r => formFull { p with spawn := p.spawn ++ [r] } r.tgt) p

end Sys2Proof.Machine
end

