-- ==== Sys2Proof/Machine/Control.lean ====
section
/-! DEFINITION. The control class (R91 to R126): one meaning per form. -/

namespace Sys2Proof.Machine

/-- NOP (R102). -/
def execNop (x : Args) (s : State) : Out := run (.nop x) s fun c _ => .next (s.advance c)

/-- BRA (R103). -/
def execBra (x : Args) (s : State) : Out :=
  run (.bra x) s fun c x => branch s c c.act (immTarget c x.a) .branch c.nxt id id

/-- BRC (R104). -/
def execBrc (x : Args) (s : State) : Out :=
  run (.brc x) s fun c x => branch s c (condLanes c x.b) (immTarget c x.a) .branch c.nxt id id

/-- The first lane of a list whose target fails, with its trap or missing page (R105). -/
def firstBad (s : State) (e : Ex) (tgt : Nat → Nat) : List Nat → Option (Res Unit)
  | [] => none
  | l :: ls =>
    match s.checkTarget e .branch (tgt l) with
    | .ok _ => firstBad s e tgt ls
    | .trap t => some (.trap { t with lane := l })
    | .miss p => some (.miss p)
    | .held => some .held

/-- BRX (R105): the lanes of the least target go there; the others issue the BRX again. -/
def execBrx (x : Args) (s : State) : Out :=
  run (.brx x) s fun c x =>
    let t (l : Nat) : Nat := c.src .w64 x.a l
    match c.parts with
    | [] => .next (s.advance c)
    | l0 :: ls =>
      match firstBad s c.ex t (l0 :: ls) with
      | some (.trap f) => trapOut s c f
      | some (.miss p) => missOut s c p
      | some .held => waitOut s
      | some (.ok _) => .next (s.advance c)
      | none =>
        let lo := ls.foldl (fun m l => min m (t l)) (t l0)
        let tk := maskOf ((l0 :: ls).filter fun l => t l == lo)
        let more := (l0 :: ls).any fun l => t l != lo
        let cont : Pos := if more then { pc := c.pc, kind := .inside c.blk c.hdr } else c.nxt
        branch s c tk lo .branch cont id id

/-- BRSP (R114, R118): the lanes whose condition holds are stored as respawn records and end. -/
def execBrsp (x : Args) (s : State) : Out :=
  run (.brsp x) s fun c x =>
    match c.ex with
    | .str h i =>
      let tk := condLanes c x.b &&& ~~~ c.helper
      if tk = 0 then .next (s.advance c)
      else
        let tgt := immTarget c x.a
        andThen s c (s.checkTarget c.ex .brsp tgt) fun hdr =>
          match s.panel? h with
          | none => .refused .noExecutor
          | some p =>
            if !s.released c.ex then waitOut s
            else if 2048 < p.records + (lanesOf tk).length then waitAs (s.post (.gatherFlush h)) c (.brsp (lanesOf tk).length)
            -- DEDUCED: records that the save area has no room for wait as every save does (R392; log 30)
            else if !s.roomFor c.ex 2 (lanesOf tk).length then waitOut s
            else
              let rs := (lanesOf tk).map fun l => spawnRec (BitVec.ofNat 64 tgt) hdr (c.lane l)
              let s1 := (s.advance c).modStrand h i fun t => endLanes t tk
              let s2 := (s1.modPanel h fun p => addRecords p rs).endStrand h i
              .next ((s2.post (.gatheredStrandStart h)).post (.gatherFlush h))
    | .bob _ => .refused .noExecutor
    | .mgt _ => .refused .noExecutor

/-- The return stack of the issuing slot. -/
def stackOf (s : State) (c : Cx) : List W64 :=
  match c.ex with
  | .str h i => ((s.strand? h i).bind fun t => State.slotOf t c.slotB).elim [] (·.stack)
  | .bob h => (s.panel? h).elim [] (·.bob.stack)
  | .mgt m => (s.mgt m).stack

/-- The fall-through header of the issuing block (R39). -/
def fallThrough (c : Cx) : Nat := (c.blk.toNat + 4 * Hdr.len c.hdr + 7) / 8 * 8

/-- CALL (R108): with a link destination the return address goes to the link and the queue, else onto the return stack. -/
def execCall (x : Args) (s : State) : Out :=
  run (.call x) s fun c x =>
    let ret := BitVec.ofNat 64 (fallThrough c)
    if c.parts.isEmpty then .next (s.advance c)
    else
      match x.d with
      | .q _ =>
        if 64 ≤ (stackOf s c).length then trapOut s c { trap := .callOverflow }
        -- a spill that finds the save area full waits (R392)
        else if c.ex.panel.isSome && !s.roomFor c.ex 1 (if 8 ≤ (stackOf s c).length then 1 else 0) then waitOut s
        else branch s c c.act (immTarget c x.a) .call c.nxt (fun st => ret :: st) id
      | d => branch s c c.act (immTarget c x.a) .call c.nxt id fun s => s.writeVec c .w64 d fun _ => ret.toNat

/-- RET (R109). -/
def execRet (x : Args) (s : State) : Out :=
  run (.ret x) s fun c _ =>
    if c.parts.isEmpty then .next (s.advance c)
    else
      match stackOf s c with
      | [] => trapOut s c { trap := .retUnderflow }
      | tgt :: _ => branch s c c.act tgt.toNat .branch c.nxt (·.drop 1) id

/-- RETR (R110): helper lanes' links take no part (R57). -/
def execRetr (x : Args) (s : State) : Out :=
  run (.retr x) s fun c x =>
    match c.parts with
    | [] => .next (s.advance c)
    | l0 :: ls =>
      let t (l : Nat) : Nat := c.src .w64 x.a l
      match ls.find? (fun l => t l != t l0) with
      | some l => trapOut s c { trap := .nonuniformReturn, lane := l }
      | none => branch s c c.act (t l0) .branch c.nxt id id

/-- JOIN (R111). -/
def execJoin (x : Args) (s : State) : Out :=
  run (.join x) s fun c _ =>
    match c.ex with
    | .str h i =>
      if c.parts.isEmpty then .next (s.advance c)
      else if c.mask &&& ~~~ c.helper &&& ~~~ c.act != 0 then trapOut s c { trap := .nonuniformJoin }
      else
        match ((s.strand? h i).elim Join.none (fun t => t.join)) with
        | .addr a =>
          .next ((s.issued c).modStrand h i fun t =>
            settle (State.setSlot t c.slotB ((State.slotOf t c.slotB).map fun y =>
              { y with pos := { pc := a, kind := .entered }, waiting := true })))
        | _ => .next (s.advance c)
    | .bob _ => .refused .noExecutor
    | .mgt _ => .refused .noExecutor

/-- EXIT (R112): the active lanes end; on a bobbin the context ends and closes its walk. -/
def execExit (x : Args) (s : State) : Out :=
  run (.exit x) s fun c _ =>
    match c.ex with
    | .str h i => .next (((s.advance c).modStrand h i fun t => endLanes t c.act).endStrand h i)
    | .bob h => .next (((s.advance c).modBob h fun b => { b with isOver := true, walk := none }).post (.panelComplete h))
    | .mgt _ => .refused .noExecutor

/-- LOOP (R106). -/
def execLoop (x : Args) (s : State) : Out :=
  run (.loop x) s fun c x =>
    match x.d with
    | .s n =>
      if c.parts.isEmpty then .next (s.advance c)
      else
        let v := (c.s n.toNat + 2 ^ 64 - 1) % 2 ^ 64
        branch s c (if v = 0 then 0 else c.act) (immTarget c x.a) .branch c.nxt id fun s => s.setS c.ex n.toNat v
    | _ => .refused .noExecutor

/-- WALK (R122, R123). DESIGN CHOICE: R123 gives no order between WALK_DESC and WALK_STATE, which may both hold; they are taken in the
order of its table (log 84). -/
def execWalk (x : Args) (s : State) : Out :=
  run (.walk x) s fun c x =>
    match c.ex with
    | .bob h =>
      let a := c.uni .w64 x.a
      if a % 8 ≠ 0 then trapOut s c { trap := .misaligned, d0 := BitVec.ofNat 64 a }
      else withWords s c a 4 fun ws =>
          -- word 1 holds EXTX and EXTY, word 2 EXTZ
          let w (i : Nat) : Nat := (ws.getD (1 + i / 2) 0).toNat / 2 ^ (32 * (i % 2)) % 2 ^ 32
          if 2 ^ 20 ≤ w 0 || 2 ^ 20 ≤ w 1 || 2 ^ 20 ≤ w 2 then trapOut s c { trap := .walkDesc }
          else if ((s.panel? h).bind (·.bob.walk)).isSome then trapOut s c { trap := .walkState }
          else
            let wk : Walk := { x := w 0, y := w 1, z := w 2, done := [] }
            .next ((s.advance c).modBob h fun b => { b with walk := some wk })
    | .str _ _ => .refused .noExecutor
    | .mgt _ => .refused .noExecutor

/-- The j-th number absent from a rising list. -/
def nthAbsent : List Nat → Nat → Nat
  | [], j => j
  | d :: ds, j => if d ≤ j then nthAbsent ds (j + 1) else j

/-- A number inserted into a rising list. -/
def insertSorted (k : Nat) : List Nat → List Nat
  | [] => [k]
  | d :: ds => if k < d then k :: d :: ds else if k = d then d :: ds else d :: insertSorted k ds

/-- WNEXT (R124, R125): which index comes next is a free value (log 5). -/
def execWnext (x : Args) (s : State) : Out :=
  run (.wnext x) s fun c x =>
    match c.ex, x.d with
    | .bob h, .s n =>
      (match (s.panel? h).bind (·.bob.walk) with
      | none => trapOut s c { trap := .walkState }
      | some w =>
        let total := w.x * w.y * w.z
        if total ≤ w.done.length then
          branch s c c.act (immTarget c x.a) .branch c.nxt id fun s => s.modBob h fun b => { b with walk := none }
        else
          let k := nthAbsent w.done (Config.walkPick s.free % (total - w.done.length))
          let v := k % w.x + 2 ^ 20 * (k / w.x % w.y) + 2 ^ 40 * (k / (w.x * w.y))
          let s1 := (s.advance c).modBob h fun b => { b with walk := some { w with done := insertSorted k w.done } }
          .next { s1.setS c.ex n.toNat v with free := s.free + 1 })
    | _, _ => .refused .noExecutor

/-- A decision pushed to one strand of the mask that has not ended (R120). -/
def pushDecision (m : Mask) (bits : Nat) (t : Nat × Strand) : Nat × Strand :=
  if m.getLsbD t.1 && t.1 < 32 && !t.2.isOver then (t.1, { t.2 with dq := t.2.dq ++ [Word.bit bits t.1] }) else t

/-- DQPUSH (R120). -/
def execDqpush (x : Args) (s : State) : Out :=
  run (.dqpush x) s fun c x =>
    match c.ex with
    | .bob h =>
      (match s.panel? h with
      | none => .refused .noExecutor
      | some p =>
        let m := BitVec.ofNat 32 (c.uni .w64 x.a)
        let bits := c.uni .w64 x.b
        if (lanesOf m).any (fun i => (SMap.look p.strands i).isNone) then trapOut s c { trap := .dqTarget }
        else if p.strands.any (fun t => m.getLsbD t.1 && !t.2.isOver && 32 ≤ t.2.dq.length) then waitOut s
        else
          .next ((s.advance c).modPanel h fun (p : Panel) => { p with strands := p.strands.map (pushDecision m bits) })
      )
    | .str _ _ => .refused .noExecutor
    | .mgt _ => .refused .noExecutor

/-- DQBR (R121). -/
def execDqbr (x : Args) (s : State) : Out :=
  run (.dqbr x) s fun c x =>
    match c.ex with
    | .str h i =>
      if c.parts.isEmpty then .next (s.advance c)
      else
        (match (s.strand? h i).map (·.dq) with
        | none => .refused .noExecutor
        | some [] =>
          if ((s.panel? h).map (·.bob.isOver)).getD true then trapOut s c { trap := .dqUnderflow } else waitOut s
        | some (d :: _) =>
          branch s c (if d then c.act else 0) (immTarget c x.a) .branch c.nxt id fun s =>
            s.modStrand h i fun t => { t with dq := t.dq.drop 1 })
    | .bob _ => .refused .noExecutor
    | .mgt _ => .refused .noExecutor

end Sys2Proof.Machine
end

