-- ==== Sys2Proof/Machine/Crypto.lean ====
section
/-! DEFINITION. SHA-256, HMAC-SHA-256 and ECDSA over P-256, as FIPS 180-4, FIPS 198-1 and FIPS 186-5 define them, which R428, R430 and
R431 name. -/

namespace Sys2Proof.Machine

/-! SHA-256. -/

def shaK : List W32 :=
  [0x428a2f98, 0x71374491, 0xb5c0fbcf, 0xe9b5dba5, 0x3956c25b, 0x59f111f1, 0x923f82a4, 0xab1c5ed5] ++
  [0xd807aa98, 0x12835b01, 0x243185be, 0x550c7dc3, 0x72be5d74, 0x80deb1fe, 0x9bdc06a7, 0xc19bf174] ++
  [0xe49b69c1, 0xefbe4786, 0x0fc19dc6, 0x240ca1cc, 0x2de92c6f, 0x4a7484aa, 0x5cb0a9dc, 0x76f988da] ++
  [0x983e5152, 0xa831c66d, 0xb00327c8, 0xbf597fc7, 0xc6e00bf3, 0xd5a79147, 0x06ca6351, 0x14292967] ++
  [0x27b70a85, 0x2e1b2138, 0x4d2c6dfc, 0x53380d13, 0x650a7354, 0x766a0abb, 0x81c2c92e, 0x92722c85] ++
  [0xa2bfe8a1, 0xa81a664b, 0xc24b8b70, 0xc76c51a3, 0xd192e819, 0xd6990624, 0xf40e3585, 0x106aa070] ++
  [0x19a4c116, 0x1e376c08, 0x2748774c, 0x34b0bcb5, 0x391c0cb3, 0x4ed8aa4a, 0x5b9cca4f, 0x682e6ff3] ++
  [0x748f82ee, 0x78a5636f, 0x84c87814, 0x8cc70208, 0x90befffa, 0xa4506ceb, 0xbef9a3f7, 0xc67178f2]

def shaInit : List W32 := [0x6a09e667, 0xbb67ae85, 0x3c6ef372, 0xa54ff53a, 0x510e527f, 0x9b05688c, 0x1f83d9ab, 0x5be0cd19]

/-- n more words of a message schedule whose newest word stands first. -/
def shaExpand : Nat → List W32 → List W32
  | 0, ws => ws
  | n + 1, ws =>
    let x := ws.getD 1 0
    let y := ws.getD 14 0
    let s1 := x.rotateRight 17 ^^^ x.rotateRight 19 ^^^ (x >>> 10)
    let s0 := y.rotateRight 7 ^^^ y.rotateRight 18 ^^^ (y >>> 3)
    shaExpand n ((s1 + ws.getD 6 0 + s0 + ws.getD 15 0) :: ws)

/-- One round on the eight working variables. -/
def shaRound (v : List W32) (kw : W32 × W32) : List W32 :=
  match v with
  | [a, b, c, d, e, f, g, h] =>
    let s1 := e.rotateRight 6 ^^^ e.rotateRight 11 ^^^ e.rotateRight 25
    let ch := (e &&& f) ^^^ (~~~ e &&& g)
    let t1 := h + s1 + ch + kw.1 + kw.2
    let s0 := a.rotateRight 2 ^^^ a.rotateRight 13 ^^^ a.rotateRight 22
    let maj := (a &&& b) ^^^ (a &&& c) ^^^ (b &&& c)
    [t1 + s0 + maj, a, b, c, d + t1, e, f, g]
  | _ => v

def shaBlock (h : List W32) (ws : List W32) : List W32 :=
  let sched := (shaExpand 48 ws.reverse).reverse
  (h.zip ((shaK.zip sched).foldl shaRound h)).map fun x => x.1 + x.2

/-- A big-endian number. -/
def beNat (bs : List Byte) : Nat := bs.foldl (fun n b => n * 256 + b.toNat) 0

/-- The n-byte big-endian form of a number. -/
def beBytes (n v : Nat) : List Byte := ((List.range n).map fun i => BitVec.ofNat 8 (v / 256 ^ i)).reverse

/-- The n-byte little-endian form of a number. -/
def leBytes (n v : Nat) : List Byte := (List.range n).map fun i => BitVec.ofNat 8 (v / 256 ^ i)

/-- SHA-256 of a byte string, as eight words. -/
def sha256 (bs : List Byte) : List W32 :=
  let n := bs.length
  let pad := (119 - n % 64) % 64
  let all := bs ++ [0x80] ++ List.replicate pad 0 ++ beBytes 8 (8 * n)
  (List.range (all.length / 64)).foldl (fun h i =>
    let blk := (all.drop (64 * i)).take 64
    shaBlock h ((List.range 16).map fun j => BitVec.ofNat 32 (beNat ((blk.drop (4 * j)).take 4)))) shaInit

def shaBytes (bs : List Byte) : List Byte := (sha256 bs).flatMap fun w => beBytes 4 w.toNat

/-- HMAC-SHA-256 of a message under a key of at most 64 bytes. -/
def hmac (key msg : List Byte) : List Byte :=
  let pad (x : Byte) : List Byte := (key ++ List.replicate (64 - key.length) 0).map (· ^^^ x)
  shaBytes (pad 0x5C ++ shaBytes (pad 0x36 ++ msg))

/-! P-256. -/

namespace P256

def p : Nat := 0xffffffff00000001000000000000000000000000ffffffffffffffffffffffff
def n : Nat := 0xffffffff00000000ffffffffffffffffbce6faada7179e84f3b9cac2fc632551
def b : Nat := 0x5ac635d8aa3a93e7b3ebbd55769886bc651d06b0cc53b0f63bce3c3e27d2604b
def gx : Nat := 0x6b17d1f2e12c4247f8bce6e563a440f277037d812deb33a0f4a13945d898c296
def gy : Nat := 0x4fe342e2fe1a7f9b8ee7eb4a7c0f9e162bce33576b315ececbb6406837bf51f5

/-- b^e mod m by the low k bits of e. -/
def pow (m : Nat) : Nat → Nat → Nat → Nat
  | 0, _, _ => 1
  | k + 1, b, e => (if e % 2 = 1 then b else 1) * pow m k (b * b % m) (e / 2) % m

/-- The inverse modulo a prime. -/
def inv (m x : Nat) : Nat := pow m 256 (x % m) (m - 2)

/-- A point; none at infinity. -/
abbrev Pt := Option (Nat × Nat)

def add (x y : Pt) : Pt :=
  match x, y with
  | none, q => q
  | q, none => q
  | some (x1, y1), some (x2, y2) =>
    if x1 = x2 ∧ (y1 + y2) % p = 0 then none
    else
      let l := if x1 = x2 then (3 * x1 * x1 + p - 3) * inv p (2 * y1) % p else (y2 + p - y1) * inv p (x2 + p - x1) % p
      let x3 := (l * l + 2 * p - x1 - x2) % p
      some (x3, (l * (x1 + p - x3) + p - y1) % p)

/-- k · q by the low i bits of k. -/
def mul : Nat → Nat → Pt → Pt
  | 0, _, _ => none
  | i + 1, k, q => add (if k % 2 = 1 then q else none) (mul i (k / 2) (add q q))

def onCurve (x y : Nat) : Bool := decide (x < p) && decide (y < p) && y * y % p == (x * x * x + (p - 3) * x + b) % p

/-- Whether (r, s) signs the digest e under the key (x, y). -/
def verify (x y r s e : Nat) : Bool :=
  onCurve x y && decide (0 < r ∧ r < n ∧ 0 < s ∧ s < n) &&
  (let w := inv n s
   match add (mul 256 (e * w % n) (some (gx, gy))) (mul 256 (r * w % n) (some (x, y))) with
   | some (x1, _) => x1 % n == r
   | none => false)

/-- The public key of a scalar. -/
def publicKey (d : Nat) : Pt := mul 256 d (some (gx, gy))

/-- The signature of the digest e under the scalar d with the nonce k; none where k gives r = 0 or s = 0. -/
def signWith (d e k : Nat) : Option (Nat × Nat) :=
  match mul 256 k (some (gx, gy)) with
  | none => none
  | some (x, _) =>
    let r := x % n
    let s := inv n k * (e + r * d) % n
    if r = 0 ∨ s = 0 then none else some (r, s)

/-- The signature with the first nonce of four that gives one. -/
def sign (d e : Nat) (k : Nat → Nat) : Nat × Nat :=
  ((List.range 4).findSome? fun i => signWith d e (k i % (n - 1) + 1)).getD (0, 0)

end P256

/-- The alias private scalar (R430): the HMAC of the device secret over the message, which a counter byte follows, from 1 on, as long as
the scalar is 0 or at least the group order. -/
def aliasScalar (secret msg : List Byte) : Nat :=
  ((List.range 256).findSome? fun i =>
    let v := beNat (hmac secret (if i = 0 then msg else msg ++ [BitVec.ofNat 8 i]))
    if v = 0 ∨ P256.n ≤ v then none else some v).getD 0

end Sys2Proof.Machine
end

