-- ==== Sys2Proof/Machine/Ordering.lean ====
section
/-! DEFINITION. The ordering class (R204 to R229): FENCE, DRAIN, WFENCE, SCTS. -/

namespace Sys2Proof.Machine

/-! Scopes (R207, R213). The device meets happens-before by two mechanisms alone (R214): a release waits for the acknowledgement of
earlier writes, whatever its scope, and an acquire at swatch scope or wider empties its core's L1
(log 78). -/

/-- The panels of a panel's swatch; the panel alone where it is in no swatch. -/
def State.swatchOf (s : State) (h : Nat) : List Nat :=
  match (s.panel? h).bind (·.swatch) with
  | some w => (SMap.lookD s.swatches w { panels := [] }).panels
  | none => [h]

/-- A memory agent (R204, R221): an executor, an engine of a die of the module (copy, matrix, seam; 16 and 17 the I/O dies'), the host
attachment, or an agent of another package. -/
inductive Agent where
  | ex (e : Ex)
  | engine (die unit : Nat)
  | host
  | far (pkg id : Nat)
deriving DecidableEq, Repr

/-- The panel an agent belongs to. -/
def Agent.panel : Agent → Option Nat
  | .ex e => e.panel
  | .engine _ _ => none
  | .host => none
  | .far _ _ => none

/-- The die of the module an agent stands on. -/
def State.dieOfAgent (s : State) : Agent → Option Nat
  | .ex e => some (s.site e).1
  | .engine d _ => some d
  | .host => none
  | .far _ _ => none

/-- The package of an agent; the host attachment is within system scope alone. -/
def State.pkgOfAgent (s : State) : Agent → Option Nat
  | .ex _ => some s.pkg
  | .engine _ _ => some s.pkg
  | .host => none
  | .far p _ => some p

/-- Agent y lies within a scope of agent x (R207): codes 0 strand, 1 panel, 2 swatch, 3 die, 4 package, 5 system. The agents of an I/O die
are within package scope, those of other packages and the host attachment within system scope. -/
def State.inScope (s : State) (scope : Nat) (x y : Agent) : Bool :=
  match scope with
  | 0 => x == y
  | 1 => x == y || (match x.panel, y.panel with | some h, some k => h == k | _, _ => false)
  | 2 => x == y || (match x.panel, y.panel with | some h, some k => (s.swatchOf h).contains k | _, _ => false)
  | 3 => x == y || (match s.dieOfAgent x, s.dieOfAgent y with | some d, some k => d == k && decide (d < 16) | _, _ => false)
  | 4 => x == y || (match s.pkgOfAgent x, s.pkgOfAgent y with | some p, some q => p == q | _, _ => false)
  | _ => true

/-- R213's scope test: the acquirer lies within the release's scope of the releaser, and the releaser within the acquire's of it. -/
def State.scopesMeet (s : State) (rel : Nat) (x : Agent) (acq : Nat) (y : Agent) : Bool := s.inScope rel x y && s.inScope acq y x

/-- Every earlier load and atomic of the issuing slot's lineage has returned its data (R225). -/
def State.returned (s : State) (c : Cx) : Bool := (s.reqsIn c).all fun r => r.2.pend.isNone || r.2.op == .value

/-- Every earlier global write of the issuing slot's lineage is acknowledged (R227), a KV event's among them; an ordered contribution not
yet applied is not. -/
def State.acked (s : State) (c : Cx) : Bool :=
  ((s.reqsIn c).all fun r => !r.2.writes || r.2.back) && s.kvs.all fun k => k.2.ex != c.ex || !k.2.po.before (s.po c)

/-- Every access is complete, from either slot, every RED applied, every update of a knot and every KV event made (R226). -/
def State.drained (s : State) (e : Ex) : Bool := ((s.reqsOf e).all fun r => r.2.op == .value) && s.othersDone e fun _ => true

/-- A policy FENCE accepts (R225). -/
def fencePolOk (v : Nat) : Bool :=
  v / 2 ^ 6 % 4 == 0 && v / 2 ^ 8 == 0 && v / 8 % 8 ≤ 5 && [2, 3, 4, 5].contains (v % 8)

/-- FENCE (R225): while a contribution of the strand is refused, one of any order waits (R194). -/
def execFence (x : Args) (s : State) : Out :=
  run (.fence x) s fun c x =>
    if !c.any then .next (s.advance c)
    else
      let v := polRaw s c x
      let p := polOf v
      if !fencePolOk v then trapOut s c { trap := .policyInvalid, d0 := BitVec.ofNat 64 v }
      else if !s.accepted c.ex then waitOut s
      else if p.rel && !s.releasedIn c then waitOut s
      else if p.acq && !s.returned c then waitOut s
      else
        match c.thr.async with
        | some t => asyncOut s c t
        | none =>
          if p.order = 5 && !s.pointSafe c then pointWait s c true
          else
            let s1 := (s.advance c).stamped c (p.order == 5)
            .next (if p.acq && 2 ≤ p.scope then s1.dropL1 c.ex else s1)

/-- DRAIN (R226). -/
def execDrain (x : Args) (s : State) : Out :=
  run (.drain x) s fun c _ =>
    if !c.any then .next (s.advance c)
    else if !s.drained c.ex then waitOut s
    else
      match c.thr.async with
      | some t => asyncOut s c t
      | none => .next (s.advance c)

/-- WFENCE (R227): the global sectors of the L1 go. -/
def execWfence (x : Args) (s : State) : Out :=
  run (.wfence x) s fun c _ =>
    if !c.any then .next (s.advance c)
    else if !s.acked c then waitOut s
    else
      let (d, k) := s.site c.ex
      .next ((s.advance c).modL1 d k fun m => m.filter fun e => 2 ^ 60 ≤ e.1)

/-- SCTS (R228): the stamp of the latest SC operation of the slot's lineage, once every one of the lineage is performed. -/
def execScts (x : Args) (s : State) : Out :=
  run (.scts x) s fun c x =>
    if !c.any then .next (s.advance c)
    else if (s.reqsIn c).any (fun r => r.2.stamp.isSome && r.2.unperformed) then waitOut s
    else .next ((s.advance c).writeVec c .w64 x.d fun _ => (s.lastStamp c).toNat)

end Sys2Proof.Machine
end

