-- ==== Sys2Proof/Machine/Knot.lean ====
section
/-! DEFINITION. Knots (R250 to R255), barriers (R256, R257) and the scoreboard forms (R258, R259). -/

namespace Sys2Proof.Machine

/-! Knots. -/

namespace State

/-- The place of a knot (R251). -/
def knotPlace (s : State) (e : Ex) (k : Nat) : Res SpLoc :=
  let k := k % 2 ^ 32
  let fix (r : Res SpLoc) : Res SpLoc :=
    match r with
    | .trap t => .trap { t with d0 := BitVec.ofNat 64 k }
    | .ok p => .ok p
    | .miss p => .miss p
    | .held => .held
  if Word.bit k 31 then fix (s.spPlace e true (k % 2 ^ 31) 16) else fix (s.spPlace e false k 16)

def knotW0 (s : State) (h off : Nat) : Nat := match s.panel? h with | some p => p.spRead off 8 | none => 0
def knotW1 (s : State) (h off : Nat) : Nat := match s.panel? h with | some p => p.spRead (off + 8) 8 | none => 0

/-- The phase bit of a knot. -/
def knotPhase (s : State) (h off : Nat) : Nat := s.knotW1 h off % 2

/-- KNOT_MISUSE recorded for those an update belongs to (R253). -/
def misuse (s : State) (id : Nat) (u : KnotUpd) (reason : Nat) : State :=
  u.who.foldl (fun s e =>
    if s.alive e (u.op.getD id) then
      s.recordAsync e { trap := .knotMisuse, d0 := BitVec.ofNat 64 u.addr, d1 := BitVec.ofNat 64 (reason * 2 ^ 32) }
    else s) s

/-- DROP and DROPS (R248). -/
def knotDrops (s : State) (h off n : Nat) : State :=
  if n = 0 then s
  else
    s.modPanel h fun p =>
      let w := p.spRead (off + 8) 8
      let d := min 31 (w / 8 % 32 + n)
      p.spWrite (off + 8) 8 (w - w / 8 % 32 * 8 - (if Word.bit w 1 then 2 else 0) + d * 8 + 2)

/-- One update, in one event (R253); with it the drops of its copy (R248), unless it is refused. -/
def knotApply (s : State) (id : Nat) (u : KnotUpd) : State :=
  let w0 := s.knotW0 u.panel u.off
  let w1 := s.knotW1 u.panel u.off
  let unit := Word.bit w1 2
  let arr := Word.bits w0 31 16
  let ini := Word.bits w0 15 0
  let tx := Word.toSigned 32 (w0 / 2 ^ 32)
  let dtx : Int := match u.credit with | some n => if unit then -1 else -(n : Int) | none => u.dtx
  if arr < u.darr then s.misuse id u 1
  else if u.unit.isSome && u.unit != some unit then s.misuse id u 3
  else if tx + dtx < -(2 ^ 31) ∨ 2 ^ 31 - 1 < tx + dtx then s.misuse id u 2
  else
    let arr1 := arr - u.darr
    let done := arr1 = 0 ∧ tx + dtx = 0
    let arr2 := if done then ini else arr1
    (s.modPanel u.panel fun p =>
      let p1 := p.spWrite u.off 8 (Word.ofInt 32 (tx + dtx) * 2 ^ 32 + arr2 * 2 ^ 16 + ini)
      if done then p1.spWrite (u.off + 8) 8 (if Word.bit w1 0 then w1 - 1 else w1 + 1) else p1).knotDrops
      u.panel u.off u.drops

/-- An update sent to its knot. -/
def sendKnot (s : State) (u : KnotUpd) : State :=
  { s with knots := SMap.put s.knots s.nextId u, nextId := s.nextId + 1, inflight := s.inflight ++ [.knotUpdate s.nextId] }

end State

/-- An instruction's update waits: an earlier one of its lineage to the same knot is on its way (R212), or what a merge ordered before it is
under way (R100). -/
def State.knotAfter (s : State) (id : Nat) (u : KnotUpd) : Bool :=
  match u.by' with
  | none => false
  | some e => s.mergeWaits e u.po || s.knots.any fun v =>
      v.1 < id && v.2.by' == u.by' && v.2.po.before u.po && v.2.panel == u.panel && v.2.off == u.off

/-- KNOT_UPDATE (R253): the updates of one executor to one knot are applied in its program order (R212), and a panel off its core
takes none until it resumes (R329). -/
def execKnotUpdate (id : Nat) (s : State) : Out :=
  match SMap.look s.knots id with
  | some u =>
    if ((s.panel? u.panel).map fun p => p.core.isNone && !p.done).getD false then .next (s.post (.knotUpdate id))
    else if s.knotAfter id u then .next (s.post (.knotUpdate id))
    else .next ({ s with knots := SMap.del s.knots id }.knotApply id u)
  | none => .next s

/-- The place of the knot an instruction names, checked against poisoned entries (R234, R251). -/
def withKnot (s : State) (c : Cx) (a : Opnd) (w : Bool) (k : SpLoc → Out) : Out :=
  andThen s c (s.knotPlace c.ex (c.uni .w32 a)) fun p =>
    match (if w then s.sbPoison p.key 0 0 p.byte (p.byte + 16) else s.sbPoison p.key p.byte (p.byte + 16) 0 0) with
    | some t => trapOut s c t
    | none => k p

/-- KNINIT (R252). -/
def execKninit (x : Args) (s : State) : Out :=
  run (.kninit x) s fun c x =>
    if !c.any then .next (s.advance c)
    else
      let cu := c.uni .w64 x.b
      if cu % 2 ^ 16 = 0 || 2 ^ 17 ≤ cu then trapOut s c { trap := .illegalOperand }
      else withKnot s c x.a true fun p => ordered s c false false fun _ =>
        if !s.pointReady c false 16 [p] then waitOut s
        else
        let n := cu % 2 ^ 16
        .next ((s.advance c).modPanel p.panel fun q =>
          (q.spWrite p.off 8 (n * 2 ^ 16 + n)).spWrite (p.off + 8) 8 (if Word.bit cu 16 then 4 else 0))

/-- KNARR (R254): a release at swatch scope. -/
def execKnarr (x : Args) (s : State) : Out :=
  run (.knarr x) s fun c x =>
    if !c.any then .next (s.advance c)
    else
      let n := c.uni .w64 x.b
      if n = 0 || 2 ^ 16 ≤ n then trapOut s c { trap := .illegalOperand }
      else withKnot s c x.a true fun p => ordered s c true false fun _ =>
        .next ((s.advance c).sendKnot { panel := p.panel, off := p.off, addr := c.uni .w32 x.a, darr := n, who := [c.ex], by' := some c.ex, po := s.po c })

/-- An expectation (R254). -/
def expectForm (i : Instr) (unit : Bool) (s : State) : Out :=
  run i s fun c x =>
    if !c.any then .next (s.advance c)
    else
      let n := c.uni .w64 x.b
      if n = 0 || 2 ^ 31 ≤ n then trapOut s c { trap := .illegalOperand }
      else withKnot s c x.a true fun p => ordered s c false false fun _ =>
        .next ((s.advance c).sendKnot
          { panel := p.panel, off := p.off, addr := c.uni .w32 x.a, dtx := n, unit := some unit, who := [c.ex], by' := some c.ex,
            po := s.po c })

def execKnexp (x : Args) (s : State) : Out := expectForm (.knexp x) false s
def execKnexpTile (x : Args) (s : State) : Out := expectForm (.knexpTile x) true s

/-- KNWAIT (R255): an asynchronous trap recorded for it is taken here (R239). -/
def execKnwait (x : Args) (s : State) : Out :=
  run (.knwait x) s fun c x =>
    if !c.any then .next (s.advance c)
    else
      let p := c.uni .w64 x.b
      if 2 ≤ p then trapOut s c { trap := .illegalOperand }
      else withKnot s c x.a false fun k => ordered s c false true fun _ =>
        if s.knotPhase k.panel k.off = p || !s.pointReady c false 16 [k] then waitAs s c .form
        else .next ((s.advance c).dropL1 c.ex)

/-- The status word of KNTRY (R255). -/
def kntryVal (w p : Nat) : Nat :=
  w / 8 % 32 * 16 + w / 4 % 2 * 8 + w / 2 % 2 * 4 + w % 2 * 2 + (w + p) % 2

/-- KNTRY (R255). -/
def execKntry (x : Args) (s : State) : Out :=
  run (.kntry x) s fun c x =>
    if !c.any then .next (s.advance c)
    else
      let p := c.uni .w64 x.b
      if 2 ≤ p then trapOut s c { trap := .illegalOperand }
      else withKnot s c x.a false fun k =>
        if !s.pointReady c false 16 [k] then waitOut s
        else
        let v := kntryVal (s.knotW1 k.panel k.off) p
        ordered s c false (v % 2 == 1) fun _ =>
          let s0 := if v % 2 = 1 then s.dropL1 c.ex else s
          let ls := if (sregOf x.d).isSome then [c.low] else lanesOf (c.act &&& ~~~ c.dead)
          sendForm s0 c x .w32 (fun s' id => ls.foldl (fun s' l => s'.sendKnown c id l v) s') ls

/-! Barriers. -/

/-- Barrier b of a panel, or of a swatch. -/
def State.barrier (s : State) (sb : Bool) (h w b : Nat) : Barrier :=
  if sb then SMap.lookD (SMap.lookD s.swatches w { panels := [] }).bars b {}
  else (match s.panel? h with | some p => SMap.lookD p.bars b {} | none => {})

def State.setBarrier (s : State) (sb : Bool) (h w b : Nat) (x : Barrier) : State :=
  if sb then
    let y := SMap.lookD s.swatches w { panels := [] }
    { s with swatches := SMap.put s.swatches w { y with bars := SMap.put y.bars b x } }
  else s.modPanel h fun p => { p with bars := SMap.put p.bars b x }

/-- BAR and SBAR (R257): the arrival, made once and kept while the strand waits, traps or is saved. DESIGN CHOICE: of the traps of R256 and
R257, ILLEGAL_OPERAND of the operands' values comes first, then NONUNIFORM_BARRIER, then SBAR's SW_RANGE (log 107). -/
def barForm (i : Instr) (sb : Bool) (s : State) : Out :=
  run i s fun c x =>
    match c.ex with
    | .str h n =>
      let b := c.uni .w64 x.a
      let k := c.uni .w64 x.b
      if c.parts.isEmpty then .next (s.advance c)
      else if (if sb then 4 else 16) ≤ b || (if sb then 256 else 32) < k then trapOut s c { trap := .illegalOperand }
      else
        match s.panel? h, s.strand? h n with
        | some p, some t =>
          if (State.slotOf t (!c.slotB)).isSome || c.mask &&& ~~~ c.helper &&& ~~~ c.act != 0 then
            trapOut s c { trap := .nonuniformBarrier }
          else if sb && p.swatch.isNone then trapOut s c { trap := .swRange }
          else whenClosed s c fun _ =>
            let w := p.swatch.getD 0
            let live := if sb then s.swatchLive w else p.live.length
            match c.thr.async, c.thr.arrival with
            | some f, _ => asyncOut s c f
            | none, some (sb', b', g) =>
              if sb' == sb && b' == b && (s.barrier sb h w b).gen == g then
                (if sb then waitAs s c .form else waitAs (s.post (.gatherFlush h)) c .bar)
              else
                let s1 := (s.advance c).modThr c.ex fun t => { t with arrival := none }
                .next (if sb then s1.dropL1 c.ex else s1)
            | none, none =>
              if !s.acquired c || !s.released c.ex then waitOut s
              else
                let x0 := s.barrier sb h w b
                let x1 := (x0.arrive k).resolve live
                let s1 := s.setBarrier sb h w b (if x0.arrived = 0 then ({ x0 with target := k, arrived := 1 } : Barrier).resolve live else x1)
                if (s1.barrier sb h w b).gen ≠ x0.gen then
                  let s2 := s1.advance c
                  .next (if sb then s2.dropL1 c.ex else s2)
                else
                  let s2 := s1.modThr c.ex fun t => { t with arrival := some (sb, b, x0.gen) }
                  (if sb then waitAs s2 c .form else waitAs (s2.post (.gatherFlush h)) c .bar)
        | _, _ => .refused .noExecutor
    | .bob _ => .refused .noExecutor
    | .mgt _ => .refused .noExecutor

def execBar (x : Args) (s : State) : Out := barForm (.bar x) false s
def execSbar (x : Args) (s : State) : Out := barForm (.sbar x) true s

/-! Scoreboard forms. -/

/-- The reading of RSQ (R258); a poisoned entry counts as live (R234). -/
def rsqVal (sb : SMap SbEntry) (h mode : Nat) : Nat :=
  let own := sb.filter fun x => x.2.panel == h
  let bad := own.filter fun x => x.2.poison
  let bits (xs : SMap SbEntry) : Nat := xs.foldl (fun n x => n + 2 ^ x.1) 0
  match mode with
  | 0 => sb.length + own.length * 2 ^ 8 + bad.length * 2 ^ 16
  | 1 => bits bad
  | _ => bits own

/-- RSQ (R258). -/
def execRsq (x : Args) (s : State) : Out :=
  run (.rsq x) s fun c x =>
    if !c.any then .next (s.advance c)
    else
      let m := c.uni .w64 x.a
      if 3 ≤ m then trapOut s c { trap := .illegalOperand }
      else
        let (d, k) := s.site c.ex
        let v := rsqVal (s.core (State.coreKey d k)).sb (c.ex.panel.getD 0) m
        sendForm s c x .w64 (fun s' id => s'.sendKnown c id c.low v) [c.low]

/-- RSCLR (R259). -/
def execRsclr (x : Args) (s : State) : Out :=
  run (.rsclr x) s fun c x =>
    if !c.any then .next (s.advance c)
    else
      let e := c.uni .w64 x.a
      if 64 < e then trapOut s c { trap := .illegalOperand }
      else
        let (d, k) := s.site c.ex
        let h := c.ex.panel.getD 0
        .next ((s.advance c).modCore (State.coreKey d k) fun y =>
          { y with sb := y.sb.filter fun z => !(z.2.poison && z.2.panel == h && (e == 64 || z.1 == e)) })

end Sys2Proof.Machine
end

