-- ==== Sys2Proof/Machine/Engine.lean ====
section
/-! DEFINITION. Accesses that engines make (R247, R311, R331): translation by a held entry or a walk, reads and writes at the home,
Spool reads, and join decrements on their way (R361). -/

namespace Sys2Proof.Machine

/-- The outcome of an engine's access: done with a value (of a write: 1, or 0 where it is acknowledged with STORE_ERROR), not yet
possible, or failed with a trap's name. -/
inductive EngR where
  | ok (s : State) (v : Nat)
  | wait
  | fail (s : State) (t : Trap)

/-- An access of an engine on core k of die d crossed to its home and back (R217). -/
def EngR.crossed (r : EngR) (d k : Nat) (p : Place) : EngR :=
  match r with
  | .ok s v => .ok (s.cross d k (s.dieKey p)) v
  | .wait => .wait
  | .fail s t => .fail (s.cross d k (s.dieKey p)) t

namespace State

/-- An engine's translation for context slot c on core k of die d: the package physical address and its place (R395 to R398). -/
def engPlace (s : State) (d k c va : Nat) (acc : Acc) : Except Trap (Nat × Place) :=
  let res (pa : Nat) : Except Trap (Nat × Place) :=
    match s.resolveCtx d c pa with
    | .at' p => .ok (pa, p)
    | .range => .error .physRange
    | .denied => .error .remoteDenied
  if 2 ^ 57 ≤ va || !(s.ctxReg d c 0x3E).getLsbD 0 then .error .pageFault
  else
    match ((s.core (coreKey d k)).tlb.find? (·.hits c va)).or ((s.die d).tlb.find? (·.hits c va)) with
    | some t => if t.permits acc then res (t.addr va) else .error .permission
    | none =>
      match s.walk d c (va / 2 ^ 16) with
      | .inl _ => .error .pageFault
      | .inr t => if t.permits acc then res (t.addr va) else .error .permission

/-- An engine's translation must walk, and an entry of the walk cannot be reached now (R19, R437). -/
def engWalkHeld (s : State) (d k c va : Nat) : Bool :=
  (((s.core (coreKey d k)).tlb.find? (·.hits c va)).or ((s.die d).tlb.find? (·.hits c va))).isNone && s.walkHeld d c (va / 2 ^ 16)

/-- What an engine's own walk for an address does beside (R217, R421). -/
def engSoft (s : State) (d k c va : Nat) : State :=
  if (((s.core (coreKey d k)).tlb.find? (·.hits c va)).or ((s.die d).tlb.find? (·.hits c va))).isNone then s.walkSoft d c (va / 2 ^ 16)
  else s

/-- A place an engine of die d cannot reach now (R19, R437). -/
def engBlocked (s : State) (d n : Nat) (reads : Bool) (p : Place) : Bool :=
  s.blocked { ex := .mgt 16, op := if reads then .load .b32 else .store 0, socket := d, n := n } p

/-- n bytes read at a place by an engine of die d. -/
def engGet (s : State) (d n : Nat) (keep : Bool) (p : Place) : EngR :=
  if s.unreachable p.pkg then .fail s .dataError
  else if s.engBlocked d n true p then .wait
  else
    match s.homeRead p n keep with
    | (s1, some v) => .ok s1 v
    | (s1, none) => .fail s1 .dataError

/-- n bytes written at a place by an engine of die d. -/
def engPut (s : State) (d n v : Nat) (keep : Bool) (p : Place) : EngR :=
  if s.unreachable p.pkg then .ok s 0
  else if s.engBlocked d n (!keep && (s.l2Line p).isNone) p then .wait
  else
    let (s1, ok) := s.homeWrite p n v keep
    if ok then .ok (s1.freeOrds p n) 1 else .ok s1 0

/-- A global read by an engine. -/
def engRead (s : State) (d k c va n : Nat) (keep : Bool) : EngR :=
  if s.engWalkHeld d k c va then .wait
  else
    match s.engPlace d k c va .read with
    | .error t => .fail (s.engSoft d k c va) t
    | .ok (_, p) => ((s.engSoft d k c va).engGet d n keep p).crossed d k p

/-- A global write by an engine. -/
def engWrite (s : State) (d k c va n v : Nat) (keep : Bool) : EngR :=
  if s.engWalkHeld d k c va then .wait
  else
    match s.engPlace d k c va .write with
    | .error t => .fail (s.engSoft d k c va) t
    | .ok (_, p) => ((s.engSoft d k c va).engPut d n v keep p).crossed d k p

/-- A Spool read by an engine, which waits while the bank refreshes (R31). -/
def engSpool (s : State) (d k c a n : Nat) : EngR :=
  match s.spoolIn d c a n with
  | .trap t => .fail s t.trap
  | .miss _ => .wait
  | .held => .wait
  | .ok (w, off) =>
    if s.spoolWaits d w off then .wait else .ok (s.cross d k w) (Memory.read (s.die w).spool off n)

/-- A virtual address of context slot c of die d walked afresh, with the traps of a precise access (R185, R383). -/
def ctxPlace (s : State) (d c va : Nat) (acc : Acc) : Res Place :=
  if 2 ^ 57 ≤ va then .trap (xlTrap .pageFault va 0 acc)
  else
    if s.walkHeld d c (va / 2 ^ 16) then .held
    else
    match s.walk d c (va / 2 ^ 16) with
    | .inl l => .trap (xlTrap .pageFault va l acc)
    | .inr t =>
      if !t.permits acc then .trap (xlTrap .permission va 4 acc)
      else
        match s.resolveCtx d c (t.addr va) with
        | .at' p => .ok p
        | .range => .trap { trap := .physRange, d0 := BitVec.ofNat 64 va }
        | .denied => .trap { trap := .remoteDenied, d0 := BitVec.ofNat 64 va }

/-- 64-bit words at a virtual address of a context. -/
def ctxWords (s : State) (d c va : Nat) : Nat → Res (List W64)
  | 0 => .ok []
  | n + 1 =>
    (s.ctxPlace d c va .read).bind fun p =>
      if s.engBlocked d 8 true p then .held
      else if s.groupBad p && !s.l2Has p 8 then .trap { trap := .dataError, d0 := BitVec.ofNat 64 va }
      else (s.ctxWords d c (va + 8) n).bind fun ws => .ok (BitVec.ofNat 64 (s.readAt p 8) :: ws)

/-- The place of a virtual address of a context as ctxWords reads it. -/
def ctxAt (s : State) (d c va : Nat) : Option Place :=
  match s.ctxPlace d c va .read with
  | .ok p => some p
  | .trap _ => none
  | .miss _ => none
  | .held => none

end State

/-- 64-bit words at a virtual address of a context read by a management core's form; its walks correct the soft errors they meet and
carry their clocks (R217, R395, R421). -/
def andCtx (s : State) (c : Cx) (d k va n : Nat) (f : List W64 → Out) : Out :=
  match s.ctxWords d k va n with
  | .held => waitOut s
  | r => afterNext (andRead s c (s.ctxAt d k) va (8 * n) false r f) fun t =>
      (rangePages va (8 * n)).foldl (fun t p => t.walkSoft d k (p.1 / 2 ^ 16)) t

namespace State

/-- A join decrement sent to its object (R361). -/
def sendJoin (s : State) (j : JoinDec) : State :=
  { s with joins := SMap.put s.joins s.nextId j, nextId := s.nextId + 1, inflight := s.inflight ++ [.joinDecrement s.nextId] }

/-- A context makes progress on a die (R393). -/
def progressed (s : State) (d c : Nat) : State := s.modCtx d c fun x => { x with wdLast := s.time.toNat }

/-- The same for a panel's context on its die. -/
def panelProgress (s : State) (h : Nat) : State :=
  match s.panel? h with
  | some p => s.progressed p.die p.ctx
  | none => s

/-- An engine's trap recorded for an executor, or, once that has ended, entered in its die's fault log with a completion status
for its panel (R247, R275, R359). -/
def deliverAs (s : State) (e : Ex) (id : Nat) (status : Nat) (pc : W64) (t : TrapInfo) : State :=
  if s.alive e id then s.recordAsync e t
  else
    -- a matrix fault and a BIAS_FAULT name no address
    let named := t.trap != .matrixFault && t.d1.toNat % 2 ^ 32 != Trap.biasFault.code
    let a := if named then s.faultAddr (s.site e).1 (s.ctxOf e) t.d0.toNat else s.openWord 0
    (s.logFault (s.site e).1 (s.flogOf e t.trap.code 0 pc a)).setStatus e status

/-! Grants of the matrix engine (R271, R405). -/

end State

/-- A request for the level stands on a core (R405). -/
def Grant.held (g : Grant) : Bool := g.mgtStanding || !g.standing.isEmpty

namespace State

/-- A grant that nothing keeps on a core: the 4 µs after which it is returned run from the instant the queue emptied, or from now. -/
def grantIdle (s : State) (d k : Nat) : State :=
  let q := s.core (coreKey d k)
  if !q.grant.granted || q.grant.held || !q.eng.isEmpty then s
  else
    (s.modCore (coreKey d k) fun q => { q with grant := { q.grant with emptyAt := some (q.grant.emptyAt.getD s.time.toNat) } }).post
      (.grantReturn d k)

/-- A request that awaits its grant is withdrawn once none stands (R405), but not one that an MLOOP made (R271). -/
def withdraw (s : State) (d k : Nat) : State :=
  let g := (s.core (coreKey d k)).grant
  if g.pending && !g.held && !g.loop then s.modCore (coreKey d k) fun q => { q with grant := { q.grant with pending := false } } else s

/-- The standing requests of panels that ended removed from every core (R405). -/
def dropStanding (s : State) (dead : Nat → Bool) : State :=
  (s.cores.filter fun k => k.2.grant.standing.any dead).foldl (fun s k =>
    ((s.modCore k.1 fun q => { q with grant := { q.grant with standing := q.grant.standing.filter fun h => !dead h } }).withdraw
      (k.1 / 128) (k.1 % 128)).grantIdle (k.1 / 128) (k.1 % 128)) s

/-- The engine queue of a core after entries of it left: the next one starts, or the queue is empty now (R261, R271). -/
def queueLeft (s : State) (d k : Nat) : State :=
  if (s.core (coreKey d k)).eng.isEmpty then s.grantIdle d k else s.post (.matrixEntryStart d k)

end State

/-! Several accesses that take effect together: any wait or failure leaves the state as it was. -/

/-- The die, core and context slot an engine acts for. -/
structure EngAt where
  d : Nat
  k : Nat
  c : Nat
deriving DecidableEq, Repr

/-- The outcome of several accesses: done, not yet possible, or failed at an address. -/
inductive EngS (α : Type) where
  | ok (s : State) (a : α)
  | wait
  | fail (t : Trap) (addr : Nat)

def EngS.bind {α β : Type} (r : EngS α) (f : State → α → EngS β) : EngS β :=
  match r with
  | .ok s a => f s a
  | .wait => .wait
  | .fail t a => .fail t a

/-- A read; a place out of reach is a failure at its address. -/
def State.rd (s : State) (w : EngAt) (va n : Nat) : EngS Nat :=
  match s.engRead w.d w.k w.c va n true with
  | .ok s1 v => .ok s1 v
  | .wait => .wait
  | .fail _ t => .fail t va

/-- A write; one that is not performed fails with STORE_ERROR (R180). -/
def State.wr (s : State) (w : EngAt) (va n v : Nat) : EngS Unit :=
  match s.engWrite w.d w.k w.c va n v true with
  | .ok _ 0 => .fail .storeError va
  | .ok s1 _ => .ok s1 ()
  | .wait => .wait
  | .fail _ t => .fail t va

/-- UECNT counts the DATA_ERROR or STORE_ERROR that ends accesses which take effect together (R421): nothing else of them stays. -/
def State.countEng (s : State) (w : EngAt) (t : Trap) (va : Nat) : State :=
  if t != .dataError && t != .storeError then s
  else
    match s.engPlace w.d w.k w.c va (if t == .dataError then .read else .write) with
    | .ok (_, p) => s.bumpUe (s.dieKey p)
    | .error _ => s

/-- A step for each item of a list in turn. -/
def EngS.each {β : Type} (f : State → β → EngS Unit) : List β → State → EngS Unit
  | [], s => .ok s ()
  | x :: xs, s => (f s x).bind fun s1 _ => EngS.each f xs s1

end Sys2Proof.Machine
end

