-- ==== Sys2Proof/Machine/Copy.lean ====
section
/-! DEFINITION. Copies (R240 to R249): descriptors and their checks, the issue of a slice, and the steps COPY_COMPLETE and
COPY_FAULT. -/

namespace Sys2Proof.Machine

/-! Descriptors (R240, R241). -/

/-- The sixteen words of a descriptor. -/
abbrev CDesc := List W64

namespace CDesc

def w (d : CDesc) (i : Nat) : Nat := (d.getD i 0).toNat
def mode (d : CDesc) : Nat := Word.bits (d.w 0) 2 0
def esz (d : CDesc) : Nat := Word.bits (d.w 0) 9 8
def bytes (d : CDesc) : Nat := 2 ^ d.esz
def ndim (d : CDesc) : Nat := Word.bits (d.w 0) 15 12
def transpose (d : CDesc) : Bool := Word.bit (d.w 0) 21
def biasIdx (d : CDesc) : Nat := Word.bits (d.w 0) 27 22
def comp (d : CDesc) : Nat := Word.bits (d.w 0) 31 30
def far (d : CDesc) : Nat := d.w 1
def near (d : CDesc) : Nat := d.w 2
def compl (d : CDesc) : Nat := d.w 3
def aux (d : CDesc) : Nat := d.w 14
def mask (d : CDesc) : Nat := d.aux % 256
def fs (d : CDesc) (k : Nat) : Int := Word.toSigned 28 (d.w (4 + k) / 2 ^ 36)
def ns (d : CDesc) (k : Nat) : Int := Word.toSigned 20 (Word.bits (d.w (4 + k)) 35 16)
def ext (d : CDesc) (k : Nat) : Nat := Word.bits (d.w (4 + k)) 15 0 + 1
/-- Whether the copy's lines stay in L2 (R175, BYPASS). -/
def keep (d : CDesc) : Bool := d.w 15 / 2 ^ 24 % 4 != 2
/-- The dimensions inside the outermost one. -/
def inner (d : CDesc) : List Nat := List.range (d.ndim - 1)

/-- The lowest and the end of the near bytes the whole descriptor addresses (R231). -/
def nearRange (d : CDesc) : Int × Int :=
  let span (k : Nat) : Int := d.ns k * ((d.ext k : Int) - 1)
  let lo := (List.range d.ndim).foldl (fun a k => a + min 0 (span k)) 0
  let hi := (List.range d.ndim).foldl (fun a k => a + max 0 (span k)) 0
  (d.near + d.bytes * lo, d.near + d.bytes * hi + d.bytes)

/-- The bytes a whole copy moves (R243). DESIGN CHOICE: those of a CPYM count once, whatever the number of its destinations (log 109). -/
def total (d : CDesc) : Nat := (List.range d.ndim).foldl (fun n k => n * d.ext k) d.bytes

end CDesc

/-- The first descriptor check of R243 that fails: word index and the low bit of the field (log 19). -/
def descFault (f : CpyForm) (d : CDesc) (lo cnt : Nat) : Option (Nat × Nat) :=
  let c := d.w 0
  let pol := d.w 15
  let checks : List (Bool × Nat × Nat) := [
    (3 < d.mode || (f == .cpyg && 1 < d.mode) || (f == .cpym && d.mode != 0 && d.mode != 2), 0, 0),
    (Word.bits c 7 3 != 0, 0, 3),
    (d.transpose && d.esz == 3, 0, 8),
    (Word.bits c 11 10 != 0, 0, 10),
    (d.ndim == 0 || 10 < d.ndim, 0, 12),
    (Word.bits c 20 16 != 0, 0, 16),
    (d.transpose && (f == .cpyg || f == .cpym || d.mode != 0), 0, 21),
    (Word.bits c 29 28 != 0, 0, 28),
    (d.comp == 3, 0, 30),
    (2 ^ 32 ≤ c, 0, 32),
    (d.mode == 2 && 2 ^ 32 ≤ d.far, 1, 32),
    (d.mode != 3 && 2 ^ 32 ≤ d.near, 2, 32),
    (d.comp == 2 && d.compl != 0, 3, 0),
    (d.comp == 0 && 2 ^ 32 ≤ d.compl, 3, 32),
    (d.transpose && d.fs 0 != 0, 4, 36)] ++
    ((List.range 10).map fun k => (d.ndim ≤ k && d.w (4 + k) != 0, 4 + k, 0)) ++ [
    (decide (2 ^ 31 ≤ d.total), 3 + d.ndim, 0),
    (decide (d.ext (d.ndim - 1) < lo + cnt), 3 + d.ndim, 0),
    (f == .cpy && d.aux != 0, 14, 0),
    (f == .cpym && d.mask == 0, 14, 0),
    (f == .cpym && Word.bits d.aux 31 8 != 0, 14, 8),
    (pol % 8 != 0, 15, 0),
    (Word.bits pol 5 3 != 0, 15, 3),
    (Word.bits pol 7 6 != 0, 15, 6),
    (Word.bits pol 25 24 == 3, 15, 24),
    (decide (2 ^ 26 ≤ pol), 15, 26)]
  (checks.find? (·.1)).map (·.2)

/-! Issue (R249). -/

/-- The panels a CPYM names; none where a core holds no panel of the swatch (R248). -/
def mcastDests (s : State) (p : Panel) (mask : Nat) : Option (List Nat) :=
  (List.range 8).foldl (fun acc t =>
    match acc with
    | none => none
    | some hs => if Word.bit mask t then (match s.swPeer p t with | some (h, _) => some (hs ++ [h]) | none => none) else some hs)
    (some [])

/-- What an issue fixes once its checks pass: destination panels, and the places of the COMPL knot and of a shared destination
knot. -/
structure CopyAt where
  dests : List Nat
  knot  : Option (Nat × Nat)
  aknot : Option (Nat × Nat)
deriving Repr

def resTrap {α : Type} (r : Res α) : List TrapInfo :=
  match r with
  | .trap t => [t]
  | .ok _ => []
  | .miss _ => []
  | .held => []

def resKnot (r : Res SpLoc) : Option (Nat × Nat) :=
  match r with
  | .ok p => some (p.panel, p.off)
  | .trap _ => none
  | .miss _ => none
  | .held => none

/-- The address traps of a slice, in any order (R185, R243, R251). -/
def copyAddrTraps (s : State) (e : Ex) (f : CpyForm) (d : CDesc) (dests : List Nat) : List TrapInfo :=
  let mis (ok : Bool) (a : Nat) : List TrapInfo := if ok then [] else [{ trap := .misaligned, d0 := BitVec.ofNat 64 a }]
  let (lo, hi) := d.nearRange
  let outside (h : Nat) : Bool :=
    match s.panel? h with
    | some p => lo < 0 || (p.spBytes : Int) < hi
    | none => true
  let dknot := d.aux / 2 ^ 32
  (if d.mode != 3 && dests.any outside then [({ trap := .spRange, d0 := BitVec.ofNat 64 d.near } : TrapInfo)] else []) ++
  (if d.comp = 0 then resTrap (s.knotPlace e d.compl) else []) ++
  (if f != .cpym || dknot = 2 ^ 32 - 1 then []
   else if Word.bit dknot 31 then resTrap (s.knotPlace e dknot)
   else dests.flatMap fun h => resTrap (s.knotPlace (.bob h) dknot)) ++
  mis (d.far % d.bytes == 0) d.far ++ mis (d.near % d.bytes == 0) d.near ++
  mis (f != .cpyg || d.aux % 4 == 0) d.aux ++ mis (d.comp != 1 || d.compl % 8 == 0) d.compl

/-- The intervals a copy registers in a panel, in core bytes: read, then write (R231). -/
def copyIntervals (p : Panel) (d : CDesc) : Nat × Nat × Nat × Nat :=
  let (lo, hi) := d.nearRange
  let a := p.spadBase * 4096 + lo.toNat
  let b := p.spadBase * 4096 + hi.toNat
  match d.mode with
  | 0 => (0, 0, a, b)
  | 2 => (0, 0, a, b)
  | 1 => (a, b, 0, 0)
  | _ => (0, 0, 0, 0)

def panelKey (p : Panel) : Nat := State.coreKey p.die (p.core.getD 0x7F)

/-- The place of each entry a copy registers: core key, panel, intervals; a panel that has finished takes none (R248). DESIGN CHOICE: the
entry of a CPYM on a destination's core belongs to the destination panel, whose RSQ and RSCLR see it (R231, R258; log 104). -/
def copyRegs (s : State) (d : CDesc) (dests : List Nat) : List (Nat × Nat × Nat × Nat × Nat × Nat) :=
  dests.filterMap fun h =>
    match s.panel? h with
    | some p => if p.done then none else some (panelKey p, h, copyIntervals p d)
    | none => none

/-- COPY_POISON of a slice: the first destination's poisoned entry its rounded intervals overlap (R234). -/
def copyPoison (s : State) (regs : List (Nat × Nat × Nat × Nat × Nat × Nat)) : Option TrapInfo :=
  (regs.filterMap fun r =>
    let (key, _, rlo, rhi, wlo, whi) := r
    let (a, b) := State.round32 rlo rhi
    let (x, y) := State.round32 wlo whi
    s.sbPoison key a b x y).head?

/-- A slice arrives at its copy (R244, R245); the first registers it. -/
def copyArrive (s : State) (c : Cx) (f : CpyForm) (d : CDesc) (lo cnt h : Nat) (p : Panel) (at' : CopyAt)
    (regs : List (Nat × Nat × Nat × Nat × Nat × Nat)) (old : Option (Nat × Copy)) (k : Nat) : State :=
  let bobSeq := !c.ex.isStrand
  let me : List Nat := match c.ex with | .str _ i => [i] | .bob _ => [] | .mgt _ => []
  let slice := (c.ex, c.pc, lo, cnt)
  let s1 := (s.advance c).modThr c.ex fun t => { t with copySeq := t.copySeq + 1 }
  match old with
  | some (id, x) =>
    let y : Copy := { x with missing := x.missing.filter fun i => !me.contains i, slices := x.slices ++ [slice] }
    ({ s1 with copies := SMap.put s1.copies id y }).startCopy id
  | none =>
    let id := s1.nextId
    let reg (acc : State × List (Nat × Nat × Nat)) (r : Nat × Nat × Nat × Nat × Nat × Nat) : State × List (Nat × Nat × Nat) :=
      let (key, ph, rlo, rhi, wlo, whi) := r
      let idx := (acc.1.sbFree key).getD 0
      (acc.1.sbRegister key idx id ph rlo rhi wlo whi, acc.2 ++ [(key, idx, ph)])
    let (s2, sbs) := regs.foldl reg ({ s1 with nextId := id + 1 }, [])
    let x : Copy := {
      panel := h, bobSeq := bobSeq, k := k, form := f, d := d,
      missing := if bobSeq then [] else p.live.filter (fun i => !me.contains i),
      slices := [slice], sbs := sbs, dests := at'.dests, knot := at'.knot, aknot := at'.aknot, ctx := p.ctx, socket := p.die }
    let s3 := if bobSeq then s2 else s2.modPanel h fun q => { q with copyNext := max q.copyNext (k + 1) }
    ({ s3 with copies := SMap.put s3.copies id x }).startCopy id

/-- The condition of NONUNIFORM_COPY does not hold (R239): a strand's other slot is empty and every unended lane issues. -/
def soleIssuer (s : State) (c : Cx) : Bool :=
  match c.ex with
  | .str h n =>
    (match s.strand? h n with
    | some t => (State.slotOf t (!c.slotB)).isNone && ~~~ t.ended &&& ~~~ c.mask == 0
    | none => false)
  | .bob _ => true
  | .mgt _ => true

/-- The issue of one slice (R249). DEDUCED: a strand arrives with no active lane too (R244), so the traps of its slice are the strand's own,
and are raised whichever of its lanes is active (R239; log 12). -/
def copyForm (i : Instr) (f : CpyForm) (s : State) : Out :=
  run i s fun c0 x =>
    let c := { c0 with quiet := false }
    let h := c.ex.panel.getD 0
    match s.panel? h with
    | none => .refused .noExecutor
    | some p =>
      if !soleIssuer s c then trapOut s c { trap := .nonuniformCopy }
      else
        let b := (sregOf x.c).getD 0
        let d : CDesc := (List.range 16).map fun n => BitVec.ofNat 64 (c.s (b + n))
        let lo := c.uni .w32 x.a
        let cnt := c.uni .w32 x.b
        match descFault f d lo cnt with
        | some (w, fld) => trapOut s c { trap := .copyDesc, d0 := BitVec.ofNat 64 w, d1 := BitVec.ofNat 64 (fld * 2 ^ 32) }
        | none =>
          match (if f == .cpym then mcastDests s p d.mask else some [h]) with
          | none => trapOut s c { trap := .mcastMask, d0 := BitVec.ofNat 64 d.mask }
          | some dests =>
            match pickTrap (copyAddrTraps s c.ex f d dests) with
            | some t => trapOut s c t
            | none =>
              let bobSeq := !c.ex.isStrand
              let k := c.thr.copySeq
              let old := s.copies.find? fun y => y.2.panel == h && y.2.bobSeq == bobSeq && y.2.k == k
              let regs := copyRegs s d dests
              match old.filter (fun y => y.2.form != f || y.2.d != d) with
              | some y => trapOut s c { trap := .copyMismatch, d0 := BitVec.ofNat 64 ((y.2.sbs.head?.map (·.2.1)).getD 0) }
              | none =>
                match copyPoison s regs with
                | some t => trapOut s c t
                | none =>
                  ordered s c true false fun _ =>
                    if old.isNone && regs.any (fun r => (s.sbFree r.1).isNone) then waitOut s
                    else
                      let at' : CopyAt := {
                        dests := dests
                        knot := if d.comp = 0 then resKnot (s.knotPlace c.ex d.compl) else none
                        aknot := if f == .cpym && Word.bit (d.aux / 2 ^ 32) 31 && d.aux / 2 ^ 32 != 2 ^ 32 - 1 then
                            resKnot (s.knotPlace c.ex (d.aux / 2 ^ 32)) else none }
                      .next (copyArrive s c f d lo (if c.any then cnt else 0) h p at' regs old k)

def execCpy (x : Args) (s : State) : Out := copyForm (.cpy x) .cpy s
def execCpyg (x : Args) (s : State) : Out := copyForm (.cpyg x) .cpyg s
def execCpym (x : Args) (s : State) : Out := copyForm (.cpym x) .cpym s

/-! Execution (R242, R245 to R248). -/

/-- The outcome of moving an element: the bytes written to one destination, and the address of a write acknowledged with STORE_ERROR. -/
inductive Mv where
  | go (s : State) (bytes : Nat) (lost : Option Nat)
  | wait
  | fault (s : State) (code : Nat) (addr : W64)

/-- Index vectors of dimensions, innermost first. -/
def indexVecs : List Nat → List (List Nat)
  | [] => [[]]
  | e :: es => (indexVecs es).flatMap fun v => (List.range e).map fun i => i :: v

/-- The near and far element offsets of an inner index vector, the far one without dimension 0 where it is read through the Bias
Reader. -/
def innerOff (d : CDesc) (v : List Nat) : Int × Int :=
  (v.mapIdx fun k (i : Nat) => ((k : Nat), (i : Int))).foldl (fun a ki =>
    (a.1 + ki.2 * d.ns ki.1, a.2 + ki.2 * d.fs ki.1)) (0, 0)

/-- The elements of one outer index. DESIGN CHOICE: a far address is taken mod 2⁶⁴, in mode 2 mod 2³², where the strides carry it beyond or
below (R242; log 108). -/
def outerElts (d : CDesc) (i : Nat) (idx : Nat) : List CElt :=
  let n := d.ndim - 1
  let exts := (List.range n).map d.ext
  (indexVecs exts).map fun v =>
    let (no, fo) := innerOff d v
    { near := d.near + d.bytes * (no + i * d.ns n)
      far := Word.ofInt 64 ((d.far : Int) + d.bytes * (fo + idx * d.fs n))
      i0 := if n = 0 then i else v.headD 0 }

/-- Where the copy reads and writes: its context slot, socket, core and panel, and the bias entry it read at its start (R246). -/
structure CAt where
  d : Nat
  k : Nat
  c : Nat
  h : Nat
  bias : W64 := 0
deriving Repr

/-- The far read of a transposed element (R246): dimension 0 advances by the bias entry's stride, within the page of its row's
first element. -/
def biasRead (s : State) (w : CAt) (d : CDesc) (x : CElt) : Mv ⊕ (State × Nat) :=
  let fault (off : Nat) : Mv := .fault s Trap.biasFault.code (BitVec.ofNat 64 (d.biasIdx + off % 2 ^ 32 * 2 ^ 32))
  match biasEntry w.bias.toNat with
  | none => .inl (fault 0)
  | some (sz, stride) =>
    let off := x.i0 * stride
    let bits := match ((s.core (State.coreKey w.d w.k)).tlb.find? (·.hits w.c x.far)).or ((s.die w.d).tlb.find? (·.hits w.c x.far)) with
      | some t => t.bits
      | none => match s.walk w.d w.c (x.far / 2 ^ 16) with | .inr t => t.bits | .inl _ => 16
    if sz ≠ d.bytes then .inl (fault off)
    else if s.engWalkHeld w.d w.k w.c x.far then .inl .wait
    else
      match s.engPlace w.d w.k w.c x.far .read with
      | .error t => .inl (.fault s t.code (BitVec.ofNat 64 x.far))
      | .ok _ =>
        if (x.far + off) / 2 ^ bits ≠ x.far / 2 ^ bits then .inl (fault off)
        else
          match s.engRead w.d w.k w.c (x.far + off) d.bytes false with
          | .ok s1 v => .inr (s1, v)
          | .wait => .inl .wait
          | .fail s1 t => .inl (.fault s1 t.code (BitVec.ofNat 64 (x.far + off)))

/-- The value an element moves. -/
def eltRead (s : State) (w : CAt) (d : CDesc) (x : CElt) : Mv ⊕ (State × Nat) :=
  let e := d.bytes
  let of (r : EngR) : Mv ⊕ (State × Nat) :=
    match r with
    | .ok s1 v => .inr (s1, v)
    | .wait => .inl .wait
    | .fail s1 t => .inl (.fault s1 t.code (BitVec.ofNat 64 x.far))
  match d.mode with
  | 1 => .inr (s, match s.panel? w.h with | some p => p.spRead x.near.toNat e | none => 0)
  | 2 => of (s.engSpool w.d w.k w.c (x.far % 2 ^ 32) e)
  | _ => if d.transpose then biasRead s w d x else of (s.engRead w.d w.k w.c x.far e d.keep)

/-- One element moved: an event of T (R215, R221). -/
def eltMove (s : State) (w : CAt) (d : CDesc) (dests : List Nat) (x : CElt) : Mv :=
  match eltRead s w d x with
  | .inl m => m
  | .inr (s1, v) =>
    let e := d.bytes
    let put (va : Nat) : Mv :=
      match s1.engWrite w.d w.k w.c va e v d.keep with
      | .ok s2 1 => .go s2 e none
      | .ok s2 _ => .go s2 0 (some va)
      | .wait => .wait
      | .fail s2 t => .fault s2 t.code (BitVec.ofNat 64 va)
    match d.mode with
    | 1 => put x.far
    | 3 => put (Word.ofInt 64 x.near)
    | _ => .go (dests.foldl (fun s h => s.modPanel h fun p => p.spWrite x.near.toNat e v) s1) e none

/-- The index of an outer index vector of a CPYG; otherwise the outer index itself. -/
def outerIdx (s : State) (w : CAt) (f : CpyForm) (d : CDesc) (i : Nat) : Mv ⊕ (State × Option Nat) :=
  if f == .cpyg then
    let va := (d.aux + 4 * i) % 2 ^ 64
    match s.engRead w.d w.k w.c va 4 d.keep with
    | .ok s1 v => .inr (s1, if v = 2 ^ 32 - 1 then none else some v)
    | .wait => .inl .wait
    | .fail s1 t => .inl (.fault s1 t.code (BitVec.ofNat 64 va))
  else .inr (s, some i)

/-- The outer indices of every slice (R242). -/
def Copy.outer (x : Copy) : List Nat := x.slices.flatMap fun sl => (List.range sl.2.2.2).map fun i => sl.2.2.1 + i

/-- Where a copy runs. -/
def Copy.place (s : State) (x : Copy) : CAt :=
  { d := x.socket, k := (match s.panel? x.panel with | some p => p.core.getD 0x7F | none => 0x7F), c := x.ctx, h := x.panel, bias := x.bias }

/-- The completion of a copy that moved n bytes to each live destination (R245, R248). -/
def copyDone (s : State) (id : Nat) (x : Copy) (live : List Nat) (n : Nat) : State :=
  let d : CDesc := x.d
  let who := x.slices.map (·.1)
  let s1 := x.sbs.foldl (fun s b => s.sbRetire b.1 id b.2.1) { s with copies := SMap.del s.copies id }
  let drops := x.dests.length - live.length
  let s2 :=
    match x.knot with
    | some (h, off) =>
      s1.sendKnot { panel := h, off := off, addr := d.compl, credit := some (n * x.dests.length), drops := drops, who := who, op := some id }
    | none => s1
  let dk := d.aux / 2 ^ 32
  let s3 :=
    if x.form != .cpym || dk = 2 ^ 32 - 1 then s2
    else live.foldl (fun s h =>
      let (ph, off) := x.aknot.getD (h, dk)
      s.sendKnot { panel := ph, off := off, addr := dk, credit := some n, who := who, op := some id }) s2
  let s4 := if d.comp = 1 then
      s3.sendJoin { ctx := x.ctx, socket := x.socket, addr := BitVec.ofNat 64 d.compl, panel := none } else s3
  (s4.progressed x.socket x.ctx).post (.panelComplete x.panel)

/-- COPY_COMPLETE (R245, R247): the copy runs, one element in each step, in an order that is a free value (R215, R242, log 2), and
completes or faults; it waits for older entries (R232) and for places that cannot be reached now. -/
def execCopyComplete (_h id : Nat) (s : State) : Out :=
  match SMap.look s.copies id with
  | none => .next s
  | some x =>
    let d : CDesc := x.d
    let again (s : State) : Out := .next (s.post (.copyComplete x.panel id))
    let put (s : State) (y : Copy) : Out := again { s with copies := SMap.put s.copies id y }
    let stop (s : State) (code : Nat) (a : W64) : Out :=
      .next (({ s with copies := SMap.put s.copies id { x with fault := some (code, a) } }).post (.copyFault x.panel id))
    if !x.started || x.fault.isSome then .next s
    else if x.sbs.any (fun b => s.sbOlder b.1 b.2.1) then again s
    else
      let live := x.dests.filter fun h => match s.panel? h with | some p => !p.done | none => false
      let w := x.place s
      match x.todo, x.elts with
      | none, _ => put { s with free := s.free + x.outer.length }
          { x with todo := some (shuffle s.free x.outer), bias := SMap.lookD (s.ctx x.socket x.ctx).bias d.biasIdx 0 }
      | some _, e :: es =>
        (match eltMove s w d live e with
        | .wait => again s
        | .fault s1 code a => stop s1 code a
        | .go s1 n lost =>
          let s2 := match lost with
            | some va => x.slices.foldl (fun s sl => s.deliverAs sl.1 id 1 sl.2.1 (storeErr (BitVec.ofNat 64 va))) s1
            | none => s1
          put s2 { x with elts := es, moved := x.moved + n })
      | some (i :: is), [] =>
        (match outerIdx s w x.form d i with
        | .inl .wait => again s
        | .inl (.fault s1 code a) => stop s1 code a
        | .inl (.go s1 _ _) => again s1
        | .inr (s1, none) => put s1 { x with todo := some is }
        | .inr (s1, some idx) =>
          let es := shuffle s1.free (outerElts d i idx)
          put { s1 with free := s1.free + es.length } { x with todo := some is, elts := es })
      | some [], [] =>
        if d.comp = 1 && s.engWalkHeld x.socket 0x7F x.ctx d.compl then again s
        else
          let jt : Option Trap :=
            if d.comp = 1 then
              (match s.engPlace x.socket 0x7F x.ctx d.compl .both with
              | .error .pageFault => some .pageFault
              | .error .permission => some .permission
              | _ => none)
            else none
          match jt with
          | some t => stop s t.code (BitVec.ofNat 64 d.compl)
          | none => .next (copyDone s id x live x.moved)

/-- COPY_FAULT (R247): the entries are poisoned, and COPY_FAULT is recorded for every member that arrived. DESIGN CHOICE: of a CPYM with an
entry on several cores, COPY_FAULT and COPY_MISMATCH name the first destination's index, and 0 where there is none (log 106). -/
def execCopyFault (_h id : Nat) (s : State) : Out :=
  match SMap.look s.copies id with
  | none => .next s
  | some x =>
    match x.fault with
    | none => .next s
    | some (code, a) =>
      let idx := (x.sbs.head?.map (·.2.1)).getD 0
      let t : TrapInfo := { trap := .copyFault, d0 := a, d1 := BitVec.ofNat 64 (idx * 2 ^ 32 + code) }
      let s1 := x.sbs.foldl (fun s b => s.sbPoisonIt b.1 id b.2.1) { s with copies := SMap.del s.copies id }
      .next ((x.slices.foldl (fun s sl => s.deliverAs sl.1 id 2 sl.2.1 t) s1).post (.panelComplete x.panel))

end Sys2Proof.Machine
end

