-- ==== Sys2Proof/Machine/Matrix.lean ====
section
/-! DEFINITION. The matrix engine (R260 to R289, R315): tiles and slabs, one exact K-step, the issue of the tile-writing forms and of
MSTT, the waits MWAIT and OFENCE, MSPC, and the engine's steps with its grants. -/

namespace Sys2Proof.Machine

/-! Slabs (R263 to R265). -/

def mfmt : MFmt → Fmt
  | .bf16 => Fmt.bf16 | .e4m3 => Fmt.e4m3 | .e5m2 => Fmt.e5m2 | .e2m1 => Fmt.e2m1

/-- Elements along K of one step. -/
def kElems : MFmt → Nat
  | .bf16 => 16 | .e4m3 => 32 | .e5m2 => 32 | .e2m1 => 64

/-- Element n of little-endian packed elements of a width in a number. -/
def packed (w x n : Nat) : Nat := x / 2 ^ (w * n) % 2 ^ w

/-- A value scaled by an E8M0 code (R265). -/
def scaled (x : Nat) (v : FVal) : FVal :=
  if x = 255 then .nan
  else
    match v with
    | .fin n m e => .fin n m (e + (x : Int) - 127)
    | .nan => .nan
    | .inf n => .inf n
    | .zero n => .zero n

/-- Row m of an A slab (R263, R265): its elements, lowest column first. -/
def aRow (f : MFmt) (slab scales : List W32) (m : Nat) : List FVal :=
  let w := (mfmt f).width
  let per := 32 / w
  (List.range (kElems f)).map fun j =>
    let v := FVal.decode (mfmt f) (packed w (slab.getD (16 * (m / 2) + 8 * (m % 2) + j / per) 0).toNat (j % per))
    if f == .e2m1 then scaled (packed 8 (scales.getD (m / 2) 0).toNat (2 * (m % 2) + j / 32)) v else v

/-- Column n of a B slab whose bytes stand at b, with its scales at sb (R264, R265). -/
def bCol (f : MFmt) (byte : Nat → Nat) (b sb n : Nat) : List FVal :=
  (List.range (kElems f)).map fun j =>
    match f with
    | .bf16 => FVal.decode Fmt.bf16 (byte (b + 128 * j + 2 * n) + 256 * byte (b + 128 * j + 2 * n + 1))
    | .e4m3 => FVal.decode Fmt.e4m3 (byte (b + 64 * j + n))
    | .e5m2 => FVal.decode Fmt.e5m2 (byte (b + 64 * j + n))
    | .e2m1 => scaled (byte (sb + 64 * (j / 32) + n)) (FVal.decode Fmt.e2m1 (byte (b + 32 * j + n / 2) / 16 ^ (n % 2) % 16))

/-- One element of a K-step (R266): one exact sum, rounded once. -/
def macVal (t : W32) (as bs : List FVal) : W32 :=
  BitVec.ofNat 32 (Fmt.f32.round .rne .none 0
    (FVal.sum false (FVal.decode Fmt.f32 t.toNat :: List.zipWith FVal.mul as bs))).bits

/-- MatStep (R266) on the 4,096 elements of a tile. -/
def matStep (t : List W32) (rows cols : List (List FVal)) : List W32 :=
  t.mapIdx fun i v => macVal v (rows.getD (i / 64) []) (cols.getD (i % 64) [])

/-- One slab of A as a strand's registers hold it: 512 words in order of lane and register. -/
def slabOf (t : Strand) (a : Nat) : List W32 :=
  t.lanes.flatMap fun n => (List.range 16).map fun r => n.vAt (a + r)

/-- One register of every lane. -/
def regOfAll (t : Strand) (a : Nat) : List W32 := t.lanes.map fun n => n.vAt a

/-! Issue. -/

namespace State

/-- COPY_POISON of an operation's interval (R234), which an entry rounds outward. -/
def opPoison (s : State) (p : Panel) (w : Bool) (lo hi : Nat) : Option TrapInfo :=
  let (a, b) := round32 (p.spadBase * 4096 + lo) (p.spadBase * 4096 + hi)
  if w then s.sbPoison (coreKey p.die (p.core.getD 0x7F)) 0 0 a b else s.sbPoison (coreKey p.die (p.core.getD 0x7F)) a b 0 0

end State

/-- A tile-writing operation entered in its core's queue once there is room (R233, R261). -/
def enqueue (s : State) (c : Cx) (h : Nat) (p : Panel) (tiles : List Nat) (op : EngOp) (steps : List (Nat × Int))
    (sb : Option (Nat × Nat)) (upd : State → State) : Out :=
  let key := State.coreKey p.die (p.core.getD 0x7F)
  let q := s.core key
  if 16 ≤ q.eng.length then waitOut s
  else
    let idx := s.sbFree key
    if sb.isSome && idx.isNone then waitOut s
    else
      let s1 := upd (s.advance c)
      let id := s1.nextId
      let s2 := { s1 with nextId := id + 1 }
      let s3 := match sb, idx with
        | some (lo, hi), some i => s2.sbRegister key i id h (p.spadBase * 4096 + lo) (p.spadBase * 4096 + hi) 0 0
        | _, _ => s2
      let e : EngEntry := {
        id := id, panel := h, issuer := c.ex, pc := c.pc, tiles := tiles, op := op, steps := steps,
        sb := if sb.isSome then idx else none }
      .next ((s3.modCore key fun k => { k with eng := k.eng ++ [e], grant := { k.grant with emptyAt := none } }).post
        (.matrixEntryStart p.die (p.core.getD 0x7F)))

/-- A matrix form of a panel with a lane active (R262); `idle` is what happens with none. -/
def matrixForm (i : Instr) (s : State) (k : Cx → Args → Nat → Panel → Out) (idle : Cx → Args → State := fun c _ => s.advance c) : Out :=
  run i s fun c x =>
    let h := c.ex.panel.getD 0
    match s.panel? h with
    | none => .refused .noExecutor
    | some p => if c.any then k c x h p else .next (idle c x)

/-- The fields of an MLOOP's control and scale words (R276, R277). -/
structure MCtl where
  binc   : Int
  ksteps : Nat
  ainc   : Nat
  astr   : Nat
  aself  : Bool
  sparse : Bool
  baddr  : Nat
  sbinc  : Int
  asreg  : Nat
  asinc  : Nat
  sbaddr : Nat
  zero   : Bool       -- every zero field is zero
deriving Repr

def mctl (f : MFmt) (w z : Nat) : MCtl :=
  let e := f == .e2m1
  let z := if e then z else 0
  { binc := Word.toSigned 16 (Word.bits w 63 48), ksteps := Word.bits w 47 32, ainc := Word.bits w 31 26, astr := Word.bits w 25 21,
    aself := Word.bit w 20, sparse := Word.bit w 19, baddr := Word.bits w 18 0, sbinc := Word.toSigned 16 (Word.bits z 63 48),
    asreg := Word.bits z 41 32, asinc := Word.bits z 31 31, sbaddr := Word.bits z 18 0,
    zero := Word.bits z 47 42 == 0 && Word.bits z 30 19 == 0 && (!Word.bit w 19 || Word.bits w 18 16 == 0) }

/-- The lowest and the end of the bytes of n blocks of a size, a signed advance apart (R269). -/
def blockRange (base : Nat) (inc : Int) (n size : Nat) : Int × Int :=
  let b : Int := base
  let far : Int := b + 32 * inc * ((n : Int) - 1)
  (min b far, max b far + size)

/-- The read interval of an MLOOP (R269), which may leave the allocation. -/
def mloopRange (f : MFmt) (m : MCtl) (sp : Option Sparse) : Int × Int :=
  match m.sparse, sp with
  | true, some c =>
    (min c.rowptr (min c.colidx c.vals),
      max (c.rowptr + 4 * (c.nbc + 1)) (max (c.colidx + 2 * c.nnz) (c.vals + 2048 * c.nnz)))
  | _, _ =>
    let (lo, hi) := blockRange m.baddr m.binc m.ksteps 2048
    if f == .e2m1 then
      let (l2, h2) := blockRange m.sbaddr m.sbinc m.ksteps 128
      (min lo l2, max hi h2)
    else (lo, hi)

/-- An engine that must have a grant has none (R271): one is asked for. -/
def askGrant (s : State) (p : Panel) : State :=
  let k := p.core.getD 0x7F
  let key := State.coreKey p.die k
  if (s.core key).grant.pending then s.modCore key fun q => { q with grant := { q.grant with loop := true } }
  else (s.modCore key fun q => { q with grant := { q.grant with pending := true, loop := true } }).post (.powerGrant p.die k)

/-- MLOOP (R278). -/
def execMloop (f : MFmt) (reuse : Bool) (x : Args) (s : State) : Out :=
  matrixForm (.mloop f reuse x) s fun c x h p =>
    let b := (sregOf x.b).getD 0
    let m := mctl f (c.s b) (c.s (b + 1))
    let a := match x.a with | .v i => i.toNat | _ => 0
    let n := p.crec.vregs
    let ill : Out := trapOut s c { trap := .illegalOperand }
    let src : Option Nat :=
      match c.ex, m.aself with
      | .str _ i, true => some i
      | _, true => none
      | _, false => if p.live.contains m.astr then some m.astr else none
    match src.bind fun i => (s.strand? h i).map fun t => (i, t) with
    | none => trapOut s c { trap := .matrixSource, d0 := BitVec.ofNat 64 m.astr }
    | some (i, t) =>
      if m.ksteps = 0 || 39 < m.ainc || !m.zero || (m.sparse && (m.binc != 0 || f == .e2m1)) ||
          n ≤ a + 16 * m.ainc * (m.ksteps - 1) + 15 || (f == .e2m1 && n ≤ m.asreg + m.asinc * (m.ksteps - 1)) ||
          (reuse && m.ainc != 0 && 16 < m.ksteps) ||
          (m.sparse && (match p.sparse with | some q => decide (q.nbc ≤ m.baddr) | none => false)) then ill
      else if m.sparse && p.sparse.isNone then trapOut s c { trap := .matrixState }
      else
        let (lo, hi) := mloopRange f m p.sparse
        if !m.sparse && m.baddr % 32 ≠ 0 then trapOut s c { trap := .misaligned, d0 := BitVec.ofNat 64 m.baddr }
        else if !m.sparse && m.sbaddr % 32 ≠ 0 then trapOut s c { trap := .misaligned, d0 := BitVec.ofNat 64 m.sbaddr }
        else if lo < 0 ∨ (p.spBytes : Int) < hi then trapOut s c { trap := .spRange, d0 := BitVec.ofNat 64 m.baddr }
        else
          match s.opPoison p false lo.toNat hi.toNat with
          | some q => trapOut s c q
          | none =>
            awaitGroup s c (.mloop f reuse x) fun _ => ordered s c false false fun _ =>
            let key := State.coreKey p.die (p.core.getD 0x7F)
            if 8 ≤ m.ksteps && !(s.core key).grant.granted then waitOut (askGrant s p)
            else
              let slabs := (List.range (if m.ainc = 0 then 1 else m.ksteps)).map fun k => slabOf t (a + 16 * m.ainc * k)
              let scales := if f != .e2m1 then []
                else (List.range (if m.asinc = 0 then 1 else m.ksteps)).map fun k => regOfAll t (m.asreg + k)
              let l : Latch := {
                strand := i, a := a, ainc := m.ainc, ksteps := m.ksteps, fmt := f, asreg := m.asreg, asinc := m.asinc,
                slabs := slabs, scales := scales }
              let steps : List (Nat × Int) := if m.sparse then [] else
                (List.range m.ksteps).map fun (k : Nat) => (k, (m.baddr : Int) + 32 * m.binc * (k : Int))
              enqueue s c h p [tileOf x.c]
                (.mloop reuse l m.baddr m.binc m.sbaddr m.sbinc (if m.sparse then p.sparse else none)) steps
                (some (lo.toNat, hi.toNat)) id

/-- The tiles of a mask. -/
def maskTiles (m : Nat) : List Nat := (List.range 16).filter fun t => Word.bit m t

/-- A mask of tiles below the allocation (R281, R286). -/
def tileMaskOk (p : Panel) (m : Nat) : Bool := m < 2 ^ 16 && (maskTiles m).all fun t => t < p.crec.ntiles

/-- MZERO (R281). -/
def execMzero (x : Args) (s : State) : Out :=
  matrixForm (.mzero x) s fun c x h p =>
    let m := c.uni .w64 x.a
    if !tileMaskOk p m then trapOut s c { trap := .illegalOperand }
    else if m = 0 then .next (s.advance c)
    else enqueue s c h p (maskTiles m) .mzero ((maskTiles m).map fun t => (t, (0 : Int))) none id

/-- MLDT (R282). -/
def execMldt (x : Args) (s : State) : Out :=
  matrixForm (.mldt x) s fun c x h p =>
    let a := c.uni .w32 x.a
    let pitch := c.uni .w64 x.b
    if a % 4 ≠ 0 then trapOut s c { trap := .misaligned, d0 := BitVec.ofNat 64 a }
    else if pitch % 4 ≠ 0 || pitch < 256 || 262140 < pitch then trapOut s c { trap := .illegalOperand }
    else if p.spBytes < a + 63 * pitch + 256 then trapOut s c { trap := .spRange, d0 := BitVec.ofNat 64 a }
    else
      match s.opPoison p false a (a + 63 * pitch + 256) with
      | some q => trapOut s c q
      | none =>
        ordered s c false false fun _ =>
          enqueue s c h p [tileOf x.c] (.mldt a pitch) [(0, 0)] (some (a, a + 63 * pitch + 256)) id

/-- MADDT (R283). -/
def execMaddt (x : Args) (s : State) : Out :=
  matrixForm (.maddt x) s fun c x h p => enqueue s c h p [tileOf x.a] (.madd (tileOf x.b) x.ar) [(0, 0)] none id

/-- Gen of every lane of the issuing strand (R284). -/
def gensOf (s : State) (c : Cx) : List Nat :=
  (List.range 32).map fun l =>
    genAt (s.ctxReg (s.site c.ex).1 (s.ctxOf c.ex) 0x39).toNat (laneIdent s c.ex l) (c.lane l).sr.toNat

/-- rnd(m, n) (R284). -/
def tileRnd (gens : List Nat) (i : Nat) : Nat :=
  let m := i / 64
  let n := i % 64
  mix64 (gens.getD (n / 2) 0 ^^^ m) / 2 ^ (16 * (n % 2)) % 2 ^ 16

/-- MCVT (R283, R284): the counters of RND = SR advance even where no lane is active (R155; log 20). -/
def execMcvt (x : Args) (s : State) : Out :=
  matrixForm (.mcvt x) s (fun c x h p =>
    enqueue s c h p [tileOf x.a] (.mcvt (tileOf x.b) (fmtDst x.c) x.ar (if x.ar.rnd == .sr then gensOf s c else [])) [(0, 0)] none
      fun s => s.bumpSr c x.ar) fun c x => (s.advance c).bumpSr c x.ar

/-- The elements an MSTT writes (R285): offset, width and value. -/
def msttElems (p : Panel) (t a pitch : Nat) (bf : Bool) (ar : Arith) (gens : List Nat) : List (Nat × Nat × Nat) :=
  (p.tile t).mapIdx fun i v =>
    let m := i / 64
    let n := i % 64
    if bf then
      (a + m * pitch + 2 * n, 2,
        (Fmt.bf16.round ar.rnd ar.sat (tileRnd gens i) (FVal.decode Fmt.f32 v.toNat)).bits)
    else (a + m * pitch + 4 * n, 4, v.toNat)

/-- MSTT (R285): the elements are read at its issue, which R267 allows. -/
def execMstt (bf : Bool) (x : Args) (s : State) : Out :=
  matrixForm (.mstt bf x) s (fun c x h p =>
    let a := c.uni .w32 x.a
    let pitch := c.uni .w64 x.b
    let row := if bf then 128 else 256
    let t := tileOf x.c
    if a % 4 ≠ 0 then trapOut s c { trap := .misaligned, d0 := BitVec.ofNat 64 a }
    else if pitch % 4 ≠ 0 || pitch < row || 262140 < pitch then trapOut s c { trap := .illegalOperand }
    else if p.spBytes < a + 63 * pitch + row then trapOut s c { trap := .spRange, d0 := BitVec.ofNat 64 a }
    else
      match s.opPoison p true a (a + 63 * pitch + row) with
      | some q => trapOut s c q
      | none =>
        ordered s c false false fun _ =>
          let key := State.coreKey p.die (p.core.getD 0x7F)
          let lo := p.spadBase * 4096 + a
          let hi := lo + 63 * pitch + row
          match s.sbFree key with
          | none => waitOut s
          | some idx =>
            if s.sbBusy key 0 0 lo hi then waitOut s
            else
              let s0 := s.scrubTile h t 0 c.ex s.nextId c.pc
              let p0 := (s0.panel? h).getD p
              let els := msttElems p0 t a pitch bf x.ar (gensOf s c)
              let s1 := (s0.advance c).bumpSr c x.ar
              let id := s1.nextId
              let s2 := ({ s1 with nextId := id + 1 }).sbRegister key idx id h 0 0 lo hi
              let m : Mstt := { panel := h, issuer := c.ex, po := s.po c, tile := t, key := key, sb := idx, bytes := els }
              .next (({ s2 with mstts := SMap.put s2.mstts id m }).post (.msttComplete id))) fun c x => (s.advance c).bumpSr c x.ar

/-- MSTT_COMPLETE (R285): its writes are performed, after what a merge ordered before them (R100), and its entry retires. -/
def execMsttComplete (id : Nat) (s : State) : Out :=
  match SMap.look s.mstts id with
  | none => .next s
  | some m =>
    if s.mergeWaits m.issuer m.po then .next (s.post (.msttComplete id))
    else
    let s1 := s.modPanel m.panel fun p => m.bytes.foldl (fun p b => p.spWrite b.1 b.2.1 b.2.2) p
    .next (((({ s1 with mstts := SMap.del s1.mstts id }).sbRetire m.key id m.sb).panelProgress m.panel).post (.panelComplete m.panel))

/-- MWAIT (R286), where a recorded MATRIX_FAULT is taken once the entries have completed (R275). -/
def execMwait (x : Args) (s : State) : Out :=
  matrixForm (.mwait x) s fun c x h p =>
    let m := c.uni .w64 x.a
    if !tileMaskOk p m then trapOut s c { trap := .illegalOperand }
    else
      let tiles := if m = 0 then List.range 16 else maskTiles m
      let key := State.coreKey p.die (p.core.getD 0x7F)
      if (s.core key).eng.any (fun e => e.panel == h && e.tiles.any fun t => tiles.contains t) ||
          s.mstts.any (fun y => y.2.panel == h && tiles.contains y.2.tile) then waitOut s
      else
        match c.thr.async.filter fun t => t.trap == .matrixFault with
        | some t => asyncOut s c t
        | none => .next (s.advance c)

/-- A form still awaits a register, whatever its queue entries stand at. -/
def Pend.awaitsReg (p : Pend) : Bool :=
  p.lanes.any (fun l => l.reg.isSome && !l.bad) || (match p.sreg with | some (_, b) => !b | none => false)

/-- A register write of a strand may happen-before an OFENCE first tried when `upTo` was the next name (R268, R287). DEDUCED: it was issued
before, and every access of its form is performed, since a release of its strand lies between (log 97). -/
def State.fillBefore (s : State) (e : Ex) (upTo : Nat) (p : Pend) : Bool :=
  p.awaitsReg && decide (p.id < upTo) && (s.reqsOf e).all (fun r => r.2.pend != some p.id || !r.2.unapplied) &&
    s.kvs.all fun k => k.2.ex != e || k.2.pend != p.id

/-- The next name when the issuing slot's OFENCE was first tried. -/
def ofenceFrom (s : State) (c : Cx) : Nat :=
  match (if c.slotB then c.thr.waitB else c.thr.wait) with
  | .ofence n => n
  | .none => s.nextId
  | .form => s.nextId
  | .bar => s.nextId
  | .brsp _ => s.nextId

/-- OFENCE (R287): waits for the register writes of the panel's strands that happen-before it; no copy of them is held elsewhere. -/
def execOfence (x : Args) (s : State) : Out :=
  matrixForm (.ofence x) s fun c _ h p =>
    ordered s c false false fun _ =>
      let upTo := ofenceFrom s c
      if p.strands.any (fun t => t.2.thr.pends.any (s.fillBefore (.str h t.1) upTo)) then waitAs s c (.ofence upTo)
      else .next (s.advance c)

/-- MSPC (R288). -/
def execMspc (x : Args) (s : State) : Out :=
  matrixForm (.mspc x) s fun c x h p =>
    let d := (sregOf x.a).getD 0
    let w := c.s d
    let z := c.s (d + 1)
    let q : Sparse := {
      colidx := Word.bits w 50 32, rowptr := Word.bits w 18 0, nnz := Word.bits z 63 48, nbc := Word.bits z 47 32, vals := Word.bits z 18 0 }
    if Word.bits w 63 51 != 0 || Word.bits w 31 19 != 0 || Word.bits z 31 19 != 0 || q.nnz = 0 || 256 < q.nnz || q.nbc = 0 then
      trapOut s c { trap := .illegalOperand }
    else if q.colidx % 2 ≠ 0 then trapOut s c { trap := .misaligned, d0 := BitVec.ofNat 64 q.colidx }
    else if q.rowptr % 4 ≠ 0 then trapOut s c { trap := .misaligned, d0 := BitVec.ofNat 64 q.rowptr }
    else if q.vals % 32 ≠ 0 then trapOut s c { trap := .misaligned, d0 := BitVec.ofNat 64 q.vals }
    else if p.spBytes < q.colidx + 2 * q.nnz then trapOut s c { trap := .spRange, d0 := BitVec.ofNat 64 q.colidx }
    else if p.spBytes < q.rowptr + 4 * (q.nbc + 1) then trapOut s c { trap := .spRange, d0 := BitVec.ofNat 64 q.rowptr }
    else if p.spBytes < q.vals + 2048 * q.nnz then trapOut s c { trap := .spRange, d0 := BitVec.ofNat 64 q.vals }
    else .next ((s.advance c).modPanel h fun y => { y with sparse := some q })

/-! The engine's steps. -/

/-- SparseSteps (R289); none where the column fails its checks. -/
def sparseSteps (p : Panel) (q : Sparse) (col ksteps : Nat) : Option (List (Nat × Int)) :=
  let p0 := p.spRead (q.rowptr + 4 * col) 4
  let p1 := p.spRead (q.rowptr + 4 * (col + 1)) 4
  if p1 < p0 || q.nnz < p1 then none
  else
    let ks := (List.range (p1 - p0)).map fun i => p.spRead (q.colidx + 2 * (p0 + i)) 2
    let rising := (List.range (ks.length - 1)).all fun i => ks.getD i 0 < ks.getD (i + 1) 0
    if ks.all (· < ksteps) && rising then some (ks.mapIdx fun i k => (k, (q.vals + 2048 * (p0 + i) : Int))) else none

/-- The same A source (R280): every part of the key. DESIGN CHOICE: the source strand stands in it by its slot number (log 110). -/
def sameKey (a b : Latch) : Bool :=
  a.strand == b.strand && a.a == b.a && a.ainc == b.ainc && a.ksteps == b.ksteps && a.fmt == b.fmt && a.asreg == b.asreg &&
    a.asinc == b.asinc

/-- The head of a core's engine queue replaced. -/
def setHead (s : State) (key : Nat) (e : EngEntry) : State :=
  s.modCore key fun k => { k with eng := match k.eng with | [] => [] | _ :: es => e :: es }

/-- An entry as its first step finds it: the latch matched, loaded or released (R280), the sparse column read (R289). -/
def engPrepare (s : State) (e : EngEntry) : State × EngEntry :=
  match e.op, s.panel? e.panel with
  | .mloop reuse key baddr binc sbaddr sbinc sp, some p =>
    let key' := match p.latch with | some l => if sameKey l key then l else key | none => key
    let s1 := s.modPanel e.panel fun p => { p with latch := if reuse then some key' else none }
    let op : EngOp := .mloop reuse key' baddr binc sbaddr sbinc sp
    match sp with
    | none => (s1, { e with op := op })
    | some q =>
      match sparseSteps p q baddr key.ksteps with
      | some ks => (s1, { e with op := op, steps := ks })
      | none =>
        let f : TrapInfo := {
          trap := .matrixFault, d0 := BitVec.ofNat 64 (e.tiles.headD 0), d1 := BitVec.ofNat 64 (0x3B * 2 ^ 32) }
        (s1.deliverAs e.issuer e.id 3 e.pc f, { e with op := op, steps := [] })
  | _, _ => (s, e)

/-- MATRIX_ENTRY_START (R261, R232): the head of the queue starts once no older entry conflicts with its interval. -/
def execMatrixEntryStart (d k : Nat) (s : State) : Out :=
  let key := State.coreKey d k
  match (s.core key).eng with
  | [] => .next s
  | e :: _ =>
    if e.running then .next s
    else if (match e.sb with | some i => s.sbOlder key i | none => false) then .next (s.post (.matrixEntryStart d k))
    else
      let (s1, e1) := engPrepare s e
      .next ((setHead s1 key { e1 with running := true }).post
        (if e1.steps.isEmpty then .matrixEntryComplete d k else .matstep d k))

/-- a ÷ b (R315). -/
def divVal (a b : FVal) : FRes :=
  let n := xor a.isNeg b.isNeg
  match a, b with
  | .nan, _ => Fmt.f32.round .rne .none 0 .nan
  | _, .nan => Fmt.f32.round .rne .none 0 .nan
  | .inf _, .inf _ => Fmt.f32.round .rne .none 0 .nan
  | .zero _, .zero _ => Fmt.f32.round .rne .none 0 .nan
  | .inf _, _ => Fmt.f32.round .rne .none 0 (.inf n)
  | _, .zero _ => Fmt.f32.round .rne .none 0 (.inf n)
  | .zero _, _ => Fmt.f32.round .rne .none 0 (.zero n)
  | _, .inf _ => Fmt.f32.round .rne .none 0 (.zero n)
  | .fin _ m1 e1, .fin _ m2 e2 =>
    let sh := Nat.log2 m2 + 80
    ({ neg := n, m := m1 * 2 ^ sh / m2, e := e1 - e2 - sh, tail := m1 * 2 ^ sh % m2 != 0 } : Approx).round .rne .none

/-- The tiles that a step of an operation reads (R260): what MZERO, MLDT and MCVT write they write whole. -/
def EngEntry.reads (e : EngEntry) : List Nat :=
  match e.op with
  | .mloop _ _ _ _ _ _ _ => e.tiles
  | .mzero => []
  | .mldt _ _ => []
  | .madd src _ => e.tiles ++ [src]
  | .mcvt src _ _ _ => [src]
  | .mresc _ _ => e.tiles

/-- A tile that an operation writes whole holds no error any more (R260). -/
def cleanTile (e : EngEntry) (st : Nat × Int) (p : Panel) : Panel :=
  let t := match e.op with | .mzero => st.1 | _ => e.tiles.headD 0
  if e.reads.contains t then p else { p with
    tileBad := p.tileBad.filter fun g => g / 512 != t
    tileSoft := p.tileSoft.filter fun g => g / 512 != t }

/-- One step of an operation on its panel (R266, R281 to R284, R315). -/
def engStep (p : Panel) (e : EngEntry) (st : Nat × Int) : Panel :=
  let t := e.tiles.headD 0
  let f32 (v : W32) : FVal := FVal.decode Fmt.f32 v.toNat
  match e.op with
  | .mloop _ key _ _ sbaddr sbinc _ =>
    let pick (xs : List (List W32)) : List W32 := if xs.length ≤ 1 then xs.headD [] else xs.getD st.1 []
    let byte (a : Nat) : Nat := (Memory.byte p.spad a).toNat
    let sb := ((sbaddr : Int) + 32 * sbinc * st.1).toNat
    let rows := (List.range 64).map (aRow key.fmt (pick key.slabs) (pick key.scales))
    let cols := (List.range 64).map (bCol key.fmt byte st.2.toNat sb)
    p.setTile t (matStep (p.tile t) rows cols)
  | .mzero => p.setTile st.1 []
  | .mldt a pitch =>
    p.setTile t ((List.range 4096).map fun i => BitVec.ofNat 32 (p.spRead (a + i / 64 * pitch + 4 * (i % 64)) 4))
  | .madd src ar =>
    p.setTile t (List.zipWith (fun x y => BitVec.ofNat 32 (faddVal Fmt.f32 ar 0 (f32 x) (f32 y)).bits) (p.tile t) (p.tile src))
  | .mcvt src fmt ar gens =>
    p.setTile t ((p.tile src).mapIdx fun i v => BitVec.ofNat 32 (rndVal fmt 0 ar (tileRnd gens i) (f32 v)).bits)
  | .mresc div rows =>
    p.setTile t ((p.tile t).mapIdx fun i v =>
      match rows.find? (fun r => r.1 == i / 64) with
      | none => v
      | some r =>
        let f := FVal.decode Fmt.f32 r.2
        BitVec.ofNat 32 (if div then divVal (f32 v) f else fmulVal Fmt.f32 Arith.plain 0 (f32 v) f).bits)

/-- MATSTEP (R266, R278): one step of the head; after the last the scoreboard entry retires. -/
def execMatstep (d k : Nat) (s : State) : Out :=
  let key := State.coreKey d k
  match (s.core key).eng with
  | [] => .next s
  | e :: _ =>
    match e.running, e.steps[e.step]? with
    | true, some st =>
      let s0 := e.reads.foldl (fun s t => s.scrubTile e.panel t e.step e.issuer e.id e.pc) s
      let s1 := s0.modPanel e.panel fun p => cleanTile e st (engStep p e st)
      let e1 := { e with step := e.step + 1 }
      if e1.step < e.steps.length then .next ((setHead s1 key e1).post (.matstep d k))
      else .next ((setHead s1 key e1).post (.matrixEntryComplete d k))
    | _, _ => .next s

/-- MATRIX_ENTRY_COMPLETE (R278): the entry leaves the queue, its scoreboard entry retires, and the next starts; the instant the queue
empties is kept for the grant (R271). -/
def execMatrixEntryComplete (d k : Nat) (s : State) : Out :=
  let key := State.coreKey d k
  match (s.core key).eng with
  | [] => .next s
  | e :: es =>
    if !e.running || e.step < e.steps.length then .next s
    else
      let s1 := match e.sb with | some i => s.sbRetire key e.id i | none => s
      let now := if es.isEmpty then some s.time.toNat else none
      let s2 := s1.modCore key fun q => { q with eng := es, grant := { q.grant with emptyAt := now } }
      .next (((s2.panelProgress e.panel).post (if es.isEmpty then .grantReturn d k else .matrixEntryStart d k)).post (.panelComplete e.panel))

/-! Grants (R271, R405). -/

/-- POWER_GRANT. -/
def execPowerGrant (d k : Nat) (s : State) : Out :=
  let key := State.coreKey d k
  if (s.core key).grant.pending && (s.die d).throttled then .next (s.post (.powerGrant d k))
  else if (s.core key).grant.pending then
    .next ((s.modCore key fun q => { q with grant := { q.grant with granted := true, pending := false, loop := false } }).grantIdle d k)
  else .next s

/-- GRANT_RETURN: 4 µs after the queue emptied, unless a request stands. -/
def execGrantReturn (d k : Nat) (s : State) : Out :=
  let key := State.coreKey d k
  let g := (s.core key).grant
  match g.emptyAt with
  | none => .next s
  | some t =>
    if !g.granted || g.held then .next s
    else if s.time.toNat < t + 4000 then .next (s.post (.grantReturn d k))
    else .next (s.modCore key fun q => { q with grant := { q.grant with granted := false, emptyAt := none } })

/-- GRANT_WITHDRAWAL: the engine falls to its baseline rate; no result changes. -/
def execGrantWithdrawal (d k : Nat) (s : State) : Out :=
  .next (s.modCore (State.coreKey d k) fun q => { q with grant := { q.grant with granted := false } })

end Sys2Proof.Machine
end

