-- ==== Sys2Proof/Machine/Kv.lean ====
section
/-! DEFINITION. The KV cache (R290 to R297, R304 to R310): the map, the issue of the KV forms, and the steps KV_EVENT and
KVLD_COMPLETE; roles, tree masks and the softmax forms (R298 to R300, R311 to R315). -/

namespace Sys2Proof.Machine

/-! The map (R290 to R292). -/

/-- The field of a map descriptor that fails its check, by byte offset (R291, R305). -/
def kvDescFault (ws : List W64) : Option Nat :=
  let w (i : Nat) : Nat := (ws.getD i 0).toNat
  let freen := w 5 % 2 ^ 32
  let nblk := w 5 / 2 ^ 32
  let nseq := w 6 % 2 ^ 32
  let maxb := Word.bits (w 6) 47 32
  let geom := w 6 / 2 ^ 56
  ([(w 0 % 4 != 0, 0), (w 1 % 4 != 0, 8), (w 2 % 4096 != 0, 16), (w 3 % 4 != 0, 24), (w 4 % 4 != 0, 32),
    (decide (nblk < freen), 40), (nblk == 0 || 2 ^ 24 < nblk, 44), (nseq == 0 || 2 ^ 20 < nseq, 48), (maxb == 0, 52),
    (Word.bits geom 3 2 == 3 || Word.bits geom 7 4 != 0, 55), (w 7 != 0, 56)].find? (·.1)).map (·.2)

/-- A descriptor's fields. -/
def kvMapOf (addr : Nat) (ws : List W64) : KvMap :=
  let w (i : Nat) : Nat := (ws.getD i 0).toNat
  let geom := w 6 / 2 ^ 56
  { addr := addr, lentab := w 0, bidx := w 1, pool := w 2, reftab := w 3, stk := w 4, nblk := w 5 / 2 ^ 32, nseq := w 6 % 2 ^ 32,
    maxb := Word.bits (w 6) 47 32, heads := Word.bits (w 6) 55 48 + 1, hd := 64 * (geom % 4 + 1),
    es := if Word.bits geom 3 2 = 0 then 2 else 1 }

namespace KvMap

def lenA (m : KvMap) (t : Nat) : Nat := m.lentab + 4 * t
def entA (m : KvMap) (t b : Nat) : Nat := m.bidx + 4 * (t * m.maxb + b)
def refA (m : KvMap) (k : Nat) : Nat := m.reftab + 4 * k
def stkA (m : KvMap) (i : Nat) : Nat := m.stk + 4 * i
def freeA (m : KvMap) : Nat := m.addr + 40
/-- Bytes of a block (R293). -/
def bsz (m : KvMap) : Nat := 512 * m.hd * m.es
def blkA (m : KvMap) (k : Nat) : Nat := m.pool + k * m.bsz
/-- Element (d, q) of the K part and (q, d) of the V part of a block (R293). -/
def kA (m : KvMap) (k d q : Nat) : Nat := m.blkA k + m.es * (256 * d + q)
def vA (m : KvMap) (k q d : Nat) : Nat := m.blkA k + 256 * m.hd * m.es + m.es * (m.hd * q + d)

end KvMap

/-- A block entry's state and block (R292). -/
def entSt (e : Nat) : Nat := Word.bits e 31 30
def entBlk (e : Nat) : Nat := e % 2 ^ 24

/-! Keys (R294). -/

/-- The first field of a key that breaks a limit, by its low bit; `limit` is the rule of the run. -/
def keyFault (m : KvMap) (key : Nat) (run : Option Nat) : Option Nat :=
  let seq := Word.bits key 19 0
  let head := Word.bits key 27 20
  let pos := Word.bits key 55 32
  ([(decide (m.nseq ≤ seq), 0), (decide (m.heads ≤ head), 20), (Word.bits key 31 28 != 0, 28), (decide (m.maxb ≤ pos / 256), 32)].find?
    (·.1)).map (·.2) |>.or run

def streamOf (m : KvMap) (key : Nat) : Nat := Word.bits key 19 0 * m.heads + Word.bits key 27 20

/-- A breach of a stream operand's limits (R294); PART is free on a management core. -/
def streamFault (m : KvMap) (mgt : Bool) (v : Nat) : Option Nat :=
  ([(decide (m.nseq ≤ Word.bits v 19 0), 0), (decide (m.heads ≤ Word.bits v 27 20), 20), (!mgt && Word.bits v 30 28 != 0, 28),
    (Word.bits v 63 31 != 0, 31)].find? (·.1)).map (·.2)

/-! Issue. -/

namespace State

/-- The partition an executor's KV form acts on: its own, or the one an operand of a management core names (R290, R294). -/
def kvPart (s : State) (e : Ex) (part : Nat) : Nat :=
  match e with
  | .mgt _ => part
  | .str h _ => ((s.panel? h).map (·.part)).getD 0
  | .bob h => ((s.panel? h).map (·.part)).getD 0

/-- The map of a partition of a context slot. -/
def kvMap (s : State) (c part : Nat) : Option KvMap := SMap.look (s.job c).maps part

/-- A KV event sent to its map's unit. -/
def sendKv (s : State) (r : KvReq) : State :=
  { s with kvs := SMap.put s.kvs s.nextId r, nextId := s.nextId + 1, inflight := s.inflight ++ [.kvEvent s.nextId] }

end State

/-- The map a form acts on, or KV_NOMAP (R290). -/
def withMap (s : State) (c : Cx) (part : Nat) (k : KvMap → Out) : Out :=
  match s.kvMap (s.ctxOf c.ex) (s.kvPart c.ex part) with
  | some m => k m
  | none => trapOut s c { trap := .kvNomap }

/-- A form whose status a later instruction waits for without ever trapping: it opens no window (R303). -/
def sendQuiet (s : State) (c : Cx) (x : Args) (w : Wd) (upd : State → Nat → State) (got : List Nat) : Out :=
  match sendForm s c x w upd got with
  | .next s1 =>
    .next (s1.modThr c.ex fun t =>
      { t with pends := t.pends.map fun (p : Pend) => if p.id == s.nextId then { p with mask := 0 } else p })
  | o => o

/-- KVMAP (R305): an address of 0 uninstalls the map. -/
def execKvmap (x : Args) (s : State) : Out :=
  run (.kvmap x) s fun c x =>
    if !c.any then .next (s.advance c)
    else
      let sa := c.uni .w64 x.a
      let mgt := match c.ex with | .mgt _ => true | .str _ _ => false | .bob _ => false
      let d := (s.site c.ex).1
      let k := s.ctxOf c.ex
      let part := s.kvPart c.ex (c.uni .w64 x.b)
      slotGate s c [.preparing, .loaded, .saved] fun _ =>
        if mgt && (8 ≤ part || !s.partOk d k part) then trapOut s c { trap := .illegalOperand }
        else ordered s c true false fun _ =>
          let idle := s.kvs.all fun r => r.2.ctx != k || r.2.part != part
          let put (m : Option KvMap) : Out :=
            if !idle then waitOut s
            else .next ((s.advance c).modJob k fun j =>
              { j with maps := match m with | some m => SMap.put j.maps part m | none => SMap.del j.maps part })
          if sa = 0 then put none
          else if sa % 64 ≠ 0 then trapOut s c { trap := .misaligned, d0 := BitVec.ofNat 64 sa }
          else
            let go (ws : List W64) : Out :=
              match kvDescFault ws with
              | some o => trapOut s c { trap := .kvDesc, d0 := BitVec.ofNat 64 o }
              | none => put (some (kvMapOf sa ws))
            if mgt then andCtx s c d k sa 8 go
            else andRead s c (s.readPlace c.ex) sa 64 (s.notYet c.ex sa 64 (s.po c)) (s.readWords c.ex sa 8) go

/-- A lane's run in a panel (R306, R307): its key's limits, then the range and the alignment of its scratchpad bytes. -/
def kvLane (p : Panel) (m : KvMap) (key off n : Nat) (run : Option Nat) : Res Nat :=
  match keyFault m key run with
  | some f => .trap { trap := .kvRange, d0 := BitVec.ofNat 64 f }
  | none =>
    if p.spBytes < off + n then .trap { trap := .spRange, d0 := BitVec.ofNat 64 off }
    else if off % 32 ≠ 0 then .trap { trap := .misaligned, d0 := BitVec.ofNat 64 off }
    else .ok off

/-- The traps of lanes in the order of R304: KV_RANGE, then the scratchpad's. -/
def kvTrap (rs : List (Nat × Res Nat)) : Option TrapInfo :=
  let ts := rs.filterMap fun r => match r.2 with
    | .trap t => some { t with lane := r.1 }
    | .ok _ => none
    | .miss _ => none
    | .held => none
  match ts.find? (fun t => t.trap == .kvRange) with
  | some t => some t
  | none => pickTrap ts

/-- KVLD (R306). -/
def execKvld (x : Args) (s : State) : Out :=
  run (.kvld x) s fun c x =>
    if !c.any then .next (s.advance c)
    else
      let h := c.ex.panel.getD 0
      match s.panel? h with
      | none => .refused .noExecutor
      | some p => withMap s c 0 fun m =>
        let w := c.uni .w64 x.c
        let kn := w / 2 ^ 32
        if Word.bits w 31 1 != 0 then trapOut s c { trap := .illegalOperand }
        else
          let v := Word.bit w 0
          let n := 64 * m.es
          let key (l : Nat) : Nat := c.src .w64 x.a l
          let run (l : Nat) : Option Nat :=
            let dim := key l / 2 ^ 56
            let pos := Word.bits (key l) 55 32
            if m.hd ≤ dim || (v && dim % 64 != 0) then some 56 else if !v && pos % 64 != 0 then some 32 else none
          let rs := c.parts.map fun l => (l, kvLane p m (key l) (c.src .w32 x.b l) n (run l))
          match kvTrap rs with
          | some t => trapOut s c t
          | none =>
            let offs := rs.filterMap fun r => match r.2 with | .ok o => some (r.1, o) | .trap _ => none | .miss _ => none | .held => none
            let lo := offs.foldl (fun a o => min a o.2) (p.spBytes)
            let hi := offs.foldl (fun a o => max a (o.2 + n)) 0
            let go (knot : Option (Nat × Nat × Nat)) : Out :=
              match (if offs.isEmpty then none else s.opPoison p true lo hi) with
              | some t => trapOut s c t
              | none =>
                ordered s c false false fun _ =>
                  let ck := State.coreKey p.die (p.core.getD 0x7F)
                  match s.sbFree ck with
                  | none => waitOut s
                  | some idx =>
                    sendForm s c x .w32 (fun s' id =>
                      let b := p.spadBase * 4096
                      let s1 := s'.sbRegister ck idx id h 0 0 (if offs.isEmpty then 0 else b + lo) (if offs.isEmpty then 0 else b + hi)
                      let g : Kvld := { panel := h, who := c.ex, key := ck, sb := idx, left := offs.length, knot := knot }
                      let s2 := { s1 with kvlds := SMap.put s1.kvlds id g }
                      let po := s.po c
                      let one (s : State) (o : Nat × Nat) : State :=
                        s.sendKv { ex := c.ex, po := po, pend := id, lane := o.1, die := p.die, core := p.core.getD 0x7F, ctx := p.ctx,
                                   part := p.part, op := .load id (streamOf m (key o.1)) (Word.bits (key o.1) 55 32) (key o.1 / 2 ^ 56) v o.2 }
                      let s3 := offs.foldl one s2
                      if offs.isEmpty then s3.post (.kvldComplete id) else s3) (offs.map (·.1))
            if kn = 2 ^ 32 - 1 then go none
            else andThen s c (s.knotPlace c.ex kn) fun q => go (some (q.panel, q.off, kn))

/-- KVAPP (R307). -/
def execKvapp (x : Args) (s : State) : Out :=
  run (.kvapp x) s fun c x =>
    if !c.any then .next (s.advance c)
    else
      let h := c.ex.panel.getD 0
      match s.panel? h with
      | none => .refused .noExecutor
      | some p => withMap s c 0 fun m =>
        let n := 2 * m.hd * m.es
        let key (l : Nat) : Nat := c.src .w64 x.a l
        let rs := c.parts.map fun l =>
          (l, kvLane p m (key l) (c.src .w32 x.b l) n (if key l / 2 ^ 56 != 0 then some 56 else none))
        match kvTrap rs with
        | some t => trapOut s c t
        | none =>
          let offs := rs.filterMap fun r => match r.2 with | .ok o => some (r.1, o) | .trap _ => none | .miss _ => none | .held => none
          let ck := State.coreKey p.die (p.core.getD 0x7F)
          let b := p.spadBase * 4096
          match (offs.filterMap fun o => (s.sbPoison ck (b + o.2) (b + o.2 + n) 0 0).map fun t =>
              { State.poisonAs o.2 t with lane := o.1 }).head? with
          | some t => trapOut s c t
          | none =>
            ordered s c true false fun _ =>
              if offs.any (fun o => s.sbBusy ck (b + o.2) (b + o.2 + n) 0 0) || !s.pointReady c false n (offs.map fun o => p.spLoc h o.2) then
                waitOut s
              else
                let po := s.po c
                let one (id : Nat) (s : State) (o : Nat × Nat) : State :=
                  s.sendKv { ex := c.ex, po := po, pend := id, lane := o.1, die := p.die, core := p.core.getD 0x7F, ctx := p.ctx, part := p.part,
                             op := .append (streamOf m (key o.1)) (Word.bits (key o.1) 55 32)
                               ((List.range n).map fun i => Memory.byte p.spad (o.2 + i)) }
                sendQuiet s c x .w32 (fun s' id => offs.foldl (one id) s') (offs.map (·.1))

/-- A form on whole streams (R308 to R310): its partition and streams checked, one event sent, its status awaited in an S register. -/
def streamForm (i : Instr) (two : Bool) (s : State) (op : KvMap → Cx → Args → KvOp ⊕ TrapInfo) : Out :=
  run i s fun c x =>
    if !c.any then .next (s.advance c)
    else
      let a := c.uni .w64 x.a
      let b := c.uni .w64 x.b
      let mgt := match c.ex with | .mgt _ => true | .str _ _ => false | .bob _ => false
      let d := (s.site c.ex).1
      let k := s.ctxOf c.ex
      slotGate s c [.loaded] fun _ =>
        if mgt && (!s.partOk d k (Word.bits a 30 28) || (two && Word.bits a 30 28 != Word.bits b 30 28)) then
          trapOut s c { trap := .illegalOperand }
        else withMap s c (Word.bits a 30 28) fun m =>
          match (streamFault m mgt a).or (if two then streamFault m mgt b else none) with
          | some f => trapOut s c { trap := .kvRange, d0 := BitVec.ofNat 64 f }
          | none =>
            match op m c x with
            | .inr t => trapOut s c t
            | .inl o => ordered s c true false fun _ =>
              sendQuiet s c x .w64 (fun s' id =>
                s'.sendKv { ex := c.ex, po := s.po c, pend := id, lane := c.low, die := d, core := (s.site c.ex).2, ctx := k,
                            part := s.kvPart c.ex (Word.bits a 30 28), op := o }) [c.low]

/-- KVSEAL (R308). -/
def execKvseal (x : Args) (s : State) : Out :=
  streamForm (.kvseal x) false s fun m c x => .inl (.seal (streamOf m (c.uni .w64 x.a)))

/-- KVFORK (R309). -/
def execKvfork (x : Args) (s : State) : Out :=
  streamForm (.kvfork x) true s fun m c x => .inl (.fork (streamOf m (c.uni .w64 x.a)) (streamOf m (c.uni .w64 x.b)))

/-- KVDROP (R310): the control word's zero fields and limits. -/
def execKvdrop (x : Args) (s : State) : Out :=
  streamForm (.kvdrop x) false s fun m c x =>
    let w := c.uni .w64 x.b
    if (if Word.bit w 63 then Word.bits w 62 24 != 0 else Word.bits w 61 32 != 0) then .inr { trap := .illegalOperand }
    else if !Word.bit w 63 && m.maxb < w % 2 ^ 16 + Word.bits w 31 16 then .inr { trap := .kvRange, d0 := 16 }
    else if Word.bit w 63 && 256 * m.maxb < Word.bits w 23 0 then .inr { trap := .kvRange, d0 := 0 }
    else .inl (.drop (streamOf m (c.uni .w64 x.a)) w)

/-! KV events (R296). -/

/-- A pop of the free stack (R292): the block, none where the stack is empty. -/
def kvPop (w : EngAt) (m : KvMap) (s : State) : EngS (Option Nat) :=
  (s.rd w m.freeA 4).bind fun s1 n =>
    if n = 0 then .ok s1 none
    else (s1.rd w (m.stkA (n - 1)) 4).bind fun s2 k => (s2.wr w m.freeA 4 (n - 1)).bind fun s3 _ => .ok s3 (some k)

/-- The status of a KVLD lane and, with status 0, its run as a number (R306). -/
def kvRead (w : EngAt) (m : KvMap) (t pos dim : Nat) (v : Bool) (s : State) : EngS (Nat × Nat) :=
  (s.rd w (m.lenA t) 4).bind fun s1 len =>
    if len ≤ pos then .ok s1 (2, 0)
    else
      (s1.rd w (m.entA t (pos / 256)) 4).bind fun s2 e =>
        if entSt e = 0 then .ok s2 (1, 0)
        else if entSt e = 3 then .ok s2 (3, 0)
        else
          let q := pos % 256
          let a := if v then m.vA (entBlk e) q dim else m.kA (entBlk e) dim q
          (s2.rd w a (64 * m.es)).bind fun s3 x =>
            -- positions at or above the length read as +0
            let keep := if v then 64 else min 64 (len - pos)
            .ok s3 (0, x % 2 ^ (8 * m.es * keep))

/-- A KVAPP lane (R307): its status. -/
def kvAppend (w : EngAt) (m : KvMap) (t p : Nat) (bytes : List Byte) (s : State) : EngS Nat :=
  (s.rd w (m.lenA t) 4).bind fun s1 len =>
    let b := p / 256
    let put (s : State) (blk : Nat) : EngS Nat :=
      let row (o d : Nat) : Nat := State.leVal ((bytes.drop (o + m.es * d)).take m.es)
      (EngS.each (fun s d =>
          (s.wr w (m.kA blk d (p % 256)) m.es (row 0 d)).bind fun s' _ =>
            s'.wr w (m.vA blk (p % 256) d) m.es (row (m.hd * m.es) d))
        (List.range m.hd) s).bind fun s' _ => (s'.wr w (m.lenA t) 4 (max len (p + 1))).bind fun s'' _ => .ok s'' 0
    if len < p then .ok s1 2
    else
      (s1.rd w (m.entA t b) 4).bind fun s2 e =>
        if entSt e = 1 then put s2 (entBlk e)
        else if entSt e = 2 then .ok s2 4
        else if entSt e = 3 then .ok s2 3
        else if p < len then .ok s2 1
        else if p % 256 ≠ 0 then .ok s2 5
        else
          (if b = 0 then EngS.ok s2 0 else s2.rd w (m.entA t (b - 1)) 4).bind fun s3 prev =>
            if b ≠ 0 ∧ entSt prev = 1 then .ok s3 5
            else
              (kvPop w m s3).bind fun s4 k =>
                match k with
                | none => .ok s4 6
                | some k =>
                  (s4.wr w (m.refA k) 4 1).bind fun s5 _ =>
                    (s5.wr w (m.entA t b) 4 (2 ^ 30 + k % 2 ^ 24)).bind fun s6 _ => put s6 (k % 2 ^ 24)

/-- KVSEAL's event (R308). -/
def kvSealEv (w : EngAt) (m : KvMap) (t : Nat) (s : State) : EngS Nat :=
  (s.rd w (m.lenA t) 4).bind fun s1 len =>
    if len = 0 then .ok s1 1
    else
      let b := (len + 255) / 256 - 1
      (s1.rd w (m.entA t b) 4).bind fun s2 e =>
        match entSt e with
        | 0 => .ok s2 1
        | 3 => .ok s2 3
        | 2 => .ok s2 4
        | _ =>
          if len % 256 ≠ 0 then .ok s2 5
          else (s2.wr w (m.entA t b) 4 (2 ^ 31 + e % 2 ^ 30)).bind fun s3 _ => .ok s3 0

/-- The entries of a stream below n. -/
def kvEntries (w : EngAt) (m : KvMap) (t : Nat) : Nat → State → EngS (List Nat)
  | 0, s => .ok s []
  | n + 1, s => (kvEntries w m t n s).bind fun s1 es => (s1.rd w (m.entA t n) 4).bind fun s2 e => .ok s2 (es ++ [e])

/-- KVFORK's event (R309). -/
def kvForkEv (w : EngAt) (m : KvMap) (t u : Nat) (s : State) : EngS Nat :=
  (s.rd w (m.lenA u) 4).bind fun s1 lu =>
    if lu ≠ 0 then .ok s1 7
    else
      (s1.rd w (m.lenA t) 4).bind fun s2 len =>
        (kvEntries w m t ((len + 255) / 256) s2).bind fun s3 es =>
          (s3.rd w m.freeA 4).bind fun s4 free =>
            if free = 0 && es.any (fun e => entSt e == 1) then .ok s4 6
            else
              let one (s : State) (be : Nat × Nat) : EngS Unit :=
                let (b, e) := be
                let k := entBlk e
                match entSt e with
                | 2 =>
                  (s.wr w (m.entA u b) 4 e).bind fun s' _ =>
                    (s'.rd w (m.refA k) 4).bind fun s'' r => s''.wr w (m.refA k) 4 ((r + 1) % 2 ^ 32)
                | 1 =>
                  (kvPop w m s).bind fun s' n =>
                    match n with
                    | none => .ok s' ()
                    | some n =>
                      (EngS.each (fun s i =>
                          (s.rd w (m.blkA k + 64 * i) 64).bind fun a v => a.wr w (m.blkA (n % 2 ^ 24) + 64 * i) 64 v)
                        (List.range (m.bsz / 64)) s').bind fun s1 _ =>
                          (s1.wr w (m.refA n) 4 1).bind fun s2 _ => s2.wr w (m.entA u b) 4 (2 ^ 30 + n % 2 ^ 24)
                | st => s.wr w (m.entA u b) 4 (st * 2 ^ 30)
              (EngS.each one (es.mapIdx fun b e => (b, e)) s4).bind fun s5 _ =>
                (s5.wr w (m.lenA u) 4 len).bind fun s6 _ => .ok s6 0

/-- Release of an entry (R310, R297). -/
def kvRelease (w : EngAt) (m : KvMap) (t st : Nat) (s : State) (b : Nat) : EngS Unit :=
  (s.rd w (m.entA t b) 4).bind fun s1 e =>
    let k := entBlk e
    (if entSt e = 1 ∨ entSt e = 2 then
      (s1.rd w (m.refA k) 4).bind fun s2 r =>
        if r = 0 then .ok s2 ()
        else
          (s2.wr w (m.refA k) 4 (r - 1)).bind fun s3 _ =>
            if r ≠ 1 then .ok s3 ()
            else
              (s3.rd w m.freeA 4).bind fun s4 n =>
                if m.nblk ≤ n then .ok s4 ()
                else (s4.wr w (m.stkA n) 4 k).bind fun s5 _ => s5.wr w m.freeA 4 (n + 1)
     else EngS.ok s1 ()).bind fun s2 _ =>
      if entSt e = 0 then .ok s2 () else s2.wr w (m.entA t b) 4 (st * 2 ^ 30)

/-- KVDROP's event (R310). -/
def kvDropEv (w : EngAt) (m : KvMap) (t ctl : Nat) (s : State) : EngS Nat :=
  if Word.bit ctl 63 then
    let l := Word.bits ctl 23 0
    (s.rd w (m.lenA t) 4).bind fun s1 len =>
      if len < l then .ok s1 2
      else
        (if l % 256 = 0 then EngS.ok s1 0 else s1.rd w (m.entA t (l / 256)) 4).bind fun s2 e =>
          if l % 256 ≠ 0 ∧ entSt e = 2 then .ok s2 4
          else
            let b0 := (l + 255) / 256
            (EngS.each (kvRelease w m t 0) ((List.range ((len + 255) / 256 - b0)).map fun i => b0 + i) s2).bind fun s3 _ =>
              (s3.wr w (m.lenA t) 4 l).bind fun s4 _ => .ok s4 0
  else
    let st := if Word.bit ctl 62 then 0 else 3
    (EngS.each (kvRelease w m t st) ((List.range (Word.bits ctl 31 16)).map fun i => ctl % 2 ^ 16 + i) s).bind fun s1 _ => .ok s1 0

/-- A KV event and the bytes it delivers (R296). -/
def kvEv (w : EngAt) (m : KvMap) (op : KvOp) (s : State) : EngS (Nat × Option Nat) :=
  match op with
  | .load _ t pos dim v _ => (kvRead w m t pos dim v s).bind fun s1 r => .ok s1 (r.1, if r.1 = 0 then some r.2 else none)
  | .append t p bytes => (kvAppend w m t p bytes s).bind fun s1 r => .ok s1 (r, none)
  | .seal t => (kvSealEv w m t s).bind fun s1 r => .ok s1 (r, none)
  | .fork t u => (kvForkEv w m t u s).bind fun s1 r => .ok s1 (r, none)
  | .drop t ctl => (kvDropEv w m t ctl s).bind fun s1 r => .ok s1 (r, none)

namespace State

/-- An event may take effect (R100, R212, R232, R296): the executor's earlier ones have, with its lineage's accesses to bytes of the map
and all that a merge ordered before it, and its entry's older ones have retired. -/
def kvReady (s : State) (id : Nat) (r : KvReq) : Bool :=
  let seq (q : KvReq) : Bool := q.ex == r.ex && (q.pend != r.pend || (match q.op with | .append _ _ _ => true | _ => false))
  s.kvs.all (fun q => !(q.1 < id && seq q.2)) && !s.mergeWaits r.ex r.po &&
  (match s.kvMap r.ctx r.part with
    | some m => s.reqs.all fun q => !(q.1 < id && q.2.ex == r.ex && q.2.unapplied && q.2.po.before r.po && q.2.onMap m)
    | none => true) &&
  (match r.op with
    | .load g _ _ _ _ _ => (match SMap.look s.kvlds g with | some x => !s.sbOlder x.key x.sb | none => true)
    | _ => true)

/-- One lane of a KVLD done (R306): its bytes written, its group closer to its end. -/
def kvDelivered (s : State) (m : KvMap) (r : KvReq) (v : Option Nat) (bad : Bool) : State :=
  match r.op with
  | .load g _ _ _ _ off =>
    (match SMap.look s.kvlds g with
    | none => s
    | some x =>
      let n := 64 * m.es
      let s1 := match v with
        | some v => s.modPanel x.panel fun p => p.spWrite off n v
        | none => s
      let y : Kvld := { x with left := x.left - 1, bytes := x.bytes + (if v.isSome then n else 0), bad := x.bad || bad }
      let s2 := { s1 with kvlds := SMap.put s1.kvlds g y }
      if y.left = 0 then s2.post (.kvldComplete g) else s2)
  | _ => s

/-- A form's status, or its deferred failure, on its way to its lane. -/
def kvAnswer (s : State) (r : KvReq) (v : Nat) (f : Option TrapInfo) : State :=
  s.addReq { ex := r.ex, pend := some r.pend, lane := r.lane, op := .value, st := .data v f } .pendingFill

end State

/-- The die that homes a map's descriptor, whose KV unit performs the events of the map (R290); the issuer's die where the address has
no home in the package. -/
def State.kvDie (s : State) (r : KvReq) (m : KvMap) : Nat :=
  match s.engPlace r.die r.core r.ctx m.addr .read with
  | .ok (_, p) => if p.pkg = s.pkg then p.socket else r.die
  | .error _ => r.die

/-- An event of one lane of a form (R306, R307); the forms on whole streams have no lane (R388). -/
def KvOp.perLane : KvOp → Bool
  | .load _ _ _ _ _ _ => true
  | .append _ _ _ => true
  | .seal _ => false
  | .fork _ _ => false
  | .drop _ _ => false

/-- KV_EVENT (R296), performed by the unit of the descriptor's home die (R290). -/
def execKvEvent (id : Nat) (s : State) : Out :=
  match SMap.look s.kvs id with
  | none => .next s
  | some r =>
    if !s.kvReady id r then .next (s.post (.kvEvent id))
    else
      match s.kvMap r.ctx r.part with
      | none => .next (({ s with kvs := SMap.del s.kvs id }).kvAnswer r 0 none)
      | some m =>
        let d := s.kvDie r m
        if s.engWalkHeld r.die r.core r.ctx m.addr || (s.rings.held && d != r.die) || s.gone d then .next (s.post (.kvEvent id))
        else
        -- the event and its answer carry their clocks (R217)
        let s0 := ({ s with kvs := SMap.del s.kvs id }).crossCore r.die r.core d
        match kvEv { d := d, k := 0x7F, c := r.ctx } m r.op s0 with
        | .wait => .next (s.post (.kvEvent id))
        | .ok s1 (st, v) => .next ((s1.kvDelivered m r v false).kvAnswer r st none)
        | .fail t a =>
          -- R304 names DATA_ERROR for an error of a write too
          let code := if t == .storeError then Trap.dataError.code else t.code
          let f : TrapInfo := {
            trap := .kvFault, d0 := BitVec.ofNat 64 a, d1 := BitVec.ofNat 64 (code * 2 ^ 32),
            lane := if r.op.perLane then r.lane else 0xFF }
          .next (((s0.countEng { d := d, k := 0x7F, c := r.ctx } t a).kvDelivered m r none true).kvAnswer r 0 (some f))

/-- KVLD_COMPLETE (R306): the entry retires, and the knot is credited once unless a lane failed. -/
def execKvldComplete (id : Nat) (s : State) : Out :=
  match SMap.look s.kvlds id with
  | none => .next s
  | some x =>
    if x.left ≠ 0 then .next s
    else
      let s1 := ({ s with kvlds := SMap.del s.kvlds id }).sbRetire x.key id x.sb
      let s2 :=
        match x.bad, x.knot with
        | false, some (h, off, a) => s1.sendKnot { panel := h, off := off, addr := a, credit := some x.bytes, who := [x.who], op := some id }
        | _, _ => s1
      .next ((s2.panelProgress x.panel).post (.panelComplete x.panel))

/-! Roles and masks. -/

/-- ROLE (R311). -/
def execRole (x : Args) (s : State) : Out :=
  run (.role x) s fun c x =>
    if !c.any then .next (s.advance c)
    else
      let r := c.uni .w64 x.a
      if 4 ≤ r then trapOut s c { trap := .illegalOperand }
      else
        match c.ex with
        | .str h i => .next ((s.advance c).modStrand h i fun t => { t with role := BitVec.ofNat 2 r })
        | .bob _ => .refused .noExecutor
        | .mgt _ => .refused .noExecutor

/-- TMASK (R312). -/
def execTmask (x : Args) (s : State) : Out :=
  run (.tmask x) s fun c x =>
    if !c.any then .next (s.advance c)
    else
      let h := c.ex.panel.getD 0
      match s.panel? h with
      | none => .refused .noExecutor
      | some p =>
        let a := c.uni .w32 x.a
        let slot := c.uni .w64 x.b
        let ck := State.coreKey p.die (p.core.getD 0x7F)
        let b := p.spadBase * 4096 + a
        if 3 < slot then trapOut s c { trap := .illegalOperand }
        else if a % 8 ≠ 0 then trapOut s c { trap := .misaligned, d0 := BitVec.ofNat 64 a }
        else if p.spBytes < a + 512 then trapOut s c { trap := .spRange, d0 := BitVec.ofNat 64 a }
        else
          match s.sbPoison ck b (b + 512) 0 0 with
          | some t => trapOut s c (State.poisonAs a t)
          | none =>
            ordered s c false false fun _ =>
              if s.sbBusy ck b (b + 512) 0 0 || !s.pointReady c false 512 [p.spLoc h a] then waitOut s
              else
                let row (p : Panel) (m : Nat) : Panel :=
                  { p with masks := SMap.putD p.masks (slot * 64 + m) (~~~ (BitVec.ofNat 64 (p.spRead (a + 8 * m) 8))) 0 }
                .next ((s.advance c).modPanel h fun p => (List.range 64).foldl row p)

/-! The softmax row step (R313, R314). -/

/-- Round(x) to F32 under RNE. -/
def r32 (x : FVal) : FVal := FVal.decode Fmt.f32 (Fmt.f32.round .rne .none 0 x).bits

/-- 2^y rounded once to a format under RNE (R164, R313). -/
def exp2To (f : Fmt) (y : FVal) : Nat :=
  match y with
  | .nan => f.nan
  | .inf n => if n then 0 else f.encInf false
  | .zero _ => (f.round .rne .none 0 (.fin false 1 0)).bits
  | .fin n m e =>
    let a := exp2Fin n m e
    if a.m = 0 then 0 else (f.roundFin .rne .none 0 a.neg a.m a.e a.tail).bits

/-- FMAX of two F32 values (R162). -/
def fmax32 (a b : FVal) : FVal := FVal.decode Fmt.f32 (fminMax Fmt.f32 true false false a b).bits

/-- What one row of MROW gives: the new maximum, sum and rescale factor, and the 64 probabilities as BF16. -/
structure RowOut where
  mx : Nat
  sm : Nat
  al : Nat
  p  : List Nat
deriving Repr

/-- One row (R313): the scale, the old maximum and sum, the scores, and the columns included. -/
def rowStep (c mo so : FVal) (scores : List FVal) (inc : Nat → Bool) : RowOut :=
  let ins := (scores.mapIdx fun n v => (n, v)).filter fun e => inc e.1
  let mx : FVal := match ins with
    | [] => .inf true
    | e :: es => es.foldl (fun a b => fmax32 a b.2) e.2
  let mn := fmax32 mo mx
  let f32 (x : FVal) : Nat := (Fmt.f32.round .rne .none 0 x).bits
  let diff (x : FVal) : FVal := r32 (FVal.mul c (r32 (FVal.sum false [x, mn.neg])))
  let ps : List Nat := if mn == .inf true then List.replicate 64 0
    else scores.mapIdx fun n v => if inc n then exp2To Fmt.bf16 (diff v) else 0
  let al : Nat := if mn == .inf true then f32 (.fin false 1 0) else exp2To Fmt.f32 (diff mo)
  let sn := FVal.sum false (FVal.mul so (FVal.decode Fmt.f32 al) :: ps.map (FVal.decode Fmt.bf16))
  { mx := f32 mn, sm := f32 sn, al := al, p := ps }

/-- A lane's registers after its two rows (R313, R314). -/
def rowWrite (n : Lane) (vs vp : Nat) (r0 r1 : RowOut) : Lane :=
  let w (n : Lane) (i x : Nat) : Lane := n.setV i (BitVec.ofNat 32 x)
  let n1 := w (w (w (w (w (w n vs r0.mx) (vs + 1) r1.mx) (vs + 2) r0.sm) (vs + 3) r1.sm) (vs + 4) r0.al) (vs + 5) r1.al
  let n2 := (List.range 64).foldl (fun n i =>
    let p := if i % 16 < 8 then r0.p else r1.p
    let c := i / 16 * 16 + 2 * (i % 8)
    w n (vp + i) (p.getD c 0 + 2 ^ 16 * p.getD (c + 1) 0)) n1
  n2.push1 (BitVec.ofNat 32 r0.al)

/-- MROW (R313). -/
def execMrow (x : Args) (s : State) : Out :=
  run (.mrow x) s fun c x =>
    if !c.any then .next (s.advance c)
    else
      let h := c.ex.panel.getD 0
      match s.panel? h with
      | none => .refused .noExecutor
      | some p0 =>
        let w := c.uni .w64 x.c
        let vs := match x.d with | .v i => i.toNat | _ => 0
        let vp := match x.b with | .v i => i.toNat | _ => 0
        let t := tileOf x.a
        let scale := FVal.decode Fmt.f32 (w / 2 ^ 32)
        let ncol := Word.bits w 14 8
        let msel := w % 8
        let scaleOk := match scale with | .fin n _ _ => !n | .nan => false | .inf _ => false | .zero _ => false
        if !scaleOk || Word.bits w 31 15 != 0 || ncol = 0 || 64 < ncol || Word.bits w 7 3 != 0 || (4 ≤ msel && msel ≤ 6) then trapOut s c { trap := .illegalOperand }
        else
          let s0 := s.scrubTile h t 0 c.ex s.nextId c.pc
          let p := (s0.panel? h).getD p0
          let tile := p.tile t
          let row (m : Nat) : List FVal := ((tile.drop (64 * m)).take 64).map fun v => FVal.decode Fmt.f32 v.toNat
          let inc (m k : Nat) : Bool := k < ncol && (msel == 7 || !(SMap.lookD p.masks (msel * 64 + m) 0).getLsbD k)
          let val (l i : Nat) : FVal := FVal.decode Fmt.f32 ((c.lane l).vAt i).toNat
          let out (l g : Nat) : RowOut := rowStep scale (val l (vs + g)) (val l (vs + 2 + g)) (row (2 * l + g)) (inc (2 * l + g))
          .next ((s0.advance c).modLanes c.ex c.act 1 fun l n => rowWrite n vs vp (out l 0) (out l 1))

/-- MRESC (R315): the factors are read at its issue. -/
def execMresc (x : Args) (s : State) : Out :=
  matrixForm (.mresc x) s fun c x h p =>
    let f := match x.b with | .v i => i.toNat | _ => 0
    let mode := match x.c with | .sel r => r.toNat | _ => 0
    if 2 ≤ mode then trapOut s c { trap := .illegalOperand }
    else
      let rows := (lanesOf c.act).flatMap fun l =>
        [(2 * l, ((c.lane l).vAt f).toNat), (2 * l + 1, ((c.lane l).vAt (f + 1)).toNat)]
      enqueue s c h p [tileOf x.a] (.mresc (mode == 1) rows) [(0, 0)] none id

end Sys2Proof.Machine
end

