-- ==== Sys2Proof/Machine/Coll.lean ====
section
/-! DEFINITION. Collectives (R316 to R334): groups, descriptors and their checks, the issue of COLL and NORM, the folds, completion with
its record, completion queues, stitch counters and triggers (R335 to R338), mailboxes (R339 to R341), VDHOP and VDQ (R350, R351). -/

namespace Sys2Proof.Machine

/-! Groups (R318). -/

/-- A group: packages by system number in order, and the virtual dies of each. -/
structure Group where
  pkgs : List Nat
  mask : Nat
deriving DecidableEq, Repr

/-- The virtual dies of a mask, ascending. -/
def maskDies (m : Nat) : List Nat := (List.range 16).filter fun v => Word.bit m v

namespace Group

def per (g : Group) : Nat := (maskDies g.mask).length
def n (g : Group) : Nat := g.pkgs.length * g.per

/-- The group rank of virtual die v of a package. -/
def rank (g : Group) (pkg v : Nat) : Nat := (g.pkgs.findIdx? (· == pkg)).getD 0 * g.per + (maskDies (g.mask % 2 ^ v)).length

/-- The ranks of a package's members. -/
def ranksOf (g : Group) (pkg : Nat) : List Nat :=
  match g.pkgs.findIdx? (· == pkg) with
  | some i => (List.range g.per).map fun j => i * g.per + j
  | none => []

end Group

/-- COLL_DESC with its word and the low bit of its field (R326; log 19). -/
def collTrap (word fld : Nat) : TrapInfo :=
  { trap := .collDesc, d0 := BitVec.ofNat 64 word, d1 := BitVec.ofNat 64 (fld * 2 ^ 32) }

/-- The group a descriptor names, for context slot c and the issuing die (R318). -/
def State.readGroup (s : State) (e : Ex) (d c addr : Nat) : Res Group :=
  let bad : Res Group := .trap (collTrap 4 0)
  if addr = 0 then .ok { pkgs := [s.sysNum], mask := 2 ^ s.dieCount d c - 1 }
  else if addr % 64 ≠ 0 then bad
  else
    (s.readWords e addr 1).bind fun h =>
      let w := (h.headD 0).toNat
      let np := Word.bits w 18 0
      let m := Word.bits w 47 32
      if np = 0 || 2 ^ 18 < np || m = 0 || Word.bits w 31 19 != 0 || 2 ^ 48 ≤ w then bad
      else
        (s.readWords e (addr + 8) ((np + 1) / 2)).bind fun ws =>
          let es := (List.range np).map fun i => (ws.getD (i / 2) 0).toNat / 2 ^ (32 * (i % 2)) % 2 ^ 32
          let g : Group := { pkgs := es, mask := m }
          if es.any (fun x => 2 ^ 18 ≤ x) || es.eraseDups.length != np || !es.contains s.sysNum || !Word.bit m (s.vdie d c d) ||
              2 ^ 22 < g.n then bad
          else .ok g

/-- The bytes of a group table that a descriptor names (R318). -/
def State.groupBytes (s : State) (e : Ex) (addr : Nat) : Nat :=
  if addr = 0 then 0
  else
    match s.readWords e addr 1 with
    | .ok ws => 8 + 4 * Word.bits (ws.headD 0).toNat 18 0
    | .trap _ => 0
    | .miss _ => 0
    | .held => 0

/-- A group table that cannot be read yet. -/
def State.groupNotYet (s : State) (e : Ex) (addr : Nat) (po : Po := {}) : Bool :=
  addr != 0 && (s.notYet e addr 8 po ||
    match s.readWords e addr 1 with
    | .ok ws => s.notYet e (addr + 8) (4 * Word.bits (ws.headD 0).toNat 18 0) po
    | .trap _ => false
    | .miss _ => false
    | .held => false)

/-! Descriptors (R320 to R322). -/

/-- The eight words of a descriptor. -/
abbrev LDesc := List W64

namespace LDesc

def w (d : LDesc) (i : Nat) : Nat := (d.getD i 0).toNat
def comp (d : LDesc) : Nat := Word.bits (d.w 0) 31 30
def cqn (d : LDesc) : Nat := Word.bits (d.w 0) 15 12
def cq (d : LDesc) : Bool := Word.bit (d.w 0) 11
def intr (d : LDesc) : Bool := Word.bit (d.w 0) 10
def tile (d : LDesc) : Bool := Word.bit (d.w 0) 9
def dstG (d : LDesc) : Bool := Word.bit (d.w 0) 8
def srcG (d : LDesc) : Bool := Word.bit (d.w 0) 7
def op (d : LDesc) : Nat := Word.bits (d.w 0) 6 5
def ty (d : LDesc) : Nat := Word.bits (d.w 0) 3 0
def srcA (d : LDesc) : Nat := d.w 1
def dstA (d : LDesc) : Nat := d.w 2
def count (d : LDesc) : Nat := d.w 3
def group (d : LDesc) : Nat := d.w 4
def aux (d : LDesc) : Nat := d.w 5
def compl (d : LDesc) : Nat := d.w 6
def tag (d : LDesc) : Nat := d.w 7
def es (d : LDesc) : Nat := [4, 2, 2, 4, 4, 1].getD d.ty 1

end LDesc

/-- Elements of the local source (R322); none where the member has none or a table gives them. -/
def srcCount (kind n rank : Nat) (d : LDesc) : Option Nat :=
  match kind with
  | 1 => some (n * d.count)
  | 3 => if rank = d.aux then some d.count else none
  | 4 => if rank + 1 < n then some d.count else none
  | 5 => none
  | _ => some d.count

/-- Elements of the local destination (R322, R340). -/
def dstCount (kind n rank : Nat) (d : LDesc) : Option Nat :=
  match kind with
  | 0 => some (n * d.count)
  | 4 => if rank = 0 then none else some d.count
  | 5 => none
  | 8 => none
  | _ => some d.count

/-- Whether a member has a source or a destination, a table's included. -/
def hasSrc (kind n rank : Nat) (d : LDesc) : Bool := kind == 5 || (srcCount kind n rank d).isSome
def hasDst (kind n rank : Nat) (d : LDesc) : Bool := kind == 5 || (dstCount kind n rank d).isSome

/-- The first check of R320 to R322, R338 and R340 that the words alone fail: word and field (log 19). -/
def collWordFault (kind : Nat) (trig : Bool) (d : LDesc) (tile : Bool) : Option (Nat × Nat) :=
  let c := d.w 0
  let arith := kind == 1 || kind == 2
  let checks : List (Bool × Nat × Nat) := [
    (5 < d.ty, 0, 0),
    (kind == 8 && 2 < d.ty, 0, 0),
    (d.ty == 5 && (arith || kind == 8), 0, 0),
    (Word.bit c 4, 0, 4),
    (d.op == 3 || (d.op != 0 && !arith), 0, 5),
    (trig && !d.srcG, 0, 7),
    ((trig && !d.dstG) || (kind == 8 && d.dstG), 0, 8),
    (d.tile != tile || (d.tile && (trig || kind == 5)), 0, 9),
    (d.tile && d.ty != 0, 0, 0),
    (d.intr && !d.cq, 0, 10),
    (Word.bits c 29 16 != 0, 0, 16),
    (d.comp == 3 || (trig && d.comp == 0), 0, 30),
    (decide (2 ^ 32 ≤ c), 0, 32),
    (kind == 8 && d.dstA != 0, 2, 0),
    (decide (2 ^ 32 ≤ d.count), 3, 32),
    (decide (2 ^ 31 ≤ d.count || d.count = 0), 3, 0),
    (kind == 5 && d.aux % 16 != 0, 5, 0),
    (kind == 8 && decide (8 ≤ d.aux), 5, 0),
    (decide (kind < 3 || kind = 4) && d.aux != 0, 5, 0),
    (d.comp == 0 && decide (2 ^ 32 ≤ d.compl), 6, 32),
    (d.comp == 1 && decide (2 ^ 12 ≤ d.compl), 6, 12),
    (d.comp == 2 && d.compl != 0, 6, 0),
    (decide (2 ^ 32 ≤ d.tag), 7, 32)]
  (checks.find? (·.1)).map (·.2)

/-- The checks that need the group's size and the member's rank. -/
def collSizeFault (kind n rank : Nat) (d : LDesc) : Option (Nat × Nat) :=
  let big (x : Option Nat) : Bool := decide (2 ^ 31 ≤ x.getD 0 * d.es)
  let checks : List (Bool × Nat × Nat) := [
    (hasSrc kind n rank d && !d.tile && !d.srcG && decide (2 ^ 32 ≤ d.srcA), 1, 32),
    (hasDst kind n rank d && !d.dstG && decide (2 ^ 32 ≤ d.dstA), 2, 32),
    (big (srcCount kind n rank d) || big (dstCount kind n rank d), 3, 0),
    (d.tile && (srcCount kind n rank d).isSome && srcCount kind n rank d != some 4096, 3, 0),
    (kind == 3 && decide (n ≤ d.aux), 5, 0)]
  (checks.find? (·.1)).map (·.2)

/-! Stitch counters (R335). -/

/-- The window of a context: first physical counter and number. -/
def State.scWin (s : State) (d c : Nat) : Nat × Nat :=
  let w := (s.ctxReg d c 0x3B).toNat
  (Word.bits w 11 0, Word.bits w 28 16)

/-- The die and physical counter of a reference, or SC_RANGE. -/
def State.scPlace (s : State) (d c r : Nat) : Except TrapInfo (Nat × Nat) :=
  let (base, n) := s.scWin d c
  let v := Word.bits r 15 12
  if 2 ^ 16 ≤ r || n ≤ r % 2 ^ 12 || s.dieCount d c ≤ v then .error { trap := .scRange, d0 := BitVec.ofNat 64 r }
  else .ok ((s.dmap d c).getD v 0, base + r % 2 ^ 12)

/-- The value of a physical counter. -/
def State.sc (s : State) (d k : Nat) : W64 := SMap.lookD (s.die d).stitch k 0

/-- Whether a queued trigger may fire (R338). -/
def State.trigDue (s : State) (d : Nat) (t : Trig) : Bool :=
  if t.time then t.thresh ≤ s.time.toNat else t.thresh ≤ (s.sc d t.cnt).toNat

/-- A counter stepped in one event (R336), and the triggers it makes due. -/
def State.scAdd (s : State) (d k n : Nat) : State :=
  let s1 := s.modDie d fun x => { x with stitch := SMap.putD x.stitch k (SMap.lookD x.stitch k 0 + BitVec.ofNat 64 n) 0 }
  (s1.die d).trigs.foldl (fun s t => if !t.2.time && t.2.cnt == k && s.trigDue d t.2 then s.post (.triggerFire d t.1) else s) s1

/-! Issue of COLL and NORM (R326, R328, R340). -/

/-- The address traps of a slice (R185, R322, R328). -/
def collAddrTraps (s : State) (e : Ex) (kind n rank : Nat) (d : LDesc) (p : Panel) : List TrapInfo :=
  let mis (a : Nat) : List TrapInfo := if a % d.es = 0 then [] else [{ trap := .misaligned, d0 := BitVec.ofNat 64 a }]
  let out (a : Nat) (k : Option Nat) : List TrapInfo :=
    if p.spBytes < a + k.getD 0 * d.es then [{ trap := .spRange, d0 := BitVec.ofNat 64 a }] else []
  let src := hasSrc kind n rank d && !d.tile
  let dst := hasDst kind n rank d
  (if src && !d.srcG then out d.srcA (srcCount kind n rank d) else []) ++
  (if dst && !d.dstG then out d.dstA (dstCount kind n rank d) else []) ++
  (if src then mis d.srcA else []) ++ (if dst then mis d.dstA else []) ++
  (if d.comp = 0 then resTrap (s.knotPlace e d.compl) else []) ++
  (if d.comp = 1 then (match s.scPlace p.die p.ctx d.compl with | .error t => [t] | .ok _ => []) else [])

/-- The .SP intervals of a collective in core bytes: read, then write (R328, R344). -/
def collIntervals (kind n rank : Nat) (d : LDesc) (p : Panel) : Nat × Nat × Nat × Nat :=
  let b := p.spadBase * 4096
  let iv (a : Nat) (k : Option Nat) : Nat × Nat := (b + a, if kind = 5 then b + p.spBytes else b + a + k.getD 0 * d.es)
  let r := if hasSrc kind n rank d && !d.tile && !d.srcG then iv d.srcA (srcCount kind n rank d) else (0, 0)
  let w := if hasDst kind n rank d && !d.dstG then iv d.dstA (dstCount kind n rank d) else (0, 0)
  (r.1, r.2, w.1, w.2)

/-- Every earlier write of a panel is acknowledged (R221, R328). -/
def State.panelReleased (s : State) (h : Nat) (p : Panel) : Bool :=
  s.released (.bob h) && p.strands.all fun t => s.released (.str h t.1)

/-- VALID of a mailbox cleared (R340). -/
def State.mboxClear (s : State) (d c n : Nat) : State :=
  s.modCtx d c fun x => { x with regs := SMap.put x.regs (0x30 + n) (SMap.lookD x.regs (0x30 + n) 0 &&& 0x7FFFFFFFFFFFFFFF) }

/-- A slice arrives at its collective; the first registers it. -/
def collArrive (s : State) (c : Cx) (kind : Nat) (d : LDesc) (tile : Option Nat) (g : Group) (rank h : Nat) (p : Panel)
    (old : Option (Nat × Coll)) (k : Nat) : State :=
  let bobSeq := !c.ex.isStrand
  let me : List Nat := match c.ex with | .str _ i => [i] | .bob _ => [] | .mgt _ => []
  let s1 := (s.advance c).modThr c.ex fun t => { t with collSeq := t.collSeq + 1 }
  match old with
  | some (id, x) =>
    let y : Coll := { x with missing := x.missing.filter (fun i => !me.contains i), slices := x.slices ++ [(c.ex, c.pc)] }
    ({ s1 with colls := SMap.put s1.colls id y }).startColl id
  | none =>
    let id := s1.nextId
    let key := panelKey p
    let idx := (s1.sbFree key).getD 0
    let (rlo, rhi, wlo, whi) := collIntervals kind g.n rank d p
    let s2 := ({ s1 with nextId := id + 1 }).sbRegister key idx id h rlo rhi wlo whi
    let x : Coll := {
      kind := kind, d := d, tile := tile, panel := some h, bobSeq := bobSeq, k := k,
      missing := if bobSeq then [] else p.live.filter (fun i => !me.contains i),
      slices := [(c.ex, c.pc)], sb := some (key, idx),
      knot := if d.comp = 0 then resKnot (s.knotPlace c.ex d.compl) else none,
      ctx := p.ctx, socket := p.die, pkgs := g.pkgs, mask := g.mask, rank := rank }
    let s3 := if bobSeq then s2 else s2.modPanel h fun q => { q with collNext := max q.collNext (k + 1) }
    let s4 := if kind = 8 then s3.mboxClear p.die p.ctx d.aux else s3
    ({ s4 with colls := SMap.put s4.colls id x }).startColl id

/-- The issue of one slice. DEDUCED: its traps are the strand's own, as those of a copy's slice are (R326; log 12). -/
def collForm (i : Instr) (kind : Nat) (s : State) : Out :=
  run i s fun c0 x =>
    let c := { c0 with quiet := false }
    let h := c.ex.panel.getD 0
    match s.panel? h with
    | none => .refused .noExecutor
    | some p =>
      if !soleIssuer s c then trapOut s c { trap := .nonuniformCopy }
      else
        let b := (sregOf x.a).getD 0
        let d : LDesc := (List.range 8).map fun n => BitVec.ofNat 64 (c.s (b + n))
        let tile : Option Nat := match x.b with | .imm i => some i.toNat | _ => none
        match collWordFault kind false d tile.isSome with
        | some (w, f) => trapOut s c (collTrap w f)
        | none =>
          andRead s c (s.readPlace c.ex) d.group (s.groupBytes c.ex d.group) (s.groupNotYet c.ex d.group (s.po c))
              (s.readGroup c.ex p.die p.ctx d.group) fun g =>
            let rank := g.rank s.sysNum (s.vdie p.die p.ctx p.die)
            match collSizeFault kind g.n rank d with
            | some (w, f) => trapOut s c (collTrap w f)
            | none =>
              match pickTrap (collAddrTraps s c.ex kind g.n rank d p) with
              | some t => trapOut s c t
              | none =>
                let bobSeq := !c.ex.isStrand
                let k := c.thr.collSeq
                let old := s.colls.find? fun y => y.2.panel == some h && y.2.bobSeq == bobSeq && y.2.k == k
                match old.filter (fun y => y.2.kind != kind || y.2.d != d || y.2.tile != tile) with
                | some _ => trapOut s c { trap := .copyMismatch, d0 := BitVec.ofNat 64 k }
                | none =>
                  let (rlo, rhi, wlo, whi) := collIntervals kind g.n rank d p
                  let (r0, r1) := State.round32 rlo rhi
                  let (w0, w1) := State.round32 wlo whi
                  match s.sbPoison (panelKey p) r0 r1 w0 w1 with
                  | some t => trapOut s c t
                  | none =>
                    ordered s c true false fun _ =>
                      if !s.panelReleased h p || (old.isNone && (s.sbFree (panelKey p)).isNone) then waitOut s
                      else .next (collArrive s c kind d tile g rank h p old k)

/-- COLL (R328). -/
def execColl (k : CKind) (x : Args) (s : State) : Out := collForm (.coll k x) k.c s

/-- NORM (R340). -/
def execNorm (x : Args) (s : State) : Out := collForm (.norm x) 8 s

/-! Arithmetic (R323, R340). -/

def collFmt (ty : Nat) : Fmt := if ty = 1 then Fmt.bf16 else if ty = 2 then Fmt.f16 else Fmt.f32

/-- One step of the fold. -/
def foldStep (op ty a b : Nat) : Nat :=
  let f := collFmt ty
  if ty < 3 then
    (match op with
    | 0 => (f.round .rne .none 0 (FVal.sum false [FVal.decode f a, FVal.decode f b])).bits
    | _ => (fminMax f (op == 2) false false (FVal.decode f a) (FVal.decode f b)).bits)
  else
    let less (x y : Nat) : Bool := if ty = 3 then decide (Word.toSigned 32 x < Word.toSigned 32 y) else decide (x < y)
    match op with
    | 0 => (a + b) % 2 ^ 32
    | 1 => if less b a then b else a
    | _ => if less a b then b else a

/-- The fold of one element over the members, in ascending rank; none where a contribution is missing. -/
def foldRanks (op ty : Nat) (xs : List (Option Nat)) : Option Nat :=
  match xs with
  | [] => none
  | x :: rest => rest.foldl (fun acc y => acc.bind fun a => y.map fun b => foldStep op ty a b) x

/-- A member's partial of NORM: the exact sum of exact squares, rounded once. -/
def normPartial (ty : Nat) (xs : List (Option Nat)) : Option Nat :=
  if xs.any (·.isNone) then none
  else
    let vs := xs.filterMap fun x => x.map fun b => let v := FVal.decode (collFmt ty) b; FVal.mul v v
    some (Fmt.f32.round .rne .none 0 (FVal.sum false vs)).bits

/-! Members (R324). -/

def Coll.ld (x : Coll) : LDesc := x.d
def Coll.grp (x : Coll) : Group := { pkgs := x.pkgs, mask := x.mask }

/-- The members of the same collective on this package that have started. -/
def State.mates (s : State) (x : Coll) : SMap Coll :=
  s.colls.filter fun y => y.2.started && y.2.ctx == x.ctx && y.2.ld.group == x.ld.group && y.2.ld.tag == x.ld.tag && y.2.seq == x.seq

/-- The members agree (R324). -/
def Coll.agrees (x y : Coll) : Bool :=
  x.kind == y.kind && x.ld.ty == y.ld.ty && x.ld.op == y.ld.op && x.ld.count == y.ld.count &&
  (x.kind != 3 || x.ld.aux == y.ld.aux) && x.grp.n == y.grp.n

/-- Another package of a group whose loaded context lacks a die that the mask names (R318). -/
def State.lackingIn (s : State) (ctx : Nat) (pkgs : List Nat) (mask : Nat) : Bool :=
  pkgs.any fun p => p != s.sysNum &&
    (match (SMap.look s.peers p).bind fun q => SMap.look q.slots ctx with
      | some n => (maskDies mask).any (n ≤ ·)
      | none => false)

/-- A status that decides the collective before any data moves: no port left, a missing die, a disagreement, an unreachable package, a
member whose context has been terminated (R317, R318, R324, R329, R347). -/
def State.early (s : State) (x : Coll) : Option Nat :=
  let others := x.pkgs.filter (· != s.sysNum)
  let lacks (n : Nat) : Bool := (maskDies x.mask).any (n ≤ ·)
  if !others.isEmpty && decide (16 ≤ s.portsLost.length) then some 2
  else if lacks (s.dieCount x.socket x.ctx) ||
      s.lackingIn x.ctx x.pkgs x.mask ||
      (s.mates x).any (fun y => !x.agrees y.2) then some 3
  else if others.any (fun p => match SMap.look s.peers p with | none => true | some q => x.kind == 5 && !q.exch) then some 4
  else if (maskDies x.mask).any (fun v => (s.ctx ((s.dmap x.socket x.ctx).getD v 0) x.ctx).st == .ended) then some 9
  else none

/-- A package of a group on which the slot holds no loaded context: its members do not come (R318). -/
def State.emptyIn (s : State) (ctx : Nat) (pkgs : List Nat) : Bool :=
  pkgs.any fun p => p != s.sysNum &&
    (match SMap.look s.peers p with | some q => (SMap.look q.slots ctx).isNone | none => false)

/-- Such a package among a collective's. -/
def State.emptyPeer (s : State) (x : Coll) : Bool := s.emptyIn x.ctx x.pkgs

/-- A collective has an .SP buffer or a tile source: a panel that leaves its core completes it first (R329). A member without a source
has neither of the two as one (R322). -/
def Coll.onCore (x : Coll) : Bool :=
  (hasSrc x.kind x.grp.n x.rank x.ld && (x.ld.tile || !x.ld.srcG)) || (hasDst x.kind x.grp.n x.rank x.ld && !x.ld.dstG)

/-! Data. -/

/-- What the engine of a member accesses for: die, core, context slot. -/
def State.collAt (s : State) (x : Coll) : EngAt :=
  let k := match x.panel.bind s.panel? with | some p => p.core.getD 0x7F | none => 0x7F
  { d := x.socket, k := k, c := x.ctx }

/-- The status of a failed access (R331). -/
def failStatus (t : Trap) : Nat := if t == .remoteDenied then 7 else 6

/-- The lowest of the statuses that apply, OK and RESIDUAL last (R331). -/
def worse (a b : Nat) : Nat :=
  let bad (x : Nat) : Bool := x != 1 && x != 8
  if bad a && bad b then min a b else if bad a then a else if bad b then b else max a b

/-- One element of a member's source: its value, or the status that its failure gives. -/
def readElt (s : State) (x : Coll) (i : Nat) : EngR :=
  let w := s.collAt x
  let es := x.ld.es
  if x.ld.srcG then s.engRead w.d w.k w.c (Word.ofInt 64 (x.ld.srcA + es * i)) es true
  else .ok s (match x.panel.bind s.panel? with | some p => p.spRead (x.ld.srcA + es * i) es | none => 0)

/-- The entries of an exchange table (R344). -/
def readTable (w : EngAt) (a : Nat) : Nat → State → EngS (List (Nat × Nat × Nat × Nat))
  | 0, s => .ok s []
  | n + 1, s =>
    (s.rd w a 8).bind fun s1 x => (s1.rd w (a + 8) 8).bind fun s2 y =>
      (readTable w (a + 16) n s2).bind fun s3 es => .ok s3 ((x % 2 ^ 32, x / 2 ^ 32, y % 2 ^ 32, y / 2 ^ 32) :: es)

/-- An entry stays inside the .SP buffers of its member (R344). -/
def tableEntryOk (s : State) (x : Coll) (e : Nat × Nat × Nat × Nat) : Bool :=
  let lim := match x.panel.bind s.panel? with | some p => p.spBytes | none => 0
  (x.ld.srcG || x.ld.srcA + x.ld.es * (e.1 + e.2.1) ≤ lim) && (x.ld.dstG || x.ld.dstA + x.ld.es * (e.2.2.1 + e.2.2.2) ≤ lim)

/-- An element added to a block. -/
def addElt (bs : List (List (Option Nat))) (b : Nat) (v : Option Nat) : List (List (Option Nat)) :=
  bs.mapIdx fun i l => if i = b then l ++ [v] else l

/-- The status of a member with one more that applies. -/
def Coll.meets (x : Coll) (st : Nat) : Coll := { x with bad := some (worse st (x.bad.getD 1)) }

/-- The next read of a member's source (R328, R329): the table of an exchange and what the blocks take, then one element at a time; none
while it cannot be made. An entry that breaks R344 gives FAULT, and its block holds nothing that was read. -/
def captureSrc (s : State) (x : Coll) : Option (State × Coll) :=
  let w := s.collAt x
  match x.reads with
  | none =>
    if x.kind = 5 then
      (match readTable w x.ld.aux x.grp.n s with
      | .wait => none
      | .fail t _ => some (s, { x.meets (failStatus t) with reads := some [] })
      | .ok s1 es =>
        let good := es.mapIdx fun i (e : Nat × Nat × Nat × Nat) => (i, e, tableEntryOk s x e)
        let y := if good.all (·.2.2) then x else x.meets 6
        some (s1, { y with
          table := es
          reads := some (good.flatMap fun g => if g.2.2 then (List.range g.2.1.2.1).map fun k => (g.1, g.2.1.1 + k) else [])
          got := es.map fun _ => [] }))
    else some (s, { x with reads := some (((List.range ((srcCount x.kind x.grp.n x.rank x.ld).getD 0)).map fun k => (0, k))), got := [[]] })
  | some [] => some (s, { x with src := some x.got })
  | some ((b, i) :: rest) =>
    match readElt s x i with
    | .wait => none
    | .ok s1 v => some (s1, { x with reads := some rest, got := addElt x.got b (some v) })
    | .fail s1 t => some (s1, { x.meets (failStatus t) with reads := some rest, got := addElt x.got b none })

/-- The member of a rank: on this package its record, elsewhere none. -/
def mateAt (ms : SMap Coll) (r : Nat) : Option Coll := (ms.find? fun y => y.2.rank == r).map (·.2)

/-- Element e of a rank's source; a member on another package brings a free value. -/
def srcElt (ms : SMap Coll) (x : Coll) (r e : Nat) : Option Nat :=
  match mateAt ms r with
  | some y => (((y.src.getD []).getD 0 []).getD e none)
  | none => some (Config.outside (x.outside.getD 0) (r * 2 ^ 40 + e) % 2 ^ (8 * x.ld.es))

/-- Entry j of a rank's exchange table; none where its table could not be read. -/
def tableEntry (ms : SMap Coll) (x : Coll) (r j : Nat) : Option (Nat × Nat × Nat × Nat) :=
  match mateAt ms r with
  | some y => y.table[j]?
  | none =>
    let v (i : Nat) : Nat := Config.outside (x.outside.getD 0) (2 ^ 80 + (r * 2 ^ 22 + j) * 4 + i) % 2 ^ 32
    some (v 0, v 1, v 2, v 3)

/-- Element e of the block a rank sends to rank j. -/
def blockElt (ms : SMap Coll) (x : Coll) (r j e : Nat) : Option Nat :=
  match mateAt ms r with
  | some y => (((y.src.getD []).getD j []).getD e none)
  | none => some (Config.outside (x.outside.getD 0) (2 ^ 100 + (r * 2 ^ 22 + j) * 2 ^ 40 + e) % 2 ^ (8 * x.ld.es))

/-- Whether an entry of a rank is good: a member on another package breaks none that this one sees. -/
def mateEntryOk (s : State) (ms : SMap Coll) (r j : Nat) : Bool :=
  match mateAt ms r with
  | some y => (match y.table[j]? with | some e => tableEntryOk s y e | none => false)
  | none => true

/-- What a member of an exchange receives from rank j: the elements by index, and the status its entry gives (R331, R344). -/
def xchFrom (s : State) (ms : SMap Coll) (x : Coll) (j : Nat) : List (Nat × Option Nat) × Nat :=
  match tableEntry ms x x.rank j, tableEntry ms x j x.rank with
  | some mine, some its =>
    if !mateEntryOk s ms x.rank j then ([], 6)
    else if !mateEntryOk s ms j x.rank then ([], 1)
    else
      let k := min its.2.1 mine.2.2.2
      ((List.range k).map fun e => (mine.2.2.1 + e, blockElt ms x j x.rank e),
        if j ≠ x.rank ∧ mine.2.2.2 < its.2.1 then 5 else 1)
  | some mine, none => ([], if mine.2.2.2 = 0 then 1 else 6)
  | none, _ => ([], 6)

/-- What a member receives: the destination elements by index with their values, none where one derives from a failed access; and
the status its own entries give (R322, R323, R331, R344). -/
def resultOf (s : State) (ms : SMap Coll) (x : Coll) : List (Nat × Option Nat) × Nat :=
  let n := x.grp.n
  let c := x.ld.count
  let ranks := List.range n
  match x.kind with
  | 0 => (ranks.flatMap fun i => (List.range c).map fun e => (i * c + e, srcElt ms x i e), 1)
  | 1 => ((List.range c).map fun e => (e, foldRanks x.ld.op x.ld.ty (ranks.map fun i => srcElt ms x i (x.rank * c + e))), 1)
  | 2 => ((List.range c).map fun e => (e, foldRanks x.ld.op x.ld.ty (ranks.map fun i => srcElt ms x i e)), 1)
  | 3 => ((List.range c).map fun e => (e, srcElt ms x x.ld.aux e), 1)
  | 4 => (if x.rank = 0 then [] else (List.range c).map fun e => (e, srcElt ms x (x.rank - 1) e), 1)
  | 5 =>
    let rs := ranks.map (xchFrom s ms x)
    (rs.flatMap (·.1), rs.foldl (fun a r => worse a r.2) 1)
  | _ =>
    let part (r : Nat) : Option Nat :=
      match mateAt ms r with
      | some y => normPartial y.ld.ty ((y.src.getD []).getD 0 [])
      | none => some (Config.outside (x.outside.getD 0) (r * 2 ^ 40) % 2 ^ 32)
    ([(0, foldRanks 0 0 (ranks.map part))], 1)

/-- The rank whose bytes a destination element is: of a fold the member itself (log 27). -/
def eltSender (x : Coll) (i : Nat) : Option Nat :=
  match x.kind with
  | 0 => some (i / x.ld.count)
  | 3 => some x.ld.aux
  | 4 => some (x.rank - 1)
  | _ => none

/-- The destination elements of a member by index, with their values and the ranks that send them: of an exchange the rank of the entry
(R349). -/
def eltsOut (s : State) (ms : SMap Coll) (x : Coll) : List (Nat × Option Nat × Option Nat) :=
  if x.kind = 5 then (List.range x.grp.n).flatMap fun j => (xchFrom s ms x j).1.map fun e => (e.1, e.2, some j)
  else (resultOf s ms x).1.map fun e => (e.1, e.2, eltSender x e.1)

/-- A write of a collective denied at its destination: DENIED at the member that sent it (R349), the member itself where none is
named here. -/
def State.denyElt (s : State) (id : Nat) (x : Coll) (from' : Option Nat) : State :=
  match from'.bind fun r => (s.mates x).find? fun y => y.2.rank == r with
  | some (k, y) => { s with colls := SMap.put s.colls k (y.meets 7) }
  | none =>
    match SMap.look s.colls id with
    | some y => { s with colls := SMap.put s.colls id (y.meets 7) }
    | none => s

/-- One element of a member's destination written: an event of T (R215, R221); none while its place cannot be reached. Under a status other than
OK or RESIDUAL, whether it is written is a free value (R329). -/
def writeElt (s : State) (id : Nat) (x : Coll) (e : Nat × Option Nat × Option Nat) (rest : List (Nat × Option Nat × Option Nat)) :
    Option State :=
  let w := s.collAt x
  let es := x.ld.es
  let poor := x.status != 1 && x.status != 8
  let s0 := if poor then { s with free := s.free + 1 } else s
  let put (s : State) (n st : Nat) : State :=
    { s with colls := SMap.put s.colls id { x with out := some rest, bytes := x.bytes + n, status := worse x.status st } }
  match e.2.1 with
  | none => some (put s0 0 1)
  | some v =>
    if poor && Config.pick s.free % 2 == 1 then some (put s0 0 1)
    else if x.ld.dstG then
      match s0.engWrite w.d w.k w.c (Word.ofInt 64 (x.ld.dstA + es * e.1)) es v true with
      | .wait => none
      | .ok s1 1 => some (put s1 es 1)
      | .ok s1 _ => some (put s1 0 6)
      | .fail s1 t => if t == .remoteDenied then some ((put s1 0 1).denyElt id x e.2.2) else some (put s1 0 6)
    else
      some (put (match x.panel with | some h => s0.modPanel h fun p => p.spWrite (x.ld.dstA + es * e.1) es v | none => s0) es 1)

/-! Completion (R328, R330, R332, R333). -/

/-- The ring slot of index i of queue q of a die: LOG2N below 4 acts as 4. -/
def State.cqSlot (s : State) (d c q i : Nat) : Nat :=
  let r := (s.ctxReg d c (0x20 + q)).toNat
  let n := 2 ^ max 4 (Word.bits r 11 8)
  Word.bits r 63 12 * 4096 + s.vdie d c d * 32 * n + 32 * (i % n)

/-- A completion record written to queue q of a die, discarded with OVF at a full ring, or discarded with a fault log entry where the
slot cannot be written. -/
def State.writeRecord (s : State) (w : EngAt) (q : Nat) (intr : Bool) (rec' : List Nat) : EngS Unit :=
  let x := s.ctx w.d w.c
  let r := (s.ctxReg w.d w.c (0x20 + q)).toNat
  let n := 2 ^ max 4 (Word.bits r 11 8)
  let wi := SMap.lookD x.wi q 0
  let ri := SMap.lookD x.ri q 0
  if !Word.bit r 0 then .ok s ()
  else if (wi + 2 ^ 32 - ri) % 2 ^ 32 = n then
    .ok (s.modCtx w.d w.c fun y => { y with regs := SMap.put y.regs (0x20 + q) (SMap.lookD y.regs (0x20 + q) 0 ||| 2) }) ()
  else
    let a := s.cqSlot w.d w.c q wi
    match EngS.each (fun s e => s.wr w (a + 8 * e.1) 8 e.2) (rec'.mapIdx fun i v => (i, v)) s with
    | .wait => .wait
    | .ok s1 _ =>
      let s2 := s1.modCtx w.d w.c fun y => { y with wi := SMap.put y.wi q ((wi + 1) % 2 ^ 32) }
      .ok (if intr then s2.setEvent w.d 1 else s2) ()
    | .fail t va =>
      .ok ((s.countEng w t va).logFault w.d (s.bareFlog t.code 0 w.c (s.vdie w.d w.c w.d) (s.faultAddr w.d w.c va))) ()

/-- The members of this package that a collective needs, by rank. -/
def localRanks (s : State) (x : Coll) : List Nat := x.grp.ranksOf s.sysNum

/-- A collective forgotten once every member on this package is finished. -/
def State.forget (s : State) (x : Coll) : State :=
  let ms := s.mates x
  if (localRanks s x).all (fun r => ms.any fun y => y.2.rank == r && y.2.fin) then
    { s with colls := s.colls.filter fun y => !(ms.any fun z => z.1 == y.1) }
  else s

/-- Completion under every status: entry, knot, counter, record, COLL_FAIL. -/
def State.finishColl (s : State) (id : Nat) (x : Coll) (status bytes idle plan : Nat) : EngS Unit :=
  let d := x.ld
  let w := s.collAt x
  let who : List Ex := x.slices.map fun (e : Ex × W64) => e.1
  let s0 : State := match x.sb with | some (key, idx) => s.sbRetire key id idx | none => s
  let s1 : State := match x.panel with
    | some h => s0.modPanel h fun p => { p with saved := p.saved.filter fun e => e.op != id }
    | none => s0
  let s2 :=
    match d.comp, x.knot with
    | 0, some (h, off) =>
      let u : KnotUpd := { panel := h, off := off, addr := d.compl, credit := some bytes, who := who, op := some id }
      -- the credit of a panel off its core is held until it resumes (R329)
      if ((s1.panel? h).map fun (p : Panel) => p.core.isNone).getD true then s1.sendKnot u else s1.knotApply id u
    | 1, _ => s1.scAdd x.socket ((s1.scWin x.socket x.ctx).1 + d.compl % 2 ^ 12) 1
    | _, _ => s1
  let w0 := min idle (2 ^ 24 - 1) * 2 ^ 40 + x.rank * 2 ^ 16 + x.kind * 2 ^ 12 + (if d.intr then 2 ^ 8 else 0) + status
  let rec' : List Nat := [w0, d.tag * 2 ^ 32 + (x.seq + 1) % 2 ^ 32, s.time.toNat, plan * 2 ^ 32 + bytes]
  let s3 :=
    if d.cq || status = 1 || status = 8 then s2
    else x.slices.foldl (fun s e =>
      if s.alive e.1 (x.since.getD id) then
        s.recordAsync e.1 { trap := .collFail, d0 := BitVec.ofNat 64 d.tag, d1 := BitVec.ofNat 64 (status * 2 ^ 32) }
      else s) s2
  (if d.cq then s3.writeRecord w d.cqn d.intr rec' else .ok s3 ()).bind fun s4 _ =>
    let s5 := ({ s4 with colls := SMap.put s4.colls id { x with fin := true } } : State).progressed x.socket x.ctx
    .ok ((match x.panel with | some h => (s5.forget x).post (.panelComplete h) | none => s5.forget x)) ()

/-- IDLE of a member of an exchange: what it posted and did not send (R330, R344). -/
def idleOf (x : Coll) (q : Exch) : Nat :=
  ((SMap.lookD q.posts x.rank []).mapIdx fun j (dem : Nat) =>
    if j = x.rank then 0 else dem - SMap.lookD q.sent (x.rank * 2 ^ 32 + j) 0).foldl (· + ·) 0

/-- The exchange of a COLL.XCH. -/
def State.exchOf (s : State) (x : Coll) : Option Exch :=
  s.exchs.find? fun q => q.ctx == x.ctx && q.group == x.ld.group && q.tag == x.ld.tag && q.pos == x.seq

/-- The norm deposited in a die's mailbox (R340). -/
def State.deposit (s : State) (x : Coll) (v : Nat) : State :=
  s.modCtx x.socket x.ctx fun y =>
    let old := (SMap.lookD y.regs (0x30 + x.ld.aux) 0).toNat
    let new := BitVec.ofNat 64 (2 ^ 63 + (Word.bits old 47 32 + 1) % 2 ^ 16 * 2 ^ 32 + v)
    { y with regs := SMap.put y.regs (0x30 + x.ld.aux) new }

/-- Members on other packages answer in a way that is a free value (log 21): not yet, in disagreement, terminated, or with their data.
The answer is the same for every member here. -/
def State.askPeers (s : State) (x : Coll) : State × Option Nat × Bool :=
  let put (f : Coll → Coll) (s : State) : State :=
    (s.mates x).foldl (fun s y => { s with colls := SMap.put s.colls y.1 (f y.2) }) s
  let s1 := { s with free := s.free + 1 }
  match Config.pick s.free % 4 with
  | 0 => (s1, none, false)
  | 1 => (put (fun y => { y with forced := some 3 }) s1, some 3, false)
  | 2 => (put (fun y => { y with forced := some 9 }) s1, some 9, false)
  | _ => (put (fun y => { y with outside := some s.free }) s1, none, true)

/-- The status that ends a collective whatever its data: decided for one of its members on this package, or decided now; with it the
others that apply to this member (R331). -/
def State.endStatus (s : State) (x : Coll) : Option Nat :=
  ((x.forced.or ((s.mates x).findSome? fun y => y.2.forced)).or (s.early x)).map fun st =>
    worse (worse st ((s.early x).getD 1)) (worse (x.bad.getD 1) x.status)

/-- A member cannot reach another one of its group now: the rings hold new injections (R19). -/
def State.collHeld (s : State) (x : Coll) : Bool := s.rings.held && decide (1 < x.grp.n)

/-- A member has written its destination, or has no more part in it. -/
def Coll.wrote (y : Coll) : Bool := y.fin || y.out == some []

/-- COLL_COMPLETE (R328): a started member reads its source, waits for the other members, writes its destination, and completes once the
members it sent to have written theirs. One element moves in each step (R215). -/
def execCollComplete (id : Nat) (s : State) : Out :=
  match SMap.look s.colls id with
  | none => .next s
  | some x =>
    let again (s : State) : Out := .next (s.post (.collComplete id))
    let q := if x.kind = 5 then s.exchOf x else none
    let idle := match q with | some q => idleOf x q | none => 0
    let plan := match q with | some q => q.num | none => 0
    let done (s1 : State) (y : Coll) (st bytes : Nat) : Out :=
      match s1.finishColl id y st bytes idle plan with
      | .ok s2 _ => .next s2
      | .wait => again s
      | .fail _ _ => again s
    if !x.started || x.fin then .next s
    else if s.collHeld x then again s
    else
      match s.endStatus x with
      | some st => done s { x with forced := some (x.forced.getD st) } st x.bytes
      | none =>
        if (match x.sb with | some (k, i) => s.sbOlder k i | none => false) then again s
        else if x.src.isNone then
          match captureSrc s x with
          | none => again s
          | some (s1, y) =>
            let s2 := { s1 with colls := SMap.put s1.colls id y }
            if x.kind = 5 && y.src.isSome then .next ((s2.post (.exchangePhase id)).post (.collComplete id)) else again s2
        else
          let ms := s.mates x
          let abroad := x.pkgs.any (· != s.sysNum)
          if ((localRanks s x).any fun r => (match mateAt ms r with | some y => y.src.isNone | none => true)) || s.emptyPeer x then again s
          else if abroad && x.outside.isNone then again (s.askPeers x).1
          else if x.kind = 5 && !(match q with | some q => q.isOver | none => false) then again s
          else
            match x.out with
            | none =>
              let (els, own) := resultOf s ms x
              let derived := if els.any (fun e => e.2.isNone) then 6 else 1
              let base := if (match q with | some q => q.resid | none => false) then 8 else 1
              let y : Coll := { x with
                out := some (if x.kind = 8 then [] else eltsOut s ms x)
                status := worse (worse base derived) own }
              -- the members' data crossed the rings (R217)
              let s1 := ms.foldl (fun s z => s.cross z.2.socket 0x7F x.socket) s
              again { s1 with colls := SMap.put s.colls id y }
            | some (e :: rest) =>
              (match writeElt s id x e rest with
              | some s1 => again s1
              | none => again s)
            | some [] =>
              if (localRanks s x).any (fun r => match mateAt ms r with | some y => !y.wrote | none => true) then again s
              else
                let st := worse x.status (x.bad.getD 1)
                match x.kind, (resultOf s ms x).1 with
                | 8, [(_, some v)] => done (if st = 1 then s.deposit x v else s) x st (if st = 1 then 4 else 0)
                | _, _ => done s x st x.bytes

/-! Completion queues, counters, mailboxes, virtual dies. -/

/-- Scalar results in consecutive S registers, each pending until it arrives (R325). -/
def sendRegs (s : State) (c : Cx) (x : Args) (vals : List Nat) : Out :=
  let one (s : State) (r : Nat × Nat) : State :=
    let id := s.nextId
    (({ s with nextId := id + 1 }).pendVec c id x.look.toNat .w64 (.s (BitVec.ofNat 6 r.1))).sendKnown c id c.low r.2
  .next ((vals.mapIdx fun i (v : Nat) => ((sregOf x.d).getD 0 + i, v)).foldl one (s.advance c))

/-- CQRD (R334). -/
def execCqrd (x : Args) (s : State) : Out :=
  run (.cqrd x) s fun c x =>
    if !c.any then .next (s.advance c)
    else
      let q := c.uni .w64 x.a
      let d := (s.site c.ex).1
      let k := s.ctxOf c.ex
      if 16 ≤ q then trapOut s c { trap := .illegalOperand }
      else slotGate s c [.loaded] fun _ =>
        let y := s.ctx d k
        let ri := SMap.lookD y.ri q 0
        if ri = SMap.lookD y.wi q 0 then sendRegs s c x [0, 0, 0, 0]
        else ordered s c false true fun _ =>
          andCtx s c d k (s.cqSlot d k q ri) 4 fun ws =>
            let s1 := s.modCtx d k fun y => { y with ri := SMap.put y.ri q ((ri + 1) % 2 ^ 32) }
            sendRegs (s1.dropL1 c.ex) c x (ws.map (·.toNat))

/-- SCINC (R336). -/
def execScinc (x : Args) (s : State) : Out :=
  run (.scinc x) s fun c x =>
    if !c.any then .next (s.advance c)
    else
      let n := c.uni .w64 x.b
      let d := (s.site c.ex).1
      let k := s.ctxOf c.ex
      if n = 0 || 2 ^ 32 ≤ n then trapOut s c { trap := .illegalOperand }
      else slotGate s c [.loaded] fun _ =>
        match s.scPlace d k (c.uni .w64 x.a) with
        | .error t => trapOut s c t
        | .ok (t, i) => ordered s c true false fun _ =>
          let s1 := (s.advance c).crossCore d (s.site c.ex).2 t
          let y : ScInc := { ctx := k, socket := t, home := d, cnt := i, amt := n }
          .next (({ s1 with scIncs := SMap.put s1.scIncs s1.nextId y, nextId := s1.nextId + 1 }).post (.stitchIncrement s1.nextId))

/-- STITCH_INCREMENT (R336). -/
def execStitchIncrement (id : Nat) (s : State) : Out :=
  match SMap.look s.scIncs id with
  | some y =>
    if (s.rings.held && y.home != y.socket) || s.gone y.socket then .next (s.post (.stitchIncrement id))
    else .next ({ s with scIncs := SMap.del s.scIncs id }.scAdd y.socket y.cnt y.amt)
  | none => .next s

/-- A counter of another die cannot be reached now (R19). -/
def State.scFar (s : State) (e : Ex) (t : Nat) : Bool := (s.rings.held && (s.site e).1 != t) || s.gone t

/-- SCRD (R336). -/
def execScrd (x : Args) (s : State) : Out :=
  run (.scrd x) s fun c x =>
    if !c.any then .next (s.advance c)
    else slotGate s c [.loaded] fun _ =>
      match s.scPlace (s.site c.ex).1 (s.ctxOf c.ex) (c.uni .w64 x.a) with
      | .error t => trapOut s c t
      | .ok (t, i) => ordered s c false false fun _ =>
        if s.scFar c.ex t then waitOut s
        else sendRegs (s.crossCore (s.site c.ex).1 (s.site c.ex).2 t) c x [(s.sc t i).toNat]

/-- SCWAIT (R336). -/
def execScwait (x : Args) (s : State) : Out :=
  run (.scwait x) s fun c x =>
    if !c.any then .next (s.advance c)
    else slotGate s c [.loaded] fun _ =>
      match s.scPlace (s.site c.ex).1 (s.ctxOf c.ex) (c.uni .w64 x.a) with
      | .error t => trapOut s c t
      | .ok (t, i) => ordered s c false true fun _ =>
        if s.scFar c.ex t || decide ((s.sc t i).toNat < c.uni .w64 x.b) then waitAs s c .form
        else .next (((s.advance c).crossCore (s.site c.ex).1 (s.site c.ex).2 t).dropL1 c.ex)

/-- MBRD (R341). -/
def execMbrd (x : Args) (s : State) : Out :=
  run (.mbrd x) s fun c x =>
    if !c.any then .next (s.advance c)
    else
      let n := c.uni .w64 x.a
      if 8 ≤ n then trapOut s c { trap := .illegalOperand }
      else slotGate s c [.loaded] fun _ => ordered s c false true fun _ =>
        let v := s.ctxReg (s.site c.ex).1 (s.ctxOf c.ex) (0x30 + n)
        if v.getLsbD 63 then .next (((s.advance c).writeVec c .w64 x.d fun _ => v.toNat).dropL1 c.ex)
        else waitAs s c .form

/-- VDHOP (R350). -/
def execVdhop (x : Args) (s : State) : Out :=
  run (.vdhop x) s fun c x =>
    if !c.any then .next (s.advance c)
    else slotGate s c [.loaded] fun _ =>
      let m := s.dmap (s.site c.ex).1 (s.ctxOf c.ex)
      let a := c.uni .w64 x.a
      let b := c.uni .w64 x.b
      if m.length ≤ a || m.length ≤ b then trapOut s c { trap := .illegalOperand }
      else ordered s c false false fun _ => sendRegs s c x [s.hops (m.getD a 0) (m.getD b 0)]

/-- The description of virtual die v (R351). -/
def State.vdqVal (s : State) (d c v : Nat) : Nat :=
  if v = 255 then s.sysNum * 2 ^ 8 + s.pkg
  else
    let r := (s.ctxReg d c v).toNat
    (if Word.bit r 31 then 2 ^ 31 else 0) + Word.bits r 23 16 * 2 ^ 16 + s.dieCount d c

/-- VDQ (R351). -/
def execVdq (x : Args) (s : State) : Out :=
  run (.vdq x) s fun c x =>
    if !c.any then .next (s.advance c)
    else
      let v := c.uni .w64 x.a
      if 16 ≤ v && v != 255 then trapOut s c { trap := .illegalOperand }
      else slotGate s c [.loaded] fun _ =>
        ordered s c false false fun _ => sendRegs s c x [s.vdqVal (s.site c.ex).1 (s.ctxOf c.ex) v]

/-! Triggers (R337, R338). -/

/-- TRIG. -/
def execTrig (x : Args) (s : State) : Out :=
  run (.trig x) s fun c x =>
    if !c.any then .next (s.advance c)
    else
      let t := (sregOf x.b).getD 0
      let w := c.s t
      let time := w / 2 ^ 62 == 1
      let kind := Word.bits w 34 32
      let d := (s.site c.ex).1
      let k := s.ctxOf c.ex
      if 1 < w / 2 ^ 62 || Word.bits w 61 60 != 0 || Word.bits w 47 35 != 0 || 4 < kind || (time && (w % 2 ^ 32 != 0 || t == 63)) then
        trapOut s c { trap := .illegalOperand }
      else slotGate s c [.loaded] fun _ =>
        let n := Word.bits w 59 48
        if !time && (s.scWin d k).2 ≤ n then trapOut s c { trap := .scRange, d0 := BitVec.ofNat 64 n }
        else
          let b := (sregOf x.a).getD 0
          let ld : LDesc := (List.range 8).map fun n => BitVec.ofNat 64 (c.s (b + n))
          match collWordFault kind true ld false with
          | some (w, f) => trapOut s c (collTrap w f)
          | none =>
            andRead s c (s.readPlace c.ex) ld.group (s.groupBytes c.ex ld.group) (s.groupNotYet c.ex ld.group (s.po c))
                (s.readGroup c.ex d k ld.group) fun g =>
              let rank := g.rank s.sysNum (s.vdie d k d)
              match collSizeFault kind g.n rank ld with
              | some (w, f) => trapOut s c (collTrap w f)
              | none =>
                let mis (on : Bool) (a : Nat) : List TrapInfo :=
                  if on && a % ld.es != 0 then [{ trap := .misaligned, d0 := BitVec.ofNat 64 a }] else []
                let sc : List TrapInfo :=
                  if ld.comp = 1 then (match s.scPlace d k ld.compl with | .error t => [t] | .ok _ => []) else []
                match pickTrap (mis (hasSrc kind g.n rank ld) ld.srcA ++ mis (hasDst kind g.n rank ld) ld.dstA ++ sc) with
                | some t => trapOut s c t
                | none => ordered s c true false fun _ =>
                  match (List.range 1024).find? fun i => (SMap.look (s.die d).trigs i).isNone with
                  | none => waitOut s
                  | some i =>
                    let s1 := s.advance c
                    let y : Trig := {
                      ctx := k, time := time, cnt := (s.scWin d k).1 + n, thresh := if time then c.s (t + 1) else w % 2 ^ 32,
                      kind := kind, d := ld, pkgs := g.pkgs, mask := g.mask, rank := rank, order := s1.nextId,
                      who := c.ex, pc := c.pc }
                    .next ((({ s1 with nextId := s1.nextId + 1 }).modDie d fun z => { z with trigs := SMap.put z.trigs i y }).post
                      (.triggerFire d i))

/-- TRIGGER_FIRE (R338): of triggers on one counter that are due together, the one issued first goes first. -/
def execTriggerFire (d i : Nat) (s : State) : Out :=
  match SMap.look (s.die d).trigs i with
  | none => .next s
  | some t =>
    if !s.trigDue d t then .next (if t.time then s.post (.triggerFire d i) else s)
    else if (s.die d).trigs.any (fun u => !t.time && !u.2.time && u.2.cnt == t.cnt && u.2.order < t.order && s.trigDue d u.2) then
      .next (s.post (.triggerFire d i))
    else
      let s1 := s.modDie d fun z => { z with trigs := SMap.del z.trigs i }
      let id := s1.nextId
      let x : Coll := { kind := t.kind, d := t.d, ctx := t.ctx, socket := d, pkgs := t.pkgs, mask := t.mask, rank := t.rank,
                          slices := [(t.who, t.pc)], since := some t.order }
      .next (({ s1 with nextId := id + 1 }).beginColl id x)

end Sys2Proof.Machine
end

