-- ==== Sys2Proof/Machine/Exchange.lean ====
section
/-! DEFINITION. Arbitrated exchange (R342 to R346): demands, the lay plan, phases and residual plans, the arbiters and their takeover;
and the loss of external ports (R347). -/

namespace Sys2Proof.Machine

/-! The lay plan (R343). -/

/-- The destination a row takes: the largest positive demand among those not taken, ties to the lowest. -/
def bestDest (taken : List Nat) (row : List Nat) : Option Nat :=
  ((row.mapIdx fun j (v : Nat) => (j, v)).foldl (fun (best : Option (Nat × Nat)) jv =>
    if jv.2 = 0 || taken.contains jv.1 then best
    else
      match best with
      | some b => if b.2 < jv.2 then some jv else best
      | none => some jv) none).map (·.1)

/-- The pairs of one phase. -/
def layPairs (m : List (List Nat)) : List (Nat × Nat) :=
  ((m.mapIdx fun i (row : List Nat) => (i, row)).foldl (fun (acc : List (Nat × Nat)) r =>
    match bestDest (acc.map (·.2)) r.2 with
    | some j => acc ++ [(r.1, j)]
    | none => acc) [])

/-- The phases of a plan; `fuel` is the number of positive demands, each phase satisfying one at least. -/
def layPhases : Nat → List (List Nat) → List (List (Nat × Nat × Nat))
  | 0, _ => []
  | fuel + 1, m =>
    let dem (ij : Nat × Nat) : Nat := (m.getD ij.1 []).getD ij.2 0
    match layPairs m with
    | [] => []
    | p :: ps =>
      let q := ps.foldl (fun n r => min n (dem r)) (dem p)
      let m1 := m.mapIdx fun i (row : List Nat) => row.mapIdx fun j (v : Nat) => if (p :: ps).contains (i, j) then v - q else v
      ((p :: ps).map fun r => (r.1, r.2, q)) :: layPhases fuel m1

/-- LAY_PLAN (R343). -/
def layPlan (m : List (List Nat)) : List (List (Nat × Nat × Nat)) :=
  layPhases (m.foldl (fun n row => n + (row.filter (· != 0)).length) 0) m

/-! Exchanges. -/

def Exch.grp (q : Exch) : Group := { pkgs := q.pkgs, mask := q.mask }

/-- An exchange that spans packages. -/
def State.spans (s : State) (q : Exch) : Bool := q.pkgs.any (· != s.sysNum)

/-- The demands of a member: what it posted, a free value on another package (log 21); none to itself. -/
def demandRow (s : State) (q : Exch) (i : Nat) : List Nat :=
  let n := q.grp.n
  let row := match SMap.look q.posts i with
    | some r => r
    | none => if (q.grp.ranksOf s.sysNum).contains i then [] else (List.range n).map fun j => Config.outside q.outside (2 ^ 120 + i * 2 ^ 22 + j) % 2 ^ 32
  row.mapIdx fun j (v : Nat) => if j = i then 0 else v

namespace State

/-- An exchange replaced, or added. -/
def putExch (s : State) (q : Exch) : State :=
  let same (r : Exch) : Bool := r.ctx == q.ctx && r.group == q.group && r.tag == q.tag && r.pos == q.pos
  { s with exchs := s.exchs.filter (fun r => !same r) ++ [q] }

/-- The last plan number of the arbiter that serves an exchange: the package's own, or that of exchanges which span packages. DESIGN
CHOICE: each numbers its own plans (R345; log 93). -/
def lastPlan (s : State) (q : Exch) : Nat := if s.spans q then s.arb.lastCross else s.arb.last

/-- The number set. -/
def setPlan (s : State) (cross : Bool) (num : Nat) : State :=
  { s with arb := if cross then { s.arb with lastCross := num } else { s.arb with last := num } }

/-- A member on this package and the Lay Arbiter, on IOD-W, exchange a message (R217, R345). -/
def toldArb (s : State) (x : Coll) : State := s.cross x.socket 0x7F 16

/-- A plan issued for demands (R343), numbered next. -/
def givePlan (s : State) (q : Exch) (m : List (List Nat)) : State :=
  let num := (s.lastPlan q + 1) % 2 ^ 32
  (s.setPlan (s.spans q) num).putExch { q with num := num, phases := some (layPlan m), begun := [] }

/-- The plan of an exchange once every member has posted; none where a package of the group has no members to post, or lacks one that the
mask names (R318). -/
def tryPlan (s : State) (q : Exch) : State :=
  if q.phases.isNone && !s.emptyIn q.ctx q.pkgs && !s.lackingIn q.ctx q.pkgs q.mask && (q.grp.ranksOf s.sysNum).all (fun r => (SMap.look q.posts r).isSome) then
    s.givePlan q ((List.range q.grp.n).map fun i => demandRow s q i)
  else s.putExch q

/-- The exchange of a pair at a position, made where there is none. -/
def exchAt (s : State) (ctx group tag pos : Nat) (g : Group) : State × Exch :=
  match s.exchs.find? fun q => q.ctx == ctx && q.group == group && q.tag == tag && q.pos == pos with
  | some q => (s, q)
  | none =>
    ({ s with free := s.free + 1 },
      { ctx := ctx, group := group, tag := tag, pos := pos, pkgs := g.pkgs, mask := g.mask, outside := s.free })

/-- 32-bit words of global memory read at issue with Mem.Read. -/
def readUnits (s : State) (e : Ex) (va : Nat) : Nat → Res (List Nat)
  | 0 => .ok []
  | n + 1 =>
    (s.placeOf e va .read).bind fun r =>
      match r.2 with
      | none => .trap { trap := .remoteDenied, d0 := BitVec.ofNat 64 va, d1 := s.cur.pc }
      | some p =>
        if s.groupBad p && !s.l2Has p 4 then .trap { trap := .dataError, d0 := BitVec.ofNat 64 va }
        else (s.readUnits e (va + 4) n).bind fun ws => .ok (s.readAt p 4 :: ws)

end State

/-- Every earlier write of the issuing panel is acknowledged (R221, R342). -/
def State.issuerReleased (s : State) (e : Ex) : Bool :=
  match e.panel.bind fun h => (s.panel? h).map fun p => (h, p) with
  | some (h, p) => s.panelReleased h p
  | none => s.released e

/-- DPOST (R342). -/
def execDpost (x : Args) (s : State) : Out :=
  run (.dpost x) s fun c x =>
    if !c.any then .next (s.advance c)
    else
      let b := (sregOf x.a).getD 0
      let group := c.s (b + 4)
      let tag := c.s (b + 7)
      let a := c.uni .w64 x.b
      let d := (s.site c.ex).1
      let k := s.ctxOf c.ex
      if 2 ^ 32 ≤ tag then trapOut s c (collTrap 7 32)
      else andRead s c (s.readPlace c.ex) group (s.groupBytes c.ex group) (s.groupNotYet c.ex group (s.po c))
          (s.readGroup c.ex d k group) fun g =>
        let out (p : Nat) : Bool := p != s.sysNum && (match SMap.look s.peers p with | some q => !q.exch | none => true)
        if g.pkgs.any out || 4096 < g.n then trapOut s c (collTrap 4 0)
        else if a % 4 ≠ 0 then trapOut s c { trap := .misaligned, d0 := BitVec.ofNat 64 a }
        else
          andRead s c (s.readPlace c.ex) a (4 * g.n) (s.notYet c.ex a (4 * g.n) (s.po c)) (s.readUnits c.ex a g.n) fun counts =>
            ordered s c true false fun _ =>
            if !s.issuerReleased c.ex then waitOut s else
            let s1 := s.advance c
            let id := s1.nextId
            let y : Demand := {
              ctx := k, socket := d, group := group, tag := tag, pos := s1.seqOf k d group tag true, pkgs := g.pkgs, mask := g.mask,
              rank := g.rank s.sysNum (s.vdie d k d), counts := counts }
            .next ((({ s1 with demands := SMap.put s1.demands id y, nextId := id + 1 }).bumpSeq k d group tag true).post
              (.exchangeDemand id))

/-- EXCHANGE_DEMAND (R342, R343). -/
def execExchangeDemand (id : Nat) (s : State) : Out :=
  match SMap.look s.demands id with
  | none => .next s
  | some y =>
    -- the arbiter stands on IOD-W: the rings carry the demand (R19, R217, R345)
    if s.rings.held then .next (s.post (.exchangeDemand id))
    else
    let s1 := ({ s with demands := SMap.del s.demands id }).cross y.socket 0x7F 16
    let (s2, q) := s1.exchAt y.ctx y.group y.tag y.pos { pkgs := y.pkgs, mask := y.mask }
    match SMap.look q.posts y.rank with
    | some _ => .next s2
    | none => .next (s2.tryPlan { q with posts := SMap.put q.posts y.rank y.counts })

/-! Phases (R344). -/

def sendKey (i j : Nat) : Nat := i * 2 ^ 32 + j

/-- The bytes a member really has for another: its table's, once it is read. -/
def actualOf (s : State) (ms : SMap Coll) (x : Coll) (i j : Nat) : Nat :=
  match tableEntry ms x i j with
  | some e => if i ≠ j && mateEntryOk s ms i j then x.ld.es * e.2.1 else 0
  | none => 0

/-- A member's transfer of one phase: at most its quota, at most what it has. -/
def sendPhase (s : State) (ms : SMap Coll) (x : Coll) (q : Exch) (r : Nat) (phase : List (Nat × Nat × Nat)) : Exch :=
  match phase.find? (fun p => p.1 == r) with
  | none => q
  | some p =>
    let key := sendKey r p.2.1
    let old := SMap.lookD q.sent key 0
    { q with sent := SMap.put q.sent key (old + min p.2.2 (actualOf s ms x r p.2.1 - old)) }

/-- EXCHANGE_PHASE (R344): a member ends the phase it is in, or begins its next one; after the last phase of every member a residual
plan, or the end. -/
def execExchangePhase (id : Nat) (s : State) : Out :=
  match SMap.look s.colls id with
  | none => .next s
  | some x =>
    let again (s : State) : Out := .next (s.post (.exchangePhase id))
    if x.fin || x.src.isNone || x.kind != 5 then .next s
    -- grants and reports cross the rings (R19)
    else if s.rings.held then again s
    else
      let (s0, q) := s.exchAt x.ctx x.ld.group x.ld.tag x.seq x.grp
      let gone := s.spans q && !s.arb.crossPrimary && !s.arb.crossStandby
      if gone then .next { s with colls := SMap.put s.colls id { x with forced := some 2 } }
      else if q.isOver then .next s
      else if !x.posted && (SMap.look q.posts x.rank).isNone then
        again ((s0.toldArb x).tryPlan { q with posts := SMap.put q.posts x.rank (List.replicate x.grp.n 0) })
      else
        match q.phases with
        | none => again (s0.tryPlan q)
        | some ph =>
          let ms := s.mates x
          let (b, act) := SMap.lookD q.begun x.rank (0, false)
          if act then
            let q1 := sendPhase s ms x q x.rank (ph.getD (b - 1) [])
            again ((s0.toldArb x).putExch { q1 with begun := SMap.put q1.begun x.rank (b, false) })
          else if b < ph.length then again ((s0.toldArb x).putExch { q with begun := SMap.put q.begun x.rank (b + 1, true) })
          else
            let here := x.grp.ranksOf s.sysNum
            let ready (r : Nat) : Bool :=
              SMap.lookD q.begun r (0, false) == (ph.length, false) && (match mateAt ms r with | some y => y.src.isSome | none => false)
            if !here.all ready || (s.spans q && x.outside.isNone) then again s0
            else
              let far := (List.range x.grp.n).filter fun r => !here.contains r
              let q1 := far.foldl (fun q r => ph.foldl (fun q p => sendPhase s ms x q r p) q) q
              let left := (List.range x.grp.n).map fun i => (List.range x.grp.n).map fun j =>
                actualOf s ms x i j - SMap.lookD q1.sent (sendKey i j) 0
              if left.any (fun row => row.any (· != 0)) then again (s0.givePlan { q1 with resid := true } left)
              else .next (s0.putExch { q1 with isOver := true })

/-! LPQ (R346). -/

/-- The two words of a report. -/
def lpqVals (q : Exch) (rank p : Nat) : List Nat :=
  match q.phases with
  | none => [0, 0]
  | some ph =>
    if p = 2 ^ 32 - 1 then
      let (b, act) := SMap.lookD q.begun rank (0, false)
      [q.num * 2 ^ 32 + ph.length,
        (b - 1) + (if act then 2 ^ 32 else 0) + (if b = ph.length && !act then 2 ^ 33 else 0)]
    else if p < ph.length then
      let phase := ph.getD p []
      let dst := phase.find? fun r => r.1 == rank
      let src := phase.find? fun r => r.2.1 == rank
      [(match dst with | some r => r.2.1 | none => 0xFFFFFF) + (match src with | some r => r.1 | none => 0xFFFFFF) * 2 ^ 24,
        (match dst with | some r => r.2.2 | none => 0) + (match src with | some r => r.2.2 | none => 0) * 2 ^ 32]
    else [0, 0]

/-- LPQ (R346): the latest exchange of the pair that the issuing member has posted. The zero field of the TAG word it reads is checked as
in every descriptor (R321, R322). -/
def execLpq (x : Args) (s : State) : Out :=
  run (.lpq x) s fun c x =>
    if !c.any then .next (s.advance c)
    else slotGate s c [.loaded] fun _ =>
      let b := (sregOf x.a).getD 0
      if 2 ^ 32 ≤ c.s (b + 7) then trapOut s c (collTrap 7 32)
      else ordered s c false false fun _ =>
      let d := (s.site c.ex).1
      let k := s.ctxOf c.ex
      let v := s.vdie d k d
      let mine := s.exchs.filter fun q => q.ctx == k && q.group == c.s (b + 4) && q.tag == c.s (b + 7) &&
        (SMap.look q.posts (q.grp.rank s.sysNum v)).isSome
      let last := mine.foldl (fun (m : Option Exch) q =>
        match m with
        | some r => if r.pos < q.pos then some q else m
        | none => some q) none
      match last with
      | none => sendRegs s c x [0, 0]
      | some q => sendRegs s c x (lpqVals q (q.grp.rank s.sysNum v) (c.uni .w64 x.b))

/-! Arbiters (R345). -/

/-- HEARTBEAT: the standby sees the last plan number; firmware has designated a standby package where one was lost. The standby on IOD-E
sees it over the rings, which carry none while they hold injections (R19). -/
def execHeartbeat (s : State) : Out :=
  let a := s.arb
  .next { s with arb := { a with seen := if a.standby && !s.rings.held then max a.seen a.last else a.seen,
                                 seenCross := if a.crossPrimary then max a.seenCross a.lastCross else a.seenCross,
                                 crossStandby := a.crossStandby || a.crossPrimary } }

namespace State

/-- The member of an exchange at a rank that has started here. -/
def xchMember (s : State) (q : Exch) (i : Nat) : Option Coll :=
  (s.colls.find? fun y => y.2.kind == 5 && y.2.started && y.2.ctx == q.ctx && y.2.ld.group == q.group && y.2.ld.tag == q.tag &&
    y.2.seq == q.pos && y.2.rank == i).map (·.2)

/-- A member here through which a rank's tables are seen: the rank's own once it is read, any with an answer from abroad for a rank of
another package (log 21). -/
def xchView (s : State) (q : Exch) (i : Nat) : Option Coll :=
  let here := q.grp.ranksOf s.sysNum
  if here.contains i then (s.xchMember q i).filter fun y => y.src.isSome
  else here.findSome? fun r => (s.xchMember q r).filter fun y => y.outside.isSome

/-- What a member still has to send: of its table once that is seen, else of what it posted. -/
def unsentRow (s : State) (q : Exch) (i : Nat) : List Nat :=
  match s.xchView q i with
  | some y => (List.range q.grp.n).map fun j => actualOf s (s.mates y) y i j - SMap.lookD q.sent (sendKey i j) 0
  | none => (demandRow s q i).mapIdx fun j (v : Nat) => v - SMap.lookD q.sent (sendKey i j) 0

/-- Some member has more for another than it posted. -/
def overDemand (s : State) (q : Exch) : Bool :=
  (List.range q.grp.n).any fun i =>
    match s.xchView q i with
    | some y => ((demandRow s q i).mapIdx fun j (v : Nat) => decide (v < actualOf s (s.mates y) y i j)).any id
    | none => false

/-- The phases in progress ended: their bytes count as sent. How many phases a member on another package has finished is a free value
(log 21). -/
def endPhases (s : State) (q : Exch) : Exch :=
  match q.phases with
  | none => q
  | some ph =>
    let q1 := q.begun.foldl (fun q b =>
      if b.2.2 then
        match s.xchMember q b.1 with
        | some y =>
          let q1 := sendPhase s (s.mates y) y q b.1 (ph.getD (b.2.1 - 1) [])
          { q1 with begun := SMap.put q1.begun b.1 (b.2.1, false) }
        | none => q
      else q) q
    ((List.range q.grp.n).filter fun r => !(q.grp.ranksOf s.sysNum).contains r).foldl (fun q r =>
      match s.xchView q r with
      | some y => (ph.take (Config.pick (s.free + r) % (ph.length + 1))).foldl (fun q p => sendPhase s (s.mates y) y q r p) q
      | none => q) q1

/-- A standby takes over the exchanges within the package, or those that span packages: their members finish the phase they are in and
post what they have not sent; the standby's plans are numbered from one above the highest number it has seen. Bytes beyond what was posted
make the plan a residual one (R344, R457). -/
def takeOver (s : State) (cross : Bool) (seen : Nat) : State :=
  let qs := s.exchs.filter fun q => s.spans q == cross && !q.isOver && q.phases.isSome
  let top := qs.foldl (fun n q => max n q.num) seen
  qs.foldl (fun s q0 =>
    let q := s.endPhases q0
    ({ s with free := s.free + q.grp.n }).givePlan { q with resid := q.resid || s.overDemand q }
      ((List.range q.grp.n).map fun i => s.unsentRow q i)) (s.setPlan cross top)

end State

/-- STANDBY_TAKEOVER: the in-package standby, where there is one. -/
def execStandbyTakeover (s : State) : Out :=
  if !s.arb.standby then .next s
  else
    let s1 := s.takeOver false s.arb.seen
    .next { s1 with arb := { s1.arb with standby := false, failed := true } }

/-- ARBITER_RETURN: a primary that returns becomes the standby. -/
def execArbiterReturn (s : State) : Out :=
  .next (if s.arb.failed then { s with arb := { s.arb with standby := true, failed := false } } else s)

/-- ARBITER_PACKAGE_LOSS: a lost primary package is replaced by the standby's; with neither left, every exchange that spans packages
ends with LINK_LOST. The next heartbeat goes to the standby that firmware designates. -/
def execArbiterPackageLoss (primary : Bool) (s : State) : Out :=
  let a := s.arb
  if !primary then
    let s1 := { s with arb := { a with crossStandby := false } }
    .next s1
  else if a.crossStandby then
    let s1 := s.takeOver true s.arb.seenCross
    .next { s1 with arb := { s1.arb with crossPrimary := true, crossStandby := false } }
  else
    let lost (y : Coll) : Coll := if y.kind == 5 && y.started && !y.fin && y.pkgs.any (· != s.sysNum) then { y with forced := some 2 } else y
    .next { s with arb := { a with crossPrimary := false, crossStandby := false }, colls := s.colls.map fun y => (y.1, lost y.2) }

/-! Ports (R347). -/

/-- The ports lost, with the end of collectives whose traffic they carried: which those are is a free value until no port is left;
every member of a collective ends alike. -/
def State.losePorts (s : State) (ports : List Nat) : State :=
  let now := s.portsLost ++ ports.filter fun p => !s.portsLost.contains p
  let s1 := { s with portsLost := now }
  s1.colls.foldl (fun s y =>
    if y.2.started && !y.2.fin && y.2.forced.isNone && y.2.pkgs.any (· != s.sysNum) then
      let hit := 16 ≤ now.length || Config.pick s.free % 2 == 1
      let s2 := { s with free := s.free + 1 }
      if hit then (s2.mates y.2).foldl (fun s z => { s with colls := SMap.put s.colls z.1 { z.2 with forced := some 2 } }) s2 else s2
    else s) s1

/-- FLIT_RETRY: a flit resent. Whether it is acknowledged now is a free value (log 80); 8 failed retries in a row lose the port. -/
def execFlitRetry (port : Nat) (s : State) : Out :=
  if 16 ≤ port || s.portsLost.contains port then .next s
  else
    let n := if Config.pick s.free % 2 = 0 then 0 else SMap.lookD s.retries port 0 + 1
    let s1 := { s with free := s.free + 1, retries := SMap.putD s.retries port n 0 }
    .next (if 8 ≤ n then { s1 with retries := SMap.putD s1.retries port 0 0 }.losePorts [port] else s1)

/-- PORT_LOSS. -/
def execPortLoss (port : Nat) (s : State) : Out := .next (if port < 16 then s.losePorts [port] else s)

end Sys2Proof.Machine
end

