-- ==== Sys2Proof/Machine/Placement.lean ====
section
/-! DEFINITION. Placement (R352 to R370): rings and distributors, garments and joins, panels started, saved, resumed, pre-empted and
ended, and the Gather Former's strands (R115 to R117). -/

namespace Sys2Proof.Machine

/-! Partitions and rings (R352, R362). -/

/-- Fields of SY.PARTn. -/
def partPrio (w : Nat) : Nat := Word.bits w 55 54
def partGroups (w : Nat) : Nat := Word.bits w 9 0
def partReach (w : Nat) : Nat := Word.bits w 19 10
def partYwin (w : Nat) : Nat := Word.bits w 31 20

namespace State

def part (s : State) (d c n : Nat) : Nat := (s.ctxReg d c (0x10 + n)).toNat

/-- The key of a ring on its die. -/
def ringKey (c p l : Nat) : Nat := c * 32 + p * 4 + l

def ring (s : State) (d k : Nat) : List LUnit := SMap.lookD (s.die d).rings k []

/-- Records a ring holds at most (R362). -/
def ringCap (s : State) (d c : Nat) : Nat := 2 ^ max 4 (Word.bits (s.ctxReg d c 0x3D).toNat 11 8)

def ringFull (s : State) (d c p l : Nat) : Bool := s.ringCap d c ≤ (s.ring d (ringKey c p l)).length

/-- The virtual address of place i of a ring (R362). -/
def ringVa (s : State) (d c p l i : Nat) : Nat :=
  ((s.ctxReg d c 0x3D).toNat / 2 ^ 12 * 2 ^ 12 + 32 * (s.ringCap d c * (32 * s.vdie d c d + 4 * p + l) + i)) % 2 ^ 64

end State

/-- The four words of a record (R354). -/
def Rec.words (r : Rec) : List W64 := [r.hdr, r.frame, r.join, r.shape]

/-- A record from its four words. -/
def recOf (ws : List W64) : Rec := { hdr := ws.getD 0 0, frame := ws.getD 1 0, join := ws.getD 2 0, shape := ws.getD 3 0 }

namespace State

/-- A record pushed into a ring: its 32 bytes are written at the ring's next place, and none while that place cannot be reached. DESIGN
CHOICE: where memory does not take them, the die alone holds the record (log 30). -/
def ringPush (s : State) (d c p l : Nat) (u : LUnit) : Option State :=
  let key := ringKey c p l
  let i := SMap.lookD (s.die d).tails key 0 % s.ringCap d c
  let va := s.ringVa d c p l i
  let w : EngAt := { d := d, k := 0x7F, c := c }
  let put (s : State) (slot : Option Nat) : State :=
    (s.modDie d fun x => { x with
      rings := SMap.put x.rings key (SMap.lookD x.rings key [] ++ [{ u with slot := slot }])
      tails := SMap.put x.tails key (i + 1) }).post (.panelPlacement d)
  match EngS.each (fun s1 (x : Nat × W64) => s1.wr w ((va + 8 * x.1) % 2 ^ 64) 8 x.2.toNat) (u.crec.words.mapIdx fun j x => (j, x)) s with
  | .ok s1 _ => some (put s1 (some i))
  | .fail _ _ => some (put s none)
  | .wait => none

/-- The head of a ring, read from memory where it lies there; `.held` while it cannot be read. -/
def ringHead (s : State) (d c p l : Nat) : Res (Option LUnit) :=
  match s.ring d (ringKey c p l) with
  | [] => .ok none
  | u :: _ =>
    match u.slot with
    | none => .ok (some u)
    | some i =>
      match s.ctxWords d c (s.ringVa d c p l i) 4 with
      | .ok ws => .ok (some { u with crec := recOf ws })
      | .held => .held
      | .trap _ => .ok (some u)
      | .miss _ => .ok (some u)

/-- The record a ring offers now. -/
def headOf (s : State) (d c p l : Nat) : Option LUnit :=
  match s.ringHead d c p l with
  | .ok u => u
  | .held => none
  | .trap _ => none
  | .miss _ => none

/-- Some ring of a die has a head that cannot be read now. -/
def headHeld (s : State) (d : Nat) : Bool :=
  (s.die d).rings.any fun r =>
    match s.ringHead d (r.1 / 32) (r.1 / 4 % 8) (r.1 % 4) with
    | .held => true
    | .ok _ => false
    | .trap _ => false
    | .miss _ => false

/-- What a read of n bytes by a die's engine does beside (R180, R217, R421). -/
def headerSoft (s : State) (d : Nat) (p : Option Place) (n : Nat) : State :=
  match p with
  | some q => (s.correctedAll (groupsOf q n)).cross d 0x7F (s.dieKey q)
  | none => s

/-- The head of a ring popped: its partition was served last among those of its PRIO (R363), and a pre-emption made for it is over. -/
def popRing (s0 : State) (d c p l : Nat) : State :=
  let s := match s0.ring d (ringKey c p l) with
    | { slot := some i, .. } :: _ => s0.headerSoft d (s0.ctxAt d c (s0.ringVa d c p l i)) 32
    | _ => s0
  s.modDie d fun x => { x with
    rings := SMap.putD x.rings (ringKey c p l) ((SMap.lookD x.rings (ringKey c p l) []).drop 1) []
    rr := SMap.put x.rr (partPrio (s.part d c p)) (c * 8 + p)
    preempts := x.preempts.filter fun y => !(y.ctx == c && y.part == p && y.level == l) }

/-- A record held by a distributor until its ring has room (R362, R413). -/
def holdUnit (s : State) (d c p l : Nat) (u : LUnit) : State :=
  (s.modDie d fun x => { x with held := x.held ++ [{ ctx := c, part := p, level := l, unit := u }] }).post (.distributorPush d)

/-! Garments (R357, R358). -/

/-- Panels added to a garment's live count. -/
def garmentAdd (s : State) (c g n : Nat) : State :=
  s.modJob c fun j =>
    match SMap.look j.garments g with
    | some x => { j with garments := SMap.put j.garments g { x with live := x.live + n } }
    | none => j

/-- GARMENT_COMPLETE (R358): the status word written from die d, or a fault log entry with the code of the failure, STORE_ERROR where the
write met an uncorrectable error (R180, R400); none while its place cannot be reached. -/
def garmentEnd (s : State) (d c g : Nat) (x : Garment) : Option State :=
  let s1 := s.modJob c fun j => { j with garments := SMap.put j.garments g { x with fin := true } }
  if x.status = 0 then some s1
  else
    let w : EngAt := { d := d, k := 0x7F, c := c }
    match s1.wr w x.status.toNat 8 (x.nbad * 2 ^ 32 + x.first) with
    | .ok s2 _ => some s2
    | .wait => none
    | .fail t a =>
      some ((s1.countEng w t a).logFault d (s1.bareFlog t.code 0 c (s.vdie d c d) (s1.faultAddr d c a)))

/-- One taken off a live count, with the status of a panel that completed (R358); none while the status word cannot be written. -/
def garmentSub (s : State) (d c g : Nat) (status : Nat) : Option State :=
  match SMap.look (s.job c).garments g with
  | none => some s
  | some x =>
    let y : Garment := { x with
      live := x.live - 1
      nbad := if status = 0 then x.nbad else x.nbad + 1
      first := if x.nbad = 0 then status else x.first }
    if y.live = 0 then s.garmentEnd d c g y else some (s.modJob c fun j => { j with garments := SMap.put j.garments g y })

/-- The key of the next garment: GARMENTID counts mod 2²⁴ and skips 0 (R357). -/
def nextGid (s : State) (c : Nat) : Nat :=
  let n := (s.job c).gid + 1
  if n % 2 ^ 24 = 0 then n + 1 else n

/-- The garment that a GARMENTID in memory names: the latest of that number that has not completed. -/
def garmentKey (s : State) (c id : Nat) : Nat :=
  ((((s.job c).garments.filter fun g => g.1 % 2 ^ 24 == id && !g.2.fin).getLast?).map (·.1)).getD id

end State

/-- The first field of a record that breaks R354: word and low bit (log 19). -/
def recFault (r : Rec) : Option (Nat × Nat) :=
  let checks : List (Bool × Nat × Nat) := [
    (r.hdr.toNat % 8 != 0, 0, 0), (decide (2 ^ 57 ≤ r.hdr.toNat), 0, 57), (r.join.toNat % 64 != 0, 2, 0),
    (!r.sw && r.swm1 != 0, 3, 19), (r.vregs8 = 0 || decide (80 < r.vregs8), 3, 28), (decide (16 < r.ntiles), 3, 35),
    (decide (128 < r.spad), 3, 40)]
  (checks.find? (·.1)).map (·.2)

/-- A record with another PANEL field. -/
def Rec.withPanel (r : Rec) (n : Nat) : Rec :=
  { r with shape := BitVec.ofNat 64 (r.shape.toNat / 2 ^ 19 * 2 ^ 19 + n % 2 ^ 19) }

/-! Room on a core (R363). -/

/-- Strand slots and register bytes a resident panel takes: those of its strands that have neither ended nor left. -/
def Panel.slots (p : Panel) : Nat := if p.done then 0 else (p.strands.filter fun t => !t.2.isOver && !t.2.out).length
def Panel.bytes (p : Panel) : Nat := p.slots * (p.crec.vregs8 * 1024)

namespace State

/-- The panels resident on a core. -/
def residents (s : State) (d k : Nat) : SMap Panel := s.panels.filter fun p => p.2.die == d && p.2.core == some k && !p.2.done

/-- The lowest free range of a core's scratchpad, in 4 KiB units. -/
def freeSpad (s : State) (d k n : Nat) : Option Nat :=
  let used := (s.residents d k).map fun p => (p.2.spadBase, p.2.spadBase + p.2.crec.spad)
  (List.range (129 - n)).find? fun b => used.all fun u => b + n ≤ u.1 || u.2 ≤ b || u.1 == u.2

/-- Room for more strands of a panel already resident on its core. -/
def strandRoom (s : State) (p : Panel) (n : Nat) : Bool :=
  match p.core with
  | none => false
  | some k =>
    let ps := s.residents p.die k
    ps.foldl (fun a q => a + q.2.slots) 0 + n ≤ 192 &&
      ps.foldl (fun a q => a + q.2.bytes) 0 + n * (p.crec.vregs8 * 1024) ≤ 2 ^ 20

/-- The scratchpad base at which a core fits a panel of `n` strands. -/
def coreFits (s : State) (d k n : Nat) (r : Rec) : Option Nat :=
  let ps := s.residents d k
  if ps.foldl (fun a q => a + q.2.slots) 0 + n ≤ 192 &&
      decide (ps.foldl (fun a q => a + q.2.bytes) 0 + n * (r.vregs8 * 1024) ≤ 2 ^ 20) &&
      decide (ps.foldl (fun a q => a + q.2.crec.ntiles) 0 + r.ntiles ≤ 16) && decide (ps.length < 32) then s.freeSpad d k r.spad
  else none

/-- The core of a pre-emption is kept for its head until the evictions complete (R367): for a swatch its group. -/
def keepsCore (y : Preempt) (k : Nat) : Bool := y.core == k || (y.sw && y.core / 8 == k / 8)

/-- A core is kept for a head of a higher partition priority. -/
def kept (s : State) (d prio k : Nat) : Bool :=
  (s.die d).preempts.any fun y => decide (prio < partPrio (s.part d y.ctx y.part)) && keepsCore y k

/-- The cores, with scratchpad bases, on which `m` panels of a record start: the lowest core, or the lowest group with room for a
swatch; `extra` is a core freed by pre-emption, which opens its group to a swatch, and `bar` tells the cores that are kept. -/
def findCores (s : State) (d groups : Nat) (extra : Option Nat) (bar : Nat → Bool) (n m : Nat) (sw : Bool) (r : Rec) :
    Option (List (Nat × Nat)) :=
  let fit (k : Nat) : Option (Nat × Nat) := if bar k then none else (s.coreFits d k n r).map fun b => (k, b)
  if !sw then
    ((List.range 80).filter fun k => Word.bit groups (k / 8) || extra == some k).findSome? fun k => (fit k).map fun x => [x]
  else
    ((List.range 10).filter fun g => Word.bit groups g || extra.map (· / 8) == some g).findSome? fun g =>
      let xs := ((List.range 8).map (· + 8 * g)).filterMap fit
      if m ≤ xs.length then some (xs.take m) else none

end State

/-- A record that no core can hold (R363). -/
def tooBig (r : Rec) : Bool :=
  (recFault { r with hdr := 0, join := 0 }).isSome || decide (2 ^ 20 < r.nstr * (r.vregs8 * 1024))

/-! Panels started (R355). -/

/-- The bobbin entry of a record. -/
def Rec.bobVa (r : Rec) : Nat := Word.ofInt 64 ((r.hdr.toNat : Int) + 8 * r.bob)

/-- Whether the entry header at an address passes R38; it is read once its place can be reached. DEDUCED: one that cannot be translated
or may not be executed fails too, since R38 lets a launch raise no trap (log 74). -/
def State.entryIs (s : State) (d c va : Nat) (strand : Bool) (vregs : Nat) : Res Bool :=
  if va % 8 ≠ 0 then .ok false
  else
    match s.ctxPlace d c va .fetch with
    | .ok p => if s.placeHeld d 8 true p then .held else .ok (hdrOk (BitVec.ofNat 64 (s.readAt p 8)) .launch strand vregs)
    | .trap _ => .ok false
    | .miss _ => .ok false
    | .held => .held

/-- Both entry headers of a record (R355): the bobbin's only where the record has one. -/
def State.entriesOk (s : State) (d c : Nat) (r : Rec) : Res Bool :=
  (s.entryIs d c r.hdr.toNat true r.vregs).bind fun a =>
    if r.bob = 0 then .ok a else (s.entryIs d c r.bobVa false 0).bind fun b => .ok (a && b)

/-- What reading the entry headers of a record does beside (R180, R217, R421). -/
def State.entriesRead (s : State) (d c : Nat) (r : Rec) : State :=
  let at' (va : Nat) : Option Place :=
    match s.ctxPlace d c va .fetch with | .ok p => some p | .trap _ => none | .miss _ => none | .held => none
  let s1 := s.headerSoft d (at' r.hdr.toNat) 8
  if r.bob = 0 then s1 else s1.headerSoft d (at' r.bobVa) 8

/-- An entry position: its header was checked. -/
def entryPos (va : Nat) : Pos := { pc := BitVec.ofNat 64 va, kind := .entered }

/-- A strand at panel start. -/
def startStrand (frame : W64) (pos : Pos) (order : Nat) : Strand :=
  { thr := { ss := (List.replicate 64 0).set 0 frame }, a := some { pos := pos, mask := BitVec.allOnes 32 }, started := order }

/-- A panel as it starts, on a core with its scratchpad base; one that runs nothing has a status and no core. -/
def startPanel (d c part level : Nat) (u : LUnit) (i : Nat) (sw : Option Nat) (at' : Option (Nat × Nat)) (status : Nat)
    (order : Nat) : Panel :=
  let r := u.crec
  { crec := r.withPanel (r.panelId + i)
    panelId := (r.panelId + i) % 2 ^ 19
    garment := u.garment
    swatch := sw
    swIdx := i
    part := part
    ctx := c
    die := d
    core := at'.map (·.1)
    prio := level
    strands := if status = 0 then (List.range r.nstr).map fun n => (n, startStrand r.frame (entryPos r.hdr.toNat) order) else []
    bob := { thr := { ss := (List.replicate 64 0).set 0 r.frame }
             pos := entryPos r.bobVa
             isOver := status != 0 || r.bob == 0 }
    spadBase := (at'.map (·.2)).getD 0
    status := status
    seqNo := order }

/-- The panels of a record started in one step; their handles are fresh. -/
def State.startUnit (s : State) (d c part level : Nat) (u : LUnit) (at' : List (Nat × Nat)) (status : Nat) : State :=
  let n := u.crec.panels
  let base := s.nextId
  let sw := if u.crec.sw && status = 0 then some (base + n) else none
  let one (s1 : State) (i : Nat) : State :=
    let p := startPanel d c part level u i sw (if status = 0 then at'[i]? else none) status (base + i)
    let s2 := { s1 with panels := SMap.put s1.panels (base + i) p }
    if status = 0 then s2 else s2.post (.panelComplete (base + i))
  let s1 := (List.range n).foldl one { s with nextId := base + n + 1 }
  match sw with
  | some w => { s1 with swatches := SMap.put s1.swatches w { panels := (List.range n).map (base + ·) } }
  | none => s1

/-! Resumption (R235, R366, R370). -/

/-- Free scoreboard entries of a core. -/
def State.sbRoom (s : State) (key : Nat) : Nat := 64 - (s.core key).sb.length

/-- The latest progress of a context on a die: an issue of one of its executors there, or an engine operation (R393). -/
def State.lastProgress (s : State) (d c : Nat) : Nat :=
  s.panels.foldl (fun n p =>
    if p.2.ctx == c && p.2.die == d then
      p.2.strands.foldl (fun n t => max n t.2.thr.lastProgress) (max n p.2.bob.thr.lastProgress)
    else n) (s.ctx d c).wdLast

/-- The progress of a panel's context kept before executors that made it go, or leave the die (R393). -/
def State.keepProgress (s : State) (p : Panel) : State :=
  s.modCtx p.die p.ctx fun x => { x with wdLast := s.lastProgress p.die p.ctx }

/-- A panel's executors with their progress counted where they made it. -/
def Panel.counted (p : Panel) : Panel :=
  { p with
    strands := p.strands.map fun t => (t.1, { t.2 with thr := { t.2.thr with lastProgress := 0 } })
    bob := { p.bob with thr := { p.bob.thr with lastProgress := 0 } } }

/-- A saved panel back on a core: its entries are registered again, before anything of it issues, and what TRET resumed acquires there
(R410). -/
def State.resumePanel (s : State) (h d k base : Nat) : State :=
  match s.panel? h with
  | none => s
  | some p =>
    let key := State.coreKey d k
    let s1 := ((s.keepProgress p).modCore key fun q => { q with l1 := [] }).setPanel h
      { p.counted with die := d, core := some k, spadBase := base, saved := [] }
    let one (s : State) (e : SavedEntry) : State :=
      match s.sbFree key with
      | none => s
      | some i =>
        let x : SbEntry := { op := e.op, panel := h, rlo := e.rlo + base * 4096, rhi := e.rhi + base * 4096, wlo := e.wlo + base * 4096,
                             whi := e.whi + base * 4096, poison := e.poison, age := s.nextId }
        let s2 := ({ s with nextId := s.nextId + 1 } : State).modCore key fun q => { q with sb := SMap.put q.sb i x }
        match SMap.look s2.copies e.op, SMap.look s2.colls e.op with
        | some y, _ =>
          { s2 with copies := SMap.put s2.copies e.op { y with
              socket := d, sbs := y.sbs.map fun b => if b.2.2 == h then (key, i, h) else b } }
        | none, some y => { s2 with colls := SMap.put s2.colls e.op { y with sb := some (key, i) } }
        | none, none => s2
    let s2 := p.saved.foldl one s1
    s2.modJob p.ctx fun j => { j with resume := j.resume.filter (· != h) }

/-! What a die may place next (R363). -/

/-- A candidate: a ring's head, the saved panels that resume together, or a strand that returns to its core. -/
inductive Cand where
  | unit (c p l : Nat) (u : LUnit) (at' : List (Nat × Nat))
  | resume (hs : List (Nat × Nat × Nat))
  | strand (h i : Nat)
deriving Repr

namespace State

/-- The context slots of a die from which records are popped. -/
def popping (s : State) (d : Nat) : List Nat :=
  (List.range 16).filter fun c => (s.ctx d c).st == .loaded && (s.dmap d c).contains d

/-- The core a pre-emption has chosen for a ring's head. -/
def preemptCore (s : State) (d c p l : Nat) : Option Nat :=
  ((s.die d).preempts.find? fun x => x.ctx == c && x.part == p && x.level == l).map (·.core)

/-- The head of a ring with the cores it fits, or none needed where it fits on no core at all. -/
def headFit (s : State) (d c p l : Nat) : Option Cand :=
  match s.headOf d c p l with
  | none => none
  | some u =>
    if tooBig u.crec || !s.partOk d c p then some (.unit c p l u [])
    else
      (s.findCores d (partGroups (s.part d c p)) (s.preemptCore d c p l) (s.kept d (partPrio (s.part d c p))) u.crec.nstr u.crec.panels u.crec.sw u.crec).map fun a =>
        .unit c p l u a

/-- The saved panels that resume with one: all of its swatch, in ascending core order. -/
def resumeFit (s : State) (d h : Nat) : Option Cand :=
  match s.panel? h with
  | none => none
  | some p =>
    let hs := match p.swatch with
      | some w => ((SMap.lookD s.swatches w { panels := [] }).panels.filter fun x => match s.panel? x with | some q => !q.done | none => false)
      | none => [h]
    let waits := (s.job p.ctx).resume
    -- an image that another die saved comes over the rings (R19)
    let far (x : Nat) : Bool := s.rings.held && ((s.panel? x).map fun q => q.die != d).getD false
    if !hs.all waits.contains || hs.head? != some h || hs.any far then none
    else
      let n := ((s.panel? h).map fun q => (q.strands.filter fun t => !t.2.isOver).length).getD 0
      let rooms := hs.map fun x => ((s.panel? x).map fun q => (q.strands.filter fun t => !t.2.isOver).length).getD 0
      let big := rooms.foldl max n
      match s.findCores d (partGroups (s.part d p.ctx p.part)) none (s.kept d (partPrio (s.part d p.ctx p.part))) big hs.length p.swatch.isSome p.crec with
      | none => none
      | some a =>
        let at' := List.zip hs a
        if at'.all (fun x => (((s.panel? x.1).map fun q => q.saved.length).getD 0) ≤ s.sbRoom (coreKey d x.2.1)) then some (.resume at')
        else none

/-- Every candidate of a die with its rank: partition priority, saved work first, level, and its turn among equals. -/
def candidates (s : State) (d : Nat) : List ((Nat × Nat × Nat × Nat) × Cand) :=
  let ctxs := s.popping d
  let heads := ctxs.flatMap fun c => (List.range 8).flatMap fun p => (List.range 4).filterMap fun l =>
    (s.headFit d c p l).map fun x =>
      ((partPrio (s.part d c p), 0, l, 128 - (c * 8 + p + 128 - SMap.lookD (s.die d).rr (partPrio (s.part d c p)) 127 - 1) % 128), x)
  let saved := ctxs.flatMap fun c => (s.job c).resume.filterMap fun h =>
    match s.panel? h with
    | some p => (s.resumeFit d h).map fun x => ((partPrio (s.part d c p.part), 1, 4, 0), x)
    | none => none
  let back := s.panels.flatMap fun p =>
    if p.2.die == d && p.2.core.isSome && !p.2.leaving && !p.2.killed &&
        !s.kept d (partPrio (s.part d p.2.ctx p.2.part)) (p.2.core.getD 0x7F) then
      (p.2.strands.filter fun t => t.2.out && !t.2.isOver && s.strandRoom p.2 1).map fun t =>
        ((partPrio (s.part d p.2.ctx p.2.part), 1, 5, 0), Cand.strand p.1 t.1)
    else []
  back ++ saved ++ heads

/-- The candidate that goes first. -/
def bestCand (xs : List ((Nat × Nat × Nat × Nat) × Cand)) : Option Cand :=
  let lt (a b : Nat × Nat × Nat × Nat) : Bool :=
    if a.1 ≠ b.1 then a.1 < b.1 else if a.2.1 ≠ b.2.1 then a.2.1 < b.2.1 else if a.2.2.1 ≠ b.2.2.1 then a.2.2.1 < b.2.2.1
    else a.2.2.2 < b.2.2.2
  (xs.foldl (fun (m : Option ((Nat × Nat × Nat × Nat) × Cand)) x =>
    match m with
    | none => some x
    | some y => if lt y.1 x.1 then some x else m) none).map (·.2)

/-- A ring whose head fits no core its partition owns, with no pre-emption under way for it. -/
def starved (s : State) (d c p l : Nat) : Bool :=
  match s.headOf d c p l with
  | none => false
  | some u =>
    !tooBig u.crec && s.partOk d c p && (s.preemptCore d c p l).isNone &&
    (s.findCores d (partGroups (s.part d c p)) none (fun _ => false) u.crec.nstr u.crec.panels u.crec.sw u.crec).isNone

/-- The rings of a die that are starved. -/
def starvedRings (s : State) (d : Nat) : List (Nat × Nat × Nat) :=
  (s.popping d).flatMap fun c => (List.range 8).flatMap fun p => (List.range 4).filterMap fun l =>
    if s.starved d c p l then some (c, p, l) else none

/-- An eviction is under way on a core that a pre-emption keeps. -/
def evicting (s : State) (d : Nat) (y : Preempt) : Bool :=
  s.panels.any fun p => p.2.die == d && (match p.2.core with | some k => keepsCore y k | none => false) &&
    (p.2.leaving || p.2.bob.evict || p.2.strands.any fun t => !t.2.isOver && (t.2.saving || t.2.yieldAt.isSome))

/-- Pre-emptions whose evictions are complete without room for their heads are over: the heads may ask anew. -/
def lapse (s : State) (d : Nat) : State :=
  s.modDie d fun x => { x with preempts := x.preempts.filter fun y => s.evicting d y || (s.headFit d y.ctx y.part y.level).isSome }

/-- A context that had no panel on the die reads as having just made progress (R393). -/
def wake (s : State) (d c : Nat) : State :=
  if s.panels.any fun p => p.2.ctx == c && (p.2.die == d && p.2.core.isSome || (s.job c).resume.contains p.1) then s else s.progressed d c

/-- The same on every die of the context, for a panel that joins its resume list (R393). -/
def wakeAll (s : State) (d c : Nat) : State := (d :: (s.dmap d c).filter (· != d)).foldl (fun s k => s.wake k c) s

end State

/-- PANEL_PLACEMENT (R363, R370): one record popped, or one saved panel or strand brought back. -/
def execPanelPlacement (d : Nat) (s : State) : Out :=
  if s.gone d then .next s
  else if s.headHeld d then .next (s.post (.panelPlacement d))
  else
    match State.bestCand (s.candidates d) with
    | none => let s1 := s.lapse d
              .next (if (s1.starvedRings d).isEmpty then s1 else s1.post (.preemption d))
    | some (.strand h i) =>
      .next ((s.modStrand h i fun t => { t with out := false }).post (.panelPlacement d))
    | some (.resume hs) =>
      .next ((hs.foldl (fun s x => (s.wake d (((s.panel? x.1).map (·.ctx)).getD 0)).resumePanel x.1 d x.2.1 x.2.2) s).post
        (.panelPlacement d))
    | some (.unit c p l u at') =>
      (match s.entriesOk d c u.crec with
      | .ok good =>
        let s1 := ((s.entriesRead d c u.crec).wake d c).popRing d c p l
        let status := if at'.isEmpty then 5 else if good then 0 else 4
        .next (((s1.startUnit d c p l u at' status).post (.distributorPush d)).post (.panelPlacement d))
      | _ => .next (s.post (.panelPlacement d)))

/-- DISTRIBUTOR_PUSH (R357, R362, R413): the oldest held record whose context is loaded and whose ring has room. -/
def execDistributorPush (d : Nat) (s : State) : Out :=
  let free (h : HeldUnit) : Bool := (s.ctx d h.ctx).st == .loaded && !s.ringFull d h.ctx h.part h.level
  match (s.die d).held.findIdx? free with
  | none => .next s
  | some i =>
    match (s.die d).held[i]? with
    | none => .next s
    | some h =>
      let s1 := s.modDie d fun x => { x with held := x.held.eraseIdx i }
      .next (match s1.ringPush d h.ctx h.part h.level h.unit with
        | some s2 => s2.post (.distributorPush d)
        | none => s.post (.distributorPush d))

/-! Saves (R366, R369). -/

namespace State

/-- Nothing of an executor is outstanding: what a save waits for (R369, R49). -/
def quiet (s : State) (e : Ex) : Bool :=
  ((s.reqsOf e).all fun r => match r.2.st with | .held => true | .sent => false | .data _ _ => false | .ack _ => false) &&
  s.kvs.all (fun k => k.2.ex != e) && s.mstts.all (fun m => m.2.issuer != e) && (s.thr e).pends.all fun p => !p.open'

/-- What the image of a strand keeps of its lanes (R369): of a cooperative save, the registers below LIVEV and LIVEQ entries of the queue;
the rest read 0 from then on. -/
def trimmed (t : Strand) : Strand :=
  match t.coop with
  | none => t
  | some (v, q) => { t with coop := none, lanes := t.lanes.map fun n => { n with q := liveQueue q n.q, v := liveV v n.v } }

/-- What an image keeps of an executor's waits: a recorded trap is taken when it resumes (R369), and stamps taken for accesses not made are
given up (R218). -/
def keepAsync (t : Thr) : Thr := { t with resumeTrap := t.async.isSome, points := [] }

/-- The panels of a panel's swatch, itself among them, that have not ended. -/
def swatchMates (s : State) (h : Nat) : List Nat :=
  match s.panel? h with
  | none => []
  | some p =>
    match p.swatch with
    | none => [h]
    | some w => (SMap.lookD s.swatches w { panels := [] }).panels.filter fun x => match s.panel? x with | some q => !q.done | none => false

/-- A panel, with its swatch, begins to leave its core: nothing of it issues any more. -/
def leavePanel (s : State) (h : Nat) : State :=
  (s.swatchMates h).foldl (fun s x => (s.modPanel x fun p => { p with leaving := true }).post (.panelSwapOut x)) s

/-- A panel must leave its core, since its strands have ended or been saved: one that a pre-emption evicts, and one whose bobbin has ended
with strands in their images (R235, R367). -/
def mustLeave (p : Panel) : Bool :=
  p.core.isSome && !p.leaving && !p.killed && !p.done && p.strands.all (fun t => t.2.isOver || t.2.out) &&
    (if p.bob.isOver then p.strands.any (fun t => !t.2.isOver && t.2.out) else p.bob.evict)

/-- A strand's save finished (R369); with the last one of a panel whose bobbin has ended the panel leaves (R235). Stamps it took for accesses
it had not made are given up (R218). -/
def strandSaved (s : State) (h i : Nat) : State :=
  let s1 := s.modStrand h i fun t => { trimmed t with saving := false, yieldAt := none, out := true, thr := keepAsync t.thr }
  match s1.panel? h with
  | none => s1
  | some p =>
    let s2 := s1.post (.panelPlacement p.die)
    if mustLeave p then s2.leavePanel h else s2

end State

/-- FORCED_SAVE (R368): at its deadline a target that has not yielded is saved; a save under way ends once nothing of the strand is
outstanding (R369). -/
def execForcedSave (h i : Nat) (s : State) : Out :=
  match s.strand? h i with
  | none => .next s
  | some t =>
    if t.isOver then .next s
    else if t.saving then
      -- a save that finds the save area full waits (R392)
      if s.quiet (.str h i) && s.roomFor (.str h i) 3 1 then .next (s.strandSaved h i) else .next (s.post (.forcedSave h i))
    else
      match t.yieldAt with
      | none => .next s
      | some dl =>
        if s.time.toNat < dl.toNat then .next (s.post (.forcedSave h i))
        else .next ((s.modStrand h i fun t => { t with saving := true }).post (.forcedSave h i))

/-- A strand parked on a translation fault (R366). -/
def faultParked (t : Strand) : Bool :=
  match t.thr.park with
  | some k => k.info.trap == .pageFault || k.info.trap == .permission
  | none => false

/-- What the running slots of a strand wait for. -/
def Strand.waits (t : Strand) : List Waiting :=
  let of (x : Option PcSlot) (w : Waiting) : List Waiting := match x with | some y => if y.waiting then [] else [w] | none => []
  of t.a t.thr.wait ++ of t.b t.thr.waitB

/-- A strand that cannot go on (R366): it is parked, or every slot that runs waits. -/
def stalled (t : Strand) : Bool := t.isOver || t.thr.park.isSome || t.waits.all fun w => w == .form || w == .bar

namespace State

/-- The panel's engine entries, MSTTs, started copies, started collectives with an .SP buffer or a tile, and KVLDs are complete (R235,
R270, R329). -/
def settled (s : State) (h : Nat) (p : Panel) : Bool :=
  (match p.core with | some k => (s.core (coreKey p.die k)).eng.all (fun e => e.panel != h) | none => true) &&
  s.mstts.all (fun m => m.2.panel != h) && s.kvlds.all (fun k => k.2.panel != h) &&
  s.copies.all (fun c => !(c.2.started && (c.2.panel == h || c.2.dests.contains h))) &&
  s.colls.all (fun c => !(c.2.panel == some h && c.2.started && !c.2.fin && c.2.onCore))

/-- Every executor of a panel has nothing outstanding. -/
def panelQuiet (s : State) (h : Nat) (p : Panel) : Bool := s.quiet (.bob h) && p.strands.all fun t => s.quiet (.str h t.1)

/-- Some executor of the panel is parked. -/
def anyParked (p : Panel) : Bool := p.bob.thr.park.isSome || p.strands.any fun t => t.2.thr.park.isSome

/-- Scoreboard entries in the order of their ages. -/
def byAge : List (Nat × SbEntry) → List (Nat × SbEntry)
  | [] => []
  | e :: es => let r := byAge es; (r.takeWhile fun x => x.2.age < e.2.age) ++ [e] ++ r.dropWhile fun x => x.2.age < e.2.age

/-- The panel in its image: its scoreboard entries leave with it, and it waits for a core unless something of it is parked. -/
def panelOut (s : State) (h : Nat) (p : Panel) : State :=
  match p.core with
  | none => s
  | some k =>
    let key := coreKey p.die k
    let b := p.spadBase * 4096
    let mine := byAge ((s.core key).sb.filter fun e => e.2.panel == h)
    let keep : List SavedEntry := mine.map fun e =>
      { op := e.2.op, rlo := e.2.rlo - b, rhi := e.2.rhi - b, wlo := e.2.wlo - b, whi := e.2.whi - b, poison := e.2.poison }
    let s0 := if anyParked p then s else s.wakeAll p.die p.ctx
    let s1 := s0.modCore key fun q => { q with sb := q.sb.filter fun e => e.2.panel != h }
    let save (t : Strand) : Strand := { trimmed t with saving := false, out := false, yieldAt := none, thr := keepAsync t.thr }
    let p1 : Panel := { p with
      core := none
      leaving := false
      saved := keep
      strands := p.strands.map fun t => (t.1, save t.2)
      bob := { p.bob with thr := keepAsync p.bob.thr, evict := false } }
    let s2 := s1.setPanel h p1
    let s3 := if anyParked p1 then s2 else s2.modJob p.ctx fun j => { j with resume := j.resume ++ [h] }
    (s3.post (.panelPlacement p.die)).post (.contextSaveDone p.die p.ctx)

end State

/-- PANEL_SWAP_OUT (R366): a panel that must leave does once everything of it is complete. -/
def execPanelSwapOut (h : Nat) (s : State) : Out :=
  match s.panel? h with
  | none => .next s
  | some p =>
    if p.core.isNone || p.killed then .next s
    else if p.leaving then
      let room := s.areaRoom p.die p.ctx [(4, 1), (3, (p.strands.filter fun t => !t.2.isOver && !t.2.out).length)]
      if s.panelQuiet h p && s.settled h p && room then .next (s.panelOut h p) else .next (s.post (.panelSwapOut h))
    else if p.strands.any (fun t => faultParked t.2) then
      if p.strands.all (fun t => stalled t.2) then .next (s.leavePanel h) else .next (s.post (.panelSwapOut h))
    else .next s

/-! Pre-emption (R367, R368). -/

/-- A victim strand: partition priority, panel priority, order of start of its panel, STRANDID, and where it stands. -/
structure Victim where
  prio  : Nat
  pprio : Nat
  seq   : Nat
  slot  : Nat
  panel : Nat
deriving DecidableEq, Repr

/-- Whether one victim is chosen before another. -/
def Victim.before (a b : Victim) : Bool :=
  if a.prio ≠ b.prio then a.prio < b.prio else if a.pprio ≠ b.pprio then a.pprio < b.pprio
  else if a.seq ≠ b.seq then b.seq < a.seq else b.slot < a.slot

/-- A victim put in its place. -/
def insertVictim (v : Victim) : List Victim → List Victim
  | [] => [v]
  | w :: ws => if Victim.before v w then v :: w :: ws else w :: insertVictim v ws

namespace State

/-- The strands of lower partition priority on a core, in the order in which they are chosen; with `whole` the panels, one that has no
strand left on the core among them. -/
def victims (s : State) (d k prio : Nat) (whole : Bool) : List Victim :=
  (s.residents d k).foldl (fun vs p =>
    let q := partPrio (s.part d p.2.ctx p.2.part)
    if q < prio && !p.2.leaving then
      let here := (p.2.strands.filter fun t => !t.2.isOver && !t.2.out).map (·.1)
      (if here.isEmpty && whole then [0] else here).foldl (fun vs i =>
        insertVictim { prio := q, pprio := p.2.prio, seq := p.2.seqNo, slot := i, panel := p.1 } vs) vs
    else vs) []

/-- The state as it would stand on the core once victims have left: strands, or with `whole` their panels. -/
def without (s : State) (vs : List Victim) (whole : Bool) : State :=
  if whole then vs.foldl (fun s v => s.modPanel v.panel fun p => { p with core := none }) s
  else vs.foldl (fun s v => s.modStrand v.panel v.slot fun t => { t with out := true }) s

/-- The fewest victims of a core, strands first and panels where strands do not suffice, that make a record fit. -/
def choose' (s : State) (d k : Nat) (r : Rec) (prio : Nat) : Option (List Victim × Bool) :=
  -- a swatch fits once enough cores of the core's group do
  let fits (s1 : State) : Bool :=
    if r.sw then (s1.findCores d (2 ^ (k / 8)) none (fun _ => false) r.nstr r.panels true r).isSome else (s1.coreFits d k r.nstr r).isSome
  let least (whole : Bool) : Option (List Victim × Bool) :=
    let vs := s.victims d k prio whole
    ((List.range (vs.length + 1)).find? fun n => fits (s.without (vs.take n) whole)).map fun n => (vs.take n, whole)
  (least false).or (least true)

end State

/-- PREEMPTION (R367): the first starved ring in the order of R363 for which some core of its REACH groups can be freed. -/
def execPreemption (d : Nat) (s : State) : Out :=
  let try' (r : Nat × Nat × Nat) : Option (Nat × Nat × Nat × (Nat × Bool) × List Victim × Bool) :=
    match s.headOf d r.1 r.2.1 r.2.2 with
    | none => none
    | some u =>
      let w := s.part d r.1 r.2.1
      ((List.range 80).filter fun k => Word.bit (partReach w) (k / 8)).findSome? fun k =>
        (s.choose' d k u.crec (partPrio w)).map fun v => (r.1, r.2.1, r.2.2, (k, u.crec.sw), v.1, v.2)
  let rings := (s.starvedRings d).foldl (fun (xs : List (Nat × Nat × Nat)) r =>
    let rank (x : Nat × Nat × Nat) : Nat := partPrio (s.part d x.1 x.2.1) * 4 + x.2.2
    (xs.takeWhile fun y => rank r ≤ rank y) ++ [r] ++ (xs.dropWhile fun y => rank r ≤ rank y)) []
  match rings.findSome? try' with
  | none => .next s
  | some (c, p, l, k, vs, whole) =>
    let dl := BitVec.ofNat 64 (s.time.toNat + 64 * partYwin (s.part d c p))
    let s1 := s.modDie d fun x => { x with preempts := x.preempts ++ [{ core := k.1, sw := k.2, ctx := c, part := p, level := l }] }
    let ask (s : State) (h i : Nat) : State :=
      (s.modStrand h i fun t => { t with yieldAt := some (t.yieldAt.getD dl) }).post (.forcedSave h i)
    let one (s : State) (v : Victim) : State :=
      if !whole then ask s v.panel v.slot
      else
        (match s.panel? v.panel with
        | none => s
        | some q =>
          let here := q.strands.filter fun t => !t.2.isOver && !t.2.out
          let s1 := if q.bob.isOver then s else s.modBob v.panel fun b => { b with evict := true }
          if here.isEmpty then s1.leavePanel v.panel else here.foldl (fun s t => ask s v.panel t.1) s1)
    .next ((vs.foldl one s1).post (.panelPlacement d))

/-! Ends (R113, R358, R361). -/

namespace State

/-- A panel's outstanding accesses are acknowledged and its engine work is done (R113). DESIGN CHOICE: an ordered contribution that its home
holds, accepted and not yet applied, does not keep its panel from ending (log 102). -/
def panelIdle (s : State) (h : Nat) (p : Panel) : Bool :=
  s.settled h p && s.copies.all (fun c => c.2.panel != h) && s.colls.all (fun c => !(c.2.panel == some h && !c.2.fin)) &&
  s.reqs.all (fun r => r.2.ex.panel != some h || (match r.2.st with | .held => true | _ => false)) && s.kvs.all (fun k => k.2.ex.panel != some h)

/-- The panel's traces removed: its scoreboard entries, standing requests and parked entries; a panel of a swatch stays marked until
the last one ends. -/
def dropPanel (s : State) (h : Nat) (p : Panel) : State :=
  let key := coreKey p.die (p.core.getD 0x7F)
  let s1 := ((s.keepProgress p).modCore key fun q => { q with sb := q.sb.filter fun e => e.2.panel != h }).dropStanding (· == h)
  let s2 := s1.modDie p.die fun x => { x with parked := x.parked.filter fun e => e.2.ex.panel != some h }
  let s3 := (s2.modJob p.ctx fun j => { j with resume := j.resume.filter (· != h) }).queueLeft p.die (p.core.getD 0x7F)
  match p.swatch with
  | none => { s3 with panels := SMap.del s3.panels h }
  | some w =>
    let hs := (SMap.lookD s3.swatches w { panels := [] }).panels
    let s4 := s3.modPanel h fun q => { q with done := true }
    if hs.all (fun x => match s4.panel? x with | some q => q.done | none => true) then
      { s4 with panels := s4.panels.filter (fun q => !hs.contains q.1), swatches := SMap.del s4.swatches w }
    else s4

/-- A panel killed (R410 mode 1): every executor of it has ended. -/
def killPanel (s : State) (h : Nat) : State :=
  let s1 := s.modPanel h fun p => { p with
    killed := true
    status := 7
    spawn := []
    groups := []
    bob := { p.bob with isOver := true, thr := { p.bob.thr with park := none } } }
  match s1.panel? h with
  | none => s1
  | some p =>
    let s2 := p.live.foldl (fun s i =>
      ((s.modStrand h i fun t => { t with isOver := true, a := none, b := none, thr := { t.thr with park := none } }).resolveBars h).dropMember h i) s1
    let s3 := s2.modDie p.die fun x => { x with parked := x.parked.filter fun e => e.2.ex.panel != some h }
    ((s3.modJob p.ctx fun j => { j with resume := j.resume.filter (· != h) }).post (.panelComplete h)).freed h

end State

/-- PANEL_COMPLETE (R113, R359, R361); a panel whose strands have ended or been saved may have to leave its core instead (R367). -/
def execPanelComplete (h : Nat) (s : State) : Out :=
  match s.panel? h with
  | none => .next s
  | some p =>
    if State.mustLeave p then .next (s.leavePanel h)
    else if p.done || !p.live.isEmpty || !p.bob.isOver || p.records != 0 then .next s
    else if !s.panelIdle h p then .next (s.post (.panelComplete h))
    else if p.crec.join ≠ 0 ∧ p.joined = 0 then
      .next ((s.modPanel h fun q => { q with joined := 1 }).sendJoin
        { ctx := p.ctx, socket := p.die, addr := p.crec.join, panel := some h })
    else if p.joined = 1 then .next s
    else
      match s.garmentSub p.die p.ctx p.garment p.status with
      | none => .next (s.post (.panelComplete h))
      | some s1 => .next (((s1.dropPanel h p).post (.panelPlacement p.die)).post (.contextSaveDone p.die p.ctx))

/-- JOIN_DECREMENT (R361). -/
def execJoinDecrement (id : Nat) (s : State) : Out :=
  match SMap.look s.joins id with
  | none => .next s
  | some j =>
    let s0 := { s with joins := SMap.del s.joins id }
    let a := j.addr.toNat
    let ended (s : State) (bad : Bool) : State :=
      match j.panel with
      | none => s
      | some h =>
        (s.modPanel h fun p => { p with joined := 2, status := if bad then 6 else p.status }).post (.panelComplete h)
    let fault (s : State) : Out :=
      let e := s.bareFlog 6 1 j.ctx (s.vdie j.socket j.ctx j.socket) (s.faultAddr j.socket j.ctx j.addr.toNat)
      let who := j.panel.bind s.panel?
      .next (ended (s.logFault j.socket { e with
        panel := (who.map (·.panelId)).getD e.panel
        core := (who.bind (·.core)).getD e.core }) true)
    if a % 64 ≠ 0 then fault s0
    else if s0.engWalkHeld j.socket 0x7F j.ctx a then .next (s.post (.joinDecrement id))
    else
      match s0.engPlace j.socket 0x7F j.ctx a .both with
      | .error _ => fault s0
      | .ok (_, p) =>
        match (s0.engGet j.socket 8 true p).crossed j.socket 0x7F p with
        | .wait => .next (s.post (.joinDecrement id))
        | .fail s1 _ => fault s1
        | .ok s1 w =>
          let n := w % 2 ^ 32
          if !Word.bit w 33 || n = 0 then fault s1
          else
            let w1 := if n = 1 then w - 1 - 2 ^ 33 else w - 1
            match s1.engPut j.socket 8 w1 true p with
            | .wait => .next (s.post (.joinDecrement id))
            | .fail s2 _ => fault s2
            | .ok s2 0 => fault s2
            | .ok s2 _ =>
              if n ≠ 1 || p.pkg ≠ s.pkg then .next (ended s2 false)
              else
                let r := recOf ((List.range 4).map fun i => BitVec.ofNat 64 (s2.readAt { p with byte := p.byte + 8 + 8 * i } 8))
                let g := s2.garmentKey j.ctx (w / 2 ^ 40)
                let s3 := s2.garmentAdd j.ctx g (r.panels - 1)
                .next (ended (s3.holdUnit p.socket j.ctx (Word.bits w 38 36) (Word.bits w 35 34) { crec := r, garment := g }) false)

/-! The Gather Former (R115 to R117). -/

/-- A group taken from spawn memory: its fullest partial one, the lowest target among equals. -/
def fullestGroup (rs : List SpawnRec) : Option W64 :=
  let tgts := (rs.map (·.tgt)).eraseDups
  let size (t : W64) : Nat := (rs.filter fun r => r.tgt == t).length
  tgts.foldl (fun (m : Option W64) t =>
    match m with
    | none => some t
    | some u => if size u < size t || (size u == size t && t.toNat < u.toNat) then some t else m) none

/-- A BRSP of a panel that waits and still lacks room (R117). -/
def Panel.lacksRoom (p : Panel) (w : Waiting) : Bool :=
  match w with
  | .brsp n => decide (2048 < p.records + n)
  | .bar => false
  | .form => false
  | .ofence _ => false
  | .none => false

/-- A strand that waits at a BAR not yet resolved (R117, R257). -/
def Panel.atBar (p : Panel) (t : Strand) : Bool :=
  !t.waits.isEmpty && t.waits.all (· == .bar) &&
  (match t.thr.arrival with
    | some (false, n, g) => (SMap.lookD p.bars n {}).gen == g
    | some (true, _, _) => false
    | none => false)

/-- GATHER_FLUSH (R117): one partial group, when the panel's strands have ended or wait; for a BRSP that waits for room, none while a
strand formed already waits to take its records out. -/
def execGatherFlush (h : Nat) (s : State) : Out :=
  match s.panel? h with
  | none => .next s
  | some p =>
    let live := (p.strands.map (·.2)).filter fun t => !t.isOver
    let room (t : Strand) : Bool := !t.waits.isEmpty && t.waits.all p.lacksRoom
    let go := live.all room || (live.filter fun t => !room t).all p.atBar ||
      (p.groups.isEmpty && live.any fun t => t.waits.any p.lacksRoom)
    if !go || p.killed then .next s
    else
      match fullestGroup p.spawn with
      | none => .next s
      | some t =>
        let g := p.spawn.filter fun r => r.tgt == t
        let p1 : Panel := { p with spawn := p.spawn.filter (fun r => r.tgt != t), groups := p.groups ++ [g] }
        .next (((s.setPanel h p1).post (.gatheredStrandStart h)).post (.gatherFlush h))

/-- The lanes that r records take: ⌈r ÷ 4⌉ quads, the last one partly; which quads and lanes is a free value (R57, log 5). -/
def gatherLanes (n r : Nat) : List Nat :=
  let quads := (shuffle n (List.range 8)).take ((r + 3) / 4)
  ((quads.mapIdx fun i (q : Nat) => (i, q)).flatMap fun iq =>
    ((shuffle (n + 8 + 4 * iq.1) (List.range 4)).take (if iq.1 + 1 = (r + 3) / 4 then r - 4 * iq.1 else 4)).map (· + 4 * iq.2))

/-- A strand formed from records (R57, R115). -/
def gatheredStrand (n : Nat) (rs : List SpawnRec) (copySeq collSeq order : Nat) : Strand :=
  let lanes := gatherLanes n rs.length
  let placed := List.zip lanes (shuffle (n + 64) rs)
  let quadUsed (l : Nat) : Bool := lanes.any fun k => k / 4 == l / 4
  let recAt (l : Nat) : Option SpawnRec := (placed.find? fun x => x.1 == l).map (·.2)
  let leader (l : Nat) : Option SpawnRec := ((List.range 4).map (· + l / 4 * 4)).findSome? recAt
  let lane (l : Nat) : Lane :=
    match (recAt l).or (leader l) with
    | some r => { q := r.q, o := r.o, v := r.v, p := r.p }
    | none => {}
  let used := maskOf ((List.range 32).filter quadUsed)
  let tgt := (rs.head?.map (·.tgt)).getD 0
  { thr := { copySeq := copySeq, collSeq := collSeq }
    lanes := (List.range 32).map lane
    ended := ~~~ used
    helper := used &&& ~~~ maskOf lanes
    a := some { pos := { pc := tgt, kind := .entered }, mask := used }
    started := order }

/-- GATHERED_STRAND_START (R116): the group that formed first takes the lowest free slot once the core has room. -/
def execGatheredStrandStart (h : Nat) (s : State) : Out :=
  match s.panel? h with
  | none => .next s
  | some p =>
    match p.groups with
    | [] => .next s
    | g :: gs =>
      let free := (List.range 32).find? fun i => match SMap.look p.strands i with | some t => t.isOver | none => true
      if p.leaving || !s.strandRoom p 1 then .next (if p.killed then s else s.post (.gatheredStrandStart h))
      else
        match free with
        | none => .next (s.post (.gatheredStrandStart h))
        | some i =>
          let t := gatheredStrand s.free g p.copyNext p.collNext s.nextId
          let p1 : Panel := { p with groups := gs, strands := SMap.put p.strands i t }
          let s1 := (({ s with free := s.free + 128, nextId := s.nextId + 1 }).keepProgress p).setPanel h p1
          .next ((s1.post (.gatheredStrandStart h)).post (.gatherFlush h))

/-! Watchdog and termination (R391, R393, R394, R414). -/

namespace State

/-- A context ended on one die (R414 mode 1): its panels, triggers, collectives and held records go, and other members' collectives
end ABORTED. The panels that wait for what it held are looked at again (R363). -/
def endCtx (s : State) (d c code : Nat) : State :=
  let gone := s.panels.filter fun p => p.2.ctx == c && p.2.die == d
  let hs := gone.map (·.1)
  let dead (h : Nat) : Bool := hs.contains h
  let s1 := gone.foldl (fun s p =>
    s.modCore (coreKey d (p.2.core.getD 0x7F)) fun q => { q with
      sb := q.sb.filter fun e => !dead e.2.panel
      eng := q.eng.filter fun e => !dead e.panel }) s
  let cores := (gone.filterMap (·.2.core)).eraseDups
  let s2 : State := { s1 with
    panels := s1.panels.filter fun p => !dead p.1
    swatches := s1.swatches.filter fun w => !w.2.panels.any dead
    copies := s1.copies.filter fun x => !dead x.2.panel
    mstts := s1.mstts.filter fun x => !dead x.2.panel
    kvlds := s1.kvlds.filter fun x => !dead x.2.panel
    colls := (s1.colls.filter fun x => !(x.2.ctx == c && x.2.socket == d)).map fun x =>
      (x.1, if x.2.ctx == c && x.2.started && !x.2.fin && x.2.forced.isNone && (maskDies x.2.mask).any (fun v => (s.dmap d c).getD v 99 == d) then
        { x.2 with forced := some 9 } else x.2) }
  let n := ((s.die d).trigs.filter fun t => t.2.ctx == c).length
  let s3 := s2.modDie d fun x => { x with
    parked := x.parked.filter fun e => match e.2.ex.panel with | some h => !dead h | none => true
    trigs := x.trigs.filter fun t => t.2.ctx != c
    held := x.held.filter fun u => u.ctx != c
    preempts := x.preempts.filter fun y => y.ctx != c }
  let s4 := (s3.modCtx d c fun x => { x with st := .ended, ending := code, trigDropped := min 255 (x.trigDropped + n) }).modJob c fun j =>
    { j with resume := j.resume.filter fun h => !dead h }
  (cores.foldl (fun s k => s.queueLeft d k) (s4.dropStanding dead)).post (.panelPlacement d)

/-- The dies on which a context slot is in use and names one die. -/
def ctxDies (s : State) (d c : Nat) : List Nat :=
  let ds := s.dmap d c
  ((if ds.contains d then ds else d :: ds)).filter fun k =>
    let st := (s.ctx k c).st
    st == .loaded || st == .saving || st == .saved

/-- A context ended on every die. -/
def endEverywhere (s : State) (d c code : Nat) : State := (s.ctxDies d c).foldl (fun s k => s.endCtx k c code) s

/-- Whether the watchdog of a context runs on a die. -/
def watched (s : State) (d c : Nat) : Bool :=
  s.panels.any fun p => p.2.ctx == c && !p.2.done && (p.2.die == d && p.2.core.isSome || (s.job c).resume.contains p.1)

/-- A save of the context is in progress on a die (R394). -/
def saveRuns (s : State) (d c : Nat) : Bool :=
  (s.ctx d c).st == .saving ||
  s.panels.any fun p => p.2.ctx == c && p.2.die == d && (p.2.leaving || p.2.strands.any fun t => t.2.saving)

/-- Accesses of a context's executors on a die not yet acknowledged: one that is performed with its value on the way back, and a
value known already, are not (R394). -/
def unacked (s : State) (d c : Nat) : Nat :=
  (s.reqs.filter fun r => r.2.ctx == c && r.2.socket == d && r.2.core != 0x7F &&
    (match r.2.op, r.2.st with
      | .value, _ => false
      | _, .data _ _ => false
      | _, .sent => true
      | _, .held => true
      | _, .ack _ => true)).length

/-- The panels of a context on a die whose images an expiry during a save leaves (R394): those saved, and those whose save is under
way. -/
def savedPanels (s : State) (d c : Nat) : List Panel :=
  (s.panels.filter fun p => p.2.ctx == c && p.2.die == d && !p.2.done &&
    (p.2.core.isNone || p.2.leaving || p.2.strands.any fun t => t.2.saving || t.2.out)).map (·.2)

/-- The image of a context slot, in the words of R414; its check value and its other words are free values of the image's name. -/
def imageWord (s : State) (d c id : Nat) (latched : Bool) (aband i : Nat) : Nat :=
  if i = 0 then
    min 255 (s.ctx d c).trigDropped * 2 ^ 24 + min 255 aband * 2 ^ 16 + s.vdie d c d * 2 ^ 8 + (if latched then 2 ^ 7 else 0) + c
  else Config.imageWord id i

/-- The image written at its address; none while its places cannot be reached. A latched expiry's does not wait (R394): what can be reached
at all is written. -/
def writeImage (s : State) (d c : Nat) (latched : Bool) (aband : Nat) : Option State :=
  let a := (s.ctx d c).saveAt.toNat
  let id := s.nextId
  let x : Image := {
    slot := c, vdie := s.vdie d c d, latched := latched, ctx := s.ctx d c, gid := (s.job c).gid,
    head := s.imageWord d c id latched aband 0, tokens := (s.die d).tokens,
    panels := (s.panels.filter fun p => p.2.ctx == c && p.2.die == d).map (·.1) }
  let put (acc : Option State) (i : Nat) : Option State :=
    match acc with
    | none => none
    | some s1 =>
      match s1.resolveMod (a + 8 * i) with
      | .at' p =>
        (match (s1.engPut d 8 (s.imageWord d c id latched aband i) true p).crossed d 0x7F p with
        | .ok s2 _ => some s2
        | .wait =>
          if !latched then none
          else if p.pkg = s1.pkg && s1.gone p.socket then some s1
          else some (s1.homeWrite p 8 (s.imageWord d c id latched aband i) true).1
        | .fail s2 _ => some s2)
      | .range => some s1
      | .denied => some s1
  (List.range 8192).foldl put (some { s with nextId := id + 1, images := SMap.put s.images id x })

end State

/-- CONTEXT_SAVE_DONE (R414): once no panel of the slot is left on the die, the image is written. -/
def execContextSaveDone (d c : Nat) (s : State) : Out :=
  if (s.ctx d c).st != .saving then .next s
  else if s.panels.any (fun p => p.2.ctx == c && p.2.die == d && p.2.core.isSome && !p.2.done) then .next (s.post (.contextSaveDone d c))
  else
    match s.writeImage d c false 0 with
    | none => .next (s.post (.contextSaveDone d c))
    | some s1 => .next ((s1.modCtx d c fun x => { x with st := .saved }).setEvent d 4)

/-- The watchdog of a context has run out on a die (R393). -/
def State.expired (s : State) (d c : Nat) : Bool :=
  let x := s.ctx d c
  x.wdLimit != 0 && (x.st == .loaded || x.st == .saving) && s.watched d c && decide (s.lastProgress d c + x.wdLimit.toNat ≤ s.time.toNat)

/-- A context and a die on which it has. DEDUCED: the expiry comes in the first clk in which TIME has reached the deadline, before whatever
else that clk brings, so that a save that would complete in it is still in progress (R393, R394; log 98). -/
def State.dueExpiry (s : State) : Option (Nat × Nat) :=
  if s.off then none
  else s.dies.findSome? fun d => (d.2.ctxs.find? fun c => s.expired d.1 c.1).map fun c => (d.1, c.1)

/-- WATCHDOG_EXPIRY (R393, R394). -/
def execWatchdogExpiry (d c : Nat) (s : State) : Out :=
  let x := s.ctx d c
  if x.wdLimit = 0 || !(x.st == .loaded || x.st == .saving) then .next s
  else if !s.watched d c then .next ((s.progressed d c).post (.watchdogExpiry d c))
  else if !s.expired d c then .next (s.post (.watchdogExpiry d c))
  else
    -- an expiry on any die ends the context on every die: saves in progress on each complete without waiting (R394)
    let dies := s.ctxDies d c
    let during := dies.any fun k => s.saveRuns k c
    let latch (s : State) (k : Nat) : State :=
      if !s.saveRuns k c then s
      else
        let n := s.unacked k c
        let s0 := s.modCtx k c fun y => { y with wdLatched := true, abandoned := n, kept := s.savedPanels k c }
        if (s.ctx k c).st == .saving then (s0.writeImage k c true n).getD s0 else s0
    let s1 := dies.foldl latch s
    let s2 := s1.logFault d (s1.bareFlog (if during then 6 else 5) 2 c (s.vdie d c d) (s1.openWord 0))
    let s3 := s2.endEverywhere d c (if during then 6 else 5)
    .next (dies.foldl (fun s k => s.setEvent k 3) s3)

end Sys2Proof.Machine
end

