-- ==== Sys2Proof/Machine/Scheduling.lean ====
section
/-! DEFINITION. The scheduling class (R371 to R381): FORK, JCTR, LNCH, YIELD, QPUSH, QPOP, PRIO, SRD. -/

namespace Sys2Proof.Machine

/-- SCHED_DESC with its word and the low bit of its field (R374; log 19). -/
def schedTrap (word fld : Nat) : TrapInfo :=
  { trap := .schedDesc, d0 := BitVec.ofNat 64 word, d1 := BitVec.ofNat 64 (fld * 2 ^ 32) }

/-- The record in S(b) to S(b + 3). -/
def recAt (c : Cx) (x : Opnd) : Rec :=
  let b := (sregOf x).getD 0
  recOf ((List.range 4).map fun i => BitVec.ofNat 64 (c.s (b + i)))

/-- FORK (R375): an earlier JCTR of the issuer is performed at its issue. -/
def execFork (x : Args) (s : State) : Out :=
  run (.fork x) s fun c x =>
    if !c.any then .next (s.advance c)
    else
      match c.ex.panel.bind s.panel? with
      | none => .refused .noExecutor
      | some p =>
        let r := recAt c x.a
        let l := c.uni .w64 x.b
        match (if 3 < l then some (4, 0) else recFault r) with
        | some f => trapOut s c (schedTrap f.1 f.2)
        | none =>
          if s.ringFull p.die p.ctx p.part l then waitOut s
          else
            match (s.advance c).ringPush p.die p.ctx p.part l { crec := r, garment := p.garment } with
            | some s1 => .next (s1.garmentAdd p.ctx p.garment r.panels)
            | none => waitOut s

/-- The 64 bytes JCTR writes (R376, R360). -/
def joinObject (gid part level count : Nat) (r : Rec) : Nat :=
  (gid * 2 ^ 40 + part * 2 ^ 36 + level * 2 ^ 34 + 2 ^ 33 + count) + r.hdr.toNat * 2 ^ 64 + r.frame.toNat * 2 ^ 128 +
    r.join.toNat * 2 ^ 192 + r.shape.toNat * 2 ^ 256

/-- JCTR (R376). -/
def execJctr (x : Args) (s : State) : Out :=
  run (.jctr x) s fun c x =>
    if !c.any then .next (s.advance c)
    else
      match c.ex.panel.bind s.panel? with
      | none => .refused .noExecutor
      | some p =>
        let r := recAt c x.c
        let a := c.uni .w64 x.a
        let n := c.uni .w64 x.b
        let limit : Option (Nat × Nat) :=
          if n % 2 ^ 32 = 0 then some (4, 0) else if n / 2 ^ 34 ≠ 0 then some (4, 34) else recFault r
        match limit with
        | some f => trapOut s c (schedTrap f.1 f.2)
        | none =>
          if a % 64 ≠ 0 then trapOut s c { trap := .misaligned, d0 := BitVec.ofNat 64 a }
          else
            andThen s c (s.placeOf c.ex a .write) fun q => ordered s c false false fun _ =>
              let s1 := (s.advance c).garmentAdd p.ctx p.garment 1
              match q.2 with
              | none => .next (s1.recordAsync c.ex (deniedErr (BitVec.ofNat 64 a) c.pc))
              | some pl =>
                let w : Req := { reqBase s c s.nextId (polOf 0) with
                  op := .store 0, place := some pl, va := BitVec.ofNat 64 a, n := 64 }
                if !s.inTurnFor s.nextId w then waitOut s
                else
                  let old := s.readAt pl 8
                  match (s1.crossCore p.die (p.core.getD 0x7F) (s.dieKey pl)).engPut p.die 64 (joinObject p.gid p.part (Word.bits n 33 32) (n % 2 ^ 32) r) true pl with
                  | .wait => waitOut s
                  | .fail s2 t => .next (s2.recordAsync c.ex { trap := t, d0 := BitVec.ofNat 64 a })
                  | .ok s2 0 => .next (s2.recordAsync c.ex (storeErr (BitVec.ofNat 64 a)))
                  | .ok s2 _ =>
                    let s3 := s2.modL1 p.die (p.core.getD 0x7F) fun m => SMap.del m (State.gKey (p.core.getD 0x7F) p.ctx q.1)
                    if Word.bit old 33 then
                      match s3.garmentSub p.die p.ctx (s3.garmentKey p.ctx (old / 2 ^ 40)) 0 with
                      | some s4 => .next s4
                      | none => waitOut s
                    else .next s3

/-- The first field of a garment descriptor that breaks R356 or R377: word and low bit (log 19). -/
def garmentFault (s : State) (d c : Nat) (ws : List W64) : Option (Nat × Nat) :=
  let w (i : Nat) : Nat := (ws.getD i 0).toNat
  let r := recOf ws
  let n := w 4 % 2 ^ 32
  match recFault r with
  | some f => some f
  | none =>
    let checks : List (Bool × Nat × Nat) := [
      (r.panelId != 0, 3, 0), (n = 0 || decide (2 ^ 19 < n) || decide (2 ^ 19 < n * r.panels), 4, 0),
      (Word.bits (w 4) 47 32 / 2 ^ s.dieCount d c != 0, 4, 32), (!s.partOk d c (Word.bits (w 4) 52 50), 4, 50),
      (Word.bits (w 4) 55 53 != 0, 4, 53), (Word.bits (w 4) 63 56 != 0, 4, 56), (w 5 % 8 != 0, 5, 0), (w 6 != 0, 6, 0),
      (w 7 != 0, 7, 0)]
    (checks.find? (·.1)).map (·.2)

/-- The dies a garment's units go to, in the order of their virtual dies (R357). -/
def State.launchDies (s : State) (d c : Nat) (ws : List W64) : List Nat :=
  let mask := Word.bits (ws.getD 4 0).toNat 47 32
  let socks := s.dmap d c
  ((List.range socks.length).filter fun v => mask = 0 || Word.bit mask v).map fun v => socks.getD v 0

/-- A garment launched from its descriptor (R357, R358): its key, and its units with their distributors. -/
def State.launch (s : State) (d c : Nat) (ws : List W64) : Nat × State :=
  let w (i : Nat) : Nat := (ws.getD i 0).toNat
  let r := recOf ws
  let n := w 4 % 2 ^ 32
  let dies := s.launchDies d c ws
  let g := s.nextGid c
  let s1 := s.modJob c fun j =>
    { j with gid := g, garments := SMap.put j.garments g { live := n * r.panels, status := ws.getD 5 0 } }
  let give (s : State) (x : Nat × Nat) : State :=
    let us : List HeldUnit := ((List.range n).filter fun u => u % dies.length == x.1).map fun u =>
      { ctx := c, part := Word.bits (w 4) 52 50, level := Word.bits (w 4) 49 48,
        unit := { crec := r.withPanel (u * r.panels), garment := g } }
    (s.modDie x.2 fun y => { y with held := y.held ++ us }).post (.distributorPush x.2)
  (g, (dies.mapIdx fun i (k : Nat) => (i, k)).foldl give s1)

/-- LNCH (R377). -/
def execLnch (x : Args) (s : State) : Out :=
  run (.lnch x) s fun c x =>
    if !c.any then .next (s.advance c)
    else slotGate s c [.preparing, .loaded, .saved] fun _ =>
      let a := c.uni .w64 x.a
      let d := (s.site c.ex).1
      let k := s.ctxOf c.ex
      if a % 8 ≠ 0 then trapOut s c { trap := .misaligned, d0 := BitVec.ofNat 64 a }
      else
        withWords s c a 8 fun ws => ordered s c false false fun _ =>
          match garmentFault s d k ws with
          | some f => trapOut s c (schedTrap f.1 f.2)
          | none =>
            let dies := s.launchDies d k ws
            -- units for other dies cross the rings (R19, R217)
            if s.rings.held && dies.any (· != d) then waitOut s
            else
            let (g, s1) := (dies.foldl (fun s t => s.crossCore d (s.site c.ex).2 t) (s.advance c)).launch d k ws
            .next (match sregOf x.d with | some n => s1.setS c.ex n (g % 2 ^ 24) | none => s1)

/-- YIELD (R378): a cooperative save begins, which keeps the registers below the block's LIVEV and LIVEQ entries of the queue. -/
def execYield (x : Args) (s : State) : Out :=
  run (.yield x) s fun c _ =>
    let s1 := s.advance c
    match c.ex with
    | .str h i =>
      (match s.strand? h i with
      | none => .refused .noExecutor
      | some t =>
        if c.any && t.yieldAt.isSome && !t.saving && (State.slotOf t (!c.slotB)).isNone then
          .next ((s1.modStrand h i fun t =>
            { t with saving := true, coop := some (Hdr.livev c.hdr, Hdr.liveq c.hdr), yieldAt := none }).post (.forcedSave h i))
        else .next s1)
    | .bob _ => .refused .noExecutor
    | .mgt _ => .refused .noExecutor

/-! Token queues (R371, R379). -/

/-- The queue a reference names for a context: its die and physical queue. -/
def State.tokenQueue (s : State) (d c r : Nat) : Option (Nat × Nat) :=
  let w := (s.ctxReg d c 0x3C).toNat
  let i := r % 64
  let v := Word.bits r 11 8
  if Word.bits r 7 6 != 0 || 2 ^ 12 ≤ r || Word.bits w 22 16 ≤ i || s.dieCount d c ≤ v then none
  else some ((s.dmap d c).getD v 0, (Word.bits w 5 0 + i) % 64)

/-- Tokens a queue holds at most. -/
def tokenCap : Nat := 1024

/-- A wait at which the recorded asynchronous trap is taken (R239, R379). -/
def waitToken (s : State) (c : Cx) : Out :=
  match c.thr.async with
  | some t => asyncOut s c t
  | none => waitAs s c .form

/-- QPUSH. -/
def execQpush (x : Args) (s : State) : Out :=
  run (.qpush x) s fun c x =>
    let toks := if !c.any then [] else if uniform x.b then [c.uni .w32 x.b] else c.parts.map (c.src .w32 x.b)
    if toks.isEmpty then .next (s.advance c)
    else slotGate s c [.loaded] fun _ =>
      let d := (s.site c.ex).1
      let r := c.uni .w64 x.a
      match s.tokenQueue d (s.ctxOf c.ex) r with
      | none => trapOut s c { trap := .tokenRange, d0 := BitVec.ofNat 64 r }
      | some (k, q) =>
        if tokenCap < (SMap.lookD (s.die k).tokens q []).length + toks.length || (s.rings.held && k != d) then waitToken s c
        else ordered s c true false fun _ =>
          .next (((s.advance c).crossCore d (s.site c.ex).2 k).modDie k fun y =>
            { y with tokens := SMap.put y.tokens q (SMap.lookD y.tokens q [] ++ toks.map (BitVec.ofNat 32)) })

/-- QPOP. -/
def execQpop (x : Args) (s : State) : Out :=
  run (.qpop x) s fun c x =>
    let ls := if !c.any then [] else if (sregOf x.d).isSome then [c.low] else c.parts
    if ls.isEmpty then .next (s.advance c)
    else slotGate s c [.loaded] fun _ =>
      let d := (s.site c.ex).1
      let r := c.uni .w64 x.a
      match s.tokenQueue d (s.ctxOf c.ex) r with
      | none => trapOut s c { trap := .tokenRange, d0 := BitVec.ofNat 64 r }
      | some (k, q) =>
        let have' := SMap.lookD (s.die k).tokens q []
        if have'.length < ls.length || (s.rings.held && k != d) then waitToken s c
        else ordered s c false true fun _ =>
          let tok (l : Nat) : Nat :=
            match ls.findIdx? (· == l) with
            | some i => (have'.getD i 0).toNat
            | none => 0
          let s1 := ((s.advance c).crossCore d (s.site c.ex).2 k).modDie k fun y => { y with tokens := SMap.putD y.tokens q (have'.drop ls.length) [] }
          .next ((s1.writeVec c .w32 x.d tok).dropL1 c.ex)

/-- PRIO (R380). -/
def execPrio (x : Args) (s : State) : Out :=
  run (.prio x) s fun c x =>
    if !c.any then .next (s.advance c)
    else
      let p := c.uni .w64 x.a
      if 3 < p then trapOut s c { trap := .illegalOperand }
      else .next (match c.ex.panel with | some h => (s.advance c).modPanel h fun q => { q with prio := p } | none => s.advance c)

/-- The value of an identity selector in a lane (R381); none where the reader may not read it. `sdst` marks an S destination. -/
def State.identity (s : State) (c : Cx) (sdst : Bool) (sel l : Nat) : Option Nat :=
  match c.ex with
  | .mgt _ => if sel = 7 then some 0x7F else none
  | .bob h => if 3 ≤ sel && sel ≤ 10 then (s.panel? h).bind fun p => panelValue p else none
  | .str h i =>
    (s.panel? h).bind fun p =>
      match sel with
      | 0 => if sdst then none else some l
      | 1 => if sdst then none else some (l / 4)
      | 2 => some i
      | 9 => some (((SMap.look p.strands i).bind (·.yieldAt)).getD 0).toNat
      | 11 => if sdst then none else some (if c.helper.getLsbD l then 1 else 0)
      | _ => panelValue p
where
  panelValue (p : Panel) : Option Nat :=
    match sel with
    | 3 => some p.panelId
    | 4 => some (if p.swatch.isSome then p.swIdx else 0xFFFFFFFF)
    | 5 => some p.gid
    | 6 => some (s.vdie p.die p.ctx p.die)
    | 7 => some (p.core.getD 0x7F)
    | 8 => some p.part
    | 9 => some 0
    | 10 => some p.live.length
    | _ => none

/-- SRD. -/
def execSrd (x : Args) (s : State) : Out :=
  run (.srd x) s fun c x =>
    if !c.any then .next (s.advance c)
    else
      let sdst := (sregOf x.d).isSome
      let sel := c.uni .w64 x.a
      if (s.identity c sdst sel c.low).isNone then trapOut s c { trap := .illegalOperand }
      else .next ((s.advance c).writeVec c .w32 x.d fun l => (s.identity c sdst sel l).getD 0)

end Sys2Proof.Machine
end

