-- ==== Sys2Proof/Machine/System.lean ====
section
/-! DEFINITION. The system class (R382 to R418): software traps, the handler's window and TRET, system registers, TLBI, contexts, the
watchdog limit, time, power, HALT; and the steps EXECUTOR_PARK, WDATA, TBSTEP, PTP_EVENT_FRAME. -/

namespace Sys2Proof.Machine

/-! Parking (R385). -/

namespace State

/-- The lowest free entry of a die's parked table. -/
def freePark (s : State) (d : Nat) : Nat :=
  let xs := (s.die d).parked
  ((List.range (xs.length + 1)).find? fun i => (SMap.look xs i).isNone).getD 0

/-- An executor enters its die's parked table, unclaimed. -/
def enterPark (s : State) (d : Nat) (e : Ex) : State :=
  let i := s.freePark d
  let s1 := s.modDie d fun x => { x with parked := SMap.put x.parked i { ex := e, order := s.nextId } }
  ({ s1 with nextId := s1.nextId + 1 }).modThr e fun t => { t with park := t.park.map fun (k : Park) => { k with place := .table i } }

end State

/-- EXECUTOR_PARK: the trap is delivered once the executor's writes are acknowledged. Slot 32 is the bobbin's. -/
def execExecutorPark (h slot : Nat) (s : State) : Out :=
  let e : Ex := if slot = 32 then .bob h else .str h slot
  match (s.thr e).park, s.panel? h with
  | some k, some p =>
    if k.place != .draining then .next s
    else if !s.released e then .next (s.post (.executorPark h slot))
    else .next (((s.enterPark p.die e).post (.panelSwapOut h)).post (.gatherFlush h))
  | _, _ => .next s

/-! Software traps (R408). -/

/-- A software trap's code, or ILLEGAL_OPERAND. -/
def softTrap (s : State) (c : Cx) (x : Args) (k : W64 → Out) : Out :=
  if c.parts.isEmpty then .next (s.advance c)
  else
    let v := c.uni .w64 x.a
    if 256 ≤ v then trapOut s c { trap := .illegalOperand } else k (BitVec.ofNat 64 v)

/-- TRAP. -/
def execTrap (x : Args) (s : State) : Out :=
  run (.trap x) s fun c x => softTrap s c x fun v => trapOut s c { trap := .trap, d0 := v }

/-- BKPT; on a management core it is the core's own trap (R390). -/
def execBkpt (x : Args) (s : State) : Out :=
  run (.bkpt x) s fun c x => softTrap s c x fun v => trapOut s c { trap := .bkpt, d0 := v }

/-- SVC: the instruction completes, and the executor resumes after it. -/
def execSvc (x : Args) (s : State) : Out :=
  run (.svc x) s fun c x => softTrap s c x fun v =>
    .next ((s.advance c).takeTrap c.ex c.slotB c.pc { trap := .svc, d0 := v } .after)

/-! The window (R388, R389). -/

/-- A slot never written while empty. -/
def blankSlot : PcSlot := { pos := { pc := 0, kind := .written 0 0 }, mask := 0 }

/-- A slot as a window sees it, and whether it is empty. -/
def winSlot (t : Strand) (b : Bool) : PcSlot × Bool :=
  match State.slotOf t b with
  | some x => (x, false)
  | none => ((SMap.look t.spare (if b then 1 else 0)).getD blankSlot, true)

/-- A slot as a window leaves it. -/
def setWinSlot (t : Strand) (b : Bool) (x : PcSlot) (empty : Bool) : Strand :=
  let k := if b then 1 else 0
  if empty then { State.setSlot t b none with spare := SMap.put t.spare k x }
  else { State.setSlot t b (some x) with spare := SMap.del t.spare k }

/-- The word of a slot's mask and state. -/
def slotWord (x : PcSlot) (empty : Bool) : Nat :=
  x.mask.toNat + (if x.waiting then 2 ^ 32 else 0) + (if empty then 2 ^ 33 else 0)

def PcSlot.withPc (x : PcSlot) (v : W64) : PcSlot := { x with pos := { pc := v, kind := lastBlock x.pos.kind } }

def Join.word : Join → Nat
  | .none => 0
  | .atExit => 3
  | .addr a => a.toNat / 8 * 8 + 1

def joinOf (v : W64) : Join :=
  if !v.getLsbD 0 then .none else if v.getLsbD 1 then .atExit else .addr (BitVec.ofNat 64 (v.toNat / 8 * 8))

/-- A list, newest entry first, made n long at its newest end. -/
def toDepth {α : Type} (n : Nat) (d : α) (xs : List α) : List α :=
  if n ≤ xs.length then xs.drop (xs.length - n) else List.replicate (n - xs.length) d ++ xs

/-- The entry e of a list that holds its newest first, counted from the oldest. -/
def fromOldest {α : Type} (xs : List α) (e : Nat) : Option α := xs.reverse[e]?

def setOldest {α : Type} (xs : List α) (e : Nat) (v : α) : List α := (xs.reverse.set e v).reverse

/-- A word of a divergence frame; a sibling without lanes is empty. -/
def frameWord (f : Frame) (w : Nat) : Nat :=
  let x := f.sib.getD blankSlot
  match w with
  | 0 => x.pos.pc.toNat
  | 1 => slotWord x (x.mask == 0)
  | 2 => f.join.word
  | _ => if f.posB then 1 else 0

def setFrameWord (f : Frame) (w : Nat) (v : W64) : Frame :=
  let x := f.sib.getD blankSlot
  match w with
  | 0 => { f with sib := some (x.withPc v) }
  | 1 => { f with sib := some { x with mask := if v.getLsbD 33 then 0 else BitVec.ofNat 32 v.toNat, waiting := v.getLsbD 32 } }
  | 2 => { f with join := joinOf v }
  | _ => { f with posB := v.getLsbD 0 }

/-- An item of a return stack: an entry, or its depth. -/
def stackItem (st : List W64) (e : Option Nat) : Option Nat :=
  match e with
  | some k => (fromOldest st k).map (·.toNat)
  | none => some st.length

def setStackItem (st : List W64) (e : Option Nat) (v : W64) : List W64 :=
  match e with
  | some k => setOldest st k v
  | none => toDepth (min v.toNat 64) 0 st

/-- Area 7's INDEX: the slot, and the entry or the depth. -/
def stackIndex (idx : Nat) : Option (Bool × Option Nat) :=
  if idx < 128 then some (64 ≤ idx, some (idx % 64)) else if idx < 130 then some (idx = 129, none) else none

/-- Area 9, the same for every executor but its own registers. -/
def idItem (p : Panel) (fflags role strand idx : Nat) : Option Nat :=
  match idx with
  | 0 => some fflags
  | 1 => some role
  | 2 => some p.ctx
  | 3 => some p.gid
  | 4 => some p.panelId
  | 5 => some strand
  | 6 => some (p.core.getD 0xFF)
  | 7 => some p.part
  | _ => none

/-- The item of a strand that SY.WSEL selects; none outside the table of R389. -/
def strandItem (p : Panel) (i : Nat) (t : Strand) (area idx lane : Nat) : Option Nat :=
  let n := t.lanes.getD lane {}
  match area with
  | 0 => if idx < p.crec.vregs then some (n.vAt idx).toNat else none
  | 1 => if idx < 8 then some (n.oAt idx).toNat else none
  | 2 => if idx < 16 then some (n.qAt idx).toNat else none
  | 3 => if idx < 64 then some (t.thr.ss.getD idx 0).toNat else none
  | 4 => if idx < 7 then some (maskOf ((List.range 32).filter fun l => (t.lanes.getD l {}).pAt idx)).toNat else none
  | 5 =>
    (match idx with
    | 0 => some (winSlot t false).1.pos.pc.toNat
    | 1 => some (slotWord (winSlot t false).1 (winSlot t false).2)
    | 2 => some (winSlot t true).1.pos.pc.toNat
    | 3 => some (slotWord (winSlot t true).1 (winSlot t true).2)
    | 4 => some t.join.word
    | 5 => some t.frames.length
    | 6 => some t.ended.toNat
    | 7 => some t.helper.toNat
    | _ => none)
  | 6 => (fromOldest t.frames (idx / 4)).map fun f => frameWord f (idx % 4)
  | 7 => (stackIndex idx).bind fun k => stackItem (winSlot t k.1).1.stack k.2
  | 8 => if idx = 0 then some n.sr.toNat else none
  | 9 => idItem p t.fflags.toNat t.role.toNat i idx
  | 10 =>
    if idx = 0 then some ((t.dq.mapIdx fun k b => if b then 2 ^ k else 0).sum + t.dq.length * 2 ^ 32) else none
  | _ => none

/-- One lane of a strand changed. -/
def Strand.modLane (t : Strand) (l : Nat) (f : Lane → Lane) : Strand := { t with lanes := t.lanes.modify l f }

/-- A strand moved to another PC by its handler: an arrival it had made is not the next barrier's (R257). -/
def movedOff (old t : Strand) : Strand :=
  let pc (x : Strand) (b : Bool) : W64 := (winSlot x b).1.pos.pc
  if pc old false = pc t false && pc old true = pc t true then t else { t with thr := { t.thr with arrival := none } }

/-- The strand with an item written; a read-only item keeps its value. -/
def setStrandItem (t : Strand) (area idx lane : Nat) (v : W64) : Strand :=
  let w : W32 := BitVec.ofNat 32 v.toNat
  match area with
  | 0 => t.modLane lane fun n => n.setV idx w
  | 1 => t.modLane lane fun n => n.setO idx w
  | 2 => t.modLane lane fun n => n.setQ idx w
  | 3 => { t with thr := { t.thr with ss := t.thr.ss.set idx v } }
  | 4 => { t with lanes := t.lanes.mapIdx fun l n => n.setP idx (w.getLsbD l) }
  | 5 =>
    (match idx with
    | 0 => movedOff t (setWinSlot t false ((winSlot t false).1.withPc v) (winSlot t false).2)
    | 1 => setWinSlot t false { (winSlot t false).1 with mask := w, waiting := v.getLsbD 32 } (v.getLsbD 33)
    | 2 => movedOff t (setWinSlot t true ((winSlot t true).1.withPc v) (winSlot t true).2)
    | 3 => setWinSlot t true { (winSlot t true).1 with mask := w, waiting := v.getLsbD 32 } (v.getLsbD 33)
    | 4 => { t with join := joinOf v }
    | 5 => { t with frames := toDepth (v.toNat % 128) { sib := none, join := .none, posB := false } t.frames }
    | 6 => { t with ended := w }
    | _ => t)
  | 6 =>
    (match fromOldest t.frames (idx / 4) with
    | some f => { t with frames := setOldest t.frames (idx / 4) (setFrameWord f (idx % 4) v) }
    | none => t)
  | 7 =>
    (match stackIndex idx with
    | some k =>
      let x := winSlot t k.1
      setWinSlot t k.1 { x.1 with stack := setStackItem x.1.stack k.2 v } x.2
    | none => t)
  | 8 => t.modLane lane fun n => { n with sr := w }
  | 9 =>
    (match idx with
    | 0 => { t with fflags := BitVec.ofNat 6 v.toNat }
    | 1 => { t with role := BitVec.ofNat 2 v.toNat }
    | _ => t)
  | 10 => { t with dq := (List.range (min (Word.bits v.toNat 37 32) 32)).map fun k => v.getLsbD k }
  | _ => t

/-- The same of a bobbin. -/
def bobItem (p : Panel) (area idx : Nat) : Option Nat :=
  match area with
  | 3 => if idx < 64 then some (p.bob.thr.ss.getD idx 0).toNat else none
  | 5 => if idx = 0 then some p.bob.pos.pc.toNat else none
  | 7 => (stackIndex idx).bind fun k => if k.1 then none else stackItem p.bob.stack k.2
  | 9 => idItem p 0 0 0 idx
  | _ => none

def setBobItem (b : Bobbin) (area idx : Nat) (v : W64) : Bobbin :=
  match area with
  | 3 => { b with thr := { b.thr with ss := b.thr.ss.set idx v } }
  | 5 => { b with pos := { pc := v, kind := lastBlock b.pos.kind } }
  | 7 => (match stackIndex idx with | some k => { b with stack := setStackItem b.stack k.2 v } | none => b)
  | _ => b

/-- SY.WSEL's fields. -/
def selArea (w : W64) : Nat := Word.bits w.toNat 31 28
def selIndex (w : W64) : Nat := Word.bits w.toNat 27 16
def selLane (w : W64) : Nat := Word.bits w.toNat 4 0

namespace State

/-- The window a management core has open, on the entry it was opened on: another that takes the index later is not it (R388). -/
def openWin (s : State) (m : Nat) : Option (Nat × ParkEntry) :=
  (s.mgt m).window.bind fun w => ((SMap.look (s.die m).parked w.1).filter fun e => e.order == w.2).map fun e => (w.1, e)

/-- The item a window selects. -/
def winItem (s : State) (e : Ex) (sel : W64) : Option Nat :=
  match e with
  | .str h i => (s.panel? h).bind fun p => (SMap.look p.strands i).bind fun t =>
      strandItem p i t (selArea sel) (selIndex sel) (selLane sel)
  | .bob h => (s.panel? h).bind fun p => bobItem p (selArea sel) (selIndex sel)
  | .mgt _ => none

/-- The item written. -/
def setWinItem (s : State) (e : Ex) (sel v : W64) : State :=
  match e with
  | .str h i => s.modStrand h i fun t => setStrandItem t (selArea sel) (selIndex sel) (selLane sel) v
  | .bob h => s.modBob h fun b => setBobItem b (selArea sel) (selIndex sel) v
  | .mgt _ => s

/-- A save of the executor is in progress, which window accesses wait for (R409). -/
def winSaving (s : State) (e : Ex) : Bool :=
  match e with
  | .str h i => ((s.panel? h).map (·.leaving)).getD false || ((s.strand? h i).map (·.saving)).getD false
  | .bob h => ((s.panel? h).map (·.leaving)).getD false
  | .mgt _ => false

/-- A window access waits: for a save, or for the eventual value of a register. -/
def winWaits (s : State) (e : Ex) (sel : W64) : Bool :=
  s.winSaving e || (decide (selArea sel ≤ 3) && (s.thr e).pends.any fun p => p.open')

end State

/-- The handle of a parked entry (R388). -/
def handleOf (i : Nat) (e : ParkEntry) : Nat :=
  2 ^ 63 + (match e.ex with | .bob _ => 2 ^ 16 | _ => 0) + i % 2 ^ 16

/-- WDATA (R389): management core m writes the selected item of its window. -/
def execWdata (m : Nat) (v : BitVec 64) (s : State) : Out :=
  match s.openWin m with
  | some (_, e) =>
    (match s.winItem e.ex (s.mgt m).wsel with
    | some _ => .next (s.setWinItem e.ex (s.mgt m).wsel v)
    | none => .next s)
  | none => .next s

/-- DWIN (R409). -/
def execDwin (x : Args) (s : State) : Out :=
  run (.dwin x) s fun c x =>
    match c.ex with
    | .mgt m =>
      if !c.any then .next (s.advance c)
      else
        let h := c.uni .w64 x.a
        let tab := (s.die m).parked
        let opened (i : Option (Nat × ParkEntry)) (v : Nat) (claim : State → State) : Out :=
          ordered s c false true fun _ =>
            .next ((((claim (s.advance c)).modMgt m fun g => { g with window := i.map fun e => (e.1, e.2.order) }).writeVec c .w64 x.d
              fun _ => v).dropL1 c.ex)
        if h = 2 ^ 64 - 1 then
          let oldest := (tab.filter fun e => !e.2.claimed).foldl (fun (a : Option (Nat × ParkEntry)) e =>
            match a with
            | some b => if e.2.order < b.2.order then some e else a
            | none => some e) none
          match oldest with
          | none => opened none 0 id
          | some (i, e) => opened (some (i, e)) (handleOf i e) fun s =>
              s.modDie m fun d => { d with parked := SMap.put d.parked i { e with claimed := true } }
        else
          match tab.find? fun e => handleOf e.1 e.2 == h with
          | some e => opened (some e) h id
          | none => trapOut s c { trap := .windowState }
    | .str _ _ => .refused .noExecutor
    | .bob _ => .refused .noExecutor

/-- A parked strand's control state is one that can resume (R410). -/
def resumable (t : Strand) : Bool :=
  let m (x : Option PcSlot) : Mask := match x with | some y => y.mask | none => 0
  let bare (x : Option PcSlot) : Bool := match x with | some y => y.mask == 0 | none => false
  m t.a &&& m t.b == 0 && (m t.a ||| m t.b) &&& t.ended == 0 && !bare t.a && !bare t.b && t.frames.length ≤ 64

/-- A strand as it resumes: siblings without lanes are empty, and what a window wrote to empty slots is gone. -/
def resumed (t : Strand) : Strand :=
  { t with
    spare := []
    emptied := t.spare.foldl (fun e x => e.add (some x.2)) t.emptied
    frames := t.frames.map fun f => { f with sib := f.sib.filter fun x => x.mask != 0 } }

namespace State

/-- An executor leaves the parked table (R410 mode 0); a panel in its image goes to the resume list once nothing of it is parked
(R366). -/
def unpark (s : State) (d i : Nat) (e : Ex) : State :=
  let s1 := (s.modDie d fun x => { x with parked := SMap.del x.parked i }).modThr e fun t => { t with park := none }
  let s2 := match e with
    | .str h n => (s1.modStrand h n fun t => settle (resumed t)).endStrand h n
    | .bob _ => s1
    | .mgt _ => s1
  match e.panel with
  | none => s2
  | some h =>
    match s2.panel? h with
    | none => s2
    | some p =>
      if p.core.isNone && !anyParked p && !(s2.job p.ctx).resume.contains h then
        -- a panel on a resume list makes the watchdog run, from now where it did not (R393)
        (s2.dmap p.die p.ctx).foldl (fun s k => s.post (.panelPlacement k))
          ((s2.wakeAll p.die p.ctx).modJob p.ctx fun j => { j with resume := j.resume ++ [h] })
      else s2

end State

/-- The acquire of a resumed executor, on its core; one whose panel is off its core acquires as the panel resumes (R410). -/
def State.acquireAt (s : State) (e : Ex) : State := if (s.site e).2 = 0x7F then s else s.dropL1 e

/-- TRET (R410). -/
def execTret (x : Args) (s : State) : Out :=
  run (.tret x) s fun c x =>
    match c.ex with
    | .mgt m =>
      if !c.any then .next (s.advance c)
      else
        let mode := c.uni .w64 x.a
        if 3 < mode || (16 ≤ m && mode < 3) then trapOut s c { trap := .illegalOperand, d0 := BitVec.ofNat 64 mode }
        else
          let done (s : State) (v : Nat) : State := (s.advance c).writeVec c .w64 x.d fun _ => v
          let close (s : State) : State := s.modMgt m fun g => { g with window := none }
          if mode = 3 then
            if !(s.mgt m).intrap then trapOut s c { trap := .windowState }
            else .next ((done s 0).ownReturn m)
          else
            match s.openWin m with
            | none => trapOut s c { trap := .windowState }
            | some (i, e) =>
              let ok := match e.ex with
                | .str h n => ((s.strand? h n).map resumable).getD true
                | .bob _ => true
                | .mgt _ => true
              if s.winSaving e.ex then waitOut s
              else if mode = 0 then
                if !ok then .next (done s 1)
                else ordered s c true false fun _ => .next (close (((done s 0).unpark m i e.ex).acquireAt e.ex))
              else if mode = 1 then
                .next (close (match e.ex.panel with | some h => (done s 0).killPanel h | none => done s 0))
              else
                let s1 := (done s 0).modDie m fun d => { d with parked := SMap.put d.parked i { e with claimed := true } }
                .next (close (match e.ex.panel with
                  | some h => if ((s1.panel? h).bind (·.core)).isSome then s1.leavePanel h else s1
                  | none => s1))
    | .str _ _ => .refused .noExecutor
    | .bob _ => .refused .noExecutor

/-! System registers (R401, R402). -/

/-- Whether an executor may reach a register, to read or to write it. -/
def sysReach (e : Ex) (wr : Bool) (n : Nat) : Bool :=
  match e with
  | .str _ _ => !wr && (n = 0x48 || n = 0x49)
  | .bob _ => false
  | .mgt m =>
    let own := (0x82 ≤ n && n ≤ 0x88) || (0x100 ≤ n && n ≤ 0x104)
    if m < 16 then n ≤ 0x40 || n = 0x80 || n = 0x81 || (0xC0 ≤ n && n ≤ 0xC6) || own
    else own || (m = 16 && 0x140 ≤ n && n ≤ 0x145)

/-- The writable bits of a context register (R20, R352, R178, R332, R339, R183, R184, R335, R371, R362, R395). -/
def ctxMask (n : Nat) : W64 :=
  if n < 0x10 then 0x80FF003F
  else if n < 0x18 then 0x80C0FF00FFFFFFFF
  else if n < 0x20 then 0xFFFFFFFF
  else if n < 0x30 then 0xFFFFFFFFFFFFFF01
  else if n < 0x38 then 0x80000000FFFFFFFF
  else if n = 0x38 then 0x1FFF0FFF
  else if n = 0x3A then 1
  else if n = 0x3B then 0x1FFF0FFF
  else if n = 0x3C then 0x7F003F
  else if n = 0x3D then 0xFFFFFFFFFFFFFF00
  else if n = 0x3E then 0xFFFFFFF80001
  else 0xFFFFFFFFFFFFFFFF

/-- The bits of a context register that a write may change in any state of its slot (R402). -/
def ctxAnyMask (n : Nat) : W64 :=
  if n < 0x10 then 0xFF0000 else if 0x20 ≤ n ∧ n < 0x30 then 2 else if 0x30 ≤ n ∧ n < 0x38 then 0xFFFFFFFFFFFFFFFF else 0

/-- A context register after a write; OVF of a completion queue is cleared by a 1 (R5, R332). -/
def ctxWrite (n : Nat) (old v : W64) : W64 :=
  let w1c : W64 := if 0x20 ≤ n ∧ n < 0x30 then 2 else 0
  (v &&& ctxMask n) ||| (old &&& ~~~ (ctxMask n) &&& ~~~ (v &&& w1c))

/-- SY.CTXSTAT (R391). -/
def ctxStat (x : Ctx) : Nat := x.ending * 2 ^ 8 + x.st.n

namespace State

/-- SY.MEVENT (R387). -/
def mevent (s : State) (m : Nat) : Nat :=
  (s.mgt m).mevent.toNat / 2 % 32 * 2 + (if m < 16 && (s.die m).parked.any (fun e => !e.2.claimed) then 1 else 0)

/-- A word of the oldest fault log entry (R400). -/
def flogWord (s : State) (m i : Nat) : Nat :=
  match (s.die m).flog.entries with
  | [] => 0
  | e :: _ =>
    match i with
    | 0 => e.code % 256 * 2 ^ 56 + e.ctx % 16 * 2 ^ 52 + e.pkg % 64 * 2 ^ 46 + e.vdie % 16 * 2 ^ 42 + e.core % 128 * 2 ^ 35 +
        e.strand % 32 * 2 ^ 30 + e.cls % 4 * 2 ^ 28 + e.panel % 2 ^ 19
    | 1 => e.pc.toNat
    | 2 => e.addr.toNat
    | _ => e.time.toNat

/-- A window register but WDATA; 0 while no window is open. -/
def winReg (s : State) (m n : Nat) : Nat :=
  match s.openWin m with
  | none => 0
  | some (i, e) =>
    match (s.thr e.ex).park with
    | none => 0
    | some k =>
      let bob := match e.ex with | .bob _ => true | _ => false
      match n with
      | 0xC0 => handleOf i e
      | 0xC1 => (causeWord k.info k.kind k.slotB bob k.more).toNat
      | 0xC2 => k.pc.toNat
      | 0xC3 => k.info.d0.toNat
      | 0xC4 => k.info.d1.toNat
      | _ => (s.mgt m).wsel.toNat

/-- A register of a management core but WDATA. -/
def mgtReg (s : State) (m n : Nat) : Nat :=
  let g := s.mgt m
  let c := g.ctxsel.toNat
  if n ≤ 0x40 then (if (s.ctx m c).st == .free then 0 else (s.ctxReg m c n).toNat)
  else
    match n with
    | 0x80 => c
    | 0x81 => ctxStat (s.ctx m c)
    | 0x82 => s.mevent m
    | 0x83 => g.meven.toNat
    | 0x84 => if g.intrap then 1 else 0
    | 0x85 => g.mvec.toNat
    | 0x86 => g.mepc.toNat
    | 0x87 => g.mcause.toNat
    | 0x88 => g.mdet.toNat
    | 0x100 => (s.die m).flog.entries.length + (if (s.die m).flog.ovf then 2 ^ 15 else 0)
    | 0x101 => s.flogWord m 0
    | 0x102 => s.flogWord m 1
    | 0x103 => s.flogWord m 2
    | 0x104 => s.flogWord m 3
    | 0x140 => s.tbrate.toNat
    | 0x141 => 0
    | 0x142 => (s.ptp.getD 0 0).toNat
    | 0x143 => (s.ptp.getD 1 0).toNat
    | 0x144 => (s.ptp.getD 2 0).toNat
    | 0x145 => (s.ptp.getD 3 0).toNat
    | _ => s.winReg m n

/-- A register of a strand. -/
def strReg (s : State) (h i n : Nat) : Nat :=
  match s.strand? h i with
  | none => 0
  | some t => if n = 0x48 then t.fflags.toNat else t.role.toNat

/-- A step that a register write makes comes before any other. -/
def atOnce (s : State) (i : Instr) : State := { s with agenda := i :: s.agenda }

/-- A write to a register of a management core that is neither a context register nor WDATA (R5, R401). -/
def setMgtReg (s : State) (m n : Nat) (v : W64) : State :=
  match n with
  | 0x80 => s.modMgt m fun g => { g with ctxsel := BitVec.ofNat 4 v.toNat }
  | 0x82 => s.modMgt m fun g => { g with mevent := g.mevent &&& ~~~ (BitVec.ofNat 6 v.toNat) }
  | 0x83 => s.modMgt m fun g => { g with meven := BitVec.ofNat 6 v.toNat }
  | 0x85 => s.modMgt m fun g => { g with mvec := v }
  | 0x86 => s.modMgt m fun g => { g with mepc := v }
  | 0xC5 => s.modMgt m fun g => { g with wsel := v &&& 0xFFFF001F }
  | 0x100 =>
    let s1 := if v.getLsbD 15 then s.modDie m fun d => { d with flog := { d.flog with ovf := false } } else s
    if v.getLsbD 16 then s1.atOnce (.flogPop m) else s1
  | 0x140 => { s with tbrate := BitVec.ofNat 32 v.toNat }
  | 0x141 => s.atOnce (.tbstep (v.toNat % 2 ^ 32))
  | _ => s

/-- A write to a context register of slot c of die d, which makes a FREE slot PREPARING (R391, R333). -/
def setCtxReg (s : State) (d c n : Nat) (v : W64) : State :=
  let old := s.ctxReg d c n
  let new := ctxWrite n old v
  let early := (s.ctx d c).st == .free || (s.ctx d c).st == .preparing
  let fresh := 0x20 ≤ n && n < 0x30 && early && !((old ^^^ new) &&& ~~~ (2 : W64) == 0 && v.getLsbD 1)
  s.modCtx d c fun x => { x with
    st := if x.st == .free then .preparing else x.st
    regs := SMap.put x.regs n new
    wi := if fresh then SMap.del x.wi (n - 0x20) else x.wi
    ri := if fresh then SMap.del x.ri (n - 0x20) else x.ri }

end State

/-- SYRD (R411). -/
def execSyrd (x : Args) (s : State) : Out :=
  run (.syrd x) s fun c x =>
    if !c.any then .next (s.advance c)
    else
      let n := c.uni .w64 x.a
      let done (v : Nat) : Out := .next ((s.advance c).writeVec c .w64 x.d fun _ => v)
      if 2 ^ 12 ≤ n then trapOut s c { trap := .illegalOperand }
      else if !sysReach c.ex false n then trapOut s c { trap := .sysregAccess }
      else
        match c.ex with
        | .str h i =>
          -- a floating form issued earlier has not completed (R157)
          if n = 0x48 && (s.reqsOf c.ex).any (fun r => r.2.flags != 0) then waitOut s else done (s.strReg h i n)
        | .bob _ => .refused .noExecutor
        | .mgt m =>
          if n ≠ 0xC6 then done (s.mgtReg m n)
          else
            match s.openWin m with
            | none => done 0
            | some (_, e) =>
              let sel := (s.mgt m).wsel
              match s.winItem e.ex sel with
              | none => trapOut s c { trap := .sysregAccess }
              | some v => if s.winWaits e.ex sel then waitOut s else done v

/-- SYWR (R411). POP, STEP and WDATA are the steps FLOG_POP, TBSTEP and WDATA, which come at once. -/
def execSywr (x : Args) (s : State) : Out :=
  run (.sywr x) s fun c x =>
    match c.ex with
    | .mgt m =>
      if !c.any then .next (s.advance c)
      else
        let n := c.uni .w64 x.a
        let v : W64 := BitVec.ofNat 64 (c.uni .w64 x.b)
        if 2 ^ 12 ≤ n then trapOut s c { trap := .illegalOperand }
        else if !sysReach c.ex true n then trapOut s c { trap := .sysregAccess }
        else if n ≤ 0x40 then
          let k := (s.mgt m).ctxsel.toNat
          let st := (s.ctx m k).st
          let old := s.ctxReg m k n
          if st != .free && st != .preparing && (ctxAnyMask n == 0 || (old ^^^ ctxWrite n old v) &&& ~~~ (ctxAnyMask n) != 0) then
            trapOut s c { trap := .ctxState, d0 := BitVec.ofNat 64 st.n }
          else .next ((s.advance c).setCtxReg m k n v)
        else if n = 0xC6 then
          match s.openWin m with
          | none => .next (s.advance c)
          | some (_, e) =>
            let sel := (s.mgt m).wsel
            if (s.winItem e.ex sel).isNone then trapOut s c { trap := .sysregAccess }
            else if s.winWaits e.ex sel then waitOut s
            else .next ((s.advance c).atOnce (.wdata m v))
        else .next ((s.advance c).setMgtReg m n v)
    | .str _ _ => .refused .noExecutor
    | .bob _ => .refused .noExecutor

/-! TLBI (R399, R412). -/

/-- Whether a translation overlaps [a, a + n); n = 0 stands for everything. -/
def Tlb.overlaps (t : Tlb) (c a n : Nat) : Bool := t.ctx == c && (n = 0 || (t.va < a + n && a < t.va + 2 ^ t.bits))

namespace State

/-- The translations of a context slot dropped on one die; walks of the range start again. -/
def dropTlbOn (s : State) (k c a n : Nat) : State :=
  let s1 := s.modDie k fun x => { x with
    tlb := x.tlb.filter fun t => !t.overlaps c a n
    walks := x.walks.map fun w =>
      if w.ctx == c && (n = 0 || (decide (w.page * 2 ^ 16 < a + n) && decide (a < w.page * 2 ^ 16 + 2 ^ 16))) then { w with stale := true } else w }
  { s1 with cores := s1.cores.map fun q =>
      if q.1 / 128 = k then (q.1, { q.2 with tlb := q.2.tlb.filter fun t => !t.overlaps c a n }) else q }

/-- The same on every die the context binds. -/
def dropTlb (s : State) (d c a n : Nat) : State := (s.dmap d c).foldl (fun s k => s.dropTlbOn k c a n) s

/-- A TLBI under way on a slot that can no longer be acted on is over: the core's next one drops its entries afresh (R399, R412). -/
def tlbiOver (s : State) (m : Nat) : State :=
  let st := (s.ctx m (s.mgt m).ctxsel.toNat).st
  if (s.mgt m).tlbi.isSome && !(st == .loaded || st == .saving || st == .saved) then s.modMgt m fun g => { g with tlbi := none } else s

/-- Accesses named before `mark` that a dropped translation may have served are not yet performed and acknowledged: those of the
context within the largest pages that the range touches. -/
def tlbBusy (s : State) (c a n mark : Nat) : Bool :=
  let near (va : W64) : Bool := n = 0 || (a / 2 ^ 25 ≤ va.toNat / 2 ^ 25 && decide (va.toNat / 2 ^ 25 ≤ (a + n - 1) / 2 ^ 25))
  s.reqs.any fun r =>
    decide (r.1 < mark) && r.2.ctx == c && r.2.core != 0x7F && r.2.op != .value &&
    (match r.2.st with | .data _ _ => false | _ => true) &&
    (match r.2.op with
      | .red _ _ _ _ cs => cs.any fun y => near y.va
      | .ord _ _ _ _ _ y _ => near y.va
      | _ => near r.2.va)

end State

/-- TLBI. -/
def execTlbi (x : Args) (s : State) : Out :=
  run (.tlbi x) s fun c x =>
    match c.ex with
    | .mgt m =>
      if !c.any then .next (s.advance c)
      else slotGate (s.tlbiOver m) c [.loaded, .saving, .saved] fun _ => ordered s c true false fun _ =>
        let k := (s.mgt m).ctxsel.toNat
        let a := c.uni .w64 x.a
        let n := c.uni .w64 x.b
        -- the other dies are told over the rings (R19, R217)
        if s.rings.held && (s.dmap m k).any (· != m) then waitOut s
        else match (s.mgt m).tlbi with
        | none => waitOut (((s.dmap m k).foldl (fun s t => s.crossCore m 0x7F t) (s.dropTlb m k a n)).modMgt m fun g => { g with tlbi := some s.nextId })
        | some mark =>
          if s.tlbBusy k a n mark then waitOut s
          else .next ((s.advance c).modMgt m fun g => { g with tlbi := none })
    | .str _ _ => .refused .noExecutor
    | .bob _ => .refused .noExecutor

/-! Contexts (R413, R414). -/

namespace State

/-- R21's checks of a die map. -/
def mapOk (s : State) (d c : Nat) : Bool :=
  let regs := (List.range 16).map fun n => (s.ctxReg d c n).toNat
  let valid := regs.filter fun x => Word.bit x 31
  let socks := valid.map fun x => Word.bits x 5 0
  !valid.isEmpty && (regs.take valid.length).all (fun x => Word.bit x 31) && socks.all (fun k => decide (k ≤ 0x0F)) &&
    socks.eraseDups.length == socks.length && socks.all fun k => !s.gone k

/-- The valid partitions of a context slot. -/
def parts (s : State) (d c : Nat) : List Nat :=
  ((List.range 8).filter fun n => s.partOk d c n).map fun n => s.part d c n

/-- R353's checks of the partitions. -/
def partsOk (s : State) (d c : Nat) : Bool :=
  let ps := s.parts d c
  let rec apart : List Nat → Bool
    | [] => true
    | p :: ps => ps.all (fun q => partGroups p &&& partGroups q == 0) && apart ps
  let ways (xs : List Nat) : Nat := xs.foldl (fun n p => n + Word.bits p 47 40) 0
  !ps.isEmpty && apart ps && (s.dmap d c).all fun k =>
    let others := (List.range 16).filter fun o => o != c && (s.ctx k o).st == .loaded && (s.dmap k o).contains k
    others.all (fun o => (s.parts k o).all fun q => ps.all fun p => partGroups p &&& partGroups q == 0) &&
      decide (others.foldl (fun n o => n + ways (s.parts k o)) (ways ps) ≤ 24)

/-- The stitch counters and, with a fresh load, the token queues of a context's windows emptied (R335, R371). -/
def clearWindows (s : State) (d c : Nat) (fresh : Bool) : State :=
  let sw := s.scWin d c
  let tq := (s.ctxReg d c 0x3C).toNat
  let inTq (k : Nat) : Bool := (List.range (Word.bits tq 22 16)).any fun i => (Word.bits tq 5 0 + i) % 64 == k
  let inSc (k : Nat) : Bool := decide ((k + 4096 - sw.1) % 4096 < sw.2)
  s.modDie d fun x => { x with
    stitch := x.stitch.filter fun e => !inSc e.1
    tokens := if fresh then x.tokens.filter fun e => !inTq e.1 else x.tokens }

/-- The slot of a context is loaded on no other die. -/
def loadedNowhere (s : State) (d c : Nat) : Bool :=
  (List.range 16).all fun k => k == d || !((s.ctx k c).st == .loaded || (s.ctx k c).st == .saving || (s.ctx k c).st == .saved)

/-- What a fresh load clears on its die (R333, R357, R324, R395): indices, rings, sequences, translations, and with the slot's first die
the exchanges of an earlier context (R343). The context's bias table becomes one (R196). The GARMENTID count starts at 1; garments that still run keep their keys. -/
def freshCtx (s : State) (d c : Nat) : State :=
  let s1 := ((s.dropTlbOn d c 0 0).clearWindows d c true).modDie d fun x => { x with
    rings := x.rings.filter fun r => r.1 / 32 != c
    tails := x.tails.filter fun r => r.1 / 32 != c }
  let s2 := s1.modCtx d c fun x => { x with wi := [], ri := [], ending := 0, trigDropped := 0, abandoned := 0, wdLatched := false }
  let s3 := { s2 with collSeqs := s2.collSeqs.filter fun q => !(q.ctx == c && q.socket == d) }
  let s4 := if s.loadedNowhere d c then
      { s3 with exchs := s3.exchs.filter (fun q => q.ctx != c), demands := s3.demands.filter fun q => q.2.ctx != c }
    else s3
  (s4.shareBias d c).modJob c fun j =>
    if j.garments.all fun g => g.2.fin || g.2.live == 0 then { j with gid := 0, garments := [] }
    else { j with gid := (j.gid / 2 ^ 24 + 1) * 2 ^ 24 }

/-- The slot becomes LOADED: its distributor and its watchdog go on. -/
def nowLoaded (s : State) (d c : Nat) : State :=
  let s1 := (s.modCtx d c fun x => { x with st := .loaded, wdLast := s.time.toNat })
  let s2 := (s1.post (.distributorPush d)).post (.panelPlacement d)
  if (s.ctx d c).wdLimit = 0 then s2 else s2.post (.watchdogExpiry d c)

/-- The image whose words stand at an address. -/
def imageAt (s : State) (a : Nat) : Option Image :=
  let word (i : Nat) : Option Nat :=
    match s.resolveMod (a + 8 * i) with
    | .at' p => if s.groupBad p then none else some (s.readAt p 8)
    | .range => none
    | .denied => none
  (s.images.find? fun x => (List.range 8192).all fun i =>
    word i == some (if i = 0 then x.2.head % 2 ^ 64 else Config.imageWord x.1 i % 2 ^ 64)).map (·.2)

/-- What reading an image does beside (R180, R217, R421). -/
def imageRead (s : State) (m a : Nat) : State :=
  let at' (k n : Nat) : List Place := (List.range n).filterMap fun i =>
    match s.resolveMod (a + k * i) with | .at' p => some p | .range => none | .denied => none
  (if s.softEcc.isEmpty then s else s.correctedAll (at' 32 2048)).crossHomes m 0x7F (at' 16384 4)

/-- An image restored (R413): registers and indices, the token queues of its window, the GARMENTID count; its panels join their
resume lists, its parked executors re-enter the table with new handles. DEDUCED: the context's one bias table is the one its SAVED slot
holds, with what BTSET wrote since the save, on this die or by a strand of another (R196, R462; log 99). -/
def restore (s : State) (d c : Nat) (x : Image) : State :=
  let s1 := (s.dropTlbOn d c 0 0).modCtx d c fun y => { x.ctx with bias := y.bias, wdLatched := false, trigDropped := 0, abandoned := 0 }
  let tq := (s1.ctxReg d c 0x3C).toNat
  let qs := (List.range (Word.bits tq 22 16)).map fun i => (Word.bits tq 5 0 + i) % 64
  let s2 := s1.modDie d fun y => { y with
    tokens := qs.foldl (fun m q => SMap.putD m q (SMap.lookD x.tokens q []) []) y.tokens }
  let mine (h : Nat) : Bool := x.panels.contains h && (match s.panel? h with | some p => p.ctx == c && p.die == d && p.core.isNone && !p.done | none => false)
  let again := (s2.die d).parked.filter fun e => match e.2.ex.panel with | some h => mine h | none => false
  let s3 := s2.modDie d fun y => { y with parked := y.parked.filter fun e => match e.2.ex.panel with | some h => !mine h | none => true }
  let s4 := again.foldl (fun s e => s.enterPark d e.2.ex) s3
  let back := x.panels.filter fun h => mine h && !(s4.job c).resume.contains h && !(((s4.panel? h).map anyParked).getD true)
  (if back.isEmpty then s4 else s4.wakeAll d c).modJob c fun j => { j with gid := x.gid, resume := j.resume ++ back }

end State

/-- CTXL (R413). -/
def execCtxl (x : Args) (s : State) : Out :=
  run (.ctxl x) s fun c x =>
    match c.ex with
    | .mgt m =>
      if !c.any then .next (s.advance c)
      else
        let k := (s.mgt m).ctxsel.toNat
        let a := c.uni .w64 x.a
        let st := (s.ctx m k).st
        let done (s1 : State) : Out := .next (((s1.nowLoaded m k).advance c).writeVec c .w64 x.d fun _ => 0)
        if a = 0 then
          if st != .preparing then trapOut s c { trap := .ctxState, d0 := BitVec.ofNat 64 st.n }
          else if !s.mapOk m k then trapOut s c { trap := .dieMapInvalid }
          else if !s.partsOk m k then trapOut s c { trap := .partitionInvalid }
          else done (s.freshCtx m k)
        else if st != .saved || s.notYet c.ex a 65536 then
          (if st != .saved then trapOut s c { trap := .ctxState, d0 := 1 } else waitOut s)
        else
          match s.imageAt a with
          | none => trapOut s c { trap := .ctxState, d0 := 1 }
          | some y =>
            if y.slot ≠ k || y.vdie ≠ s.vdie m k m || y.latched then trapOut s c { trap := .ctxState, d0 := 1 }
            else done (((s.imageRead m a).restore m k y).clearWindows m k false)
    | .str _ _ => .refused .noExecutor
    | .bob _ => .refused .noExecutor

namespace State

/-- CTXS mode 0: nothing of the slot is popped any more, its triggers go, and its panels leave their cores. -/
def beginSave (s : State) (d c : Nat) (a : W64) : State :=
  let n := ((s.die d).trigs.filter fun t => t.2.ctx == c).length
  let s1 := s.modDie d fun x => { x with
    trigs := x.trigs.filter fun t => t.2.ctx != c
    preempts := x.preempts.filter fun y => y.ctx != c }
  let s2 := s1.modCtx d c fun x => { x with st := .saving, saveAt := a, trigDropped := n, abandoned := 0 }
  let mine := s2.panels.filter fun p => p.2.ctx == c && p.2.die == d && p.2.core.isSome && !p.2.done
  (mine.foldl (fun s p => s.leavePanel p.1) s2).post (.contextSaveDone d c)

/-- CTXS mode 2: the slot is FREE, and every register of it at its reset value; what the slot's number shares goes with its last
die. -/
def freeCtx (s : State) (d c : Nat) : State :=
  let s1 := (s.dropTlbOn d c 0 0).modDie d fun x => { x with
    ctxs := SMap.del x.ctxs c
    rings := x.rings.filter fun r => r.1 / 32 != c
    tails := x.tails.filter fun r => r.1 / 32 != c }
  if (List.range 16).all fun k => (s1.ctx k c).st == .free || (s1.ctx k c).st == .ended then { s1 with jobs := SMap.del s1.jobs c }
  else s1

end State

/-- CTXS (R414). -/
def execCtxs (x : Args) (s : State) : Out :=
  run (.ctxs x) s fun c x =>
    match c.ex with
    | .mgt m =>
      if !c.any then .next (s.advance c)
      else
        let k := (s.mgt m).ctxsel.toNat
        let a := c.uni .w64 x.a
        let mode := c.uni .w64 x.b
        let st := (s.ctx m k).st
        let takes := match mode with
          | 0 => st == .loaded
          | 1 => st == .loaded || st == .saving || st == .saved
          | _ => st == .ended
        let done (s1 : State) : Out := .next ((s1.advance c).writeVec c .w64 x.d fun _ => 0)
        if 2 < mode then trapOut s c { trap := .illegalOperand }
        else if a % 2 ^ 16 ≠ 0 then trapOut s c { trap := .misaligned, d0 := BitVec.ofNat 64 a }
        else if !takes then trapOut s c { trap := .ctxState, d0 := BitVec.ofNat 64 st.n }
        else
          match mode with
          | 0 => done (s.beginSave m k (BitVec.ofNat 64 a))
          | 1 => done (s.endCtx m k 1)
          | _ => done (s.freeCtx m k)
    | .str _ _ => .refused .noExecutor
    | .bob _ => .refused .noExecutor

/-- WDOG (R415): a package management core sets the limit on every die that the slot's die map binds, which the lowest die whose slot
is in use holds. -/
def execWdog (x : Args) (s : State) : Out :=
  run (.wdog x) s fun c x =>
    match c.ex with
    | .mgt m =>
      if !c.any then .next (s.advance c)
      else
        let k := (s.mgt m).ctxsel.toNat
        let v : W64 := BitVec.ofNat 64 (c.uni .w64 x.a)
        let used := (List.range 16).find? fun d => (s.ctx d k).st != .free
        let dies := if m < 16 then [m] else match used with | some d => s.dmap d k | none => []
        let closed := dies.find? fun d => (s.ctx d k).st != .free && (s.ctx d k).st != .preparing
        let old := match dies with | d :: _ => (s.ctx d k).wdLimit | [] => 0
        match closed with
        | some d => trapOut s c { trap := .ctxState, d0 := BitVec.ofNat 64 (s.ctx d k).st.n }
        | none =>
          if s.rings.held && dies.any (· != m) then waitOut s
          else
          let s1 := dies.foldl (fun s d => s.modCtx d k fun y =>
            { y with wdLimit := v, st := if y.st == .free then .preparing else y.st }) (s.advance c)
          .next (s1.writeVec c .w64 x.d fun _ => old.toNat)
    | .str _ _ => .refused .noExecutor
    | .bob _ => .refused .noExecutor

/-! Time and power (R403 to R405). -/

/-- TIME. -/
def execTime (x : Args) (s : State) : Out :=
  run (.time x) s fun c x =>
    if !c.any then .next (s.advance c) else .next ((s.advance c).writeVec c .w64 x.d fun _ => s.time.toNat)

/-- WAITT; on a management core an enabled event ends it early (R387). -/
def execWaitt (x : Args) (s : State) : Out :=
  run (.waitt x) s fun c x =>
    let woken := match c.ex with
      | .mgt m => s.mevent m &&& (s.mgt m).meven.toNat != 0
      | .str _ _ => false
      | .bob _ => false
    if !c.any || c.uni .w64 x.a ≤ s.time.toNat || woken then .next (s.advance c)
    else
      match c.thr.async with
      | some t => asyncOut s c t
      | none => waitOut s

/-- The core a power form names: the issuer's, or a management core's operand. -/
def powerCore (s : State) (c : Cx) (x : Opnd) : Nat × Nat :=
  match c.ex with
  | .mgt m => (m, c.uni .w64 x)
  | .str _ _ => s.site c.ex
  | .bob _ => s.site c.ex

/-- PWREQ (R405). DESIGN CHOICE: PWREQ 0 withdraws no request that an MLOOP itself made and still awaits (R271; log 96). -/
def execPwreq (x : Args) (s : State) : Out :=
  run (.pwreq x) s fun c x =>
    if !c.any then .next (s.advance c)
    else
      let l := c.uni .w64 x.a
      let (d, k) := powerCore s c x.b
      if 1 < l || 79 < k then trapOut s c { trap := .illegalOperand }
      else
        let key := State.coreKey d k
        let stand (g : Grant) : Grant :=
          match c.ex.panel with
          | some h => { g with standing := if l = 1 then (if g.standing.contains h then g.standing else g.standing ++ [h]) else g.standing.filter (· != h) }
          | none => { g with mgtStanding := decide (l = 1) }
        let s1 := (s.advance c).modCore key fun q => { q with grant := stand q.grant }
        let g := (s1.core key).grant
        if l = 1 then
          if g.granted || g.pending then .next s1
          else .next ((s1.modCore key fun q => { q with grant := { q.grant with pending := true } }).post (.powerGrant d k))
        else .next ((s1.withdraw d k).grantIdle d k)

/-- The grant word of a core (R405). -/
def grantWord (g : Grant) : Nat :=
  (if g.granted then 1 else 0) + (if g.held then 2 else 0) + (if g.pending then 4 else 0)

/-- PWRQ (R405): a package management core has no core to name, and what it reads is a free value. -/
def execPwrq (x : Args) (s : State) : Out :=
  run (.pwrq x) s fun c x =>
    if !c.any then .next (s.advance c)
    else
      let (d, k) := powerCore s c x.a
      if 16 ≤ d then
        let s1 := { s.advance c with free := s.free + 1 }
        .next (s1.writeVec c .w64 x.d fun _ => Config.pick s.free % 8)
      else if 79 < k then trapOut s c { trap := .illegalOperand }
      else .next ((s.advance c).writeVec c .w64 x.d fun _ => grantWord (s.core (State.coreKey d k)).grant)

/-- HALT (R418). -/
def execHalt (x : Args) (s : State) : Out :=
  run (.halt x) s fun c _ =>
    match c.ex with
    | .mgt m => if !c.any then .next (s.advance c) else .next ((s.advance c).modMgt m fun g => { g with st := .halted })
    | .str _ _ => .refused .noExecutor
    | .bob _ => .refused .noExecutor

/-- TBSTEP (R404). -/
def execTbstep (step : Nat) (s : State) : Out := .next { s with time := s.time + BitVec.ofNat 64 (step % 2 ^ 32) }

/-- PTP_EVENT_FRAME (R404): the stamps stand in the order TX0, TX1, RX0, RX1. -/
def execPtpEventFrame (port : Nat) (rx : Bool) (s : State) : Out :=
  .next { s with ptp := s.ptp.set (port % 2 + (if rx then 2 else 0)) s.time }

end Sys2Proof.Machine
end

