-- ==== Sys2Proof/Machine/HostAgent.lean ====
section
/-! DEFINITION. Host attachment, firmware and bring-up (R15 to R22, R31, R404, R422 to R433): power, boot, the host agent, mailbox
commands, losses and thermal limits. -/

namespace Sys2Proof.Machine

/-! Power (R7, R24, R427). -/

/-- POWER_ON: the state after reset; the OTP floor stays, and the model's own names and free values go on. -/
def execPowerOn (s : State) : Out := .next { State.reset with otpFloor := s.otpFloor, free := s.free, nextId := s.nextId }

/-- POWER_OFF: every core stops, and nothing but the OTP array is kept. -/
def execPowerOff (s : State) : Out :=
  .next { State.reset with mgts := [], off := true, otpFloor := s.otpFloor, free := s.free, nextId := s.nextId }

/-! Boot (R427 to R429). -/

/-- The boot ROM runs and waits for an image. -/
def State.romWaits (s : State) : Bool := !s.off && s.stage == 0 && !(s.die 16).lost

/-- BOOTLEN written (R427): the region is locked and verification starts. -/
def State.startVerify (s : State) (len : Nat) : State := { s with bootLen := len, stage := 1 }.post .imageVerification

/-- BOOTLEN: a write that finds the region locked is refused. -/
def execBootlen (len : Nat) (s : State) : Out := .next (if s.romWaits then s.startVerify (len % 2 ^ 32) else s)

/-- A little-endian field of an image. -/
def imgLe (rd : Nat → Byte) (a : Nat) : Nat → Nat
  | 0 => 0
  | n + 1 => (rd a).toNat + 256 * imgLe rd (a + 1) n

def imgBytes (rd : Nat → Byte) (a n : Nat) : List Byte := (List.range n).map fun i => rd (a + i)

/-- The sections of an image: kind, offset, length. -/
def imgSections (rd : Nat → Byte) : List (Nat × Nat × Nat) :=
  (List.range (imgLe rd 12 4)).map fun i => (imgLe rd (256 + 16 * i) 4, imgLe rd (260 + 16 * i) 4, imgLe rd (264 + 16 * i) 4)

/-- R428's form of an image of `len` bytes. -/
def imgFormed (rd : Nat → Byte) (len : Nat) : Bool :=
  let zeros (a n : Nat) : Bool := (imgBytes rd a n).all (· == 0)
  let k := imgLe rd 12 4
  decide (256 ≤ len ∧ len ≤ 2 ^ 26) && imgLe rd 0 4 == 0x38385A4C && imgLe rd 4 4 == 1 && decide (1 ≤ k ∧ k ≤ 16) &&
    imgLe rd 16 8 == len && zeros 24 40 && zeros 192 64 && decide (256 + 16 * k ≤ len) &&
    ((List.range k).all fun i => imgLe rd (268 + 16 * i) 4 == 0) &&
    (imgSections rd).all fun x => decide (1 ≤ x.1 ∧ x.1 ≤ 4 ∧ x.2.1 + x.2.2 ≤ len)

/-- The key of an image stands in an OTP slot that is not revoked (R428; log 7 gives the array's words). -/
def keyEnrolled (rd : Nat → Byte) : Bool :=
  let h := sha256 (imgBytes rd 64 64)
  (List.range 4).any fun i =>
    ((List.range 8).map fun j => Config.otpWord (8 * i + j)) == h && !(Config.otpWord 32).getLsbD i

/-- The OTP floor: the fused one, as far as firmware has raised it. -/
def State.floor (s : State) : Nat := max (Config.otpWord 33).toNat s.otpFloor

/-- The reason an image is rejected (R429), in the order of R428's conditions; 0 for none. -/
def State.imgErr (s : State) (rd : Nat → Byte) (len : Nat) : Nat :=
  if !imgFormed rd len then 1
  else if !keyEnrolled rd then 2
  else if imgLe rd 8 4 < s.floor then 3
  else
    let f (a : Nat) : Nat := beNat (imgBytes rd a 32)
    let e := beNat (shaBytes (imgBytes rd 0 128 ++ imgBytes rd 256 (len - 256)))
    if P256.verify (f 64) (f 96) (f 128) (f 160) e then 0 else 4

/-- Bytes written through the module map by firmware or the ROM; a byte that has no place is left out. -/
def State.putBytes (s : State) (pa : Nat) (bs : List Byte) : State :=
  (bs.mapIdx fun i (b : Byte) => (i, b)).foldl (fun s x =>
    match s.resolveMod (pa + x.1) with
    | .at' p =>
      let (s1, ok) := s.homeWrite p 1 x.2.toNat true
      (if ok then s1.freeOrds p 1 else s1).crossCore 16 0x7F (s.dieKey p)
    | .range => s
    | .denied => s) s

/-- The shuttle firmware of an image: its sections of kind 3. -/
def shuttleOf (rd : Nat → Byte) : List Byte :=
  ((imgSections rd).filter fun x => x.1 == 3).flatMap fun x => imgBytes rd x.2.1 x.2.2

/-- Every section of an image loaded (R427), at places that are free values (log 23); shuttle firmware goes to the shuttles. -/
def State.loadSections (s : State) (rd : Nat → Byte) : State :=
  ((imgSections rd).mapIdx fun i (x : Nat × Nat × Nat) => (i, x)).foldl (fun s x =>
    if x.2.1 = 3 then s else s.putBytes (Config.sectionAt x.1) (imgBytes rd x.2.2.1 x.2.2.2)) s

/-- The management cores released at their entry headers. -/
def State.release (s : State) : State :=
  (List.range 18).foldl (fun s m =>
    if s.gone m then s
    else s.modMgt m fun _ => { st := .running, pos := { pc := Config.firmwareEntry m, kind := .written 0 0 } }) s

/-- The device secret in the OTP array (R430; log 7). -/
def deviceSecret : List Byte := (List.range 8).flatMap fun i => leBytes 4 (Config.otpWord (38 + i)).toNat

/-- IMAGE_VERIFICATION (R427): on success the image's identity is kept, the alias key is derived from the ROM's copy of the device
secret, which is cleared, the sections are loaded and the management cores released. -/
def execImageVerification (s : State) : Out :=
  if s.off || s.stage ≠ 1 then .next s
  else
    let rd (i : Nat) : Byte := Memory.byte s.image i
    match s.imgErr rd s.bootLen with
    | 0 =>
      let img := imgBytes rd 0 s.bootLen
      let s1 := { s with
        stage := 2, imgHash := shaBytes img, svn := imgLe rd 8 4, shHash := shaBytes (shuttleOf rd)
        aliasKey := aliasScalar deviceSecret (shaBytes (img ++ leBytes 4 (imgLe rd 8 4))), romSecret := false }
      .next ((s1.loadSections rd).release)
    | e => .next { s with stage := 0, bootErr := e }

/-- OTP_FLOOR_RAISE (R428). -/
def execOtpFloorRaise (s : State) : Out :=
  .next (if s.off || s.stage < 2 then s else { s with otpFloor := max s.otpFloor s.svn })

/-! The host agent (R423). -/

/-- The 32-byte groups a range touches, as pieces of it. -/
def groupPieces (a n : Nat) : List (Nat × Nat) :=
  if n = 0 then []
  else (List.range ((a % 32 + n + 31) / 32)).map fun i =>
    let lo := max a ((a / 32 + i) * 32)
    (lo, min (a + n) ((a / 32 + i + 1) * 32) - lo)

namespace State

/-- The agent runs. -/
def agent (s : State) : Bool := !s.off && !(s.die 16).lost

/-- A refused access entered in IOD-W's fault log (R423, R400). -/
def agentRefuse (s : State) (c : Nat) (t : Trap) (addr : W64) : State :=
  s.logFault 16 (s.bareFlog t.code 0 c (Config.pick (s.free + 5) % 16) addr)

/-- A die on which a context slot is in use, whose tables the agent walks. -/
def agentDie (s : State) (c : Nat) : Nat := ((List.range 16).find? fun d => (s.ctx d c).st != .free && !s.gone d).getD 0

/-- Pieces of a memory region accessed in order. The bytes of a piece that fails are not accessed; the first failure is entered in the
log (log 23). -/
def agentEach (s : State) (c : Nat) (acc : Acc) (f : State → Place → Nat × Nat → State × Bool) (logged : Bool) : List (Nat × Nat) → State
  | [] => s
  | x :: xs =>
    let s := s.engSoft (s.agentDie c) 0x7F c x.1
    let refuse (s : State) (t : Trap) : State := if logged then s else s.agentRefuse c t (s.faultAddr (s.agentDie c) c x.1)
    match s.engPlace (s.agentDie c) 0x7F c x.1 acc with
    | .error t => agentEach (refuse s t) c acc f true xs
    | .ok (_, p) =>
      match f s p x with
      | (s1, true) => agentEach (s1.cross 16 0x7F (s1.dieKey p)) c acc f logged xs
      | (s1, false) => agentEach (refuse (s1.cross 16 0x7F (s1.dieKey p)) .dataError) c acc f true xs

/-- An operation on a memory region has not arrived yet: a piece of it, or an entry of its walk, cannot be reached (R19, R437). -/
def agentHeld (s : State) (c : Nat) (acc : Acc) (xs : List (Nat × Nat)) : Bool :=
  let d := s.agentDie c
  s.rings.held || xs.any fun x =>
    s.engWalkHeld d 0x7F c x.1 ||
    (match s.engPlace d 0x7F c x.1 acc with
      | .ok (_, p) => s.placeHeld 16 x.2 (acc == .read) p
      | .error _ => false)

/-- A control-region operation lies inside the region, IOD-W's offsets 0x1000 to 0x3FFF. -/
def ctlIn (addr n : Nat) : Bool := decide (0x1000 ≤ addr ∧ addr + n ≤ 0x4000)

/-- The offsets of a control-region operation, and whether one of them names no register. -/
def ctlOffsets (addr n : Nat) : List Nat := (List.range (n / 4)).map fun i => addr + 4 * i

def ctlOk (s : State) (addr n : Nat) : Bool := (ctlOffsets addr n).all fun o => s.devThere 0x10 o

end State

/-- RDMA_WRITE (R423): key 0 is the boot region, key 1 the control region, every other key a memory region (log 23). Stores to device
registers are those registers' own steps, which come at once and in order; a word that names no register is not accessed. -/
def execRdmaWrite (key addr : Nat) (data : List (BitVec 8)) (s : State) : Out :=
  let n := data.length
  if !s.agent then .next s
  else if key = 0 then
    if 2 ≤ s.stage then .next (s.agentRefuse 0 .physRange (s.openWord 0))
    else if 2 ^ 26 + 2 ^ 12 < addr + n then .next (s.agentRefuse 0 .physRange (s.openWord 0))
    else if s.stage = 1 then .next s
    else if addr = 8 ∧ n = 4 then .next (s.startVerify (imgLe (fun i => data.getD i 0) 0 4))
    else if addr < 0x1000 then .next s
    else .next { s with image := (data.mapIdx fun i (b : Byte) => (addr - 0x1000 + i, b)).foldl (fun m x => Memory.setByte m x.1 x.2) s.image }
  else if s.stage < 2 then .next (s.agentRefuse 0 .physRange (s.openWord 0))
  else if key = 1 then
    if addr % 4 ≠ 0 ∨ n % 4 ≠ 0 then .next s
    else if !State.ctlIn addr n then .next (s.agentRefuse 0 .physRange (s.openWord 0))
    else
      let steps := ((State.ctlOffsets addr n).filter fun o => s.devThere 0x10 o).map fun o =>
        devStep 0x10 o (imgLe (fun j => data.getD (o - addr + j) 0) 0 4)
      let s1 := if s.ctlOk addr n then s else s.agentRefuse 0 .physRange (s.openWord 0)
      .next { s1 with agenda := steps ++ s1.agenda }
  else
    match Config.region key with
    | none => .next (s.agentRefuse 0 .physRange (s.openWord 0))
    | some (c, base, len, _, w) =>
      if addr < base || base + len < addr + n then .next (s.agentRefuse c .physRange (s.faultAddr (s.agentDie c) c addr))
      else if !w then .next (s.agentRefuse c .permission (s.faultAddr (s.agentDie c) c addr))
      else if s.agentHeld c .write (groupPieces addr n) then .next s
      else
        .next (s.agentEach c .write (fun s p x =>
          let (s1, ok) := s.homeWrite p x.2 (imgLe (fun i => data.getD (x.1 - addr + i) 0) 0 x.2) true
          ((if ok then s1.freeOrds p x.2 else s1), ok)) false (groupPieces addr n))

/-- RDMA_READ: what the host receives lies outside the machine. -/
def execRdmaRead (key addr len : Nat) (s : State) : Out :=
  if !s.agent then .next s
  else if key = 0 then
    .next (if 2 ≤ s.stage || 2 ^ 26 + 2 ^ 12 < addr + len then s.agentRefuse 0 .physRange (s.openWord 0) else s)
  else if s.stage < 2 then .next (s.agentRefuse 0 .physRange (s.openWord 0))
  else if key = 1 then
    if addr % 4 ≠ 0 ∨ len % 4 ≠ 0 then .next s
    else .next (if State.ctlIn addr len && s.ctlOk addr len then s else s.agentRefuse 0 .physRange (s.openWord 0))
  else
    match Config.region key with
    | none => .next (s.agentRefuse 0 .physRange (s.openWord 0))
    | some (c, base, n, r, _) =>
      if addr < base || base + n < addr + len then .next (s.agentRefuse c .physRange (s.faultAddr (s.agentDie c) c addr))
      else if !r then .next (s.agentRefuse c .permission (s.faultAddr (s.agentDie c) c addr))
      else if s.agentHeld c .read (groupPieces addr len) then .next s
      else
        .next (s.agentEach c .read (fun s p x =>
          match s.homeRead p x.2 true with
          | (s1, some _) => (s1, true)
          | (s1, none) => (s1, false)) false (groupPieces addr len))

/-- SEND (R422): a message received changes nothing that the spec describes. -/
def execSend (_qp : Nat) (s : State) : Out := .next s

/-- RDMA_ATOMIC (R422): refused. -/
def execRdmaAtomic (_qp : Nat) (s : State) : Out := .next s

/-! Mailbox commands (R424 to R426, R431). -/

namespace State

/-- A 64-bit word of a mailbox. -/
def mboxWord (s : State) (m w : Nat) : Nat :=
  s.dev 0x10 (0x1000 + 64 * m + 8 * w) + 2 ^ 32 * s.dev 0x10 (0x1000 + 64 * m + 8 * w + 4)

/-- Firmware runs and mailbox m holds a message not yet answered. -/
def mboxBusy (s : State) (m : Nat) : Bool :=
  !s.off && decide (2 ≤ s.stage) && (s.mgt m).st == .running && s.mboxWord m 0 % 2 ^ 32 != s.mboxWord m 6 % 2 ^ 32

/-- A message's command. -/
def mboxCmd (s : State) (m : Nat) : Nat := s.mboxWord m 0 / 2 ^ 56

/-- A message answered: RESULT, STATUS, then RSEQ. -/
def answerMbox (s : State) (m status result : Nat) : State :=
  let b := 0x1000 + 64 * m
  (((s.setDev 0x10 (b + 56) (result % 2 ^ 32)).setDev 0x10 (b + 60) (result / 2 ^ 32 % 2 ^ 32)).setDev 0x10 (b + 52) (status * 2 ^ 24)).setDev
    0x10 (b + 48) (s.mboxWord m 0 % 2 ^ 32)

/-- The place of one byte at a package physical address; none beyond 2⁴⁸ (R419). -/
def bytePlace (s : State) (pa : Nat) : Option Place :=
  if 2 ^ 48 ≤ pa then none
  else
    match s.resolveMod pa with
    | .at' p => some p
    | .range => none
    | .denied => none

/-- Bytes at a package physical address; none where one cannot be read. -/
def getBytes (s : State) (pa n : Nat) : Option (List Byte) :=
  (List.range n).mapM fun i => (s.bytePlace (pa + i)).bind fun p =>
    if s.groupBad p && !s.l2Has p 1 then none else some (BitVec.ofNat 8 (s.readAt p 1))

/-- What such a read does beside, by IOD-W's core: soft errors are corrected and counted, an uncorrectable one is counted (R180, R421), and
the messages carry their clocks (R217). -/
def bytesRead (s : State) (pa n : Nat) : State :=
  let ps : List (Place × Nat) := (groupPieces pa n).filterMap fun x => (s.bytePlace x.1).map fun p => (p, x.2)
  let at' : List Place := ps.map Prod.fst
  (match ps.find? fun (p : Place × Nat) => s.badIn p.1 p.2 with
    | some p => s.bumpUe (s.dieKey p.1)
    | none => s.correctedAll at').crossHomes 16 0x7F at'

/-- Every byte of a range has a place. -/
def placed (s : State) (pa n : Nat) : Bool := (List.range n).all fun i => (s.bytePlace (pa + i)).isSome

/-- Some byte of a range cannot be reached by IOD-W now (R19, R437). -/
def rangeHeld (s : State) (pa n : Nat) (reads : Bool) : Bool :=
  (List.range n).any fun i => match s.bytePlace (pa + i) with | some p => s.placeHeld 16 1 reads p | none => false

end State

/-- LAUNCH (R426): the LNCH of a die's firmware into the message's slot. -/
def execLaunch (m : Nat) (s : State) : Out :=
  if 16 ≤ m || !s.mboxBusy m then .next s
  -- the mailbox stands on IOD-W: the rings carry it to the die's firmware and back (R19)
  else if s.rings.held then .next (s.post (.launch m))
  else if s.mboxCmd m ≠ 1 then .next (s.answerMbox m 2 0)
  else
    let c := s.mboxWord m 0 / 2 ^ 52 % 16
    let a := s.mboxWord m 1
    let s1 := s.modMgt m fun g => { g with ctxsel := BitVec.ofNat 4 c }
    let st := (s.ctx m c).st
    if st != .preparing && st != .loaded && st != .saved then .next (s1.answerMbox m 4 0)
    else if a % 8 ≠ 0 then .next (s1.answerMbox m 3 0)
    else
      let at' := s1.readPlace (.mgt m)
      if s1.notYet (.mgt m) a 64 then .next (s.post (.launch m))
      else
      match s1.readWords (.mgt m) a 8 with
      | .trap t => .next ((s1.countUe at' (.trap t : Res Unit)).answerMbox m 3 0)
      | .miss _ => .next (s1.answerMbox m 3 0)
      | .held => .next (s.post (.launch m))
      | .ok ws =>
        match garmentFault s1 m c ws with
        | some _ => withSoft (m, 0x7F) at' a 64 (.next (s1.answerMbox m 3 0))
        | none =>
          let dies := s1.launchDies m c ws
            let (g, s2) := (dies.foldl (fun s t => s.crossCore m 0x7F t) s1).launch m c ws
            withSoft (m, 0x7F) at' a 64 (.next (s2.answerMbox m 1 (g % 2 ^ 24)))

/-- A command of the package's mailbox, done again while a place of it cannot be reached; one that no step answers is a bad command. -/
def pkgCommand (s : State) (i : Instr) (cmd : Nat) (held : Unit → Bool) (k : Unit → State) : Out :=
  if !s.mboxBusy 16 then .next s
  else if s.mboxCmd 16 = cmd then .next (if held () then s.post i else k ())
  else if s.mboxCmd 16 = 2 || s.mboxCmd 16 = 3 || s.mboxCmd 16 = 4 then .next s
  else .next (s.answerMbox 16 2 0)

/-- A signature's 64 bytes, r then s, big-endian as in R428's header (log 7). -/
def sigBytes (x : Nat × Nat) : List Byte := beBytes 32 x.1 ++ beBytes 32 x.2

/-- QUOTE (R431). -/
def execQuote (s : State) : Out :=
  pkgCommand s .quote 2 (fun _ => s.rangeHeld (s.mboxWord 16 1) 32 true || s.rangeHeld (s.mboxWord 16 2) 192 false) fun _ =>
    match s.getBytes (s.mboxWord 16 1) 32, s.placed (s.mboxWord 16 2) 192 with
    | some nonce, true =>
      let serial := (List.range 4).flatMap fun i => leBytes 4 (Config.otpWord (34 + i)).toNat
      let body := nonce ++ s.imgHash ++ s.shHash ++ leBytes 4 s.svn ++ leBytes 4 s.floor ++ leBytes 8 s.time.toNat ++ serial
      let sig := P256.sign s.aliasKey (beNat (shaBytes body)) fun i => Config.nonce (s.free + i)
      (({ s with free := s.free + 4 }.bytesRead (s.mboxWord 16 1) 32).putBytes (s.mboxWord 16 2) (body ++ sigBytes sig)).answerMbox 16 1 0
    | _, _ => (s.bytesRead (s.mboxWord 16 1) 32).answerMbox 16 3 0

/-- The device certificate, then the alias certificate: the alias key's public key signed with the identity key (R430). -/
def State.certs (s : State) : List Byte :=
  let body := match P256.publicKey s.aliasKey with
    | some (x, y) => Config.aliasBody x y
    | none => Config.aliasBody 0 0
  let sig := P256.sign (Config.identityKey deviceSecret) (beNat (shaBytes body)) Config.nonce
  Config.deviceCert ++ Config.aliasCert body sig.1 sig.2

/-- CERTS (R426): at most ARG1 bytes of them. -/
def execCerts (s : State) : Out :=
  let bs := s.certs.take (s.mboxWord 16 2)
  pkgCommand s .certs 3 (fun _ => s.rangeHeld (s.mboxWord 16 1) bs.length false) fun _ =>
    if !s.placed (s.mboxWord 16 1) bs.length then s.answerMbox 16 3 0
    else (s.putBytes (s.mboxWord 16 1) bs).answerMbox 16 1 bs.length

/-- SHUTTLE (R426): the section comes in an image of its own, under R428 (log 23). -/
def execShuttle (s : State) : Out :=
  let a := s.mboxWord 16 1
  let held (n : Nat) : Bool := s.rangeHeld a n true
  let whole (h : List Byte) : Nat := let len := imgLe (fun i => h.getD i 0) 16 8; if len ≤ 2 ^ 26 then len else 256
  let loaded := (List.range 16).any fun d => (List.range 16).any fun c => (s.ctx d c).st == .loaded
  pkgCommand s .shuttle 4 (fun _ => !loaded && (held 256 || (match s.getBytes a 256 with | some h => held (whole h) | none => false))) fun _ =>
    if loaded then s.answerMbox 16 4 0
    else
      match s.getBytes a 256 with
      | none => (s.bytesRead a 256).answerMbox 16 3 0
      | some h =>
        let len := imgLe (fun i => h.getD i 0) 16 8
        let s1 := s.bytesRead a (whole h)
        match s.getBytes a (whole h) with
        | none => s1.answerMbox 16 3 0
        | some bs =>
          let rd (i : Nat) : Byte := bs.getD i 0
          if s.imgErr rd len = 0 && (imgSections rd).any (fun x => x.1 == 3) then
            ({ s1 with shHash := shaBytes (shuttleOf rd) }).answerMbox 16 1 0
          else s1.answerMbox 16 5 0

/-! Spool loads (R31). -/

/-- A kernel of a context runs: a garment of it is live, a record of it is queued or held, or a panel of it has not ended (R31). -/
def State.kernelRuns (s : State) (ctx : Nat) : Bool :=
  (s.panels.any fun p => p.2.ctx == ctx && !p.2.done) || ((s.job ctx).garments.any fun g => g.2.live != 0) ||
    s.dies.any fun d => (d.2.rings.any fun r => r.1 / 32 == ctx && !r.2.isEmpty) || d.2.held.any fun u => u.ctx == ctx

/-- The Spool sectors of every L1, the management cores' data caches too, dropped as a load completes (R179, R203). -/
def State.dropSpoolL1 (s : State) : State :=
  let keep (m : SMap (List Byte)) : SMap (List Byte) := m.filter fun e => e.1 / 2 ^ 60 != 1
  { s with cores := s.cores.map fun k => (k.1, { k.2 with l1 := keep k.2.l1 })
           mgts := s.mgts.map fun g => (g.1, { g.2 with l1 := keep g.2.l1 }) }

/-- SPOOL_LOAD_COPY: a copy engine of a die loads its Spool from a context's memory between the context's kernels (R31), one element in
each step (R221; log 32): the rest is the same step again, for what is left. It waits while a kernel runs and while its element cannot be
reached; bytes outside the share are not loaded, and an element that cannot be read ends it (log 58). -/
def execSpoolLoadCopy (socket ctx src dst len : Nat) (s : State) : Out :=
  let w := (s.ctxReg socket ctx 0x38).toNat
  let share := decide (Word.bits w 11 0 * 65536 ≤ dst ∧ dst + len ≤ min (Word.bits w 28 16) 4096 * 65536)
  if s.gone socket || (s.ctx socket ctx).st != .loaded || !share then .next s
  else if s.kernelRuns ctx then .next (s.post (.spoolLoadCopy socket ctx src dst len))
  else
    match groupPieces src len with
    | [] => .next s.dropSpoolL1
    | (_, n) :: _ =>
      match s.engRead socket 0x7F ctx src n true with
      | .wait => .next (s.post (.spoolLoadCopy socket ctx src dst len))
      | .fail s1 _ => .next s1.dropSpoolL1
      | .ok s1 v =>
        .next ((s1.modDie socket fun d => { d with spool := Memory.write d.spool dst n v }).post
          (.spoolLoadCopy socket ctx (src + n) (dst + n) (len - n)))

/-! Losses (R15 to R19, R22). -/

namespace State

/-- Every context ended with a code, one still in preparation too. -/
def endAll (s : State) (code : Nat) : State :=
  (List.range 16).foldl (fun s c => (List.range 16).foldl (fun s d =>
    let st := (s.ctx d c).st
    if st == .preparing || st == .loaded || st == .saving || st == .saved then s.endCtx d c code else s) s) s

/-- The contexts whose die map names a socket ended with DIE_LOST. -/
def endNaming (s : State) (sock : Nat) : State :=
  (List.range 16).foldl (fun s c => (List.range 16).foldl (fun s d =>
    let st := (s.ctx d c).st
    if (st == .loaded || st == .saving || st == .saved) && (s.dmap d c).contains sock then s.endCtx d c 2 else s) s) s

/-- The requests on their way to a lost die answered: a read's with DATA_ERROR, a write's with STORE_ERROR. -/
def failHome (s : State) (sock : Nat) : State :=
  s.reqs.foldl (fun s r =>
    let gone := r.2.unperformed && (match r.2.place with | some p => p.pkg == s.pkg && p.socket == sock | none => false)
    if !gone then s
    else if (match r.2.op with | .load _ => true | .atom _ _ => true | .cas _ _ => true | _ => false) then
      s.answer r.1 r.2 0 (some (dataErr r.2.va))
    else s.acknowledge r.1 r.2 (some (storeErr r.2.va))) s

/-- The rings wrap onto a chain, and hold injections until they reopen (R17, R19). DESIGN CHOICE: VDHOP returns the chain's distances
from this step on (R22; log 57). -/
def wrap (s : State) (ch : List Nat) : State := { s with rings := { s.rings with chain := some ch, held := true } }.post .ringReopen

/-- The chain splits (R18): every context of the package ends. DESIGN CHOICE: what is performed after that is as before, between the two
parts too, and hop distances follow the chain that split, of which R18 says nothing (log 87). -/
def splitRings (s : State) : State := { s.endAll 3 with rings := { s.rings with split := true } }

/-- The loss of a ring stop: the state, and whether the chain split. -/
def loseStop (s : State) (pos : Nat) : State × Bool :=
  match s.rings.chain with
  | none => (s.wrap ((List.range 17).map fun i => (pos + 1 + i) % 18), false)
  | some ch =>
    if s.rings.split || !ch.contains pos then (s, false)
    else if ch.head? == some pos || ch.getLast? == some pos then (s.wrap (ch.filter (· != pos)), false)
    else (s.splitRings, true)

/-- A die's own executors stop. -/
def stopDie (s : State) (d : Nat) : State :=
  (s.modDie d fun x => { x with lost := true }).modMgt d fun g => { g with st := .halted }

end State

/-- COMPUTE_DIE_LOSS (R18). -/
def execComputeDieLoss (d : Nat) (s : State) : Out :=
  if 16 ≤ d || (s.die d).lost then .next s
  else
    let (s1, split) := s.loseStop (ringPos d)
    let s2 := if split then s1 else s1.endNaming d
    .next ((s2.stopDie d).failHome d)

/-- RING_SEGMENT_LOSS (R18): the segment between a position and the next. -/
def execRingSegmentLoss (pos : Nat) (s : State) : Out :=
  let p := pos % 18
  let q := (p + 1) % 18
  match s.rings.chain with
  | none => .next (s.wrap ((List.range 18).map fun i => (q + i) % 18))
  | some ch =>
    let inner := (List.zip ch (ch.drop 1)).any fun x => x == (p, q)
    .next (if s.rings.split || !inner then s else s.splitRings)

/-- IOD_E_LOSS (R18, R345). -/
def execIodELoss (s : State) : Out :=
  if (s.die 17).lost then .next s
  else
    let s1 := (s.loseStop 9).1
    let s2 := (s1.stopDie 17).losePorts [8, 9, 10, 11, 12, 13, 14, 15]
    .next { s2 with arb := { s2.arb with standby := false, failed := false } }

/-- IOD_W_LOSS (R18): the module is lost, so every context of it ends and the die's own executor stops. DESIGN CHOICE: the management
cores of the other dies go on, a context can be prepared and loaded again, and power grants still come (log 87). -/
def execIodWLoss (s : State) : Out :=
  if (s.die 16).lost then .next s else .next ((s.endAll 4).stopDie 16)

/-- RING_REOPEN (R19, R22): injections go on, with the HOSTMB signals and the images that waited for them, and firmware writes the logical
ranks of every context's die map. -/
def execRingReopen (s : State) : Out :=
  let path (sock : Nat) : Nat :=
    match s.rings.chain with
    | none => ringPos sock
    | some ch => (ch.findIdx? (· == ringPos sock)).getD 0
  let rank (socks : List Nat) (sock : Nat) : Nat := (socks.filter fun k => path k < path sock).length
  let redo (x : Ctx) : Ctx :=
    let socks := (List.range 16).filterMap fun n =>
      let w := (SMap.lookD x.regs n 0).toNat
      if Word.bit w 31 then some (Word.bits w 5 0) else none
    { x with regs := x.regs.map fun r =>
        if r.1 < 16 && r.2.getLsbD 31 then
          (r.1, (r.2 &&& 0xFFFFFFFFFF00FFFF) ||| BitVec.ofNat 64 (rank socks (Word.bits r.2.toNat 5 0) * 2 ^ 16))
        else r }
  let s1 := s.dies.foldl (fun s d => s.post (.panelPlacement d.1)) (s.rung.foldl (fun s m => s.setEvent m 5) s)
  .next { s1 with
    rings := { s.rings with held := false }
    rung := []
    dies := s.dies.map fun d => (d.1, { d.2 with ctxs := d.2.ctxs.map fun c => (c.1, redo c.2) }) }

/-! Thermal limits (R433). -/

/-- THERMAL_THROTTLE: the matrix grants of the die are withdrawn. -/
def execThermalThrottle (d : Nat) (s : State) : Out :=
  let s1 := s.modDie d fun x => { x with throttled := true }
  .next { s1 with cores := s1.cores.map fun k =>
    if k.1 / 128 = d then (k.1, { k.2 with grant := { k.2.grant with granted := false } }) else k }

/-- THERMAL_RECOVERY: a standing request may be granted again. -/
def execThermalRecovery (d : Nat) (s : State) : Out :=
  let s1 := s.modDie d fun x => { x with throttled := false }
  let again := s1.cores.filter fun k => k.1 / 128 == d && k.2.grant.held && !k.2.grant.granted
  .next (again.foldl (fun s k =>
    (s.modCore k.1 fun q => { q with grant := { q.grant with pending := true } }).post (.powerGrant d (k.1 % 128))) s1)

/-- THERMAL_SHUTDOWN: every domain but IOD-W's is switched off; what was on its way to a die's memory fails (log 73). -/
def execThermalShutdown (_d : Nat) (s : State) : Out :=
  let s1 := s.endAll 4
  let off (s : State) (d : Nat) : State :=
    ((s.modDie d fun x => { x with off := true }).modMgt d fun g => { g with st := .halted }).failHome d
  .next (((List.range 16) ++ [17]).foldl off s1)

end Sys2Proof.Machine
end

