-- ==== Sys2Proof/Decode.lean ====
section
/-! DEFINITION. The decoder of prefix groups and instructions (R36, R41 to R43, R60 to R64, R76, R77, R461), total on any
units and rejecting by name, and after it the encoder. -/

namespace Sys2Proof

/-- Why the units do not decode: the trap of R64 or that of R36, R41 to R43, R65, R76, R77. -/
inductive DecErr where
  | illegalInstruction
  | illegalPrefix
deriving DecidableEq, Repr

/-- The decoder's answer: an instruction with the number of units of its group and itself, or a refusal by name. -/
inductive Decoded where
  | ok  (i : Instr) (len : Nat)
  | bad (e : DecErr)
deriving DecidableEq, Repr

/-- Source operand of a long instruction (R43); none where a bit marked zero is not. -/
def src12 (r : Nat) : Option Opnd :=
  match r / 1024 with
  | 0 => if r / 16 % 64 == 0 then some (.q (BitVec.ofNat 4 r)) else none
  | 1 => if r / 8 % 128 == 0 then some (.o (BitVec.ofNat 3 r)) else none
  | 2 => some (.v (BitVec.ofNat 10 r))
  | _ =>
    match r / 256 % 4 with
    | 0 => if r / 64 % 4 == 0 then some (.s (BitVec.ofNat 6 r)) else none
    | 1 => some (.imm ((BitVec.ofNat 8 r).signExtend 36))
    | 2 => if r / 8 % 32 == 0 then some (.vo (BitVec.ofNat 3 r)) else none
    | _ => some (.illegal (BitVec.ofNat 8 r))

/-- Destination of a long instruction: as a source, but the Q level is queue-only with [9:0] zero (R43). -/
def dst12 (r : Nat) : Option Opnd :=
  if r / 1024 == 0 then (if r == 0 then some (.q 0) else none) else src12 r

/-- Source operand of a short instruction (R43). -/
def src9 (r : Nat) : Option Opnd :=
  match r / 128 with
  | 0 => if r / 16 % 8 == 0 then some (.q (BitVec.ofNat 4 r)) else none
  | 1 => if r / 8 % 16 == 0 then some (.o (BitVec.ofNat 3 r)) else none
  | 2 => some (.v (BitVec.ofNat 10 (r % 128)))
  | _ => if r / 64 % 2 == 0 then some (.s (BitVec.ofNat 6 r)) else some (.imm ((BitVec.ofNat 6 r).signExtend 36))

/-- Source C as an operand (R43). -/
def src8 (r : Nat) : Option Opnd :=
  match r / 64 with
  | 0 => if r / 16 % 4 == 0 then some (.q (BitVec.ofNat 4 r)) else none
  | 1 => if r / 8 % 8 == 0 then some (.o (BitVec.ofNat 3 r)) else none
  | 2 => some (.v (BitVec.ofNat 10 (r % 64)))
  | _ => some (.s (BitVec.ofNat 6 r))

/-- Fields A and B by what the form holds there: an unused field must be zero (R42). -/
def fieldOf (f : Fld) (r : Nat) : Option Opnd :=
  match f with
  | .zero => if r == 0 then some (.q 0) else none
  | .val _ _ => src12 r
  | .tile => src12 r
  | .tileOpt => src12 r
  | .mgtOnly _ => src12 r
  | .base _ => src12 r
  | .sbase _ => src12 r
  | .smax _ => src12 r

/-- The destination field (R42, R43). -/
def fieldDOf (f : Fld) (r : Nat) : Option Opnd :=
  match f with
  | .zero => if r == 0 then some (.q 0) else none
  | .val _ _ => dst12 r
  | .tile => dst12 r
  | .tileOpt => dst12 r
  | .mgtOnly _ => dst12 r
  | .base _ => dst12 r
  | .sbase _ => dst12 r
  | .smax _ => dst12 r

/-- Source C by what the form holds there (R77, R188, R237, R273, R315). -/
def fieldCOf (f : CFld) (r : Nat) : Option Opnd :=
  match f with
  | .zero => if r == 0 then some (.q 0) else none
  | .val _ _ => src8 r
  | .policy => src8 r
  | .pred => if r < 8 then some (.sel (BitVec.ofNat 8 r)) else none
  | .fmt => some (.sel (BitVec.ofNat 8 r))
  | .tile => some (.sel (BitVec.ofNat 8 r))
  | .sbase m => if m == 16 then (if r / 64 == 3 then some (.s (BitVec.ofNat 6 r)) else some (.sel (BitVec.ofNat 8 r))) else src8 r
  | .mode => some (.sel (BitVec.ofNat 8 r))

/-- The format pair of a conversion is one its entry accepts (R77, R167, R169 to R172, R283). -/
def Instr.pairOk : Instr → Bool
  | .cvt x => cvtPairOk (fmtDst x.c) (fmtSrc x.c)
  | .pack x => packPairOk (fmtDst x.c) (fmtSrc x.c)
  | .unpk x => unpkPairOk (fmtDst x.c) (fmtSrc x.c)
  | .rnd x => rndPairOk (fmtDst x.c) (fmtSrc x.c)
  | .mxsc x => mxscPairOk (fmtDst x.c) (fmtSrc x.c)
  | .mcvt x => mcvtPairOk (fmtDst x.c) (fmtSrc x.c)
  | _ => true

def rndOf (n : Nat) : Option Rnd :=
  match n with
  | 0 => some .rne | 1 => some .rtz | 2 => some .rup | 3 => some .rdn | 4 => some .rna | 5 => some .sr | _ => none

def satOf (n : Nat) : Option Sat :=
  match n with
  | 0 => some .none | 1 => some .satf | 2 => some .sati | _ => none

/-- The prefix words of a group, one of each kind at most (R64). -/
structure Prefixes where
  ar  : Option Arith := none
  ext : Option (BitVec 28) := none
  mp  : Option MemPfx := none
  n   : Nat := 0
deriving DecidableEq, Repr

/-- Add one prefix word (R60 to R62), or refuse it (R64). -/
def Prefixes.add (p : Prefixes) (u : W32) : Option Prefixes :=
  let w := u.toNat
  if p.n == 2 then none else
  match w / 4 % 4 with
  | 0 =>
    match p.ar, rndOf (w / 16 % 8), satOf (w / 128 % 4) with
    | none, some r, some s =>
      if w / 32768 == 0 then some { p with ar := some { rnd := r, sat := s, neg := BitVec.ofNat 6 (w / 512) }, n := p.n + 1 } else none
    | _, _, _ => none
  | 1 => if p.ext.isNone then some { p with ext := some (BitVec.ofNat 28 (w / 16)), n := p.n + 1 } else none
  | 2 =>
    if p.mp.isSome then none
    else if w / 16 % 2 == 0 then
      if w / 2147483648 == 0 then some { p with mp := some (.inline (BitVec.ofNat 26 (w / 32))), n := p.n + 1 } else none
    else if w / 256 == 0 then some { p with mp := some (.cls (BitVec.ofNat 3 (w / 32))), n := p.n + 1 }
    else none
  | _ => none

/-- Widen an immediate of k field bits with the extension prefix (R61). -/
def widen (k : Nat) (e : BitVec 28) (x : BitVec 36) : BitVec 36 :=
  let y := e.toNat * 2 ^ k + x.toNat % 2 ^ k
  (BitVec.ofNat (28 + k) y).signExtend 36

def Fld.isTile : Fld → Bool
  | .tile => true
  | .tileOpt => true
  | .zero => false
  | .val _ _ => false
  | .mgtOnly _ => false
  | .base _ => false
  | .sbase _ => false
  | .smax _ => false

/-- Whether field operand x is an immediate source (a tile handle is none). -/
def immSource (f : Fld) (x : Opnd) : Bool :=
  match x with
  | .imm _ => !f.isTile
  | _ => false

/-- Widen the first immediate source, A before B (R61); none where the instruction has no immediate source (R64). -/
def applyExt (k : Nat) (fa fb : Fld) (e : Option (BitVec 28)) (a b : Opnd) : Option (Opnd × Opnd) :=
  match e with
  | none => some (a, b)
  | some e =>
    match immSource fa a, a, immSource fb b, b with
    | true, .imm x, _, _ => some (.imm (widen k e x), b)
    | false, _, true, .imm y => some (a, .imm (widen k e y))
    | _, _, _, _ => none

/-- The arithmetic fields a form accepts (R60, R131, R160, R188, R274). -/
def arithOk (acc : Option ArAcc) (ar : Option Arith) : Bool :=
  match ar, acc with
  | none, _ => true
  | some _, none => false
  | some m, some k => k.rnds.contains m.rnd && k.sats.contains m.sat && (m.neg &&& ~~~k.neg) == 0

/-- A memory modifier is accepted where the policy comes from it: source C is 0x00, or RED.ADD.ORD's ordinal (R188). -/
def memPfxOk (i : Instr) (c : Nat) (mp : Option MemPfx) : Bool :=
  match mp with
  | none => true
  | some _ =>
    match i, i.spec with
    | .red op _, _ => op.ord || c == 0
    | _, some s => s.c == .policy && c == 0
    | _, none => false

def Instr.shortForm (i : Instr) : Bool := match i.code with | some (.short _) => true | _ => false

/-- Decode a short instruction after its prefix group (R41, R70, R71). -/
def decodeShort (p : Prefixes) (u : W32) : Decoded :=
  let w := u.toNat
  let g : Guard := { pred := BitVec.ofNat 3 (w / 512), neg := (w / 4096) % 2 == 1 }
  match shortOf (w / 4 % 128) { g := g, a := .q 0, b := .q 0, ar := Arith.plain } with
  | none => .bad .illegalInstruction
  | some i0 =>
    match i0.spec with
    | none => .bad .illegalInstruction
    | some s =>
      if !arithOk s.ar p.ar || p.mp.isSome then .bad .illegalPrefix
      else
        -- an operand that does not decode is no immediate source
        let a := (if s.a == .zero then none else src9 (w / 8192 % 512)).getD (.q 0)
        let b := (if s.b == .zero then none else src9 (w / 4194304 % 512)).getD (.q 0)
        match applyExt 6 s.a s.b p.ext a b with
        | none => .bad .illegalPrefix
        | some (a', b') =>
          if w / 2147483648 != 0 then .bad .illegalInstruction
          else if (if s.a == .zero then w / 8192 % 512 != 0 else (src9 (w / 8192 % 512)).isNone) then .bad .illegalInstruction
          else if (if s.b == .zero then w / 4194304 % 512 != 0 else (src9 (w / 4194304 % 512)).isNone) then .bad .illegalInstruction
          else
            match shortOf (w / 4 % 128) { g := g, a := a', b := b', ar := p.ar.getD Arith.plain } with
            | some i => .ok i (p.n + 1)
            | none => .bad .illegalInstruction

/-- Decode a long instruction after its prefix group (R42, R72 to R78). -/
def decodeLong (p : Prefixes) (lo hi : W32) : Decoded :=
  let l := lo.toNat
  let h := hi.toNat
  let g : Guard := { pred := BitVec.ofNat 3 (l / 4096), neg := (l / 32768) % 2 == 1 }
  let rawD := l / 1048576
  let rawA := h % 4096
  let rawB := h / 4096 % 4096
  let rawC := h / 16777216
  let op := l / 4 % 1024
  let look := BitVec.ofNat 4 (l / 65536)
  -- the selector bits of source C fix the form's operands, so the form is looked up with them
  match longOf op { g := g, look := look, d := .q 0, a := .q 0, b := .q 0, c := .sel (BitVec.ofNat 8 rawC), ar := Arith.plain, mp := .none } with
  | none => .bad .illegalInstruction
  | some i0 =>
    match i0.spec with
    | none => .bad .illegalInstruction
    | some s =>
      if !arithOk s.ar p.ar || !memPfxOk i0 rawC p.mp then .bad .illegalPrefix
      else
        match applyExt 8 s.a s.b p.ext ((fieldOf s.a rawA).getD (.q 0)) ((fieldOf s.b rawB).getD (.q 0)) with
        | none => .bad .illegalPrefix
        | some (a', b') =>
          match fieldDOf s.d rawD, fieldOf s.a rawA, fieldOf s.b rawB, fieldCOf s.c rawC with
          | some d, some _, some _, some c =>
            if look != 0 && !s.long then .bad .illegalInstruction
            else
              match longOf op { g := g, look := look, d := d, a := a', b := b', c := c, ar := p.ar.getD Arith.plain,
                                mp := p.mp.getD .none } with
              | some i => if i.pairOk then .ok i (p.n + 2) else .bad .illegalInstruction
              | none => .bad .illegalInstruction
          | _, _, _, _ => .bad .illegalInstruction

/-- Whether a field can hold an immediate source. -/
def Fld.canImm (f : Fld) : Bool := f != .zero && !f.isTile

/-- Whether a form whose second unit cannot be read accepts the prefixes of its group: those that no value of that unit would
let it accept are refused. A conversion's pair decides which saturation it takes, so a pair to a float format and one to an
integer format are asked. -/
def cutOk (p : Prefixes) (op : Nat) : Bool :=
  [0x00, 0x80].any fun sel =>
    match longOf op { g := Guard.always, look := 0, d := .q 0, a := .q 0, b := .q 0, c := .sel sel, ar := Arith.plain, mp := .none } with
    | none => false
    | some i =>
      match i.spec with
      | none => false
      | some s => arithOk s.ar p.ar && memPfxOk i 0 p.mp && (p.ext.isNone || s.a.canImm || s.b.canImm)

/-- A long instruction whose second unit lies beyond its block: the group's checks come first, then
ILLEGAL_INSTRUCTION (R36); an unassigned opcode is not judged against the group's kinds (R461). -/
def decodeCut (p : Prefixes) (lo : W32) : Decoded :=
  let op := lo.toNat / 4 % 1024
  match longOf op { g := Guard.always, look := 0, d := .q 0, a := .q 0, b := .q 0, c := .sel 0, ar := Arith.plain, mp := .none } with
  | none => .bad .illegalInstruction
  | some _ => if cutOk p op then .bad .illegalInstruction else .bad .illegalPrefix

/-- Decode the item at the head of the units that remain in the block, with the prefix words already read (R36, R63,
R64). -/
def decodeWith (p : Prefixes) : List W32 → Decoded
  | [] => .bad (if p.n == 0 then .illegalInstruction else .illegalPrefix)
  | u :: rest =>
    match u.toNat % 4 with
    | 0 => decodeShort p u
    | 1 => match rest with
      | hi :: _ => decodeLong p u hi
      | [] => decodeCut p u
    | 2 => match p.add u with
      | some p' => decodeWith p' rest
      | none => .bad .illegalPrefix
    | _ => .bad (if p.n == 0 then .illegalInstruction else .illegalPrefix)

/-- A group whose arithmetic prefix rounds by RND = SR before a matrix form that takes one (MSTT.BF16, MCVT): a bobbin may not
use it (R274), and that refusal comes before every other check of the instruction (R66 order 1). -/
def srTile (p : Prefixes) : List W32 → Bool
  | [] => false
  | u :: rest =>
    match u.toNat % 4 with
    | 1 => (match p.ar with | some m => m.rnd == .sr | none => false) && (u.toNat / 4 % 1024 == 0x2D3 || u.toNat / 4 % 1024 == 0x2D7)
    | 2 => match p.add u with
      | some p' => srTile p' rest
      | none => false
    | _ => false

/-- Decode the instruction at the head of the units that remain in its block. -/
def decode (us : List W32) : Decoded := decodeWith {} us

/-- The instruction read from bits numbered as spec/opcode_table.json numbers them: unit 0 in bits 31..0, unit 1 above
it. Bits at and above nbits are zero. -/
def decodeTableWord (nbits w : Nat) : Option Instr :=
  let v := w % 2 ^ nbits
  match decode [BitVec.ofNat 32 v, BitVec.ofNat 32 (v / 2 ^ 32), BitVec.ofNat 32 (v / 2 ^ 64), BitVec.ofNat 32 (v / 2 ^ 96)] with
  | .ok i _ => some i
  | .bad _ => none

/-! The encoder. -/

/-- An immediate that fits k field bits needs no extension (R61, R84). -/
def fitsImm (k : Nat) (x : BitVec 36) : Bool := (BitVec.ofNat k x.toNat).signExtend 36 == x

/-- A 12-bit operand field (R43). -/
def enc12 : Opnd → Nat
  | .q n => n.toNat
  | .o n => 0x400 + n.toNat
  | .v i => 0x800 + i.toNat
  | .s n => 0xC00 + n.toNat
  | .imm x => 0xD00 + x.toNat % 256
  | .vo n => 0xE00 + n.toNat
  | .illegal r => 0xF00 + r.toNat
  | .sel _ => 0

/-- A 9-bit operand field (R43). -/
def enc9 : Opnd → Nat
  | .q n => n.toNat
  | .o n => 0x080 + n.toNat
  | .v i => 0x100 + i.toNat % 128
  | .s n => 0x180 + n.toNat
  | .imm x => 0x1C0 + x.toNat % 64
  | .vo _ => 0
  | .illegal _ => 0
  | .sel _ => 0

/-- The 8-bit source C (R43, R77). -/
def enc8 : Opnd → Nat
  | .q n => n.toNat
  | .o n => 0x40 + n.toNat
  | .v i => 0x80 + i.toNat % 64
  | .s n => 0xC0 + n.toNat
  | .sel r => r.toNat
  | .imm _ => 0
  | .vo _ => 0
  | .illegal _ => 0

def Rnd.n : Rnd → Nat
  | .rne => 0 | .rtz => 1 | .rup => 2 | .rdn => 3 | .rna => 4 | .sr => 5

def Sat.n : Sat → Nat
  | .none => 0 | .satf => 1 | .sati => 2

/-- The arithmetic prefix of a group, absent where every field is the default. -/
def encAr (ar : Arith) : List W32 :=
  if ar == Arith.plain then [] else [BitVec.ofNat 32 (2 + 16 * ar.rnd.n + 128 * ar.sat.n + 512 * ar.neg.toNat)]

/-- The immediate extension of a group, present where the first immediate source needs it (R61). -/
def encExt (k : Nat) (fa fb : Fld) (a b : Opnd) : List W32 :=
  match immSource fa a, a, immSource fb b, b with
  | true, .imm x, _, _ => if fitsImm k x then [] else [BitVec.ofNat 32 (6 + 16 * (x.toNat / 2 ^ k % 2 ^ 28))]
  | false, _, true, .imm y => if fitsImm k y then [] else [BitVec.ofNat 32 (6 + 16 * (y.toNat / 2 ^ k % 2 ^ 28))]
  | _, _, _, _ => []

/-- The memory modifier of a group (R62). -/
def encMp : MemPfx → List W32
  | .none => []
  | .inline p => [BitVec.ofNat 32 (10 + 32 * p.toNat)]
  | .cls k => [BitVec.ofNat 32 (26 + 32 * k.toNat)]

def encGuard (g : Guard) : Nat := g.pred.toNat + (if g.neg then 8 else 0)

/-- The units of an instruction with its prefix group, prefixes in increasing order of kind (R87); empty for a step. -/
def encode (i : Instr) : List W32 :=
  match i.code, i.spec, i.fields with
  | some (.short c), some s, some x =>
    encAr x.ar ++ encExt 6 s.a s.b x.a x.b ++
      [BitVec.ofNat 32 (4 * c + 512 * encGuard x.g + 8192 * enc9 x.a + 4194304 * enc9 x.b)]
  | some (.long c), some s, some x =>
    encAr x.ar ++ encExt 8 s.a s.b x.a x.b ++ encMp x.mp ++
      [BitVec.ofNat 32 (1 + 4 * c + 4096 * encGuard x.g + 65536 * x.look.toNat + 1048576 * enc12 x.d),
       BitVec.ofNat 32 (enc12 x.a + 4096 * enc12 x.b + 16777216 * enc8 x.c)]
  | _, _, _ => []

end Sys2Proof
end

