-- ==== Sys2Proof/WellFormed.lean ====
section
/-! DEFINITION. Which instructions have an encoding: every field holds what its form allows there (R41 to R43, R60 to R65,
R69, R77). The round trip of the encoder is stated for these. -/

namespace Sys2Proof

/-- An operand a 12-bit field can hold; an immediate beyond eight bits needs the extension prefix. -/
def wf12 (ext : Bool) : Opnd → Bool
  | .sel _ => false
  | .imm x => ext || fitsImm 8 x
  | .q _ => true
  | .o _ => true
  | .v _ => true
  | .s _ => true
  | .vo _ => true
  | .illegal _ => true

/-- An operand a 9-bit field can hold; with the extension prefix an immediate has 34 bits. -/
def wf9 (ext : Bool) : Opnd → Bool
  | .sel _ => false
  | .vo _ => false
  | .illegal _ => false
  | .v i => i.toNat < 128
  | .imm x => fitsImm 6 x || (ext && fitsImm 34 x)
  | .q _ => true
  | .o _ => true
  | .s _ => true

/-- A destination field: queue-only or a named level (R43, R44). -/
def wfD : Opnd → Bool
  | .q n => n == 0
  | .sel _ => false
  | .imm x => fitsImm 8 x
  | .o _ => true
  | .v _ => true
  | .s _ => true
  | .vo _ => true
  | .illegal _ => true

/-- A source C operand. -/
def wf8 : Opnd → Bool
  | .q _ => true
  | .o _ => true
  | .v i => i.toNat < 64
  | .s _ => true
  | .sel _ => false
  | .imm _ => false
  | .vo _ => false
  | .illegal _ => false

def wfSel (bound : Nat) : Opnd → Bool
  | .sel r => r.toNat < bound
  | _ => false

def wfC (f : CFld) (x : Opnd) : Bool :=
  match f with
  | .zero => x == .q 0
  | .val _ _ => wf8 x
  | .policy => wf8 x
  | .pred => wfSel 8 x
  | .fmt => wfSel 256 x
  | .tile => wfSel 256 x
  | .mode => wfSel 256 x
  | .sbase m =>
    if m == 16 then (match x with | .s _ => true | .sel r => r.toNat < 0xC0 | _ => false) else wf8 x

/-- The immediate extension goes to the first immediate source, so B takes it only where A is no immediate source
(R61). -/
def extB (s : Spec) (x : Args) : Bool := !immSource s.a x.a && immSource s.b x.b

/-- The variant exists: EQ and NE of ISET are sign-free (R69, R76). -/
def Instr.variantOk : Instr → Bool
  | .iset k t _ => !((k == .eq || k == .ne) && !t.signed)
  | _ => true

/-- Prefix fields the form accepts, with at most two prefix words in the group (R64). -/
def Instr.prefixesOk (i : Instr) (s : Spec) (x : Args) : Bool :=
  arithOk s.ar (if x.ar == Arith.plain then none else some x.ar) &&
  memPfxOk i (enc8 x.c) (if x.mp == .none then none else some x.mp) &&
  (encAr x.ar).length + (encExt (if i.shortForm then 6 else 8) s.a s.b x.a x.b).length + (encMp x.mp).length ≤ 2

/-- The instruction is one the encoding can carry. -/
def Instr.wf (i : Instr) : Bool :=
  match i.code, i.spec, i.fields with
  | some (.short _), some s, some x =>
    (if s.a == .zero then x.a == .q 0 else wf9 (immSource s.a x.a) x.a) &&
    (if s.b == .zero then x.b == .q 0 else wf9 (extB s x) x.b) &&
    i.prefixesOk s x
  | some (.long _), some s, some x =>
    (if s.d == .zero then x.d == .q 0 else wfD x.d) &&
    (if s.a == .zero then x.a == .q 0 else wf12 (immSource s.a x.a) x.a) &&
    (if s.b == .zero then x.b == .q 0 else wf12 (extB s x) x.b) &&
    wfC s.c x.c && (x.look == 0 || s.long) && i.pairOk && i.variantOk && i.prefixesOk s x
  | _, _, _ => false

end Sys2Proof
end

