-- ==== Sys2Proof/Machine/Fetch.lean ====
section
/-! DEFINITION. Fetch (R36, R38, R39, R64, R92, R384, R410) and the choice of the executor that issues next (R98, R364). -/

namespace Sys2Proof.Machine

/-- What a fetch answers: an instruction to issue with the state that issues it, or what happens in its place. -/
inductive Fetched where
  | go (s : State) (i : Instr)
  | out (o : Out)

/-- The block an executor's program counter stands in, and the address of its next item: checked, or a trap at an address. -/
inductive InBlock where
  | ok (blk hdr : W64) (pc : Nat)
  | joins
  | trap (pc : Nat) (t : TrapInfo)
  | miss (page : Nat)
  | held

namespace State

/-- The header at an address entered without a transfer (R38, R39): by falling through, or because a handler wrote it. -/
def enterBlock (s : State) (e : Ex) (a : Nat) : InBlock :=
  if a % 8 ≠ 0 then .trap a { trap := .illegalInstruction }
  else
    match s.fetchHeader e a with
    | .trap t => .trap t.d0.toNat t
    | .miss p => .miss p
    | .held => .held
    | .ok h =>
      if !Hdr.isHdr h || !hdrFieldsOk h then .trap a { trap := .illegalInstruction }
      else if e.isStrand && s.vregs e < Hdr.livev h then .trap a { trap := .illegalOperand }
      else if Hdr.sl h == e.isStrand then .trap a { trap := .badTarget }
      else .ok (BitVec.ofNat 64 a) h (a + 8)

/-- Whether the padding unit that a block of odd length leaves before the next header reads 0 (R39). -/
def padCheck (s : State) (e : Ex) (pad : Option W64) : Res Bool :=
  match pad with
  | none => .ok true
  | some a => (s.fetchUnit e a.toNat).bind fun u => .ok (u == 0)

/-- The block of an executor's program counter. -/
def blockOf (s : State) (e : Ex) (j : Join) (p : Pos) : InBlock :=
  let a := p.pc.toNat
  match p.kind with
  | .inside blk hdr => .ok blk hdr a
  | .entered =>
    (match s.fetchHeader e a with
    | .trap t => .trap t.d0.toNat t
    | .miss p => .miss p
    | .held => .held
    | .ok h => if !Hdr.isHdr h || !hdrFieldsOk h then .trap a { trap := .illegalInstruction } else .ok p.pc h (a + 8))
  | .fell pad =>
    (match s.padCheck e pad with
    | .trap t => .trap t.d0.toNat t
    | .miss q => .miss q
    | .held => .held
    | .ok false => .trap (pad.getD 0).toNat { trap := .illegalInstruction }
    | .ok true =>
      (match s.enterBlock e a with
      | .ok b h n => if j == .addr p.pc then .joins else .ok b h n
      | x => x))
  | .written blk hdr =>
    if Hdr.isHdr hdr && blk.toNat + 8 ≤ a && a < blk.toNat + 4 * Hdr.len hdr && a % 4 = 0 then .ok blk hdr a
    else
      (match s.enterBlock e a with
      | .ok b h n => if j == .addr p.pc then .joins else .ok b h n
      | x => x)

/-- The units of the item at an address, up to the end of its block: a prefix group and the instruction that follows it. `fuel`
is one more than the prefix words a group may hold. -/
def fetchItem (s : State) (e : Ex) (fin : Nat) : Nat → Prefixes → Nat → Res (List W32)
  | 0, _, _ => .ok []
  | fuel + 1, p, va =>
    if fin ≤ va then .ok []
    else (s.fetchUnit e va).bind fun u =>
      match u.toNat % 4 with
      | 1 => if fin ≤ va + 4 then .ok [u] else (s.fetchUnit e (va + 4)).bind fun v => .ok [u, v]
      | 2 =>
        (match p.add u with
        | none => .ok [u]
        | some q => (s.fetchItem e fin fuel q (va + 4)).bind fun us => .ok (u :: us))
      | _ => .ok [u]

/-- The join record of an executor's strand. -/
def joinOfEx (s : State) (e : Ex) : Join :=
  match e with
  | .str h i => ((s.strand? h i).map (·.join)).getD .none
  | .bob _ => .none
  | .mgt _ => .none

/-- A slot that falls through into the join header waits there, and the strand settles (R93, R95). -/
def joinSlot (s : State) (e : Ex) (b : Bool) : State :=
  match e with
  | .str h i => (s.modStrand h i fun t =>
      settle (setSlot t b ((slotOf t b).map fun x => { x with waiting := true }))).endStrand h i
  | .bob _ => s
  | .mgt _ => s

/-- The position of an executor's slot. -/
def posOf (s : State) (e : Ex) (b : Bool) : Option Pos :=
  match e with
  | .str h i => ((s.strand? h i).bind fun t => slotOf t b).map (·.pos)
  | .bob h => (s.panel? h).map (·.bob.pos)
  | .mgt m => some (s.mgt m).pos

/-- A fetch's trap, taken at an address (R38, R384). -/
def fetchTrap (s : State) (e : Ex) (b : Bool) (pc : Nat) (t : TrapInfo) : Fetched :=
  .out (.next (s.takeTrap e b (BitVec.ofNat 64 pc) t .precise))

/-- What a fetch of n bytes does beside: the soft errors it meets are corrected (R421), and its messages carry their clocks (R217). -/
def fetchSoft (s : State) (e : Ex) (va n : Nat) : State :=
  match s.placeOf e va .fetch with
  | .ok (_, some p) => (s.correctedAll (groupsOf p n)).crossHomes (s.site e).1 (s.site e).2 [p]
  | _ => s

/-- The asynchronous trap recorded in a saved image, which an executor takes at the resume PC before it fetches there (R369). -/
def resumeTrap? (s : State) (e : Ex) : Option TrapInfo := if (s.thr e).resumeTrap then (s.thr e).async else none

/-- The instruction at an executor's program counter. -/
def fetch (s : State) (e : Ex) (b : Bool) : Fetched :=
  match s.posOf e b with
  | none => .out (.refused .noExecutor)
  | some p =>
    match s.resumeTrap? e with
    | some t => .out (.next (s.takeAsync e b p.pc t))
    | none =>
    match s.blockOf e (s.joinOfEx e) p with
    | .trap pc t => s.fetchTrap e b pc t
    | .miss page => .out (.next (s.askWalk e b page).flushInflight)
    | .held => .out (waitOut s)
    | .joins => .out (.next (s.joinSlot e b))
    | .ok blk hdr a =>
      let fin := blk.toNat + 4 * Hdr.len hdr
      match s.fetchItem e fin 4 {} a with
      | .trap t => s.fetchTrap e b t.d0.toNat t
      | .miss page => .out (.next (s.askWalk e b page).flushInflight)
      | .held => .out (waitOut s)
      | .ok us =>
        let s0 := (match p.kind with | .inside _ _ => s | _ => s.fetchSoft e blk.toNat 8).fetchSoft e a (4 * us.length)
        let s1 := s0.setPos e b { pc := BitVec.ofNat 64 a, kind := .inside blk hdr }
        match decode us with
        | .bad .illegalPrefix => s1.fetchTrap e b a { trap := .illegalPrefix }
        | .bad .illegalInstruction =>
          s1.fetchTrap e b a { trap := if e.isBob && srTile {} us then .illegalPrefix else .illegalInstruction }
        | .ok i n =>
          let cur : Cur := {
            ex := e, slotB := b, pc := BitVec.ofNat 64 a, blk := blk, hdr := hdr, nxt := posAfter blk hdr (a + 4 * n) }
          .go { s1 with cur := cur } i

/-! Who issues (R24, R98, R364): any executor that can, in an order that is a free value (log 2). -/

/-- A panel's executors may issue: it is resident, its die works and its context is loaded. -/
def panelRuns (s : State) (p : Panel) : Bool :=
  p.core.isSome && !p.done && !p.killed && !p.leaving && !s.gone p.die &&
    (match (s.ctx p.die p.ctx).st with
      | .loaded => true | .saving => true | .free => false | .preparing => false | .saved => false | .ended => false)

/-- A strand may issue: it has neither ended, parked nor been saved, and no yield deadline has passed (R95, R385, R368). -/
def strandRuns (s : State) (t : Strand) : Bool :=
  !t.isOver && !t.out && !t.saving && t.thr.park.isNone &&
    (match t.yieldAt with | none => true | some d => decide (s.time ≤ d))

/-- The slots of a strand that may issue (R93). A form that awaits a walk issues before anything else of the strand (R384); of two
slots that are ready the one that issued less recently goes first, unless its latest issue found it stalled (R98). -/
def slotsOf (t : Strand) : List Bool :=
  let run := [false, true].filter fun b => match slotOf t b with | some x => !x.waiting | none => false
  match t.thr.awaiting.filter run.contains, run with
  | some b, _ => [b]
  | none, [_, _] => [if t.tried == some (!t.lastB) then t.lastB else !t.lastB]
  | none, _ => run

/-- An executor waits for a page walk (R384). -/
def walking (s : State) (e : Ex) : Bool := (s.die (s.site e).1).walks.any fun w => w.waiters.contains e

/-- The executors and slots of a panel that may issue. -/
def panelUnits (s : State) (h : Nat) (p : Panel) : List (Ex × Bool) :=
  if s.panelRuns p then
    let ss : List (Ex × Bool) := p.strands.flatMap fun t => if s.strandRuns t.2 then (slotsOf t.2).map fun b => (.str h t.1, b) else []
    let bs : List (Ex × Bool) := if p.bob.isOver || p.bob.thr.park.isSome then [] else [(.bob h, false)]
    (ss ++ bs).filter fun u => !s.walking u.1
  else []

/-- The management cores that may issue: IOD-W's once its boot ROM has released the others (R24, R427). -/
def mgtUnits (s : State) : List (Ex × Bool) :=
  (s.mgts.filter fun g => decide (g.1 < 18) && g.2.st == .running && (g.1 != 16 || decide (2 ≤ s.stage))).map
    fun g => (.mgt g.1, false)

/-- An executor released from a walk issues after those of its core whose misses came before its own (R398). -/
def inTurn (s : State) (us : List (Ex × Bool)) (e : Ex) : Bool :=
  let before := (s.core (coreKey (s.site e).1 (s.site e).2)).ready.takeWhile (· != e)
  !((s.core (coreKey (s.site e).1 (s.site e).2)).ready.contains e) || before.all fun f => !(us.any fun u => u.1 == f)

/-- Every executor and slot that may issue. -/
def units (s : State) : List (Ex × Bool) :=
  let us := s.panels.flatMap fun p => s.panelUnits p.1 p.2
  us.filter (fun u => s.inTurn us u.1) ++ s.mgtUnits

/-- The one that issues next: of the executor whose turn it is where that is decided, else of any; towards the end of a round those
that have not issued in it (R98: a runnable slot is issued eventually). -/
def nextUnit (s : State) : Option (Ex × Bool) :=
  let any : Option (Ex × Bool) :=
    let us := s.units
    let due := s.rota.filter us.contains
    match due with
    | [] => choose s.free us
    | u :: _ => if s.rotaLeft ≤ due.length then some u else choose s.free us
  match s.turn with
  | some e => (match (s.units.filter fun u => u.1 == e) with | [] => any | u :: us => choose s.free (u :: us))
  | none => any

/-- A slot chosen to issue: it takes its place in the round, it is the strand's latest attempt (R98), no other waits for it behind the
same walk (R398), and the walk it awaited has been answered (R384). -/
def picked (s : State) (u : Ex × Bool) : State :=
  let s1 : State :=
    if s.rotaLeft = 0 then { s with rota := s.units.filter (· != u), rotaLeft := Config.slack + s.units.length }
    else { s with rota := s.rota.filter (· != u), rotaLeft := s.rotaLeft - 1 }
  match u.1 with
  | .mgt _ => s1
  | .bob _ => s1.modCore (coreKey (s.site u.1).1 (s.site u.1).2) fun q => { q with ready := q.ready.filter (· != u.1) }
  | .str h i =>
    (s1.modCore (coreKey (s.site u.1).1 (s.site u.1).2) fun q => { q with ready := q.ready.filter (· != u.1) }).modStrand h i
      fun t => { t with tried := some u.2, thr := { t.thr with awaiting := none } }

/-- Whether the steps in progress come before the next issue: a free value, but neither waits for the other for ever (R365; log 2). -/
def stepsFirst (s : State) : Bool :=
  if Config.slack < s.flushes then false else if Config.slack < s.issues then true else Config.pick s.free % 2 == 1

/-- Time passes (log 9): one nanosecond of the reference by the rate of R404, and one advance of every Lamport clock (R217). -/
def tick (s : State) : State :=
  let f := s.frac + (2 ^ 40 + s.tbrate.toInt).toNat
  { s with time := s.time + BitVec.ofNat 64 (f / 2 ^ 40), frac := f % 2 ^ 40, lc := s.lc + 1 }

/-! A program placed (log 4). -/

/-- The address of the placed block: byte 0x1000 of compute die 0 in this package's window. -/
def placedAt (s : State) : Nat := s.pkg * 2 ^ 42 + 0x1000

/-- The header of the placed block: its length is 2 + n units, SL is 1 for executors that are no strand (R37). -/
def placedHeader (n : Nat) (strand : Bool) : Nat := 3 + 4 * (2 + n) + (if strand then 0 else 2 ^ 30)

/-- A block of n units placed in memory, the bits of w from the first unit on. -/
def placeBlock (s : State) (n w : Nat) (strand : Bool) : State :=
  let a := s.pkg * 2 ^ 41 + 0x1000
  s.setMem (Memory.write (Memory.write s.mem a 8 (placedHeader n strand)) (a + 8) (4 * n) w)

/-- The position of the placed block. -/
def placedPos (s : State) : Pos := { pc := BitVec.ofNat 64 s.placedAt, kind := .entered }

/-- A context slot 0 loaded on compute die 0 with one virtual die, and a translation of the placed block's page in core 0. -/
def placeCtx (s : State) : State :=
  let t : Tlb := { ctx := 0, va := s.pkg * 2 ^ 42, bits := 16, pa := s.pkg * 2 ^ 42, r := true, w := true, x := true }
  let s1 := s.modCtx 0 0 fun c => { c with
    st := .loaded
    regs := SMap.put (SMap.put (SMap.put c.regs 0 (BitVec.ofNat 64 (2 ^ 31))) 0x3E 1) 0x10 (BitVec.ofNat 64 (2 ^ 63 + 0x3FF)) }
  let s2 := s1.modDie 0 fun d => { d with lost := false, off := false }
  s2.modCore (coreKey 0 0) fun k => { k with tlb := t :: k.tlb.filter fun (x : Tlb) => !x.hits 0 (s.pkg * 2 ^ 42 + 0x1000) }

/-- The panel that runs a placed block: one strand and a bobbin on core 0, of which the one not wanted has ended. -/
def placedPanel (s : State) (strand : Bool) : Panel :=
  let r : Rec := { hdr := BitVec.ofNat 64 s.placedAt, frame := 0, join := 0, shape := BitVec.ofNat 64 (16 * 2 ^ 40 + 16 * 2 ^ 35 + 80 * 2 ^ 28) }
  { crec := r, panelId := 0, garment := 0, swatch := none, part := 0, ctx := 0, die := 0, core := some 0, prio := 0
    strands := [(0, { startStrand 0 s.placedPos s.nextId with isOver := !strand })]
    bob := { pos := s.placedPos, isOver := strand }
    seqNo := s.nextId }

/-- The executor that runs a placed instruction: a strand where its form allows one, else a bobbin, else the management core of
compute die 0 (R79). -/
def placedBy (x : ExSet) : Ex → Ex → Ex → Ex := fun a b c => if x.str then a else if x.bob then b else c

/-- A block placed for an executor that is next to issue, with nothing else ahead of it. -/
def placeProgram (s : State) (n w : Nat) (x : ExSet) : State :=
  let e := placedBy x (.str s.nextId 0) (.bob s.nextId) (.mgt 0)
  let s0 := { s.placeBlock n w e.isStrand with agenda := [], inflight := [], off := false, turn := some e }
  match e with
  | .mgt m => s0.modMgt m fun g => { g with st := .running, pos := s.placedPos, thr := {} }
  | .str h _ => { (s0.placeCtx).setPanel h (s.placedPanel true) with nextId := s.nextId + 1 }
  | .bob h => { (s0.placeCtx).setPanel h (s.placedPanel false) with nextId := s.nextId + 1 }

/-- The executors of the instruction that units hold; every one where they hold none. -/
def executorsOf (us : List W32) : ExSet :=
  match decode us with
  | .ok i _ => (match i.spec with | some sp => sp.ex | none => ExSet.all)
  | .bad _ => ExSet.all

end State

end Sys2Proof.Machine
end

