-- ==== Sys2Proof/Machine/Dispatch.lean ====
section
/-! DEFINITION. The dispatch: one arm per instruction and step, each one call of its meaning. -/

namespace Sys2Proof.Machine

/-- What an instruction or a step does to the state that issues it. -/
def exec (i : Instr) (s : State) : Host.Outcome State Fault Refusal :=
  match i with
  | .nopShort g => Sys2Proof.Machine.execNopShort g s
  | .iadd32S x => Sys2Proof.Machine.execIadd32S x s
  | .isub32S x => Sys2Proof.Machine.execIsub32S x s
  | .imul32S x => Sys2Proof.Machine.execImul32S x s
  | .iminS32S x => Sys2Proof.Machine.execIminS32S x s
  | .imaxS32S x => Sys2Proof.Machine.execImaxS32S x s
  | .and32S x => Sys2Proof.Machine.execAnd32S x s
  | .or32S x => Sys2Proof.Machine.execOr32S x s
  | .xor32S x => Sys2Proof.Machine.execXor32S x s
  | .shl32S x => Sys2Proof.Machine.execShl32S x s
  | .shr32S x => Sys2Proof.Machine.execShr32S x s
  | .sar32S x => Sys2Proof.Machine.execSar32S x s
  | .mov32S x => Sys2Proof.Machine.execMov32S x s
  | .iadd64S x => Sys2Proof.Machine.execIadd64S x s
  | .popc32S x => Sys2Proof.Machine.execPopc32S x s
  | .isetEq32S x => Sys2Proof.Machine.execIsetEq32S x s
  | .isetLtS32S x => Sys2Proof.Machine.execIsetLtS32S x s
  | .isetLtN32S x => Sys2Proof.Machine.execIsetLtN32S x s
  | .faddF32S x => Sys2Proof.Machine.execFaddF32S x s
  | .fmulF32S x => Sys2Proof.Machine.execFmulF32S x s
  | .fminF32S x => Sys2Proof.Machine.execFminF32S x s
  | .fmaxF32S x => Sys2Proof.Machine.execFmaxF32S x s
  | .fsetLtF32S x => Sys2Proof.Machine.execFsetLtF32S x s
  | .fsetEqF32S x => Sys2Proof.Machine.execFsetEqF32S x s
  | .faddBF16S x => Sys2Proof.Machine.execFaddBF16S x s
  | .fmulBF16S x => Sys2Proof.Machine.execFmulBF16S x s
  | .cvtBF16F32S x => Sys2Proof.Machine.execCvtBF16F32S x s
  | .cvtF32BF16S x => Sys2Proof.Machine.execCvtF32BF16S x s
  | .nop x => Sys2Proof.Machine.execNop x s
  | .bra x => Sys2Proof.Machine.execBra x s
  | .brc x => Sys2Proof.Machine.execBrc x s
  | .brx x => Sys2Proof.Machine.execBrx x s
  | .brsp x => Sys2Proof.Machine.execBrsp x s
  | .call x => Sys2Proof.Machine.execCall x s
  | .ret x => Sys2Proof.Machine.execRet x s
  | .retr x => Sys2Proof.Machine.execRetr x s
  | .join x => Sys2Proof.Machine.execJoin x s
  | .exit x => Sys2Proof.Machine.execExit x s
  | .loop x => Sys2Proof.Machine.execLoop x s
  | .walk x => Sys2Proof.Machine.execWalk x s
  | .wnext x => Sys2Proof.Machine.execWnext x s
  | .dqpush x => Sys2Proof.Machine.execDqpush x s
  | .dqbr x => Sys2Proof.Machine.execDqbr x s
  | .iadd w x => Sys2Proof.Machine.execIadd w x s
  | .isub w x => Sys2Proof.Machine.execIsub w x s
  | .imul w x => Sys2Proof.Machine.execImul w x s
  | .imulh t x => Sys2Proof.Machine.execImulh t x s
  | .imad w x => Sys2Proof.Machine.execImad w x s
  | .imin t x => Sys2Proof.Machine.execImin t x s
  | .imax t x => Sys2Proof.Machine.execImax t x s
  | .iabs w x => Sys2Proof.Machine.execIabs w x s
  | .and w x => Sys2Proof.Machine.execAnd w x s
  | .or w x => Sys2Proof.Machine.execOr w x s
  | .xor w x => Sys2Proof.Machine.execXor w x s
  | .not w x => Sys2Proof.Machine.execNot w x s
  | .shl w x => Sys2Proof.Machine.execShl w x s
  | .shr w x => Sys2Proof.Machine.execShr w x s
  | .sar w x => Sys2Proof.Machine.execSar w x s
  | .rot w x => Sys2Proof.Machine.execRot w x s
  | .bfx t x => Sys2Proof.Machine.execBfx t x s
  | .bfi w x => Sys2Proof.Machine.execBfi w x s
  | .popc w x => Sys2Proof.Machine.execPopc w x s
  | .clz w x => Sys2Proof.Machine.execClz w x s
  | .ctz w x => Sys2Proof.Machine.execCtz w x s
  | .brev w x => Sys2Proof.Machine.execBrev w x s
  | .bperm w x => Sys2Proof.Machine.execBperm w x s
  | .clmul w x => Sys2Proof.Machine.execClmul w x s
  | .clmulh w x => Sys2Proof.Machine.execClmulh w x s
  | .sel w x => Sys2Proof.Machine.execSel w x s
  | .mov w x => Sys2Proof.Machine.execMov w x s
  | .movi w x => Sys2Proof.Machine.execMovi w x s
  | .lea w x => Sys2Proof.Machine.execLea w x s
  | .iset k t x => Sys2Proof.Machine.execIset k t x s
  | .plop x => Sys2Proof.Machine.execPlop x s
  | .qxch m x => Sys2Proof.Machine.execQxch m x s
  | .qbc l x => Sys2Proof.Machine.execQbc l x s
  | .shfl m x => Sys2Proof.Machine.execShfl m x s
  | .vote m x => Sys2Proof.Machine.execVote m x s
  | .fadd f x => Sys2Proof.Machine.execFadd f x s
  | .fmul f x => Sys2Proof.Machine.execFmul f x s
  | .ffma f x => Sys2Proof.Machine.execFfma f x s
  | .fscale f x => Sys2Proof.Machine.execFscale f x s
  | .fmin f x => Sys2Proof.Machine.execFmin f x s
  | .fmax f x => Sys2Proof.Machine.execFmax f x s
  | .fset k f x => Sys2Proof.Machine.execFset k f x s
  | .frcp x => Sys2Proof.Machine.execFrcp x s
  | .frsq x => Sys2Proof.Machine.execFrsq x s
  | .fsqrt x => Sys2Proof.Machine.execFsqrt x s
  | .fexp2 x => Sys2Proof.Machine.execFexp2 x s
  | .flog2 x => Sys2Proof.Machine.execFlog2 x s
  | .ftanh x => Sys2Proof.Machine.execFtanh x s
  | .fclass f x => Sys2Proof.Machine.execFclass f x s
  | .hfma2 bf x => Sys2Proof.Machine.execHfma2 bf x s
  | .dot2 bf x => Sys2Proof.Machine.execDot2 bf x s
  | .cvt x => Sys2Proof.Machine.execCvt x s
  | .pack x => Sys2Proof.Machine.execPack x s
  | .unpk x => Sys2Proof.Machine.execUnpk x s
  | .rnd x => Sys2Proof.Machine.execRnd x s
  | .mxsc x => Sys2Proof.Machine.execMxsc x s
  | .ld space w x => Sys2Proof.Machine.execLd space w x s
  | .st space w x => Sys2Proof.Machine.execSt space w x s
  | .atom op w x => Sys2Proof.Machine.execAtom op w x s
  | .atcas w x => Sys2Proof.Machine.execAtcas w x s
  | .red op x => Sys2Proof.Machine.execRed op x s
  | .ldt x => Sys2Proof.Machine.execLdt x s
  | .btset x => Sys2Proof.Machine.execBtset x s
  | .ldfe x => Sys2Proof.Machine.execLdfe x s
  | .stfe x => Sys2Proof.Machine.execStfe x s
  | .pref x => Sys2Proof.Machine.execPref x s
  | .sprq x => Sys2Proof.Machine.execSprq x s
  | .pgq x => Sys2Proof.Machine.execPgq x s
  | .cinv x => Sys2Proof.Machine.execCinv x s
  | .cflush x => Sys2Proof.Machine.execCflush x s
  | .fence x => Sys2Proof.Machine.execFence x s
  | .drain x => Sys2Proof.Machine.execDrain x s
  | .wfence x => Sys2Proof.Machine.execWfence x s
  | .scts x => Sys2Proof.Machine.execScts x s
  | .cpy x => Sys2Proof.Machine.execCpy x s
  | .cpyg x => Sys2Proof.Machine.execCpyg x s
  | .cpym x => Sys2Proof.Machine.execCpym x s
  | .kninit x => Sys2Proof.Machine.execKninit x s
  | .knarr x => Sys2Proof.Machine.execKnarr x s
  | .knexp x => Sys2Proof.Machine.execKnexp x s
  | .knexpTile x => Sys2Proof.Machine.execKnexpTile x s
  | .knwait x => Sys2Proof.Machine.execKnwait x s
  | .kntry x => Sys2Proof.Machine.execKntry x s
  | .bar x => Sys2Proof.Machine.execBar x s
  | .sbar x => Sys2Proof.Machine.execSbar x s
  | .rsq x => Sys2Proof.Machine.execRsq x s
  | .rsclr x => Sys2Proof.Machine.execRsclr x s
  | .mloop f reuse x => Sys2Proof.Machine.execMloop f reuse x s
  | .mzero x => Sys2Proof.Machine.execMzero x s
  | .mldt x => Sys2Proof.Machine.execMldt x s
  | .mstt bf x => Sys2Proof.Machine.execMstt bf x s
  | .mwait x => Sys2Proof.Machine.execMwait x s
  | .ofence x => Sys2Proof.Machine.execOfence x s
  | .mspc x => Sys2Proof.Machine.execMspc x s
  | .mcvt x => Sys2Proof.Machine.execMcvt x s
  | .maddt x => Sys2Proof.Machine.execMaddt x s
  | .kvmap x => Sys2Proof.Machine.execKvmap x s
  | .kvld x => Sys2Proof.Machine.execKvld x s
  | .kvapp x => Sys2Proof.Machine.execKvapp x s
  | .kvseal x => Sys2Proof.Machine.execKvseal x s
  | .kvfork x => Sys2Proof.Machine.execKvfork x s
  | .kvdrop x => Sys2Proof.Machine.execKvdrop x s
  | .role x => Sys2Proof.Machine.execRole x s
  | .tmask x => Sys2Proof.Machine.execTmask x s
  | .mrow x => Sys2Proof.Machine.execMrow x s
  | .mresc x => Sys2Proof.Machine.execMresc x s
  | .coll k x => Sys2Proof.Machine.execColl k x s
  | .norm x => Sys2Proof.Machine.execNorm x s
  | .mbrd x => Sys2Proof.Machine.execMbrd x s
  | .trig x => Sys2Proof.Machine.execTrig x s
  | .scinc x => Sys2Proof.Machine.execScinc x s
  | .scrd x => Sys2Proof.Machine.execScrd x s
  | .scwait x => Sys2Proof.Machine.execScwait x s
  | .cqrd x => Sys2Proof.Machine.execCqrd x s
  | .dpost x => Sys2Proof.Machine.execDpost x s
  | .lpq x => Sys2Proof.Machine.execLpq x s
  | .vdhop x => Sys2Proof.Machine.execVdhop x s
  | .vdq x => Sys2Proof.Machine.execVdq x s
  | .fork x => Sys2Proof.Machine.execFork x s
  | .jctr x => Sys2Proof.Machine.execJctr x s
  | .lnch x => Sys2Proof.Machine.execLnch x s
  | .yield x => Sys2Proof.Machine.execYield x s
  | .qpush x => Sys2Proof.Machine.execQpush x s
  | .qpop x => Sys2Proof.Machine.execQpop x s
  | .prio x => Sys2Proof.Machine.execPrio x s
  | .srd x => Sys2Proof.Machine.execSrd x s
  | .trap x => Sys2Proof.Machine.execTrap x s
  | .tret x => Sys2Proof.Machine.execTret x s
  | .syrd x => Sys2Proof.Machine.execSyrd x s
  | .sywr x => Sys2Proof.Machine.execSywr x s
  | .tlbi x => Sys2Proof.Machine.execTlbi x s
  | .ctxs x => Sys2Proof.Machine.execCtxs x s
  | .ctxl x => Sys2Proof.Machine.execCtxl x s
  | .dwin x => Sys2Proof.Machine.execDwin x s
  | .time x => Sys2Proof.Machine.execTime x s
  | .waitt x => Sys2Proof.Machine.execWaitt x s
  | .pwreq x => Sys2Proof.Machine.execPwreq x s
  | .pwrq x => Sys2Proof.Machine.execPwrq x s
  | .wdog x => Sys2Proof.Machine.execWdog x s
  | .bkpt x => Sys2Proof.Machine.execBkpt x s
  | .halt x => Sys2Proof.Machine.execHalt x s
  | .svc x => Sys2Proof.Machine.execSvc x s
  | .pendingFill id => Sys2Proof.Machine.execPendingFill id s
  | .writeAck id => Sys2Proof.Machine.execWriteAck id s
  | .homeL2Access id => Sys2Proof.Machine.execHomeL2Access id s
  | .redApply id => Sys2Proof.Machine.execRedApply id s
  | .ordinalArrival id => Sys2Proof.Machine.execOrdinalArrival id s
  | .ordinalRetry id => Sys2Proof.Machine.execOrdinalRetry id s
  | .l2Eviction line => Sys2Proof.Machine.execL2Eviction line s
  | .spoolRefresh bank => Sys2Proof.Machine.execSpoolRefresh bank s
  | .pageWalk socket page => Sys2Proof.Machine.execPageWalk socket page s
  | .executorPark panel slot => Sys2Proof.Machine.execExecutorPark panel slot s
  | .copyComplete panel id => Sys2Proof.Machine.execCopyComplete panel id s
  | .copyFault panel id => Sys2Proof.Machine.execCopyFault panel id s
  | .knotUpdate id => Sys2Proof.Machine.execKnotUpdate id s
  | .kvldComplete id => Sys2Proof.Machine.execKvldComplete id s
  | .kvEvent id => Sys2Proof.Machine.execKvEvent id s
  | .matrixEntryStart socket core => Sys2Proof.Machine.execMatrixEntryStart socket core s
  | .matstep socket core => Sys2Proof.Machine.execMatstep socket core s
  | .matrixEntryComplete socket core => Sys2Proof.Machine.execMatrixEntryComplete socket core s
  | .msttComplete id => Sys2Proof.Machine.execMsttComplete id s
  | .powerGrant socket core => Sys2Proof.Machine.execPowerGrant socket core s
  | .grantReturn socket core => Sys2Proof.Machine.execGrantReturn socket core s
  | .grantWithdrawal socket core => Sys2Proof.Machine.execGrantWithdrawal socket core s
  | .collComplete id => Sys2Proof.Machine.execCollComplete id s
  | .stitchIncrement id => Sys2Proof.Machine.execStitchIncrement id s
  | .triggerFire socket idx => Sys2Proof.Machine.execTriggerFire socket idx s
  | .exchangeDemand id => Sys2Proof.Machine.execExchangeDemand id s
  | .exchangePhase id => Sys2Proof.Machine.execExchangePhase id s
  | .heartbeat => Sys2Proof.Machine.execHeartbeat s
  | .standbyTakeover => Sys2Proof.Machine.execStandbyTakeover s
  | .ringReopen => Sys2Proof.Machine.execRingReopen s
  | .panelPlacement socket => Sys2Proof.Machine.execPanelPlacement socket s
  | .distributorPush socket => Sys2Proof.Machine.execDistributorPush socket s
  | .panelComplete panel => Sys2Proof.Machine.execPanelComplete panel s
  | .joinDecrement id => Sys2Proof.Machine.execJoinDecrement id s
  | .preemption socket => Sys2Proof.Machine.execPreemption socket s
  | .forcedSave panel slot => Sys2Proof.Machine.execForcedSave panel slot s
  | .panelSwapOut panel => Sys2Proof.Machine.execPanelSwapOut panel s
  | .gatherFlush panel => Sys2Proof.Machine.execGatherFlush panel s
  | .gatheredStrandStart panel => Sys2Proof.Machine.execGatheredStrandStart panel s
  | .watchdogExpiry socket ctx => Sys2Proof.Machine.execWatchdogExpiry socket ctx s
  | .contextSaveDone socket ctx => Sys2Proof.Machine.execContextSaveDone socket ctx s
  | .powerOn => Sys2Proof.Machine.execPowerOn s
  | .powerOff => Sys2Proof.Machine.execPowerOff s
  | .bootlen len => Sys2Proof.Machine.execBootlen len s
  | .imageVerification => Sys2Proof.Machine.execImageVerification s
  | .doorbell m => Sys2Proof.Machine.execDoorbell m s
  | .train socket channel on => Sys2Proof.Machine.execTrain socket channel on s
  | .patternTestStart socket channel value => Sys2Proof.Machine.execPatternTestStart socket channel value s
  | .patternTestDone socket channel => Sys2Proof.Machine.execPatternTestDone socket channel s
  | .repair socket channel value => Sys2Proof.Machine.execRepair socket channel value s
  | .deviceRegisterWrite socket offset value => Sys2Proof.Machine.execDeviceRegisterWrite socket offset value s
  | .flogPop socket => Sys2Proof.Machine.execFlogPop socket s
  | .tbstep step => Sys2Proof.Machine.execTbstep step s
  | .wdata socket value => Sys2Proof.Machine.execWdata socket value s
  | .flitRetry port => Sys2Proof.Machine.execFlitRetry port s
  | .portLoss port => Sys2Proof.Machine.execPortLoss port s
  | .computeDieLoss socket => Sys2Proof.Machine.execComputeDieLoss socket s
  | .ringSegmentLoss position => Sys2Proof.Machine.execRingSegmentLoss position s
  | .iodELoss => Sys2Proof.Machine.execIodELoss s
  | .iodWLoss => Sys2Proof.Machine.execIodWLoss s
  | .thermalThrottle socket => Sys2Proof.Machine.execThermalThrottle socket s
  | .thermalRecovery socket => Sys2Proof.Machine.execThermalRecovery socket s
  | .thermalShutdown socket => Sys2Proof.Machine.execThermalShutdown socket s
  | .rdmaWrite region addr data => Sys2Proof.Machine.execRdmaWrite region addr data s
  | .rdmaRead region addr len => Sys2Proof.Machine.execRdmaRead region addr len s
  | .send qp => Sys2Proof.Machine.execSend qp s
  | .rdmaAtomic qp => Sys2Proof.Machine.execRdmaAtomic qp s
  | .ptpEventFrame port rx => Sys2Proof.Machine.execPtpEventFrame port rx s
  | .launch mailbox => Sys2Proof.Machine.execLaunch mailbox s
  | .quote => Sys2Proof.Machine.execQuote s
  | .certs => Sys2Proof.Machine.execCerts s
  | .shuttle => Sys2Proof.Machine.execShuttle s
  | .spoolLoadCopy socket ctx src dst len => Sys2Proof.Machine.execSpoolLoadCopy socket ctx src dst len s
  | .arbiterReturn => Sys2Proof.Machine.execArbiterReturn s
  | .arbiterPackageLoss primary => Sys2Proof.Machine.execArbiterPackageLoss primary s
  | .otpFloorRaise => Sys2Proof.Machine.execOtpFloorRaise s

end Sys2Proof.Machine
end

