-- ==== Sys2Proof/Machine/Step.lean ====
section
/-! DEFINITION. One step of the module: a step of the agenda, or one issue of one executor; and a program's placing. -/

namespace Sys2Proof.Machine

/-- An executor's issue: the instruction at its program counter, or what happens in its place. -/
def issueStep (s : State) : Out :=
  match s.nextUnit with
  | some u =>
    (match (({ s with turn := none, free := s.free + 1 } : State).picked u).fetch u.1 u.2 with
    | .go s1 i => exec i s1
    | .out o => o)
  | none => .next { s.flushInflight with turn := none }

/-- One step: a watchdog's expiry that is due (R393); else the first step of the agenda; else, where the choice falls so, what steps in
progress make possible; else one issue. -/
def step (s : State) : Host.Outcome State Fault Refusal :=
  match s.tick.dueExpiry with
  | some w => exec (.watchdogExpiry w.1 w.2) s.tick
  | none =>
  match s.agenda with
  | i :: rest => exec i { s.tick with agenda := rest }
  | [] =>
    if s.off then .next s
    else
      match s.inflight with
      | [] => issueStep s.tick
      | _ :: _ =>
        let s1 := { s.tick with free := s.free + 1 }
        if s.stepsFirst then .next { s1.flushInflight with flushes := s.flushes + 1, issues := 0 }
        else issueStep { s1 with flushes := 0, issues := s.issues + 1 }

/-- The state with one instruction placed where the next step fetches (log 4). -/
def State.withFetchWord (s : State) (nbits w : Nat) : State :=
  let v := w % 2 ^ nbits
  s.placeProgram 4 v (State.executorsOf ((List.range 4).map fun k => BitVec.ofNat 32 (v / 2 ^ (32 * k))))

end Sys2Proof.Machine
end

