-- ==== Sys2Proof/Safety.lean ====
section
/-! DEFINITION. What claims about the machine speak of: an instruction whose issue passes every check, how a form completes, the
canonical form of the state's maps, and runs that never stop. -/

namespace Sys2Proof.Machine

/-- The checks of R66 pass for an instruction, with the context and the operands they leave it: nothing of it has happened yet, no
trap is due and nothing has to be waited for. -/
def Issues (i : Instr) (s : State) (c : Cx) (x : Args) : Prop := issue i s = .go c x

/-- The executor of context c may issue the instruction: the checks of R66 that come before those of its operands pass. -/
def MayIssue (i : Instr) (s : State) (c : Cx) (sp : Spec) (x : Args) : Prop :=
  (s.mkCx).map (·.guarded x.g) = some c ∧ i.spec = some sp ∧ i.fields = some x ∧ c.thr.resumeTrap = false ∧
    bobSr c.ex i = false ∧ guardOk c.ex i x.g = true ∧ mgtOnlyZero c.ex sp.a x.a = true ∧ mgtOnlyZero c.ex sp.b x.b = true ∧
    exOk c.ex sp.ex = true ∧ roleOk s c.ex sp.role = true

/-- The instruction completes by a vector result: the values v of width w written and pushed in each active lane, the slot at the
next instruction, and nothing else (R68). -/
def Gives (i : Instr) (s : State) (c : Cx) (x : Args) (w : Wd) (v : Nat → Nat) : Prop :=
  exec i s = .next ((s.advance c).writeVec c w x.d v)

/-- The same with the flags each lane raises, and the SR counters advanced where RND is SR (R155, R157). -/
def GivesFlags (i : Instr) (s : State) (c : Cx) (x : Args) (w : Wd) (r : Nat → FRes) : Prop :=
  exec i s = .next ((((s.advance c).bumpSr c x.ar).writeVec c w x.d fun l => (r l).bits).addFlags c.ex (flagsOf c r))

/-- The instruction takes a precise trap and does nothing else (R10). -/
def Traps (i : Instr) (s : State) (c : Cx) (f : TrapInfo) : Prop :=
  exec i s = .next (s.takeTrap c.ex c.slotB c.pc f .precise)

/-- The instruction waits: it has not issued, and steps in progress come first. -/
def Waits (i : Instr) (s : State) : Prop := exec i s = .next s.flushInflight

/-- A request of a state that one before it did not hold. -/
def NewReq (s t : State) (r : Req) : Prop := ∃ id, SMap.look s.reqs id = none ∧ SMap.look t.reqs id = some r

/-- What a branching form does with its lanes (R94, R103 to R110, R121): the lanes `T` go to `tgt`, whose check is of kind `k`, and the
others go on at `cont`; `adj` is what becomes of the return stack of the slot that goes, `upd` what else changes. -/
def BranchForm (s : State) (c : Cx) (x y : Args) (i : Instr) (T : Mask) (tgt : Nat) (k : Entry) (cont : Pos)
    (adj : List W64 → List W64) (upd : State → State) : Prop :=
  let imm : Prop := tgt = immTarget c x.a
  let keeps : Prop := adj = id ∧ upd = id
  let some' : Prop := c.parts ≠ [] ∧ T = c.act
  (k = if i = .call y then .call else .branch) ∧ (i ≠ .brx y → cont = c.nxt) ∧
  (i = .bra y ∧ T = c.act ∧ imm ∧ keeps ∨
   i = .brc y ∧ T = condLanes c x.b ∧ imm ∧ keeps ∨
   -- the lanes of the least target go, and where there are others they issue the BRX again
   i = .brx y ∧ (∃ l ∈ c.parts, tgt = c.src .w64 x.a l) ∧ (∀ l ∈ c.parts, tgt ≤ c.src .w64 x.a l) ∧
     T = maskOf (c.parts.filter fun l => c.src .w64 x.a l == tgt) ∧
     (∀ l ∈ c.parts, ∃ hd, s.checkTarget c.ex .branch (c.src .w64 x.a l) = .ok hd) ∧
     (cont = if ∃ l ∈ c.parts, c.src .w64 x.a l ≠ tgt then { pc := c.pc, kind := .inside c.blk c.hdr } else c.nxt) ∧ keeps ∨
   i = .call y ∧ some' ∧ imm ∧
     (((∃ q, x.d = .q q) ∧ (stackOf s c).length < 64 ∧
        (8 ≤ (stackOf s c).length → c.ex.panel.isSome = true → s.roomFor c.ex 1 1 = true) ∧
        adj = (fun r => BitVec.ofNat 64 (fallThrough c) :: r) ∧ upd = id) ∨
      ((∀ q, x.d ≠ .q q) ∧ adj = id ∧ upd = fun u => u.writeVec c .w64 x.d fun _ => (BitVec.ofNat 64 (fallThrough c)).toNat)) ∨
   i = .ret y ∧ some' ∧ (∃ r, ∃ rs, stackOf s c = r :: rs ∧ tgt = r.toNat) ∧ adj = (·.drop 1) ∧ upd = id ∨
   i = .retr y ∧ some' ∧ (∀ l ∈ c.parts, c.src .w64 x.a l = tgt) ∧ keeps ∨
   i = .loop y ∧ some' ∧ imm ∧ adj = id ∧
     (∃ n, x.d = .s n ∧ c.s n.toNat ≠ 1 ∧ upd = fun u => u.setS c.ex n.toNat ((c.s n.toNat + 2 ^ 64 - 1) % 2 ^ 64)) ∨
   i = .dqbr y ∧ some' ∧ imm ∧ adj = id ∧
     (∃ h n ds, c.ex = .str h n ∧ (s.strand? h n).map (·.dq) = some (true :: ds) ∧
       upd = fun u => u.modStrand h n fun t => { t with dq := t.dq.drop 1 }))

/-- The state holds a request for each name below `nextId` at most. -/
def State.named (s : State) : Prop := ∀ e ∈ s.reqs, e.1 < s.nextId

/-- A value on its way to lane l of the form of an executor that was issued last at s (R48). -/
def Comes (s t : State) (c : Cx) (l v : Nat) : Prop :=
  ∃ r, NewReq s t r ∧ r.ex = c.ex ∧ r.pend = some s.nextId ∧ r.lane = l ∧ r.st = .data v none

/-- The results of a form are pending: its record stands last among the executor's, with the destination and each active lane's newest
queue entry awaited (R48). -/
def Awaits (s t : State) (c : Cx) (x : Args) (w : Wd) : Prop :=
  ∃ u v, s.thr? c.ex = some u ∧ t.thr? c.ex = some v ∧
    v.pends.getLast? = some (State.newPend c s.nextId x.look.toNat w x.d)

/-- Nothing of a state but panels and management cores differs from another: no memory, no request, no step in progress. -/
def ExecutorsOnly (s t : State) : Prop := ∃ ps ms, t = { s with panels := ps, mgts := ms }

/-- A matrix form completes with one new entry behind the others of its panel's engine (R261), tiles and memory as they were. -/
def Enters (i : Instr) (s : State) (c : Cx) (h : Nat) (p : Panel) (tiles : List Nat) (op : EngOp) : Prop :=
  ∃ t e, exec i s = .next t ∧ t.mem = s.mem ∧ t.reqs = s.reqs ∧ (t.core (panelKey p)).eng = (s.core (panelKey p)).eng ++ [e] ∧
    e.panel = h ∧ e.issuer = c.ex ∧ e.tiles = tiles ∧ e.op = op ∧ e.step = 0 ∧ e.running = false ∧
    (t.panel? h).map (·.tiles) = some p.tiles

/-! Floating values as rational numbers, and rounding as R67 and R152 give it. -/

/-- The rational number of a finite value; 0 for the others. -/
def FVal.rat (v : FVal) : Rat :=
  match v with
  | .fin n m e => (if n then -1 else 1) * (m : Rat) * 2 ^ e
  | .zero _ => 0
  | .inf _ => 0
  | .nan => 0

/-- Neither NaN nor infinite. -/
def FVal.Finite (v : FVal) : Prop := v ≠ .nan ∧ ∀ n, v ≠ .inf n

/-- a is below b, with −0 below +0 (R162). -/
def FVal.Less (a b : FVal) : Prop :=
  a = .inf true ∧ b ≠ .inf true ∨ b = .inf false ∧ a ≠ .inf false ∨
    a.Finite ∧ b.Finite ∧ (a.rat < b.rat ∨ a.rat = 0 ∧ b.rat = 0 ∧ a.isNeg = true ∧ b.isNeg = false)

/-- The magnitude that code k stands for when the exponent has no upper bound: codes ascend with the magnitudes. -/
def Fmt.mag (f : Fmt) (k : Nat) : Rat :=
  if k < 2 ^ f.fb then (k : Rat) * 2 ^ (f.emin - f.fb)
  else ((2 ^ f.fb + k % 2 ^ f.fb : Nat) : Rat) * 2 ^ ((k / 2 ^ f.fb : Nat) - f.bias - f.fb)

/-- The code of the largest finite value, by the format's infinities and NaNs (R147). -/
def Fmt.maxCode (f : Fmt) : Nat :=
  if f.inf then (2 ^ f.eb - 1) * 2 ^ f.fb - 1 else if f.hasNan then 2 ^ (f.eb + f.fb) - 2 else 2 ^ (f.eb + f.fb) - 1

/-- What an infinite or overflowing result is (R152): the infinity of its sign, NaN with the sign in E4M3, ±6 in E2M1. -/
def Fmt.infCode (f : Fmt) (neg : Bool) : Nat :=
  f.sign neg + if f.inf then (2 ^ f.eb - 1) * 2 ^ f.fb else if f.hasNan then 2 ^ (f.eb + f.fb) - 1 else f.maxCode

/-- The table of R152. -/
def Fmt.over (f : Fmt) (mode : Rnd) (neg : Bool) : Nat :=
  match mode with
  | .rtz => f.sign neg + f.maxCode
  | .rup => if neg then f.sign neg + f.maxCode else f.infCode neg
  | .rdn => if neg then f.infCode neg else f.sign neg + f.maxCode
  | .rne => f.infCode neg
  | .rna => f.infCode neg
  | .sr => f.infCode neg

/-- Enc(Round(SatF(±∞))) (R152). -/
def Fmt.infRes (f : Fmt) (mode : Rnd) (sat : Sat) (neg : Bool) : FRes :=
  if sat = .satf then { bits := f.sign neg + f.maxCode, flags := flSA }
  else if f.inf then { bits := f.infCode neg, flags := 0 }
  else { bits := f.over mode neg, flags := flOF ||| flNX }

/-- Code k is what R67 rounds a magnitude to, the exponent unbounded above; `below q` says that q is at most the magnitude, `at' q`
that it is the magnitude. Under SR, t + rnd ≥ 65536 says that the magnitude lies (65536 − rnd) ÷ 65536 of the way or further. -/
def Fmt.RoundsTo (f : Fmt) (mode : Rnd) (g : Nat) (neg : Bool) (below at' : Rat → Prop) (k : Nat) : Prop :=
  ∃ j, below (f.mag j) ∧ ¬ below (f.mag (j + 1)) ∧ (k = j ∨ k = j + 1) ∧
    (k = j + 1 ↔ ¬ at' (f.mag j) ∧
      let mid := (f.mag j + f.mag (j + 1)) / 2
      match mode with
      | .rne => below mid ∧ (¬ at' mid ∨ j % 2 = 1)
      | .rna => below mid
      | .rtz => False
      | .rup => neg = false
      | .rdn => neg = true
      | .sr => below (f.mag j + ((65536 - g : Nat) : Rat) / 65536 * (f.mag (j + 1) - f.mag j)))

/-- The result of a nonzero finite exact value of that magnitude, with its flags (R67, R152, R156). -/
def Fmt.RoundedBy (f : Fmt) (mode : Rnd) (sat : Sat) (g : Nat) (neg : Bool) (below at' : Rat → Prop) (r : FRes) : Prop :=
  let tooBig := below (f.mag f.maxCode) ∧ ¬ at' (f.mag f.maxCode)
  (sat = .satf ∧ tooBig → r = { bits := f.sign neg + f.maxCode, flags := flSA }) ∧
  (¬ (sat = .satf ∧ tooBig) → ∃ k, f.RoundsTo mode g neg below at' k ∧
    (f.maxCode < k → r = { bits := f.over mode neg, flags := flOF ||| flNX }) ∧
    (k ≤ f.maxCode → r.bits = f.sign neg + k ∧ (at' (f.mag k) → r.flags = 0) ∧
      (¬ at' (f.mag k) → below (2 ^ f.emin) → r.flags = flNX) ∧ (¬ at' (f.mag k) → ¬ below (2 ^ f.emin) → r.flags = flNX ||| flUF)))

/-- The same for a rational number. -/
def Fmt.Rounded (f : Fmt) (mode : Rnd) (sat : Sat) (g : Nat) (x : Rat) (r : FRes) : Prop :=
  f.RoundedBy mode sat g (decide (x < 0)) (fun q => q ≤ x.abs) (fun q => q = x.abs) r

/-! The exact results of R161 and R166. -/

/-- p is the product of a and b. -/
def IsProduct (a b p : FVal) : Prop :=
  (a = .nan ∨ b = .nan ∨ FVal.zeroTimesInf a b = true → p = .nan) ∧
  (a ≠ .nan → b ≠ .nan → FVal.zeroTimesInf a b = false → (∃ n, a = .inf n ∨ b = .inf n) → p = .inf (xor a.isNeg b.isNeg)) ∧
  (a.Finite → b.Finite → p.Finite ∧ p.rat = a.rat * b.rat ∧ p.isNeg = xor a.isNeg b.isNeg)

/-- r is the sum of terms rounded once, where `bad` says that one of them is the product of a zero and an infinity (R151, R152, R161,
R166). -/
def SumGives (f : Fmt) (ar : Arith) (g : Nat) (ts : List FVal) (bad : Bool) (r : FRes) : Prop :=
  let clash := .inf true ∈ ts ∧ .inf false ∈ ts
  let q := (ts.map FVal.rat).sum
  (bad = true ∨ clash → r = { bits := f.nan, flags := flNV }) ∧
  (bad = false → ¬ clash → .nan ∈ ts → r = { bits := f.nan, flags := 0 }) ∧
  (.nan ∉ ts → ∀ n, .inf n ∈ ts → .inf (!n) ∉ ts → r = f.infRes ar.rnd ar.sat n) ∧
  ((∀ t ∈ ts, t.Finite) → q ≠ 0 → ∃ v : FVal, v.Finite ∧ v.rat = q ∧ r = f.round ar.rnd ar.sat g v) ∧
  ((∀ t ∈ ts, t.Finite) → q = 0 →
    (∀ n, (∀ t ∈ ts, t = .zero n) → r = { bits := f.sign n, flags := 0 }) ∧
    ((∀ n, ∃ t ∈ ts, t ≠ .zero n) → r = { bits := f.sign (ar.rnd == .rdn), flags := 0 }))

/-- r is what a form returns that selects the value y (R162): a register's encoding, or an immediate rounded. -/
def Selects (f : Fmt) (imm : Bool) (y : FVal) (r : FRes) : Prop :=
  if imm then r = f.round .rne .none 0 y
  else r.flags = 0 ∧ r.bits < 2 ^ f.width ∧ FVal.decode f r.bits = y ∧ (y = .nan → r.bits = f.nan)

/-- Val(B) of a contribution (R192): an immediate by its exact value (R148). -/
def Contrib.val (f : Fmt) (ar : Arith) (k : Contrib) : FVal :=
  negAbs (Arith.of ar 1) (match k.imm with | some i => FVal.ofInt i | none => FVal.decode f (k.bits % 2 ^ f.width))

/-- One contribution takes an element from e to e' (R192): the sum wraps, or is exact and rounded once; of a minimum or a maximum one of
the two stands. -/
def RedStep (op : RedOp) (ar : Arith) (rnd : Nat) (k : Contrib) (e e' : Nat) : Prop :=
  let f := redFmt op
  let n : Int := match k.imm with | some i => i | none => Word.toSigned 32 k.bits
  let a := FVal.decode f e
  let b := k.val f ar
  let adds : Prop := ∃ r, SumGives f ar rnd [a, b] false r ∧ e' = r.bits
  let selects (mx : Bool) : Prop := ∃ r, e' = r.bits ∧
    let old := Selects f false a r
    let new := Selects f k.imm.isSome b r
    (a = .nan → new) ∧ (b = .nan → old) ∧
    (a ≠ .nan → b ≠ .nan → (a.Less b → if mx then new else old) ∧ (b.Less a → if mx then old else new) ∧
      (¬ a.Less b → ¬ b.Less a → old))
  match op with
  | .addN32 => e' = (e + k.bits) % 2 ^ 32
  | .addN64 => e' = (e + k.bits) % 2 ^ 64
  | .minS32 => e' = if n < Word.toSigned 32 e then Word.ofInt 32 n else e
  | .maxS32 => e' = if Word.toSigned 32 e < n then Word.ofInt 32 n else e
  | .minF32 => selects false
  | .maxF32 => selects true
  | .addF32 => adds
  | .addBF16 => adds
  | .addF16 => adds
  | .addOrdF32 => adds
  | .addOrdBF16 => adds

/-- The 16 bits of a memory-side SR rounding of the element at canonical address a (R193). -/
def SideRnd (replay : Bool) (seed : W64) (a gen : Nat) : Nat :=
  if replay then (0x4000 * gen + 0x1000 * (a / 2 % 4)) % 2 ^ 16
  else mix64 (seed.toNat ^^^ mix64 ((a + gen * 0x9E3779B97F4A7C15) % 2 ^ 64)) % 2 ^ 16

/-! One K-step (R263 to R266) and the quotient of R315. -/

/-- The bits of an operand element of a matrix format (R263). -/
def mBits : MFmt → Nat
  | .bf16 => 16
  | .e4m3 => 8
  | .e5m2 => 8
  | .e2m1 => 4

/-- The value of an element's code. -/
def mValue (f : MFmt) (code : Nat) : FVal :=
  match f with
  | .bf16 => FVal.decode Fmt.bf16 code
  | .e4m3 => FVal.decode Fmt.e4m3 code
  | .e5m2 => FVal.decode Fmt.e5m2 code
  | .e2m1 => FVal.decode Fmt.e2m1 code

/-- u is v scaled by 2^(X − 127), or NaN where the scale X is 0xFF (R265). -/
def ScaledBy (x : Nat) (v u : FVal) : Prop :=
  (x = 255 → u = .nan) ∧ (x ≠ 255 → u.Finite ∧ u.rat = v.rat * 2 ^ ((x : Int) - 127) ∧ u.isNeg = v.isNeg)

/-- u is A(m, j) of a slab of 512 words, in order of lane and register (R263, R265). -/
def SlabA (f : MFmt) (slab scales : List W32) (m j : Nat) (u : FVal) : Prop :=
  let per := 32 / mBits f
  let v := mValue f ((slab.getD (16 * (m / 2) + 8 * (m % 2) + j / per) 0).toNat / 2 ^ (mBits f * (j % per)) % 2 ^ mBits f)
  if f = .e2m1 then ScaledBy ((scales.getD (m / 2) 0).toNat / 256 ^ (2 * (m % 2) + j / 32) % 256) v u else u = v

/-- u is B(j, n) of the slab whose bytes stand at b and whose scales stand at sb (R264, R265). -/
def SlabB (f : MFmt) (byte : Nat → Nat) (b sb j n : Nat) (u : FVal) : Prop :=
  match f with
  | .bf16 => u = mValue f (byte (b + 128 * j + 2 * n) + 256 * byte (b + 128 * j + 2 * n + 1))
  | .e4m3 => u = mValue f (byte (b + 64 * j + n))
  | .e5m2 => u = mValue f (byte (b + 64 * j + n))
  | .e2m1 => ScaledBy (byte (sb + 64 * (j / 32) + n))
    (mValue f (if n % 2 = 0 then byte (b + 32 * j + n / 2) % 16 else byte (b + 32 * j + n / 2) / 16 % 16)) u

/-- MacStep takes element (m, n) of a tile from t to t' (R266): the exact sum of t and the products along K, rounded once. -/
def MacStep (f : MFmt) (slab scales : List W32) (byte : Nat → Nat) (b sb m n : Nat) (t t' : W32) : Prop :=
  ∃ (A B T : Nat → FVal) (r : FRes),
    (∀ j, j < 256 / mBits f → SlabA f slab scales m j (A j) ∧ SlabB f byte b sb j n (B j) ∧ IsProduct (A j) (B j) (T j) ∧
      ((T j).Finite → (T j).rat = 0 → T j = .zero (T j).isNeg)) ∧
    (let ts := FVal.decode Fmt.f32 t.toNat :: (List.range (256 / mBits f)).map T
     let q := (ts.map FVal.rat).sum
     SumGives Fmt.f32 Arith.plain 0 ts false r ∧ ((∀ x ∈ ts, x.Finite) → q ≠ 0 → Fmt.f32.Rounded .rne .none 0 q r) ∧
       t' = BitVec.ofNat 32 r.bits)

/-- r is a ÷ b in F32 under RNE, correctly rounded (R315). -/
def Quotient (a b : FVal) (r : FRes) : Prop :=
  let neg := xor a.isNeg b.isNeg
  let bad : Prop := a = .nan ∨ b = .nan ∨ (∃ m n, a = .inf m ∧ b = .inf n) ∨ (∃ m n, a = .zero m ∧ b = .zero n)
  (bad → r.bits = Fmt.f32.nan) ∧
  (¬ bad → (∃ n, a = .inf n ∨ b = .zero n) → r.bits = Fmt.f32.infCode neg) ∧
  (¬ bad → (∃ n, a = .zero n ∨ b = .inf n) → r.bits = Fmt.f32.sign neg) ∧
  (a.Finite → b.Finite → a.rat ≠ 0 → b.rat ≠ 0 → Fmt.f32.Rounded .rne .none 0 (a.rat / b.rat) r)

/-! What a KV event reads and writes, in order (R292, R293, R297, R306 to R310). -/

/-- One access of a KV event: n bytes read at a virtual address with their value, or written. -/
inductive KvAcc where
  | rd (va n v : Nat)
  | wr (va n v : Nat)

/-- A unit makes accesses in order and takes a state to another. -/
def KvRuns (w : EngAt) : State → List KvAcc → State → Prop
  | s, [], u => u = s
  | s, .rd va n v :: ks, u => ∃ t, s.rd w va n = .ok t v ∧ KvRuns w t ks u
  | s, .wr va n v :: ks, u => ∃ t, s.wr w va n v = .ok t () ∧ KvRuns w t ks u

/-- The word of a table at an address read as v. -/
def KvAcc.word (va v : Nat) : KvAcc := .rd va 4 v

/-- The word written. -/
def KvAcc.set (va v : Nat) : KvAcc := .wr va 4 v

/-- Block k popped from the free stack (R292, R297): FREEN falls by 1, and the block is the one on top. -/
def KvPops (m : KvMap) (k : Nat) (ks : List KvAcc) : Prop :=
  ∃ n, n ≠ 0 ∧ ks = [.word m.freeA n, .word (m.stkA (n - 1)) k, .set m.freeA (n - 1)]

/-- The event of a KVLD lane (R306): its status, and the run as a number. -/
def KvLoads (m : KvMap) (t pos dim : Nat) (v : Bool) (st : Nat) (run : Option Nat) (ks : List KvAcc) : Prop :=
  ∃ len, (len ≤ pos ∧ st = 2 ∧ run = none ∧ ks = [.word (m.lenA t) len]) ∨
    (pos < len ∧ ∃ e, let two := [KvAcc.word (m.lenA t) len, .word (m.entA t (pos / 256)) e]
      (entSt e = 0 ∧ st = 1 ∧ run = none ∧ ks = two) ∨ (entSt e = 3 ∧ st = 3 ∧ run = none ∧ ks = two) ∨
      ((entSt e = 1 ∨ entSt e = 2) ∧ st = 0 ∧ ∃ x,
        ks = two ++ [.rd (if v then m.vA (entBlk e) (pos % 256) dim else m.kA (entBlk e) dim (pos % 256)) (64 * m.es) x] ∧
        run = some (x % 2 ^ (8 * m.es * if v then 64 else min 64 (len - pos)))))

/-- The rows of one position written into a block, and LEN raised (R307). -/
def kvPuts (m : KvMap) (t p len blk : Nat) (bytes : List Byte) : List KvAcc :=
  let row (o d : Nat) : Nat := State.leVal ((bytes.drop (o + m.es * d)).take m.es)
  ((List.range m.hd).flatMap fun d => [.wr (m.kA blk d (p % 256)) m.es (row 0 d), .wr (m.vA blk (p % 256) d) m.es (row (m.hd * m.es) d)]) ++
    [.set (m.lenA t) (max len (p + 1))]

/-- The event of a KVAPP lane (R307). -/
def KvAppends (m : KvMap) (t p : Nat) (bytes : List Byte) (st : Nat) (ks : List KvAcc) : Prop :=
  ∃ len, (len < p ∧ st = 2 ∧ ks = [.word (m.lenA t) len]) ∨
    (p ≤ len ∧ ∃ e, let two := [KvAcc.word (m.lenA t) len, .word (m.entA t (p / 256)) e]
      (entSt e = 1 ∧ st = 0 ∧ ks = two ++ kvPuts m t p len (entBlk e) bytes) ∨
      (entSt e = 2 ∧ st = 4 ∧ ks = two) ∨ (entSt e = 3 ∧ st = 3 ∧ ks = two) ∨
      (entSt e = 0 ∧ p < len ∧ st = 1 ∧ ks = two) ∨ (entSt e = 0 ∧ p = len ∧ p % 256 ≠ 0 ∧ st = 5 ∧ ks = two) ∨
      (entSt e = 0 ∧ p = len ∧ p % 256 = 0 ∧ ∃ three,
        ((p = 0 ∧ three = two) ∨ ∃ q, p ≠ 0 ∧ entSt q ≠ 1 ∧ three = two ++ [.word (m.entA t (p / 256 - 1)) q]) ∧
        ((st = 6 ∧ ks = three ++ [.word m.freeA 0]) ∨
          (∃ k pop, KvPops m k pop ∧ st = 0 ∧ ks = three ++ pop ++
            [.set (m.refA k) 1, .set (m.entA t (p / 256)) (2 ^ 30 + k % 2 ^ 24)] ++ kvPuts m t p len (k % 2 ^ 24) bytes))) ∨
      (∃ q, entSt e = 0 ∧ p = len ∧ p % 256 = 0 ∧ p ≠ 0 ∧ entSt q = 1 ∧ st = 5 ∧ ks = two ++ [.word (m.entA t (p / 256 - 1)) q]))

/-- KVSEAL's event (R308). -/
def KvSeals (m : KvMap) (t st : Nat) (ks : List KvAcc) : Prop :=
  (st = 1 ∧ ks = [.word (m.lenA t) 0]) ∨
  ∃ len e, len ≠ 0 ∧
    let a := m.entA t ((len + 255) / 256 - 1)
    let two := [KvAcc.word (m.lenA t) len, .word a e]
    (entSt e = 0 ∧ st = 1 ∧ ks = two) ∨ (entSt e = 3 ∧ st = 3 ∧ ks = two) ∨ (entSt e = 2 ∧ st = 4 ∧ ks = two) ∨
    (entSt e = 1 ∧ len % 256 ≠ 0 ∧ st = 5 ∧ ks = two) ∨
    (entSt e = 1 ∧ len % 256 = 0 ∧ st = 0 ∧ ks = two ++ [.set a (2 ^ 31 + e % 2 ^ 30)])

/-- One entry e of KVFORK's loop (R309): a hemmed block shared, a raw one copied, another entry copied without its block. -/
def KvShares (m : KvMap) (u b e : Nat) (ks : List KvAcc) : Prop :=
  (entSt e = 2 ∧ ∃ r, ks = [.set (m.entA u b) e, .word (m.refA (entBlk e)) r, .set (m.refA (entBlk e)) ((r + 1) % 2 ^ 32)]) ∨
  (entSt e = 1 ∧ ∃ n pop, ∃ vs : List Nat, KvPops m n pop ∧ vs.length = m.bsz / 64 ∧
    ks = pop ++ (vs.mapIdx fun i v => [KvAcc.rd (m.blkA (entBlk e) + 64 * i) 64 v, .wr (m.blkA (n % 2 ^ 24) + 64 * i) 64 v]).flatten ++
      [.set (m.refA n) 1, .set (m.entA u b) (2 ^ 30 + n % 2 ^ 24)]) ∨
  (entSt e = 1 ∧ ks = [.word m.freeA 0]) ∨
  ((entSt e = 0 ∨ entSt e = 3) ∧ ks = [.set (m.entA u b) (entSt e * 2 ^ 30)])

/-- KVFORK's event (R309). -/
def KvForks (m : KvMap) (t u st : Nat) (ks : List KvAcc) : Prop :=
  (∃ lu, lu ≠ 0 ∧ st = 7 ∧ ks = [.word (m.lenA u) lu]) ∨
  ∃ len free, ∃ es : List Nat, es.length = (len + 255) / 256 ∧
    let head := [KvAcc.word (m.lenA u) 0, .word (m.lenA t) len] ++ (es.mapIdx fun b e => .word (m.entA t b) e) ++ [.word m.freeA free]
    ((free = 0 ∧ (∃ e ∈ es, entSt e = 1) ∧ st = 6 ∧ ks = head) ∨
      ((free ≠ 0 ∨ ∀ e ∈ es, entSt e ≠ 1) ∧ st = 0 ∧ ∃ parts : List (List KvAcc), parts.length = es.length ∧
        (∀ b, b < es.length → KvShares m u b (es.getD b 0) (parts.getD b [])) ∧ ks = head ++ parts.flatten ++ [.set (m.lenA u) len]))

/-- Release(b, st) (R310, R297): one reference less, the block pushed where it was the last, and the entry in the state st. -/
def KvReleases (m : KvMap) (t b st : Nat) (ks : List KvAcc) : Prop :=
  ∃ e refs, ks = [KvAcc.word (m.entA t b) e] ++ refs ++ (if entSt e = 0 then [] else [.set (m.entA t b) (st * 2 ^ 30)]) ∧
    let k := entBlk e
    ((entSt e = 0 ∨ entSt e = 3) → refs = []) ∧
    ((entSt e = 1 ∨ entSt e = 2) → ∃ r, (r = 0 ∧ refs = [.word (m.refA k) 0]) ∨
      (1 < r ∧ refs = [.word (m.refA k) r, .set (m.refA k) (r - 1)]) ∨
      (r = 1 ∧ ∃ n, refs = [.word (m.refA k) 1, .set (m.refA k) 0, .word m.freeA n] ++
        if m.nblk ≤ n then [] else [.set (m.stkA n) k, .set m.freeA (n + 1)]))

/-- Entries released one after another. -/
def KvReleaseAll (m : KvMap) (t first n st : Nat) (ks : List KvAcc) : Prop :=
  ∃ parts : List (List KvAcc), parts.length = n ∧ (∀ i, i < n → KvReleases m t (first + i) st (parts.getD i [])) ∧ ks = parts.flatten

/-- KVDROP's event (R310). -/
def KvDrops (m : KvMap) (t ctl st : Nat) (ks : List KvAcc) : Prop :=
  let l := Word.bits ctl 23 0
  (Word.bit ctl 63 = false → st = 0 ∧ KvReleaseAll m t (ctl % 2 ^ 16) (Word.bits ctl 31 16) (if Word.bit ctl 62 then 0 else 3) ks) ∧
  (Word.bit ctl 63 = true → ∃ len,
    (len < l ∧ st = 2 ∧ ks = [.word (m.lenA t) len]) ∨
    (l ≤ len ∧ ∃ e, l % 256 ≠ 0 ∧ entSt e = 2 ∧ st = 4 ∧ ks = [.word (m.lenA t) len, .word (m.entA t (l / 256)) e]) ∨
    (l ≤ len ∧ st = 0 ∧ ∃ es rel, ((l % 256 = 0 ∧ es = []) ∨ ∃ e, l % 256 ≠ 0 ∧ entSt e ≠ 2 ∧ es = [KvAcc.word (m.entA t (l / 256)) e]) ∧
      KvReleaseAll m t ((l + 255) / 256) ((len + 255) / 256 - (l + 255) / 256) 0 rel ∧
      ks = [.word (m.lenA t) len] ++ es ++ rel ++ [.set (m.lenA t) l]))

/-- The accesses of a KV event, with its status and the run it delivers. -/
def KvScript (m : KvMap) (op : KvOp) (st : Nat) (run : Option Nat) (ks : List KvAcc) : Prop :=
  match op with
  | .load _ t pos dim v _ => KvLoads m t pos dim v st run ks
  | .append t p bytes => run = none ∧ KvAppends m t p bytes st ks
  | .seal t => run = none ∧ KvSeals m t st ks
  | .fork t u => run = none ∧ KvForks m t u st ks
  | .drop t ctl => run = none ∧ KvDrops m t ctl st ks

/-- What reads do beside their values: soft errors are corrected, and the messages of cores and of walks carry their clocks (R180, R217,
R421). -/
inductive Heard : State → State → Prop where
  | refl (s : State) : Heard s s
  | corrected (s t : State) (ps : List Place) (h : Heard s t) : Heard s (t.correctedAll ps)
  | core (s t : State) (d k : Nat) (ps : List Place) (h : Heard s t) : Heard s (t.crossHomes d k ps)
  | walk (s t : State) (d : Nat) (ps : List Place) (h : Heard s t) : Heard s (t.crossAll d 0x7F ps)

/-- The instruction takes a precise trap on what it read from memory, and does nothing else but what the read does beside. -/
def TrapsRead (i : Instr) (s : State) (c : Cx) (f : TrapInfo) : Prop :=
  ∃ t, exec i s = .next t ∧ Heard (s.takeTrap c.ex c.slotB c.pc f .precise) t

/-! Conversions (R168). -/

/-- Width and signedness of the integer formats 0x8 to 0xF (R77). -/
def intWidth (n : Nat) : Nat := [4, 8, 16, 32, 64, 8, 16, 32].getD (n - 8) 0
def intLow (n : Nat) : Int := if n ≤ 0xC then -(2 ^ (intWidth n - 1)) else 0
def intHigh (n : Nat) : Int := if n ≤ 0xC then 2 ^ (intWidth n - 1) - 1 else 2 ^ intWidth n - 1

/-- The value of a conversion's source x, in lane l of an issue. -/
def sourceVal (c : Cx) (src : Nat) (x : Opnd) (l : Nat) : FVal :=
  let u := c.src (fmtWd src) x l
  match x with
  | .imm i => FVal.ofInt i.toInt
  | _ =>
    if 8 ≤ src then FVal.ofInt (if src ≤ 0xC then Word.toSigned (intWidth src) u else (u % 2 ^ intWidth src : Nat))
    else if src = 7 then (if u % 256 = 255 then .nan else .fin false 1 ((u % 256 : Nat) - 127))
    else FVal.decode (Fmt.ofCode src) (u % 2 ^ (Fmt.ofCode src).width)

/-- y is x rounded to an integer: the rules of R67, the neighbours the adjacent integers and the ulp 1. -/
def RoundsToInt (mode : Rnd) (g : Nat) (x : Rat) (y : Int) : Prop :=
  let j := x.abs.floor
  let fr := x.abs - j
  let up : Prop := match mode with
    | .rne => 1 / 2 < fr ∨ fr = 1 / 2 ∧ j % 2 = 1
    | .rna => 1 / 2 ≤ fr
    | .rtz => False
    | .rup => fr ≠ 0 ∧ 0 < x
    | .rdn => fr ≠ 0 ∧ x < 0
    | .sr => 65536 ≤ (fr * 65536).floor + g
  (up → y.natAbs = j + 1) ∧ (¬ up → y.natAbs = j) ∧ (x < 0 → y ≤ 0) ∧ (0 < x → 0 ≤ y)

/-- r is the conversion of the value x of format src to format dst, its bits not yet widened. -/
def Converts (dst src : Nat) (ar : Arith) (g : Nat) (x : FVal) (r : FRes) : Prop :=
  let f := Fmt.ofCode dst
  let clamp (y : Int) : Int := min (max y (intLow dst)) (intHigh dst)
  let enc (y : Int) : Nat := Word.ofInt (intWidth dst) y
  -- to a float format
  (dst < 7 → (x = .nan → r = if dst = 6 then { bits := 0, flags := flNV } else { bits := f.nan, flags := 0 }) ∧
    (∀ n, x = .inf n → r = f.infRes ar.rnd ar.sat n) ∧ (∀ n, x = .zero n → r = { bits := f.sign n, flags := 0 }) ∧
    (x.Finite → x.rat ≠ 0 → ∃ v : FVal, v.Finite ∧ v.rat = x.rat ∧ r = f.round ar.rnd ar.sat g v)) ∧
  -- a float format to E8M0
  (dst = 7 → (x = .nan ∨ (∃ n, x = .inf n) → r = { bits := 0xFF, flags := 0 }) ∧
    ((∃ n, x = .zero n) → r = { bits := 0, flags := flNX }) ∧
    (x.Finite → x.rat ≠ 0 → ∃ t : Int, (2 : Rat) ^ t ≤ x.rat.abs ∧ x.rat.abs < 2 ^ (t + 1) ∧
      let k := min (max t (-127)) 127
      (r.bits : Int) = k + 127 ∧ (x.rat.abs = 2 ^ k → r.flags = 0) ∧ (x.rat.abs ≠ 2 ^ k → r.flags = flNX))) ∧
  -- an integer to an integer
  (8 ≤ dst → 8 ≤ src → ∃ y : Int, (y : Rat) = x.rat ∧
    (ar.sat = .sati → r = { bits := enc (clamp y), flags := if clamp y = y then 0 else flSA }) ∧
    (ar.sat ≠ .sati → r = { bits := enc y, flags := 0 })) ∧
  -- a float to an integer
  (8 ≤ dst → src < 7 → (x = .nan → r = { bits := 0, flags := flNV }) ∧
    (∀ n, x = .inf n → r = { bits := enc (if n then intLow dst else intHigh dst), flags := flNV }) ∧
    (x.Finite → ∃ y : Int, RoundsToInt ar.rnd g x.rat y ∧ r.bits = enc (clamp y) ∧
      (clamp y ≠ y → r.flags = flNV) ∧ (clamp y = y → (y : Rat) ≠ x.rat → r.flags = flNX) ∧
      (clamp y = y → (y : Rat) = x.rat → r.flags = 0)))

/-- An integer pattern widened to its location (R148). -/
def Widened (dst v : Nat) (u : Nat) : Prop :=
  u = if 8 ≤ dst ∧ dst < 0xC then Word.ofInt 32 (Word.toSigned (intWidth dst) v) else v

/-- Global memory is in canonical form: addresses strictly rising, and no byte listed that an unlisted address reads as. -/
def State.memOk (s : State) : Prop := Memory.wf s.mem = true

/-- Every panel's scratchpad is in canonical form. -/
def State.spadsOk (s : State) : Prop := ∀ h p, s.panel? h = some p → Memory.wf p.spad = true

/-- The steps waiting are steps of the module, none of them an instruction of a program. -/
def State.stepsOnly (s : State) : Prop := ∀ i, i ∈ s.agenda ∨ i ∈ s.inflight → i.fields = none

/-- n steps from a state answer a next state each. -/
def safeFor : Nat → State → Prop
  | 0, _ => True
  | n + 1, s => ∃ t, step s = .next t ∧ safeFor n t

/-- A run from a state never stops: no fault and no refusal at any step. -/
def Safe (s : State) : Prop := ∀ n, safeFor n s

end Sys2Proof.Machine
end

