-- ==== Sys2Proof/Certificates/Slice0/Obligations.lean ====
section
/-! DEFINITION. The statements for the provers, family by family. -/

open Sys2Proof Sys2Proof.Machine

/-- For every well-formed instruction, short or long, with every operand, guard, lookahead and prefix the encoding admits,
decode of its encoding is the instruction itself, and the length is all of its units. (R41, R42, R43, R60, R61, R62, R64, R69) -/
def Obligations.DecodeEncode : Prop :=
  ∀ i : Instr, i.wf = true → decode (encode i) = .ok i (encode i).length

/-- Whatever units the decoder is given, an instruction it answers is well formed, and it takes at least one unit and none that
it was not given. (R36, R41, R42, R64) -/
def Obligations.DecodedWellFormed : Prop :=
  ∀ (us : List W32) (i : Instr) (n : Nat), decode us = .ok i n → i.wf = true ∧ 0 < n ∧ n ≤ us.length

/-- The words of a short NOP, a short IADD.32, a long NOP, a long IADD.32, a prefixed FFMA.F32 and EXIT, put together bit by bit
from R41, R42, R43, R60 and the opcode tables, decode to those instructions. (R41, R42, R43, R72, R91, R129) -/
def Obligations.DecodeWords : Prop :=
  let long (i : Instr) (lo hi : W32) : Prop := decode [lo, hi] = .ok i 2
  let x : Args := { g := Guard.always, look := 0, d := .q 0, a := .q 0, b := .q 0, c := .q 0, ar := Arith.plain, mp := .none }
  decode [0x00000E00] = .ok (.nopShort Guard.always) 1 ∧
  -- IADD.32 Q, O2, 5 (the worked example of chapter 3)
  decode [0x71504E04] = .ok (.iadd32S { g := Guard.always, a := .o 2, b := .imm 5, ar := Arith.plain }) 1 ∧
  long (.nop x) 0x00007001 0 ∧
  -- IADD.32 V3, S5, 7: opcode10 0x080
  long (.iadd .w32 { x with d := .v 3, a := .s 5, b := .imm 7 }) 0x80307201 0x00D07C05 ∧
  -- ?!P2 FFMA.RUP.SATF V12, O3, Q1, V40 (the worked example of chapter 3)
  decode [0x000000A2, 0x80C0A521, 0xA8001403] = .ok (.ffma .f32 { g := { pred := 2, neg := true }, look := 0, d := .v 12, a := .o 3, b := .q 1, c := .v 40, ar := { rnd := .rup, sat := .satf, neg := 0 }, mp := .none }) 3 ∧
  -- EXIT
  long (.exit x) 0x00007025 0

/-- Where no watchdog expires and no step of the module is next, and an executor is chosen whose program counter stands in a
block, with no trap of its saved image to take there, and the units there decode to an instruction, the step is exec of that
instruction on the state after one tick of time, with the issuing executor, its addresses and the following position recorded,
the soft errors that the fetch met corrected and the clocks of its messages heard (log 76); what the choice of the executor
keeps for later choices is the model's own (log 2). (R36, R38, R39, R92, R98) -/
def Obligations.StepRunsDecoded : Prop :=
  ∀ (s : State) (e : Ex) (b : Bool) (p : Pos) (blk hdr : W64) (a : Nat) (us : List W32) (i : Instr) (n : Nat),
    s.tick.dueExpiry = none → s.agenda = [] → s.off = false →
    (s.inflight = [] ∨ s.stepsFirst = false) →
    let s0 : State := if s.inflight = [] then s.tick else { s.tick with free := s.free + 1, flushes := 0, issues := s.issues + 1 }
    let s1 : State := ({ s0 with turn := none, free := s0.free + 1 } : State).picked (e, b)
    s0.nextUnit = some (e, b) → s1.posOf e b = some p → s1.resumeTrap? e = none → s1.blockOf e (s1.joinOfEx e) p = .ok blk hdr a →
    s1.fetchItem e (blk.toNat + 4 * Hdr.len hdr) 4 {} a = .ok us → decode us = .ok i n →
    -- the messages of the fetch: the header's, where the block was entered, and the instruction's
    let s2 : State := match p.kind with
      | .inside _ _ => s1.fetchSoft e a (4 * us.length)
      | .entered => (s1.fetchSoft e blk.toNat 8).fetchSoft e a (4 * us.length)
      | .fell _ => (s1.fetchSoft e blk.toNat 8).fetchSoft e a (4 * us.length)
      | .written _ _ => (s1.fetchSoft e blk.toNat 8).fetchSoft e a (4 * us.length)
    step s = exec i { s2.setPos e b { pc := BitVec.ofNat 64 a, kind := .inside blk hdr } with
      cur := { ex := e, slotB := b, pc := BitVec.ofNat 64 a, blk := blk, hdr := hdr, nxt := posAfter blk hdr (a + 4 * n) } }

/-- Where TIME has reached the deadline of a context's watchdog on a die, the machine takes that expiry before all else (that it
precedes whatever that clk brings is log 98); else, where the agenda holds a step, exactly its first; both after one tick of
time. With nothing due and the power off, a step changes nothing. The agenda is the model's own (log 2). (R24, R211, R393) -/
def Obligations.StepTakesAgenda : Prop :=
  (∀ (s : State) (d k : Nat), s.tick.dueExpiry = some (d, k) →
    step s = exec (.watchdogExpiry d k) s.tick ∧ s.tick.expired d k = true) ∧
  (∀ (s : State) (i : Instr) (rest : List Instr), s.tick.dueExpiry = none → s.agenda = i :: rest →
    step s = exec i { s.tick with agenda := rest }) ∧
  (∀ s : State, s.agenda = [] → s.off = true → step s = .next s)

/-- An instruction of an executor that waits for nothing issues once every check of R66 passes: its executor and role may issue
it, its fields stand at levels the form allows, its immediate target is good, and every V[On] operand of a participating lane is
in range; an operand out of range in a helper lane only makes that lane's result 0. (R66, R79, R80, R299, R53, R56) -/
def Obligations.IssueGoes : Prop :=
  ∀ (i : Instr) (s : State) (c : Cx) (sp : Spec) (x : Args),
    s.mkCx = some c → i.spec = some sp → i.fields = some x →
    c.thr.pends = [] → c.thr.resumeTrap = false →
    bobSr c.ex i = false → guardOk c.ex i x.g = true →
    mgtOnlyZero c.ex sp.a x.a = true → mgtOnlyZero c.ex sp.b x.b = true →
    exOk c.ex sp.ex = true → roleOk s c.ex sp.role = true →
    fieldsOk (s.who c.ex) i sp x = true →
    (∀ k tgt, earlyTarget s (c.guarded x.g) i = some (k, tgt) → ∃ h, s.checkTarget c.ex k tgt = .ok h) →
    (∀ l ∈ (c.guarded x.g).parts, laneBad (s.vregs c.ex) ((c.guarded x.g).lane l) sp x = false) →
    let g := c.guarded x.g
    ∃ dead noDst dst, dead &&& ~~~ c.helper = 0 ∧ noDst &&& ~~~ c.helper = 0 ∧
      Issues i s { g with dead := dead, noDst := noDst, quiet := g.any && g.parts.isEmpty, dst := dst, ar := x.ar } x

/-- Lane l of a strand is active for an instruction exactly where it is in the issuing slot's mask and its guard predicate
passes, negated where PN says so; unguarded, every lane of the slot is active, since P7 reads 1. (R55, R56) -/
def Obligations.GuardSelectsLanes : Prop :=
  ∀ (c : Cx) (g : Guard) (h n : Nat), c.ex = .str h n →
    (∀ l, l < 32 → ((c.guarded g).act.getLsbD l = true ↔
      c.mask.getLsbD l = true ∧ xor ((c.lane l).pAt g.pred.toNat) g.neg = true)) ∧
    (c.guarded Guard.always).act = c.mask

/-- Every form whose row of R79 does not mark the issuing executor takes the precise trap WRONG_EXECUTOR, whatever its operands,
and has no other effect. (R79) -/
def Obligations.WrongExecutorTraps : Prop :=
  ∀ (i : Instr) (s : State) (c : Cx) (sp : Spec) (x : Args),
    s.mkCx = some c → i.spec = some sp → i.fields = some x →
    c.thr.resumeTrap = false → (c.ex.scalar = true → x.g = Guard.always) →
    mgtOnlyZero c.ex sp.a x.a = true → mgtOnlyZero c.ex sp.b x.b = true →
    exOk c.ex sp.ex = false →
    Traps i s (c.guarded x.g) { trap := .wrongExecutor }

/-- A strand whose SY.ROLE does not mark a form takes ROLE_VIOLATION at it, with the role and the opcode in the detail words,
and nothing else happens. (R299, R66, R383) -/
def Obligations.RoleTraps : Prop :=
  ∀ (i : Instr) (s : State) (c : Cx) (sp : Spec) (x : Args) (h n : Nat),
    s.mkCx = some c → i.spec = some sp → i.fields = some x → c.ex = .str h n →
    c.thr.resumeTrap = false → mgtOnlyZero c.ex sp.a x.a = true → mgtOnlyZero c.ex sp.b x.b = true →
    exOk c.ex sp.ex = true → roleOk s c.ex sp.role = false →
    Traps i s (c.guarded x.g)
      { trap := .roleViolation, d0 := BitVec.ofNat 64 (s.roleOf c.ex), d1 := BitVec.ofNat 64 (opcodeOf i * 2 ^ 32) }

/-- Taking a trap records on the strand the trap, its detail, its address, its kind and the issuing slot; every register of the
strand, every other strand and panel and all memory stay as they were, and the step that enters it in the parked table follows.
(R10, R385, R388) -/
def Obligations.TrapParksStrand : Prop :=
  ∀ (s : State) (h n : Nat) (t : Strand) (b : Bool) (pc : W64) (f : TrapInfo) (k : TKind), s.strand? h n = some t →
    let u := s.takeTrap (.str h n) b pc f k
    u.strand? h n = some { t with thr := { t.thr with
      wait := .none, waitB := .none, walkFails := [], awaiting := none, points := [],
      park := some { info := f, pc := pc, kind := k, slotB := b, more := if k = .async then t.thr.more else 0 } } } ∧
    u.inflight = s.inflight ++ [.executorPark h n] ∧
    (∃ ps, u = { s with panels := ps, inflight := u.inflight }) ∧
    (∀ j, j ≠ h → u.panel? j = s.panel? j) ∧ (∀ j, j ≠ n → u.strand? h j = s.strand? h j)

/-- With INTRAP 0 a trap on a management core saves the trap's address in SY.MEPC, its cause in SY.MCAUSE and its detail in
SY.MDET, sets INTRAP and continues at SY.MVEC; with INTRAP 1 the core halts, and the double trap is noted for the host. No other
core, no register and no memory changes. (R390, R388, R386) -/
def Obligations.ManagementTrap : Prop :=
  ∀ (s : State) (m : Nat) (b : Bool) (pc : W64) (f : TrapInfo) (k : TKind),
    (∀ j, j ≠ m → (s.takeTrap (.mgt m) b pc f k).mgt j = s.mgt j) ∧
    (∃ ms, s.takeTrap (.mgt m) b pc f k =
      { s with mgts := ms, doubleTraps := if (s.mgt m).intrap then s.doubleTraps ++ [m] else s.doubleTraps }) ∧
    ((s.mgt m).intrap = false →
      let g := (s.takeTrap (.mgt m) b pc f k).mgt m
      g.mepc = pc ∧ g.mcause = causeWord f k false false (if k = .async then (s.mgt m).thr.more else 0) ∧ g.mdet = f.d0 ∧ g.intrap = true ∧ g.pos.pc = (s.mgt m).mvec ∧
        g.thr = { (s.mgt m).thr with points := [] } ∧ g.st = (s.mgt m).st ∧ g.mvec = (s.mgt m).mvec ∧ g.stack = (s.mgt m).stack) ∧
    ((s.mgt m).intrap = true → (s.takeTrap (.mgt m) b pc f k).mgt m = { s.mgt m with st := .halted })

/-- The first asynchronous trap of an executor is recorded whole; a further one adds 1 to MORE, saturating at 255, and keeps the
first trap's code and detail. (R386) -/
def Obligations.AsyncTrapRecorded : Prop :=
  ∀ (s : State) (e : Ex) (u : Thr) (f : TrapInfo), s.thr? e = some u →
    (u.async = none → (s.recordAsync e f).thr? e = some { u with async := some f, more := 0 }) ∧
    (∀ g, u.async = some g → (s.recordAsync e f).thr? e = some { u with more := min (u.more + 1) 255 })

/-- The long and the short IADD, ISUB and IMUL complete with the sum, difference or product of their sources, reduced modulo
2^w; with SATI in force, the exact signed result is clamped to the signed range instead. (R132, R71) -/
def Obligations.IntegerArithmetic : Prop :=
  ∀ (s : State) (c : Cx) (x : Args) (w : Wd) (i : Instr) (op : Int → Int → Int),
    -- the long and the short forms of addition, subtraction and multiplication
    ((∃ y, i = .iadd w y) ∧ op = (· + ·) ∨ (∃ y, i = .isub w y) ∧ op = (· - ·) ∨ (∃ y, i = .imul w y) ∧ op = (· * ·) ∨
      w = .w32 ∧ ((∃ y, i = .iadd32S y) ∧ op = (· + ·) ∨ (∃ y, i = .isub32S y) ∧ op = (· - ·) ∨ (∃ y, i = .imul32S y) ∧ op = (· * ·)) ∨
      w = .w64 ∧ (∃ y, i = .iadd64S y) ∧ op = (· + ·)) →
    Issues i s c x →
    ∃ v, Gives i s c x w v ∧
      (x.ar.sat ≠ .sati → ∀ l, (v l : Int) = op (c.src w x.a l) (c.src w x.b l) % 2 ^ w.n) ∧
      (x.ar.sat = .sati → ∀ l, v l < 2 ^ w.n ∧ Word.toSigned w.n (v l) =
        min (max (op (Word.toSigned w.n (c.src w x.a l)) (Word.toSigned w.n (c.src w x.b l))) (-(2 ^ (w.n - 1)))) (2 ^ (w.n - 1) - 1))

/-- IMULH completes with the high w bits of the exact product of its sources by their type; IMAD with the product plus the
addend, wrapped once or under SATI clamped once; IABS with the magnitude of its signed source, which for the most negative value
wraps to itself or is clamped. (R132) -/
def Obligations.IntegerWideArithmetic : Prop :=
  ∀ (s : State) (c : Cx) (x y : Args) (w : Wd) (t : ITy),
    (Issues (.imulh t y) s c x → ∃ v, Gives (.imulh t y) s c x t.wd v ∧
      ∀ l, (v l : Int) = intVal t (c.src t.wd x.a l) * intVal t (c.src t.wd x.b l) / 2 ^ t.wd.n % 2 ^ t.wd.n) ∧
    (Issues (.imad w y) s c x → x.ar.sat ≠ .sati → ∃ v, Gives (.imad w y) s c x w v ∧
      ∀ l, v l = (c.src w x.a l * c.src w x.b l + c.src w x.c l) % 2 ^ w.n) ∧
    (Issues (.imad w y) s c x → x.ar.sat = .sati → ∃ v, Gives (.imad w y) s c x w v ∧
      ∀ l, v l < 2 ^ w.n ∧ Word.toSigned w.n (v l) = min (max (Word.toSigned w.n (c.src w x.a l) *
        Word.toSigned w.n (c.src w x.b l) + Word.toSigned w.n (c.src w x.c l)) (-(2 ^ (w.n - 1)))) (2 ^ (w.n - 1) - 1)) ∧
    (Issues (.iabs w y) s c x → ∃ v, Gives (.iabs w y) s c x w v ∧
      ∀ l, v l = if x.ar.sat = .sati then min (Word.toSigned w.n (c.src w x.a l)).natAbs (2 ^ (w.n - 1) - 1)
        else (Word.toSigned w.n (c.src w x.a l)).natAbs)

/-- The long and the short IMIN and IMAX complete with one of their two sources unchanged, the one whose signed or unsigned
value is the smaller, or the larger. (R132, R71) -/
def Obligations.IntegerMinMax : Prop :=
  ∀ (s : State) (c : Cx) (x : Args) (t : ITy) (i : Instr) (mx : Bool),
    ((∃ y, i = .imin t y) ∧ mx = false ∨ (∃ y, i = .imax t y) ∧ mx = true ∨
      t = .s32 ∧ ((∃ y, i = .iminS32S y) ∧ mx = false ∨ (∃ y, i = .imaxS32S y) ∧ mx = true)) →
    Issues i s c x →
    ∃ v, Gives i s c x t.wd v ∧ ∀ l, (v l = c.src t.wd x.a l ∨ v l = c.src t.wd x.b l) ∧
      intVal t (v l) = if mx then max (intVal t (c.src t.wd x.a l)) (intVal t (c.src t.wd x.b l))
        else min (intVal t (c.src t.wd x.a l)) (intVal t (c.src t.wd x.b l))

/-- AND, OR, XOR, NOT, SHL, SHR, SAR and ROT, long and short, complete with a result whose every bit is the stated function of
the sources' bits; a shift by w or more leaves zeros, or copies of the sign bit for SAR, and ROT rotates left by the amount
modulo w. (R133, R71) -/
def Obligations.LogicAndShifts : Prop :=
  ∀ (s : State) (c : Cx) (x : Args) (w : Wd) (i : Instr),
    let a (l : Nat) : Nat := c.src w x.a l
    let b (l : Nat) : Nat := c.src w x.b l
    let n (l : Nat) : Nat := c.src .w32 x.b l
    let short (j : Instr) : Prop := w = .w32 ∧ i = j
    Issues i s c x →
    (((∃ y, i = .and w y) ∨ ∃ y, short (.and32S y)) → ∃ v, Gives i s c x w v ∧ ∀ l k, (v l).testBit k = ((a l).testBit k && (b l).testBit k)) ∧
    (((∃ y, i = .or w y) ∨ ∃ y, short (.or32S y)) → ∃ v, Gives i s c x w v ∧ ∀ l k, (v l).testBit k = ((a l).testBit k || (b l).testBit k)) ∧
    (((∃ y, i = .xor w y) ∨ ∃ y, short (.xor32S y)) → ∃ v, Gives i s c x w v ∧ ∀ l k, (v l).testBit k = xor ((a l).testBit k) ((b l).testBit k)) ∧
    ((∃ y, i = .not w y) → ∃ v, Gives i s c x w v ∧ ∀ l k, k < w.n → (v l).testBit k = !(a l).testBit k) ∧
    (((∃ y, i = .shl w y) ∨ ∃ y, short (.shl32S y)) → ∃ v, Gives i s c x w v ∧
      ∀ l k, k < w.n → (v l).testBit k = (decide (n l ≤ k) && (a l).testBit (k - n l))) ∧
    (((∃ y, i = .shr w y) ∨ ∃ y, short (.shr32S y)) → ∃ v, Gives i s c x w v ∧
      ∀ l k, k < w.n → (v l).testBit k = (decide (k + n l < w.n) && (a l).testBit (k + n l))) ∧
    (((∃ y, i = .sar w y) ∨ ∃ y, short (.sar32S y)) → ∃ v, Gives i s c x w v ∧
      ∀ l k, k < w.n → (v l).testBit k = (a l).testBit (min (k + n l) (w.n - 1))) ∧
    ((∃ y, i = .rot w y) → ∃ v, Gives i s c x w v ∧
      ∀ l k, k < w.n → (v l).testBit ((k + n l) % w.n) = (a l).testBit k)

/-- BFX, BFI, POPC, CLZ, CTZ, BREV, BPERM, CLMUL and CLMULH complete with the results of R134 to R137, stated bit by bit, byte
by byte or by the bound that fixes the count. (R134, R135, R136, R137, R71) -/
def Obligations.BitFieldsAndCounts : Prop :=
  ∀ (s : State) (c : Cx) (x : Args) (w : Wd) (t : ITy) (i : Instr), Issues i s c x →
    ((∃ y, i = .bfx t y) → ∃ v, Gives i s c x t.wd v ∧ ∀ l,
      let ctl := c.src .w32 x.b l
      let p := ctl % 256
      let k := if p < t.wd.n then min (ctl / 256 % 256) (t.wd.n - p) else 0
      (k = 0 → v l = 0) ∧ (k ≠ 0 → ∀ j, j < t.wd.n →
        (v l).testBit j = (if j < k then (c.src t.wd x.a l).testBit (p + j) else t.signed && (c.src t.wd x.a l).testBit (p + k - 1)))) ∧
    ((∃ y, i = .bfi w y) → ∃ v, Gives i s c x w v ∧ ∀ l,
      let ctl := c.src .w32 x.c l
      let p := ctl % 256
      let k := if p < w.n then min (ctl / 256 % 256) (w.n - p) else 0
      ∀ j, j < w.n → (v l).testBit j = (if p ≤ j ∧ j < p + k then (c.src w x.b l).testBit (j - p) else (c.src w x.a l).testBit j)) ∧
    (((∃ y, i = .popc w y) ∨ w = .w32 ∧ ∃ y, i = .popc32S y) → ∃ v, Gives i s c x .w32 v ∧
      ∀ l, v l = ((List.range w.n).filter fun j => (c.src w x.a l).testBit j).length) ∧
    ((∃ y, i = .clz w y) → ∃ v, Gives i s c x .w32 v ∧
      ∀ l, v l ≤ w.n ∧ c.src w x.a l < 2 ^ (w.n - v l) ∧ (v l < w.n → 2 ^ (w.n - 1 - v l) ≤ c.src w x.a l)) ∧
    ((∃ y, i = .ctz w y) → ∃ v, Gives i s c x .w32 v ∧
      ∀ l, v l ≤ w.n ∧ (∀ j, j < v l → (c.src w x.a l).testBit j = false) ∧ (v l < w.n → (c.src w x.a l).testBit (v l) = true)) ∧
    ((∃ y, i = .brev w y) → ∃ v, Gives i s c x w v ∧ ∀ l j, j < w.n → (v l).testBit j = (c.src w x.a l).testBit (w.n - 1 - j)) ∧
    ((∃ y, i = .bperm w y) → ∃ v, Gives i s c x w v ∧ ∀ l k, k < w.n / 8 →
      let g := c.src w x.c l / 16 ^ k % 16
      let byte (j : Nat) : Nat := (c.src w x.a l + 2 ^ w.n * c.src w x.b l) / 256 ^ j % 256
      v l / 256 ^ k % 256 = if w = .w32 ∧ 8 ≤ g then (if 128 ≤ byte (g - 8) then 0xFF else 0) else byte g) ∧
    ((∃ y, i = .clmul w y) → ∃ v, Gives i s c x w v ∧ ∀ l k, k < w.n → (v l).testBit k =
      (((List.range w.n).filter fun j => decide (j ≤ k) && (c.src w x.b l).testBit j && (c.src w x.a l).testBit (k - j)).length % 2 == 1)) ∧
    ((∃ y, i = .clmulh w y) → ∃ v, Gives i s c x w v ∧ ∀ l k, k < w.n → (v l).testBit k =
      (((List.range w.n).filter fun j => (c.src w x.b l).testBit j && (c.src w x.a l).testBit (k + w.n - j)).length % 2 == 1))

/-- ISET and PLOP complete with 1 or 0 in the destination, the queue and the named predicate, where the condition holds or the
table's entry is 1; the short ISETs write no predicate; SEL takes A where the predicate is 1, else B; PLOP with a set bit in the
zero positions of its immediates traps with ILLEGAL_OPERAND, with or without an active lane, which is the model's choice (log
71). (R138, R139, R140, R71) -/
def Obligations.CompareAndSelect : Prop :=
  ∀ (s : State) (c : Cx) (x y : Args) (z : SArgs) (w : Wd) (k : ICond) (t : ITy),
    let holds (k : ICond) (a b : Int) : Prop := match k with | .eq => a = b | .ne => a ≠ b | .lt => a < b | .le => a ≤ b | .gt => b < a | .ge => b ≤ a
    let one (i : Instr) (r : Nat → Bool) : Prop :=
      exec i s = .next (((s.advance c).writeVec c .w32 x.d fun l => if r l then 1 else 0).writePred c (predOf x.c) r)
    (Issues (.iset k t y) s c x → ∃ r, one (.iset k t y) r ∧
      ∀ l, (r l = true ↔ holds k (intVal t (c.src t.wd x.a l)) (intVal t (c.src t.wd x.b l)))) ∧
    (Issues (.isetEq32S z) s c x → ∃ v, Gives (.isetEq32S z) s c x .w32 v ∧
      ∀ l, v l = if c.src .w32 x.a l = c.src .w32 x.b l then 1 else 0) ∧
    (Issues (.isetLtS32S z) s c x → ∃ v, Gives (.isetLtS32S z) s c x .w32 v ∧
      ∀ l, v l = if Word.toSigned 32 (c.src .w32 x.a l) < Word.toSigned 32 (c.src .w32 x.b l) then 1 else 0) ∧
    (Issues (.isetLtN32S z) s c x → ∃ v, Gives (.isetLtN32S z) s c x .w32 v ∧
      ∀ l, v l = if c.src .w32 x.a l < c.src .w32 x.b l then 1 else 0) ∧
    (Issues (.plop y) s c x → ∃ r, one (.plop y) r ∧
      ∀ l, r l = (c.uni .w32 x.b).testBit ((if (c.lane l).pAt (c.uni .w32 x.a % 8) then 2 else 0) +
        (if (c.lane l).pAt (c.uni .w32 x.a / 8) then 1 else 0))) ∧
    (∀ sp, MayIssue (.plop y) s c sp x → (64 ≤ c.uni .w32 x.a ∨ 16 ≤ c.uni .w32 x.b) → Traps (.plop y) s c { trap := .illegalOperand }) ∧
    (Issues (.sel w y) s c x → Gives (.sel w y) s c x w fun l =>
      if (c.lane l).pAt (predOf x.c) then c.src w x.a l else c.src w x.b l)

/-- MOV completes with its source; MOVI with the sign-extended immediate times 2^(16h) modulo 2^w, or traps where h is out of
range, with or without an active lane, which is the model's choice (log 71); LEA with base plus index times scale, in the 64-bit
form with a signed index and an unsigned scale. (R141, R142, R71) -/
def Obligations.MovesAndAddresses : Prop :=
  ∀ (s : State) (c : Cx) (x y : Args) (z : SArgs) (w : Wd),
    (Issues (.mov w y) s c x → Gives (.mov w y) s c x w fun l => c.src w x.a l) ∧
    (Issues (.mov32S z) s c x → Gives (.mov32S z) s c x .w32 fun l => c.src .w32 x.a l) ∧
    (Issues (.movi w y) s c x → Gives (.movi w y) s c x w fun l =>
      c.src .w64 x.a l * 2 ^ (16 * c.uni .w64 x.b) % 2 ^ w.n) ∧
    (∀ sp, MayIssue (.movi w y) s c sp x → w.n / 16 ≤ c.uni .w64 x.b → Traps (.movi w y) s c { trap := .illegalOperand }) ∧
    (Issues (.lea .w32 y) s c x → Gives (.lea .w32 y) s c x .w32 fun l =>
      (c.src .w32 x.a l + c.src .w32 x.b l * c.src .w32 x.c l) % 2 ^ 32) ∧
    (Issues (.lea .w64 y) s c x → ∃ v, Gives (.lea .w64 y) s c x .w64 v ∧ ∀ l,
      (v l : Int) = (c.src .w64 x.a l + Word.toSigned 32 (c.src .w32 x.b l) * c.src .w32 x.c l) % 2 ^ 64)

/-- QXCH, QBC and SHFL complete with the value of the lane their mode names, 0 from a lane that is not active; VOTE with whether
all, any or equal sources hold among the participants, or the mask of the participants whose source is not 0, and writes the
predicate of each active lane. (R143, R144, R145, R146) -/
def Obligations.LaneExchange : Prop :=
  ∀ (s : State) (c : Cx) (x y : Args) (q : BitVec 2) (m : QxMode) (h : ShMode) (u : VoMode),
    -- what lane j supplies
    let got (j : Nat) : Nat := if c.act.getLsbD j then c.src .w32 x.a j else 0
    let e (l : Nat) : Nat := c.src .w32 x.b l
    let voted (r : Nat) (p : Nat → Bool) : Prop :=
      exec (.vote u y) s = .next (((s.advance c).writeVec c .w32 x.d fun _ => r).writePred c (predOf x.c) p)
    (Issues (.qxch m y) s c x → Gives (.qxch m y) s c x .w32 fun l =>
      got (l - l % 4 + match m with | .horz => (l % 4) ^^^ 1 | .vert => (l % 4) ^^^ 2 | .diag => (l % 4) ^^^ 3 | .rot => (l % 4 + 1) % 4)) ∧
    (Issues (.qbc q y) s c x → Gives (.qbc q y) s c x .w32 fun l => got (l - l % 4 + q.toNat)) ∧
    (Issues (.shfl h y) s c x → Gives (.shfl h y) s c x .w32 fun l => match h with
      | .idx => got (e l % 32)
      | .up => if l < e l then c.src .w32 x.a l else got (l - e l)
      | .down => if 31 < l + e l then c.src .w32 x.a l else got (l + e l)
      | .bfly => got (l ^^^ (e l % 32))) ∧
    (Issues (.vote u y) s c x → match u with
      | .all => ∃ r p, voted r p ∧ (r = 1 ↔ ∀ l ∈ c.parts, c.src .w32 x.a l ≠ 0) ∧ r < 2 ∧ ∀ l, p l = (r == 1)
      | .any => ∃ r p, voted r p ∧ (r = 1 ↔ ∃ l ∈ c.parts, c.src .w32 x.a l ≠ 0) ∧ r < 2 ∧ ∀ l, p l = (r == 1)
      | .uni => ∃ r p, voted r p ∧ (r = 1 ↔ ∀ l ∈ c.parts, ∀ k ∈ c.parts, c.src .w32 x.a l = c.src .w32 x.a k) ∧ r < 2 ∧ ∀ l, p l = (r == 1)
      | .ballot => ∃ r p, voted r p ∧ r < 2 ^ 32 ∧ (∀ l, l < 32 → (r.testBit l = true ↔ l ∈ c.parts ∧ c.src .w32 x.a l ≠ 0)) ∧
          ∀ l, p l = (c.src .w32 x.a l != 0))

/-- FADD, FMUL, FFMA, FSCALE, HFMA2 and DOT2, and the short FADD and FMUL, complete in each lane with the exact rational sum,
product, scaled value or sum of products of their sources after NEGABS, rounded once to the format; with NaN and NV for opposite
infinities and for zero times infinity, NaN for a NaN, the infinity of its sign for an infinite result, and the zero signs of
R151. The flags of the participating lanes are added to SY.FFLAGS; where SATF clamps, the flag is SA alone, which is deduced
(log 14). (R151, R152, R157, R160, R161, R166, R71) -/
def Obligations.FloatArithmetic : Prop :=
  ∀ (s : State) (c : Cx) (x y : Args) (z : SArgs) (f : FTy) (f3 : FTy3) (bf : Bool) (i : Instr),
    let g (k l : Nat) : Nat := gOf s c x.ar l k
    let S (f : FTy) (k l : Nat) : FVal := srcF c x f k l
    -- of two values: their sum, their product, and that product plus a third
    let adds (f : FTy) : Prop := ∃ r, GivesFlags i s c x f.wd r ∧ ∀ l, SumGives (fmtOf f) x.ar (g 0 l) [S f 0 l, S f 1 l] false (r l)
    let product (F : Fmt) (h : Nat) (a b : FVal) (r : FRes) : Prop :=
      ∃ p, IsProduct a b p ∧ SumGives F x.ar h [p] (FVal.zeroTimesInf a b) r
    let fused (F : Fmt) (h : Nat) (a b d : FVal) (r : FRes) : Prop :=
      ∃ p, IsProduct a b p ∧ SumGives F x.ar h [p, d] (FVal.zeroTimesInf a b) r
    let muls (f : FTy) : Prop := ∃ r, GivesFlags i s c x f.wd r ∧ ∀ l, product (fmtOf f) (g 0 l) (S f 0 l) (S f 1 l) (r l)
    -- element e of source k, a packed word
    let P := if bf then Fmt.bf16 else Fmt.f16
    let E (k e l : Nat) : FVal := negAbs (Arith.of x.ar k)
      (FVal.decode P (c.src .w32 (if k = 0 then x.a else if k = 1 then x.b else x.c) l / 2 ^ (16 * e) % 2 ^ 16))
    Issues i s c x →
    (i = .fadd f y → adds f) ∧ (i = .faddF32S z → adds .f32) ∧ (i = .faddBF16S z → adds .bf16) ∧
    (i = .fmul f y → muls f) ∧ (i = .fmulF32S z → muls .f32) ∧ (i = .fmulBF16S z → muls .bf16) ∧
    (i = .ffma f y → ∃ r, GivesFlags i s c x f.wd r ∧ ∀ l, fused (fmtOf f) (g 0 l) (S f 0 l) (S f 1 l) (S f 2 l) (r l)) ∧
    (i = .fscale f3 y → ∃ r, GivesFlags i s c x .w32 r ∧ ∀ l,
      let a := S f3.ty 0 l
      let b : Int := Word.toSigned 32 (c.src .w32 x.b l)
      let b1 : Int := if Word.bit (Arith.of x.ar 1) 1 then b.natAbs else b
      let k := if Word.bit (Arith.of x.ar 1) 0 then -b1 else b1
      ∃ p : FVal, (¬ a.Finite → p = a) ∧ (a.Finite → p.Finite ∧ p.rat = a.rat * 2 ^ k ∧ p.isNeg = a.isNeg) ∧
        SumGives (fmtOf f3.ty) x.ar (g 0 l) [p] false (r l)) ∧
    (i = .hfma2 bf y → ∃ r, GivesFlags i s c x .w32 r ∧ ∀ l, ∃ r0 r1 : FRes, r0.bits < 2 ^ 16 ∧
      fused P (g 0 l) (E 0 0 l) (E 1 0 l) (E 2 0 l) r0 ∧ fused P (g 1 l) (E 0 1 l) (E 1 1 l) (E 2 1 l) r1 ∧
      r l = { bits := r0.bits + 2 ^ 16 * r1.bits, flags := r0.flags ||| r1.flags }) ∧
    (i = .dot2 bf y → ∃ r, GivesFlags i s c x .w32 r ∧ ∀ l, ∃ p q, IsProduct (E 0 0 l) (E 1 0 l) p ∧ IsProduct (E 0 1 l) (E 1 1 l) q ∧
      SumGives Fmt.f32 x.ar (g 0 l) [p, q, srcF c x .f32 2 l]
        (FVal.zeroTimesInf (E 0 0 l) (E 1 0 l) || FVal.zeroTimesInf (E 0 1 l) (E 1 1 l)) (r l))

/-- Any NaN source gives the canonical NaN of the format; infinity minus infinity and zero times infinity give it with NV, the
latter even beside a NaN addend; the signs of zero sums and products follow R151. The six functions give the special cases of
R164: poles with DZ, NaN with NV for a negative source, the limits at the infinities; FEXP2 of an integer n is 2 to the n
rounded once, FLOG2 of 2 to the k is k rounded once, and the magnitude of FTANH is at most 1, with the sign of its source. The
flags of an infinity that SATF replaces, of a pole too, are deduced (log 14). (R150, R151, R152, R161, R164) -/
def Obligations.FloatSpecialValues : Prop :=
  ∀ (f : FTy) (ar : Arith) (g : Nat) (a b d : FVal),
    let F := fmtOf f
    (faddVal F ar g .nan b).bits = F.nan ∧ (faddVal F ar g a .nan).bits = F.nan ∧
    (fmulVal F ar g .nan b).bits = F.nan ∧ (fmulVal F ar g a .nan).bits = F.nan ∧
    (ffmaVal F ar g .nan b d).bits = F.nan ∧ (ffmaVal F ar g a .nan d).bits = F.nan ∧ (ffmaVal F ar g a b .nan).bits = F.nan ∧
    faddVal F ar g (.inf false) (.inf true) = { bits := F.nan, flags := flNV } ∧
    fmulVal F ar g (.zero false) (.inf false) = { bits := F.nan, flags := flNV } ∧
    (ffmaVal F ar g (.zero false) (.inf false) .nan).flags = flNV ∧
    (faddVal F ar g (.zero true) (.zero true)).bits = F.sign true ∧
    (faddVal F ar g (.zero false) (.zero true)).bits = F.sign (ar.rnd == .rdn) ∧
    (fmulVal F ar g (.zero true) (.zero false)).bits = F.sign true ∧
    -- the functions
    (let N := Fmt.f32
     let nv : FRes := { bits := N.nan, flags := flNV }
     let zero (n : Bool) : FRes := { bits := N.sign n, flags := 0 }
     let inf (n : Bool) (fl : FFlags) : FRes := { N.infRes ar.rnd ar.sat n with flags := (N.infRes ar.rnd ar.sat n).flags ||| fl }
     (∀ h ∈ [frcpVal, frsqVal, fsqrtVal, fexp2Val, flog2Val, ftanhVal], h ar .nan = { bits := N.nan, flags := 0 }) ∧
     (∀ n, frcpVal ar (.zero n) = inf n flDZ ∧ frcpVal ar (.inf n) = zero n ∧ frsqVal ar (.zero n) = inf n flDZ ∧
       fsqrtVal ar (.zero n) = zero n ∧ flog2Val ar (.zero n) = inf true flDZ ∧ ftanhVal ar (.zero n) = zero n ∧
       fexp2Val ar (.zero n) = { bits := 0x3F800000, flags := 0 } ∧
       ftanhVal ar (.inf n) = { bits := N.sign n + 0x3F800000, flags := 0 }) ∧
     (∀ m e, (frsqVal ar (.fin true m e) = nv ∧ fsqrtVal ar (.fin true m e) = nv ∧ flog2Val ar (.fin true m e) = nv)) ∧
     frsqVal ar (.inf true) = nv ∧ fsqrtVal ar (.inf true) = nv ∧ flog2Val ar (.inf true) = nv ∧
     frsqVal ar (.inf false) = zero false ∧ fsqrtVal ar (.inf false) = inf false 0 ∧ flog2Val ar (.inf false) = inf false 0 ∧
     fexp2Val ar (.inf true) = zero false ∧ fexp2Val ar (.inf false) = inf false 0 ∧
     -- exact powers of two, and the bounds of the others
     (∀ (n : Bool) (m : Nat) (e k : Int), m ≠ 0 → (FVal.fin n m e).rat = k → N.Rounded ar.rnd ar.sat 0 (2 ^ k) (fexp2Val ar (.fin n m e))) ∧
     (∀ (m : Nat) (e k : Int), (FVal.fin false m e).rat = 2 ^ k →
       (k = 0 → flog2Val ar (.fin false m e) = zero false) ∧ (k ≠ 0 → N.Rounded ar.rnd ar.sat 0 k (flog2Val ar (.fin false m e)))) ∧
     (∀ n m e, ∃ k, k ≤ 0x3F800000 ∧ (ftanhVal ar (.fin n m e)).bits = N.sign n + k))

/-- Under every rounding mode, the stochastic one included, rounding the value of any pattern of F64, F32, F16 or BF16 that is
not NaN gives that pattern back with no flag; infinities too, unless SATF replaces them. Every nonzero finite value rounds, in
each of the seven formats, to the neighbour that R67 names, with saturation, overflow and the flags of R152 and R156; and FRCP,
FSQRT and FRSQ of a finite value round the exact reciprocal, root and reciprocal root so. Where SATF clamps, the flag is SA
alone, which is deduced (log 14). (R67, R150, R152, R156, R164) -/
def Obligations.FloatExactRounding : Prop :=
  ∀ (F : Fmt) (m : Rnd) (t : Sat) (g p : Nat),
    ((F = Fmt.f32 ∨ F = Fmt.f16 ∨ F = Fmt.bf16 ∨ F = Fmt.f64) → g < 65536 → p < 2 ^ F.width → FVal.decode F p ≠ .nan →
      (t = .satf → ∀ n, FVal.decode F p ≠ .inf n) →
      F.round m t g (FVal.decode F p) = { bits := p, flags := 0 }) ∧
    (∀ (n : Bool) (k : Nat) (e : Int), k ≠ 0 → g < 65536 → F ∈ [Fmt.f64, Fmt.f32, Fmt.f16, Fmt.bf16, Fmt.e4m3, Fmt.e5m2, Fmt.e2m1] →
      F.Rounded m t g (FVal.fin n k e).rat (F.round m t g (.fin n k e))) ∧
    (∀ (ar : Arith) (n : Bool) (k : Nat) (e : Int), k ≠ 0 →
      let a := (FVal.fin false k e).rat
      Fmt.f32.Rounded ar.rnd ar.sat 0 (1 / (FVal.fin n k e).rat) (frcpVal ar (.fin n k e)) ∧
      Fmt.f32.RoundedBy ar.rnd ar.sat 0 false (fun q => q * q ≤ a) (fun q => q * q = a) (fsqrtVal ar (.fin false k e)) ∧
      Fmt.f32.RoundedBy ar.rnd ar.sat 0 false (fun q => q * q * a ≤ 1) (fun q => q * q * a = 1) (frsqVal ar (.fin false k e)))

/-- FSET completes with the comparison of its values, an unordered pair satisfying only NE and NAN; the short FSETs push the
same without a predicate; FMIN and FMAX, long and short, complete with the smaller or the larger of their values, −0 below +0,
the other source beside a NaN and the register where both are equal, a register as it is encoded and an immediate rounded;
FCLASS with one bit for the class of its value. (R162, R163, R165, R71) -/
def Obligations.FloatCompareAndClass : Prop :=
  ∀ (s : State) (c : Cx) (x y : Args) (z : SArgs) (k : FCond) (f : FTy3),
    let A (f : FTy) (l : Nat) : FVal := srcF c x f 0 l
    let B (f : FTy) (l : Nat) : FVal := srcF c x f 1 l
    let one (i : Instr) (r : Nat → Bool) : Prop :=
      exec i s = .next (((s.advance c).writeVec c .w32 x.d fun l => if r l then 1 else 0).writePred c (predOf x.c) r)
    -- the order of values that are no NaN: the infinities, and rational numbers between, the two zeros equal
    let eq (a b : FVal) : Prop := (∃ n, a = .inf n ∧ b = .inf n) ∨ a.Finite ∧ b.Finite ∧ a.rat = b.rat
    let lt (a b : FVal) : Prop :=
      a = .inf true ∧ b ≠ .inf true ∨ b = .inf false ∧ a ≠ .inf false ∨ a.Finite ∧ b.Finite ∧ a.rat < b.rat
    let holds (a b : FVal) : Prop :=
      if a = .nan ∨ b = .nan then k = .ne ∨ k = .nan else
        match k with
        | .eq => eq a b | .ne => ¬ eq a b | .lt => lt a b | .le => lt a b ∨ eq a b | .gt => lt b a | .ge => lt b a ∨ eq a b
        | .num => True | .nan => False
    (Issues (.fset k f y) s c x → ∃ r, one (.fset k f y) r ∧ ∀ l, (r l = true ↔ holds (A f.ty l) (B f.ty l))) ∧
    (Issues (.fsetLtF32S z) s c x → ∃ v, Gives (.fsetLtF32S z) s c x .w32 v ∧ ∀ l,
      (v l = 0 ∨ v l = 1) ∧ (v l = 1 ↔ A .f32 l ≠ .nan ∧ B .f32 l ≠ .nan ∧ lt (A .f32 l) (B .f32 l))) ∧
    (Issues (.fsetEqF32S z) s c x → ∃ v, Gives (.fsetEqF32S z) s c x .w32 v ∧ ∀ l,
      (v l = 0 ∨ v l = 1) ∧ (v l = 1 ↔ A .f32 l ≠ .nan ∧ B .f32 l ≠ .nan ∧ eq (A .f32 l) (B .f32 l))) ∧
    (∀ i (g : FTy) (mx : Bool), Issues i s c x →
      (i = .fmin f y ∧ g = f.ty ∧ mx = false ∨ i = .fmax f y ∧ g = f.ty ∧ mx = true ∨
        i = .fminF32S z ∧ g = .f32 ∧ mx = false ∨ i = .fmaxF32S z ∧ g = .f32 ∧ mx = true) →
      ∃ r, GivesFlags i s c x .w32 r ∧ ∀ l,
        let a := A g l
        let b := B g l
        let takesA := Selects (fmtOf g) (isImm x.a) a (r l)
        let takesB := Selects (fmtOf g) (isImm x.b) b (r l)
        (a = .nan → takesB) ∧ (b = .nan → takesA) ∧
        (a ≠ .nan → b ≠ .nan → (a.Less b → if mx then takesB else takesA) ∧ (b.Less a → if mx then takesA else takesB) ∧
          (¬ a.Less b → ¬ b.Less a → if isImm x.a then takesB else takesA))) ∧
    (Issues (.fclass f y) s c x → ∃ k : Nat → Nat, Gives (.fclass f y) s c x .w32 (fun l => 2 ^ k l) ∧ ∀ l,
      let a := A f.ty l
      (a = .nan → k l = 8) ∧ (∀ n, a = .inf n → k l = if n then 0 else 7) ∧ (∀ n, a = .zero n → k l = if n then 3 else 4) ∧
      (a.Finite → a.rat ≠ 0 → k l = if a.rat < 0 then (if -(2 ^ (fmtOf f.ty).emin) < a.rat then 2 else 1)
        else (if a.rat < 2 ^ (fmtOf f.ty).emin then 5 else 6)))

/-- FRCP, FRSQ, FSQRT, FEXP2, FLOG2 and FTANH issue with their results pending, and each active lane's value, with its flags, is
on its way to it; FloatSpecialValues and FloatExactRounding say what the values are. (R48, R157, R164) -/
def Obligations.FloatTranscendental : Prop :=
  ∀ (s : State) (c : Cx) (x y : Args) (i : Instr) (f : Arith → FVal → FRes),
    (i = .frcp y ∧ f = frcpVal ∨ i = .frsq y ∧ f = frsqVal ∨ i = .fsqrt y ∧ f = fsqrtVal ∨ i = .fexp2 y ∧ f = fexp2Val ∨
      i = .flog2 y ∧ f = flog2Val ∨ i = .ftanh y ∧ f = ftanhVal) →
    Issues i s c x → c.any = true → s.named →
    ∃ t, exec i s = .next t ∧ Awaits s t c x .w32 ∧ t.mem = s.mem ∧
      ∀ l, l < 32 → c.act.getLsbD l = true →
        ∃ q, NewReq s t q ∧ q.ex = c.ex ∧ q.pend = some s.nextId ∧ q.lane = l ∧
          q.st = .data (if c.dead.getLsbD l then 0 else (f x.ar (srcF c x .f32 0 l)).bits) none ∧
          q.flags = (if c.helper.getLsbD l || c.dead.getLsbD l then 0 else (f x.ar (srcF c x .f32 0 l)).flags)

/-- CVT and its short twins complete with each active lane's source converted between the named formats: the exact value rounded
once to a float format, to an integer rounded and clamped with NV where it clamps, wrapped or clamped between integers, or the
exponent for E8M0. PACK places two such results, UNPK gives the exact widened element and traps with ILLEGAL_OPERAND at an index
beyond the elements, RND gives the rounded value in the source format, and MXSC the block scale of the participants in every
active lane. Deduced from the spec or chosen: the flags of a clamping conversion to a float format (log 14), RND of a NaN, E2M1
included (log 15), the flags between integers (log 77), and that an immediate index of UNPK is checked with no active lane too
(log 71). (R148, R152, R168, R169, R170, R171, R172) -/
def Obligations.Conversions : Prop :=
  ∀ (s : State) (c : Cx) (x y : Args) (z : SArgs) (i : Instr) (dst src : Nat),
    let g (k l : Nat) : Nat := gOf s c x.ar l k
    let e := if 8 ≤ dst then intWidth dst else (Fmt.ofCode dst).width
    -- an immediate index of UNPK beyond the elements
    (∀ sp j, MayIssue (.unpk y) s c sp x → src = fmtSrc x.c → src < 16 → src ≠ 7 → x.b = .imm j →
      32 / (if 8 ≤ src then intWidth src else (Fmt.ofCode src).width) ≤ c.uni .w32 x.b →
      Traps (.unpk y) s c { trap := .illegalOperand }) ∧
    (Issues i s c x →
    ((i = .cvt y ∧ dst = fmtDst x.c ∧ src = fmtSrc x.c ∨ i = .cvtBF16F32S z ∧ dst = 2 ∧ src = 0 ∨ i = .cvtF32BF16S z ∧ dst = 0 ∧ src = 2) →
      dst < 16 → src < 16 →
      ∃ r, GivesFlags i s c x (fmtWd dst) r ∧ ∀ l, ∃ q, Converts dst src x.ar (g 0 l) (sourceVal c src x.a l) q ∧
        (r l).flags = q.flags ∧ Widened dst q.bits (r l).bits) ∧
    (i = .pack y → dst = fmtDst x.c → src = fmtSrc x.c → dst < 16 → dst ≠ 7 → src < 16 →
      ∃ r, GivesFlags i s c x .w32 r ∧ ∀ l, ∃ q0 q1, Converts dst src x.ar (g 0 l) (sourceVal c src x.a l) q0 ∧
        Converts dst src x.ar (g 1 l) (sourceVal c src x.b l) q1 ∧ (r l).flags = q0.flags ||| q1.flags ∧
        (let p := q1.bits * 2 ^ e + q0.bits
         let Q := ((c.lane l).qAt 0).toNat
         (e = 16 → (r l).bits = p) ∧ (e = 8 → (r l).bits = Q / 2 ^ 16 + p * 2 ^ 16) ∧ (e = 4 → (r l).bits = Q / 2 ^ 8 + p * 2 ^ 24))) ∧
    (i = .unpk y → src = fmtSrc x.c → src < 16 → src ≠ 7 →
      let w := if 8 ≤ src then intWidth src else (Fmt.ofCode src).width
      let k := c.uni .w32 x.b
      (k < 32 / w → ∃ v, Gives i s c x .w32 v ∧ ∀ l,
        let u := c.src .w32 x.a l / 2 ^ (w * k) % 2 ^ w
        (8 ≤ src → src < 0xC → v l = Word.ofInt 32 (Word.toSigned w u)) ∧ (0xC ≤ src → v l = u) ∧
        ((src = 1 ∨ src = 2 ∨ src = 4 ∨ src = 5 ∨ src = 6) → v l < 2 ^ 32 ∧
          FVal.decode Fmt.f32 (v l) = FVal.decode (Fmt.ofCode src) u ∧
          (FVal.decode (Fmt.ofCode src) u = .nan → v l = 0x7FC00000))) ∧
      (32 / w ≤ k → c.parts ≠ [] → Traps i s c { trap := .illegalOperand })) ∧
    (i = .rnd y → dst = fmtDst x.c → src = fmtSrc x.c → src < 4 → dst < 7 → dst ≠ 3 → (dst = 0 → src = 3) → (src = 1 → dst ≠ 2) →
      (src = 2 → dst ≠ 1) → src ≠ dst →
      ∃ r, GivesFlags i s c x (fmtWd src) r ∧ ∀ l, ∃ q, Converts dst src x.ar (g 0 l) (sourceVal c src x.a l) q ∧ (r l).flags = q.flags ∧
        (FVal.decode (Fmt.ofCode dst) q.bits = .nan →
          (r l).bits = (Fmt.ofCode src).sign (sourceVal c src x.a l).isNeg + (Fmt.ofCode src).nan) ∧
        (FVal.decode (Fmt.ofCode dst) q.bits ≠ .nan → (r l).bits < 2 ^ (Fmt.ofCode src).width ∧
          FVal.decode (Fmt.ofCode src) (r l).bits = FVal.decode (Fmt.ofCode dst) q.bits)) ∧
    (i = .mxsc y → dst = fmtDst x.c → src = fmtSrc x.c → (dst = 4 ∨ dst = 5 ∨ dst = 6) → src < 3 →
      let V (l : Nat) : FVal := sourceVal c src x.a l
      let emax : Int := if dst = 4 then 8 else if dst = 5 then 15 else 2
      ∃ X, Gives i s c x .w32 (fun _ => X) ∧ ((∃ l ∈ c.parts, ¬ (V l).Finite) → X = 0xFF) ∧
        ((∀ l ∈ c.parts, (V l).Finite ∧ (V l).rat = 0) → X = 0) ∧
        ((∀ l ∈ c.parts, (V l).Finite) → ∀ (t : Int), (∃ l ∈ c.parts, (2 : Rat) ^ t ≤ (V l).rat.abs) →
          (∀ l ∈ c.parts, (V l).rat.abs < 2 ^ (t + 1)) → (X : Int) = min (max (t - emax) (-127)) 127 + 127)))

/-- Writing a vector result changes each active lane of the strand by its destination write and its push, a helper lane that
meets a trap condition by the write and the push of 0, of which a destination out of range takes only the push (log 83, the
model's choice), and no other lane; predicates, S registers, program counters and flags of the strand stay. (R47, R56, R68) -/
def Obligations.VectorResultLanes : Prop :=
  ∀ (s : State) (c : Cx) (w : Wd) (d : Opnd) (v : Nat → Nat) (h n : Nat) (t : Strand),
    c.ex = .str h n → s.strand? h n = some t → sregOf d = none →
    ∃ u, (s.writeVec c w d v).strand? h n = some u ∧ u.lanes.length = t.lanes.length ∧
      u = { t with lanes := u.lanes, thr := { t.thr with pends := u.thr.pends } } ∧
      ∀ l k, t.lanes[l]? = some k → u.lanes[l]? = some (
        if !c.act.getLsbD l then k
        else if !c.dead.getLsbD l then (writeOpnd k w d (v l)).push w (v l)
        else if c.noDst.getLsbD l then k.push w 0
        else (writeOpnd k w d 0).push w 0)

/-- A 32-bit push makes the value the newest queue entry and moves the others one older, dropping the oldest; a 64-bit push
enters the high half first, so that the pair reads low half at Q0; registers, predicates and the SR counter are unchanged. A
form with an S destination writes that S register once with the value of the lowest active lane and changes no other register of
its executor; with no active lane it has no effect. (R46, R47, R54, R130) -/
def Obligations.PushesAndScalarResults : Prop :=
  (∀ (k : Lane) (x : Nat), k.q.length = 16 →
    ((k.push .w32 x).q.length = 16 ∧ (k.push .w32 x).qAt 0 = BitVec.ofNat 32 x ∧ ∀ n, n < 15 → (k.push .w32 x).qAt (n + 1) = k.qAt n) ∧
    ((k.push .w64 x).q.length = 16 ∧ (k.push .w64 x).qAt 0 = BitVec.ofNat 32 x ∧
      (k.push .w64 x).qAt 1 = BitVec.ofNat 32 (x / 2 ^ 32) ∧ ∀ n, n < 14 → (k.push .w64 x).qAt (n + 2) = k.qAt n) ∧
    (∀ w, (k.push w x).o = k.o ∧ (k.push w x).v = k.v ∧ (k.push w x).p = k.p ∧ (k.push w x).sr = k.sr)) ∧
  (∀ (s : State) (c : Cx) (w : Wd) (n : BitVec 6) (v : Nat → Nat) (u : Thr), s.thr? c.ex = some u → u.ss.length = 64 →
    (c.any = true → ∃ u', (s.writeVec c w (.s n) v).thr? c.ex = some u' ∧ u' = { u with ss := u'.ss } ∧
      u'.ss.getD n.toNat 0 = BitVec.ofNat 64 (v c.low) ∧ ∀ j, j ≠ n.toNat → u'.ss.getD j 0 = u.ss.getD j 0) ∧
    (c.any = false → s.writeVec c w (.s n) v = s))

/-- Every form that completes by a vector or scalar result, flags included, leaves memory, scratchpads, all other executors,
every request in flight and all device state unchanged; of its own strand only lanes, the S destination, flags, pending records
and the program counter change, and no predicate. (R10, R54, R68) -/
def Obligations.ComputeFrame : Prop :=
  ∀ (i : Instr) (s t : State) (c : Cx) (x : Args) (w : Wd) (v : Nat → Nat) (r : Nat → FRes),
    Issues i s c x → (Gives i s c x w v ∨ GivesFlags i s c x w r) → exec i s = .next t →
    -- memory, scratchpads, other executors and every step in progress stay
    ExecutorsOnly s t ∧
    (∀ a, Memory.byte t.mem a = Memory.byte s.mem a) ∧
    (∀ h p, s.panel? h = some p → ∃ q, t.panel? h = some q ∧ q = { p with strands := q.strands, bob := q.bob }) ∧
    (∀ h n, c.ex ≠ .str h n → t.strand? h n = s.strand? h n) ∧
    (∀ m, c.ex ≠ .mgt m → t.mgt m = s.mgt m) ∧
    -- of the issuing strand: its predicates, ended and helper lanes, frames, role and return stacks
    (∀ h n u, c.ex = .str h n → s.strand? h n = some u → ∃ u', t.strand? h n = some u' ∧
      u' = { u with lanes := u'.lanes, thr := u'.thr, a := u'.a, b := u'.b, lastB := u'.lastB, tried := none, fflags := u'.fflags } ∧
      (let z (q : PcSlot) := (q.mask, q.stack, q.waiting); u'.a.map z = u.a.map z ∧ u'.b.map z = u.b.map z) ∧
      u'.thr.async = u.thr.async ∧ u'.thr.park = u.thr.park ∧ u'.thr.scStamp = u.thr.scStamp ∧
      (sregOf x.d = none → u'.thr.ss = u.thr.ss) ∧
      ∀ l k, u.lanes[l]? = some k → ∃ k', u'.lanes[l]? = some k' ∧ k'.p = k.p ∧
        (c.mask.getLsbD l = false → c.act.getLsbD l = false → k' = k))

/-- Writing predicate k sets it in each active lane, to 0 in a helper lane that meets a trap condition, and changes no other
predicate, register or queue entry; P7 keeps reading 1, and inactive lanes keep their predicate. (R55, R56, R138) -/
def Obligations.PredicateFrame : Prop :=
  ∀ (s : State) (c : Cx) (k h n : Nat) (r : Nat → Bool) (t : Strand), k < 8 → c.ex = .str h n → s.strand? h n = some t →
    ∃ u, (s.writePred c k r).strand? h n = some u ∧ u.thr.ss = t.thr.ss ∧ u.a = t.a ∧ u.b = t.b ∧ u.fflags = t.fflags ∧
      ∀ l z, t.lanes[l]? = some z → ∃ z', u.lanes[l]? = some z' ∧ z'.q = z.q ∧ z'.o = z.o ∧ z'.v = z.v ∧ z'.sr = z.sr ∧
        (∀ j, j < 8 → (j ≠ k ∨ k = 7 ∨ c.act.getLsbD l = false) → z'.pAt j = z.pAt j) ∧
        (k ≠ 7 → c.act.getLsbD l = true → z'.pAt k = (!c.dead.getLsbD l && r l))

/-- BRA, BRC, BRX, CALL, RET, RETR, LOOP and DQBR that a whole slot takes complete with the slot at the checked target, in a
strand that has diverged too, waiting there where the target is the join address, after which the strand settles (SlotsMerge
says how; that RET's pop and CALL's push come first is log 88): CALL with the return address on the return stack or in its link,
RET with one entry taken off, LOOP with its count one less, DQBR with its decision consumed, and nothing else changed. (R94,
R103, R104, R105, R106, R108, R109, R110, R121) -/
def Obligations.BranchesTransfer : Prop :=
  ∀ (s : State) (c : Cx) (x y : Args) (i : Instr) (T : Mask) (tgt : Nat) (k : Entry) (cont : Pos) (adj : List W64 → List W64)
    (upd : State → State), BranchForm s c x y i T tgt k cont adj upd →
    Issues i s c x → (∃ hd, s.checkTarget c.ex k tgt = .ok hd) →
    let there : Pos := { pc := BitVec.ofNat 64 tgt, kind := .entered }
    -- a strand whose whole slot goes: it runs on at the target, or waits there where that is the join address, and the strand settles
    (∀ h n t, c.ex = .str h n → s.strand? h n = some t →
      let tk := withHelpers c.helper t.ended T &&& c.mask
      let gone (w : Bool) (t : Strand) : Strand := State.setSlot t c.slotB
        ((State.slotOf t c.slotB).map fun z => { z with pos := there, stack := adj z.stack, waiting := w })
      tk ≠ 0 → c.mask &&& ~~~ tk = 0 →
      (t.join ≠ .addr (BitVec.ofNat 64 tgt) → exec i s = .next ((upd (s.issued c)).modStrand h n (gone false))) ∧
      (t.join = .addr (BitVec.ofNat 64 tgt) → exec i s = .next ((upd (s.issued c)).modStrand h n fun t => settle (gone true t)) ∧
        -- beside a slot that runs, nothing more happens
        ∀ z, State.slotOf t (!c.slotB) = some z → z.waiting = false →
          exec i s = .next ((upd (s.issued c)).modStrand h n (gone true)))) ∧
    -- a bobbin or a management core
    (∀ h, c.ex = .bob h → T ≠ 0 →
      exec i s = .next (((upd (s.issued c)).setPos c.ex c.slotB there).modBob h fun b => { b with stack := adj b.stack })) ∧
    (∀ m, c.ex = .mgt m → T ≠ 0 →
      exec i s = .next (((upd (s.issued c)).setPos c.ex c.slotB there).modMgt m fun b => { b with stack := adj b.stack }))

/-- A short or a long NOP completes with its slot at the following instruction, and no other executor notices. Where no lane
takes it, each branching form completes with its slot at the following instruction; LOOP at 1 writes 0 and falls through; a
false decision is consumed; RET with an empty return stack traps with RET_UNDERFLOW. (R92, R94, R102, R103, R104, R106, R109,
R121) -/
def Obligations.BranchesFallThrough : Prop :=
  ∀ (s : State) (c : Cx) (x y : Args),
    -- NOP: only the issuing executor notices
    (∀ i, (i = .nop y ∨ ∃ g, i = .nopShort g) → Issues i s c x →
      exec i s = .next (s.advance c) ∧ (s.advance c).posOf c.ex c.slotB = some c.nxt ∧
        ∀ e, e ≠ c.ex → (s.advance c).thr? e = s.thr? e) ∧
    (∀ i, (i = .bra y ∧ c.act = 0 ∨ i = .brc y ∧ condLanes c x.b = 0) → Issues i s c x → exec i s = .next ((s.issued c).setPos c.ex c.slotB c.nxt)) ∧
    (∀ i, (i = .call y ∨ i = .ret y ∨ i = .loop y ∨ i = .dqbr y) → c.parts = [] → Issues i s c x → exec i s = .next (s.advance c)) ∧
    (∀ i, (i = .brx y ∨ i = .retr y) → c.parts = [] → Issues i s c x → exec i s = .next (s.advance c)) ∧
    (∀ n, Issues (.loop y) s c x → c.parts ≠ [] → x.d = .s n → c.s n.toNat = 1 →
      exec (.loop y) s = .next (((s.issued c).setS c.ex n.toNat 0).setPos c.ex c.slotB c.nxt)) ∧
    (∀ h n ds, Issues (.dqbr y) s c x → c.parts ≠ [] → c.ex = .str h n → (s.strand? h n).map (·.dq) = some (false :: ds) →
      exec (.dqbr y) s = .next (((s.issued c).modStrand h n fun t => { t with dq := t.dq.drop 1 }).setPos c.ex c.slotB c.nxt)) ∧
    (Issues (.ret y) s c x → c.parts ≠ [] → stackOf s c = [] → Traps (.ret y) s c { trap := .retUnderflow })

/-- BRA, BRC, BRX, CALL, RET, RETR, LOOP and DQBR that part of a slot takes complete with slot A holding the lanes that stay at
the following instruction and slot B those that go at the target, joined at EXIT where RECONV is 0 and else at the block it
names, slot B waiting where the target is that block; BRX sends the lanes of the least target, and where the others have greater
ones they issue it again; CALL pushes its return address, and RET pops one, on the stack of the slot that goes; a link, LOOP's
count and the decision change as where the whole slot goes, and no other register does; in a strand that has already diverged
the sibling slot and the join record are pushed as a frame, with what the strand keeps of slots emptied under that record
(R100). (R94, R97, R103, R104, R105, R106, R108, R109, R110, R121) -/
def Obligations.BranchDiverges : Prop :=
  ∀ (s : State) (c : Cx) (x y : Args) (i : Instr) (T : Mask) (tgt : Nat) (k : Entry) (cont : Pos) (adj : List W64 → List W64)
    (upd : State → State) (h n : Nat) (t : Strand) (z : PcSlot), BranchForm s c x y i T tgt k cont adj upd → Issues i s c x →
    c.ex = .str h n → s.strand? h n = some t → State.slotOf t c.slotB = some z → c.thr.pends = [] →
    (∃ hd, s.checkTarget c.ex k tgt = .ok hd) →
    let tk := withHelpers c.helper t.ended T &&& c.mask
    -- where the two slots meet again: at EXIT, or at the block the header names
    let r := Word.ofInt 64 ((c.blk.toNat : Int) + 8 * Hdr.reconv c.hdr)
    let rc : Join := if Hdr.reconv c.hdr = 0 then .atExit else .addr (BitVec.ofNat 64 r)
    let sib := State.slotOf t (!c.slotB)
    let nested : Bool := sib.isSome || t.join != .none
    tk ≠ 0 → c.mask &&& ~~~ tk ≠ 0 →
    (Hdr.reconv c.hdr ≠ 0 → (∃ hd, s.checkTarget c.ex .branch r = .ok hd) ∧ cont.kind ≠ .entered) →
    (nested = true → t.frames.length < 64 ∧ s.roomFor c.ex 0 1 = true) →
    exec i s = .next ((upd (s.issued c)).modStrand h n fun u => { u with
      a := some { z with pos := cont, mask := z.mask &&& ~~~ tk, waiting := false, seg := t.segs, line := z.seg :: z.line }
      b := some { z with pos := { pc := BitVec.ofNat 64 tgt, kind := .entered }, mask := tk, stack := adj z.stack,
                         waiting := decide (rc = .addr (BitVec.ofNat 64 tgt)), seg := t.segs + 1, line := z.seg :: z.line }
      join := rc, emptied := {}, segs := t.segs + 2
      frames := if nested then { sib := sib, join := t.join, posB := c.slotB, emptied := t.emptied } :: t.frames else t.frames })

/-- When both slots wait at the join record's address, or one waits and the other has ended, the strand settles to one slot
there with their lanes and slot A's return stack, and no join record; inside another divergence the merged slot takes its place
beside the sibling that the frame holds; everything that either slot issued, or the slots they were split from, or a slot that
ended since the split, is ordered before what the merged slot issues, and the latest SC stamp among them is kept. Where both
have ended inside another divergence, the sibling that the frame holds goes on, and what they issued is kept for its merge.
While a slot runs, nothing settles. (R95, R97, R100, R228) -/
def Obligations.SlotsMerge : Prop :=
  ∀ (t : Strand) (r : W64),
    let orders (g : PcSlot) (xs : List PcSlot) : Prop :=
      ∀ n, n ∈ g.past ↔ n ∈ t.emptied.segs ∨ ∃ x ∈ xs, n = x.seg ∨ n ∈ x.line ∨ n ∈ x.past
    -- both slots wait
    (∀ a b : PcSlot, t.a = some a → t.b = some b → a.waiting = true → b.waiting = true → t.join = .addr r → a.mask ||| b.mask ≠ 0 →
      let merged (g : PcSlot) : Prop :=
        g.pos = { pc := r, kind := .entered } ∧ g.mask = a.mask ||| b.mask ∧ g.stack = a.stack ∧ g.line = [] ∧
        -- what was issued before the merge, by slots emptied since the split too, comes before what the merged slot issues, and the
        -- latest SC stamp stays
        orders g [a, b] ∧ (g.stamp = a.stamp ∨ g.stamp = b.stamp ∨ g.stamp = t.emptied.stamp) ∧
        a.stamp.toNat ≤ g.stamp.toNat ∧ b.stamp.toNat ≤ g.stamp.toNat ∧ t.emptied.stamp.toNat ≤ g.stamp.toNat
      (t.frames = [] →
        ∃ g : PcSlot, settle t = { t with a := some g, b := none, join := .none, emptied := {}, segs := t.segs + 1 } ∧ merged g ∧ g.waiting = false) ∧
      -- inside another divergence: the merged slot runs on, or waits in its turn, beside the sibling that the frame holds
      (∀ f fs z, t.frames = f :: fs → f.sib = some z → z.waiting = false →
        ∃ g : PcSlot, merged g ∧ g.waiting = decide (f.join = .addr r) ∧
          settle t = { t with a := if f.posB then some z else some g, b := if f.posB then some g else some z, join := f.join,
                              frames := fs, emptied := f.emptied, segs := t.segs + 1 })) ∧
    -- one slot has ended, the other waits
    (∀ x : PcSlot, (t.a = some x ∧ t.b = none ∨ t.a = none ∧ t.b = some x) → x.waiting = true → t.join = .addr r → t.frames = [] →
      x.mask ≠ 0 →
      ∃ g : PcSlot, settle t = { t with a := some g, b := none, join := .none, emptied := {}, segs := t.segs + 1 } ∧
        g.pos = { pc := r, kind := .entered } ∧ g.mask = x.mask ∧ g.stack = x.stack ∧ g.waiting = false ∧ orders g [x]) ∧
    -- both have ended inside another divergence: the sibling goes on, and what they issued comes before its own merge
    (∀ f fs z, t.a = none → t.b = none → t.join ≠ .none → t.frames = f :: fs → f.sib = some z → z.waiting = false →
      ∃ e : Emptied, settle t = { t with a := if f.posB then some z else none, b := if f.posB then none else some z, join := f.join,
                                         frames := fs, emptied := e, segs := t.segs + 1 } ∧
        ∀ n, n ∈ e.segs ↔ n ∈ f.emptied.segs ∨ n ∈ t.emptied.segs) ∧
    -- a slot that runs keeps everything as it is
    (∀ x : PcSlot, (t.a = some x ∨ t.b = some x) → x.waiting = false → settle t = t)

/-- EXIT completes with every active lane that is no helper ended, and the slot's other lanes at the following instruction; JOIN
with its slot waiting at the join address, or moving on where there is none or the record is at EXIT, and traps where it is not
uniform; BRSP with one respawn record stored for each lane whose condition holds, of the target, the live registers and queue
entries of its header, O0 to O7 and P0 to P6, those lanes ended and the slot's others at the following instruction. (R96, R111,
R112, R114, R117, R363) -/
def Obligations.StrandControl : Prop :=
  ∀ (s : State) (c : Cx) (x y : Args) (h n : Nat) (t : Strand), c.ex = .str h n → s.strand? h n = some t →
    -- lanes of a mask that are no helpers end, with the helper lanes of a quad that they leave empty; the slot's other lanes go on
    let ends (m : Mask) (t' : Strand) : Prop :=
      (∀ l, m.getLsbD l = true → c.helper.getLsbD l = false → t'.ended.getLsbD l = true) ∧
      (∀ l, t.ended.getLsbD l = true → t'.ended.getLsbD l = true) ∧
      (∀ l, t'.ended.getLsbD l = true → t.ended.getLsbD l = true ∨ m.getLsbD l = true ∨ t.helper.getLsbD l = true) ∧ t'.lanes = t.lanes ∧
      (∀ (z : PcSlot) (l : Nat), State.slotOf t c.slotB = some z → z.waiting = false →
        z.mask.getLsbD l = true → m.getLsbD l = false → t.helper.getLsbD l = false →
        ∃ z', State.slotOf t' c.slotB = some z' ∧ z'.pos = c.nxt ∧ z'.waiting = false ∧
          ∀ k, t.helper.getLsbD k = false → (z'.mask.getLsbD k = true ↔ z.mask.getLsbD k = true ∧ m.getLsbD k = false))
    (Issues (.exit y) s c x → ∃ u t', exec (.exit y) s = .next u ∧ u.strand? h n = some t' ∧ u.mem = s.mem ∧ ends c.act t' ∧
      -- where the strand ends with them, its die's distributor looks for what now fits
      ∀ p, s.panel? h = some p → t.isOver = false → t'.isOver = true → .panelPlacement p.die ∈ u.inflight) ∧
    (Issues (.join y) s c x → c.mask &&& ~~~ c.helper &&& ~~~ c.act = 0 →
      (c.parts = [] ∨ t.join = .none ∨ t.join = .atExit → exec (.join y) s = .next (s.advance c)) ∧
      (∀ r, c.parts ≠ [] → t.join = .addr r → exec (.join y) s = .next ((s.issued c).modStrand h n fun t =>
        settle (State.setSlot t c.slotB ((State.slotOf t c.slotB).map fun z =>
          { z with pos := { pc := r, kind := .entered }, waiting := true }))))) ∧
    (Issues (.join y) s c x → c.parts ≠ [] → c.mask &&& ~~~ c.helper &&& ~~~ c.act ≠ 0 → Traps (.join y) s c { trap := .nonuniformJoin }) ∧
    (∀ hd p, Issues (.brsp y) s c x → s.checkTarget c.ex .brsp (immTarget c x.a) = .ok hd → s.panel? h = some p →
      s.released c.ex = true →
      let tk := condLanes c x.b &&& ~~~ c.helper
      tk ≠ 0 → p.records + (lanesOf tk).length ≤ 2048 → s.roomFor c.ex 2 (lanesOf tk).length = true →
      ∃ u p', ∃ rs : List SpawnRec, exec (.brsp y) s = .next u ∧ u.panel? h = some p' ∧ p'.records = p.records + (lanesOf tk).length ∧ u.mem = s.mem ∧
        (∃ t', u.strand? h n = some t' ∧ ends tk t') ∧
        -- the records: the target, the live main file and queue, O and the predicates of each lane
        (p'.spawn ++ p'.groups.flatten).Perm (p.spawn ++ p.groups.flatten ++ rs) ∧ rs.length = (lanesOf tk).length ∧
        ∀ (j l : Nat) (rec' : SpawnRec), (lanesOf tk)[j]? = some l → rs[j]? = some rec' →
          rec'.tgt = BitVec.ofNat 64 (immTarget c x.a) ∧ rec'.o = (c.lane l).o ∧ rec'.p = (c.lane l).p ∧
          ((c.lane l).q.length = 16 → ∀ k, k < 16 → rec'.q.getD k 0 = if k < Hdr.liveq hd then (c.lane l).qAt k else 0) ∧
          (SMap.rising (c.lane l).v = true → ∀ k, SMap.lookD rec'.v k 0 = if k < Hdr.livev hd then (c.lane l).vAt k else 0))

/-- On a bobbin EXIT completes with the bobbin ended and its walk closed; WALK opens a walk of the extents read; WNEXT delivers
an index not delivered before, packed by coordinates, or closes the exhausted walk and takes its branch, and traps with no walk
open; DQPUSH gives each live strand of the mask its decision bit. Which index WNEXT delivers is a free value (log 5). (R112,
R120, R122, R123, R124) -/
def Obligations.BobbinControl : Prop :=
  ∀ (s : State) (c : Cx) (x y : Args) (h : Nat) (p : Panel), c.ex = .bob h → s.panel? h = some p →
    (Issues (.exit y) s c x → ∃ u p', exec (.exit y) s = .next u ∧ u.panel? h = some p' ∧ p'.bob.isOver = true ∧ p'.bob.walk = none ∧
      p'.strands = p.strands ∧ u.mem = s.mem) ∧
    (∀ ws, Issues (.walk y) s c x → c.uni .w64 x.a % 8 = 0 → s.readWords c.ex (c.uni .w64 x.a) 4 = .ok ws →
      s.notYet c.ex (c.uni .w64 x.a) 32 (s.po c) = false → p.bob.walk = none →
      let X := (ws.getD 1 0).toNat % 2 ^ 32
      let Y := (ws.getD 1 0).toNat / 2 ^ 32 % 2 ^ 32
      let Z := (ws.getD 2 0).toNat % 2 ^ 32
      X < 2 ^ 20 → Y < 2 ^ 20 → Z < 2 ^ 20 →
      ∃ u, exec (.walk y) s = .next u ∧ u.mem = s.mem ∧
        u.panels = ((s.advance c).modBob h fun b => { b with walk := some { x := X, y := Y, z := Z, done := [] } }).panels) ∧
    -- an exhausted walk closes, and the branch is taken
    (∀ w hd, Issues (.wnext y) s c x → p.bob.walk = some w → (∃ n, x.d = .s n) → w.x * w.y * w.z ≤ w.done.length →
      s.checkTarget c.ex .branch (immTarget c x.a) = .ok hd →
      ∃ u b', exec (.wnext y) s = .next u ∧ (u.panel? h).map (·.bob) = some b' ∧ b'.walk = none ∧ u.mem = s.mem ∧
        b'.pos = { pc := BitVec.ofNat 64 (immTarget c x.a), kind := .entered } ∧ b'.thr.ss = p.bob.thr.ss) ∧
    (∀ (w : Walk) (n : BitVec 6), Issues (.wnext y) s c x → p.bob.walk = some w → x.d = .s n → w.done.length < w.x * w.y * w.z →
      ∃ k u b', exec (.wnext y) s = .next u ∧ (u.panel? h).map (·.bob) = some b' ∧
        b'.walk = some { w with done := insertSorted k w.done } ∧ u.mem = s.mem ∧
        (w.done.Pairwise (· < ·) → (∀ j ∈ w.done, j < w.x * w.y * w.z) → k ∉ w.done ∧ k < w.x * w.y * w.z) ∧
        (n.toNat < p.bob.thr.ss.length → b'.thr.ss.getD n.toNat 0 =
          BitVec.ofNat 64 (k % w.x + 2 ^ 20 * (k / w.x % w.y) + 2 ^ 40 * (k / (w.x * w.y))))) ∧
    (Issues (.wnext y) s c x → p.bob.walk = none → (∃ n, x.d = .s n) → Traps (.wnext y) s c { trap := .walkState }) ∧
    (let m := BitVec.ofNat 32 (c.uni .w64 x.a)
     Issues (.dqpush y) s c x → (∀ n ∈ lanesOf m, (SMap.look p.strands n).isSome = true) →
      (∀ e ∈ p.strands, m.getLsbD e.1 = true → e.2.isOver = false → e.2.dq.length < 32) →
      exec (.dqpush y) s = .next ((s.advance c).modPanel h fun q => { q with strands := q.strands.map (pushDecision m (c.uni .w64 x.b)) }))

/-- A management core loads the value of a device register and stores to one by that register's own step, which is put first on
the agenda (log 61, deduced), waits where the device stands behind another stop and the rings hold new injections, and any other
width traps with PHYS_RANGE; RED.ADD.ORD sends one request for each lane with its ordinal and contribution. LD, ST, ATOM, ATCAS,
RED and LDT whose policy is legal, whose ordering waits are over and whose lanes all pass their checks complete with one request
sent for each lane that passed, carrying its address, place and data, memory untouched until the request is performed, and a
load's or an atomic's results pending. (R48, R185, R189, R190, R191, R192, R194, R197, R212, R419, R420) -/
def Obligations.GlobalAccessesIssue : Prop :=
  ∀ (s : State) (c : Cx) (x y : Args) (pol : Pol), polOf (polRaw s c x) = pol → s.named → s.acquired c = true →
    -- with no active lane nothing is accessed
    (∀ i, ((∃ w, i = .ld .g w y) ∨ (∃ w, i = .st .g w y) ∨ (∃ op w, i = .atom op w y) ∨ (∃ w, i = .atcas w y) ∨ i = .ldt y) →
      Issues i s c x → c.any = false → exec i s = .next (s.advance c)) ∧
    (∀ op, Issues (.red op y) s c x → c.any = false → exec (.red op y) s = .next ((s.advance c).bumpSr c x.ar)) ∧
    -- a management core's access to a device register
    (∀ w r, Issues (.ld .g w y) s c x → c.act = 1 → c.helper = 0 → w = .b32 → polRaw s c x = 0 →
      deviceAddr c.ex (c.src .w64 x.a 0) = some r → r.2 % 4 = 0 → s.devThere r.1 r.2 = true →
      (s.rings.held = false ∨ devStop r.1 = (s.site c.ex).1) →
      ∃ t, exec (.ld .g w y) s = .next t ∧ Awaits s t c x .w32 ∧ t.mem = s.mem ∧ t.devRegs = s.devRegs ∧
        Comes s t c 0 (s.devRead r.1 r.2)) ∧
    (∀ w r, Issues (.st .g w y) s c x → c.act = 1 → c.helper = 0 → w = .b32 → polRaw s c x = 0 →
      deviceAddr c.ex (c.src .w64 x.a 0) = some r → r.2 % 4 = 0 → s.devThere r.1 r.2 = true →
      (s.rings.held = false ∨ devStop r.1 = (s.site c.ex).1) →
      exec (.st .g w y) s =
        .next { (s.advance c).crossCore (s.site c.ex).1 (s.site c.ex).2 (devStop r.1) with
          agenda := devStep r.1 r.2 (c.src .w32 x.b 0 % 2 ^ 32) :: (s.advance c).agenda }) ∧
    (∀ i w r, (i = .ld .g w y ∨ ∃ v, i = .st .g v y ∧ v.bytes = w.bytes) → Issues i s c x → c.act = 1 → c.helper = 0 → polRaw s c x = 0 →
      deviceAddr c.ex (c.src .w64 x.a 0) = some r → c.src .w64 x.a 0 % w.bytes = 0 → r.2 % 4 = 0 → w.bytes = 4 →
      s.devThere r.1 r.2 = true → s.rings.held = true → devStop r.1 ≠ (s.site c.ex).1 → Waits i s) ∧
    (∀ i w r, (i = .ld .g w y ∨ ∃ v, i = .st .g v y ∧ v.bytes = w.bytes) → Issues i s c x → c.act = 1 → c.helper = 0 → polRaw s c x = 0 →
      deviceAddr c.ex (c.src .w64 x.a 0) = some r → c.src .w64 x.a 0 % w.bytes = 0 → r.2 % 4 = 0 →
      (w.bytes ≠ 4 ∨ s.devThere r.1 r.2 = false) →
      Traps i s c { trap := .physRange, d0 := BitVec.ofNat 64 (c.src .w64 x.a 0) }) ∧
    -- an ordered RED sends one contribution for each lane
    (∀ op got, Issues (.red op y) s c x → c.any = true → op.ord = true →
      polOk (polRaw s c { x with c := .q 0 }) [0, 1, 3] = true →
      ((polOf (polRaw s c { x with c := .q 0 })).rel = true → s.released c.ex = true) →
      ((s.reqsOf c.ex).any fun r => r.2.refused) = false →
      checkLanes s c c.parts (fun l => globalPlace s c.ex (c.src .w64 x.a l) (redBytes op) .both) = .ok got →
      ∃ t, exec (.red op y) s = .next t ∧ t.mem = s.mem ∧
        ∀ l va pa pl, (l, some (va, pa, pl)) ∈ got → ∃ r seed replay first, NewReq s t r ∧ r.ex = c.ex ∧ r.lane = l ∧ r.st = .sent ∧
          r.op = .ord op x.ar seed replay (c.src .w32 x.c l) (contribOf c op.wd x (l, va, pa, pl)) first) ∧
    (c.any = true → (∀ l, deviceAddr c.ex (c.src .w64 x.a l) = none) →
    -- LD from global memory: one load for each lane whose checks passed
    (∀ w got, Issues (.ld .g w y) s c x → polOk (polRaw s c x) [0, 1, 2, 5] = true → (pol.acq = true → c.thr.async = none) →
      checkLanes s c (loadLanes c x.d) (fun l => globalPlace s c.ex (c.src .w64 x.a l) w.bytes .read) = .ok got →
      ∃ t, exec (.ld .g w y) s = .next t ∧ Awaits s t c x w.wd ∧ t.mem = s.mem ∧
        ∀ l va pa pl, (l, some (va, pa, pl)) ∈ got → ∃ r, NewReq s t r ∧ r.ex = c.ex ∧ r.pend = some s.nextId ∧ r.lane = l ∧
          r.op = .load w ∧ r.va = BitVec.ofNat 64 va ∧ r.win = pa ∧ r.n = w.bytes ∧
          -- to its home, or served by L1, where it is plain and its turn has come
          (r.place = pl ∧ r.st = .sent ∨ pol.order = 0 ∧ pol.bypass = 0 ∧ r.place = none ∧
            ∃ v, r.st = .data (extendLd w (sregOf x.d).isSome v) none ∧ (SMap.rising (s.l1Of (s.site c.ex).1 (s.site c.ex).2) = true →
              s.l1Get (s.site c.ex).1 (s.site c.ex).2 (State.gKey (s.site c.ex).2 (s.ctxOf c.ex) pa) (pa % 64) w.bytes = some v))) ∧
    -- ST to global memory: one store for each participating lane
    (∀ w got, Issues (.st .g w y) s c x → polOk (polRaw s c x) [0, 1, 3, 5] = true → (pol.rel = true → s.released c.ex = true) →
      checkLanes s c c.parts (fun l => globalPlace s c.ex (c.src .w64 x.a l) w.bytes .write) = .ok got →
      ∃ t, exec (.st .g w y) s = .next t ∧ t.mem = s.mem ∧
        ∀ l va pa pl, (l, some (va, pa, pl)) ∈ got → ∃ r, NewReq s t r ∧ r.ex = c.ex ∧ r.pend = none ∧ r.lane = l ∧
          r.op = .store (c.src w.wd x.b l % 2 ^ (8 * w.bytes)) ∧ r.va = BitVec.ofNat 64 va ∧ r.place = pl ∧ r.n = w.bytes ∧ r.st = .sent) ∧
    -- ATOM and ATCAS: one atomic for each participating lane, or one in all for an S destination
    (∀ w i rop got, (∃ op, i = .atom op w y ∧ (rop = fun l => ROp.atom op (c.src w x.b l))) ∨
        (i = .atcas w y ∧ rop = fun l => ROp.cas (c.src w x.d l) (c.src w x.b l)) →
      Issues i s c x → polOk (polRaw s c x) [0, 1, 2, 3, 4, 5] = true → (pol.acq = true → c.thr.async = none) →
      (pol.rel = true → s.released c.ex = true) →
      checkLanes s c (accessLanes x.d c.parts) (fun l => globalPlace s c.ex (c.src .w64 x.a l) (w.n / 8) .both) = .ok got →
      ∃ t, exec i s = .next t ∧ Awaits s t c x w ∧ t.mem = s.mem ∧
        ∀ l va pa pl, (l, some (va, pa, pl)) ∈ got → ∃ r, NewReq s t r ∧ r.ex = c.ex ∧ r.pend = some s.nextId ∧ r.lane = l ∧
          r.op = rop l ∧ r.va = BitVec.ofNat 64 va ∧ r.place = pl ∧ r.n = w.n / 8 ∧ r.st = .sent) ∧
    -- RED: one request with every contribution; an ordered one sends one for each lane
    (∀ op got, Issues (.red op y) s c x → op.ord = false → polOk (polRaw s c x) [0, 1, 3] = true →
      (pol.rel = true → s.released c.ex = true) → (plainFloatRed op = true → s.walkOpen c.ex = false) →
      checkLanes s c c.parts (fun l => globalPlace s c.ex (c.src .w64 x.a l) (redBytes op) .both) = .ok got →
      (∃ g, g ∈ got ∧ g.2.isSome = true) →
      ∃ t r, exec (.red op y) s = .next t ∧ t.mem = s.mem ∧ NewReq s t r ∧ r.ex = c.ex ∧ r.n = redBytes op ∧ r.st = .sent ∧
        ∃ seed replay, r.op = .red op x.ar seed replay
          ((got.filterMap fun g => g.2.map fun p => (g.1, p)).map (contribOf c op.wd x))) ∧
    -- LDT: one column for each lane
    (∀ got, Issues (.ldt y) s c x → c.uni .w64 x.b < 64 → polOk (polRaw s c x) [0, 1] = true →
      checkLanes s c (loadLanes c x.d) (fun l => ldtPlaces s c.ex (c.src .w64 x.a l) (c.uni .w64 x.b)) = .ok got →
      ∃ t, exec (.ldt y) s = .next t ∧ Awaits s t c x .w32 ∧ t.mem = s.mem ∧
        ∀ l pa n els, (l, some (pa, n, els)) ∈ got → ∃ r, NewReq s t r ∧ r.ex = c.ex ∧ r.pend = some s.nextId ∧ r.lane = l ∧
          r.op = .ldt n els ∧ r.st = .sent))

/-- LD and ST of the scratchpad spaces complete with the bytes read on their way to their lanes or stored in the panel's
scratchpad, global memory unchanged; LD of the Spool with one request for each lane, answered at once where the bank does not
refresh or L1 holds the word; ST to the Spool traps, whatever lanes are active; LDFE delivers the full words it reads to their
lanes and marks them empty, and STFE stores its lanes' words in empty words and marks them full. That an LDFE with an S
destination has one participant is the model's choice (log 103). (R174, R183, R189, R190, R198, R199) -/
def Obligations.LocalAccesses : Prop :=
  ∀ (s : State) (c : Cx) (x y : Args) (h : Nat) (p : Panel), c.ex.panel = some h → s.panel? h = some p → s.named → s.acquired c = true →
    (∀ z w got, (z = .sp ∨ z = .sw) → Issues (.ld z w y) s c x → c.any = true → polOk (polRaw s c x) [0, 1, 2, 5] = true →
      ((polOf (polRaw s c x)).acq = true → c.thr.async = none) →
      checkLanes s c (loadLanes c x.d) (fun l => s.spAccess c.ex (z == .sw) (c.src .w32 x.a l) w.bytes false) = .ok got →
      (∀ l q, (l, some q) ∈ got → s.spBusy false w.bytes q = false) →
      s.pointReady c ((polOf (polRaw s c x)).order == 5) w.bytes (got.filterMap (·.2)) = true →
      ∃ t, exec (.ld z w y) s = .next t ∧ Awaits s t c x w.wd ∧ t.mem = s.mem ∧
        ∀ l q, (l, some q) ∈ got → Comes s t c l (extendLd w (sregOf x.d).isSome (s.spVal q w.bytes))) ∧
    (∀ z w got, (z = .sp ∨ z = .sw) → Issues (.st z w y) s c x → c.any = true → polOk (polRaw s c x) [0, 1, 3, 5] = true →
      ((polOf (polRaw s c x)).rel = true → s.released c.ex = true) →
      checkLanes s c c.parts (fun l => s.spAccess c.ex (z == .sw) (c.src .w32 x.a l) w.bytes true) = .ok got →
      (∀ l q, (l, some q) ∈ got → s.spBusy true w.bytes q = false) →
      s.pointReady c ((polOf (polRaw s c x)).order == 5) w.bytes (got.filterMap (·.2)) = true →
      ∃ (t : State) (ps : List (Nat × SpLoc)), exec (.st z w y) s = .next t ∧ t.mem = s.mem ∧ ps.Perm (got.filterMap fun g => g.2.map fun q => (g.1, q)) ∧
        ∀ j, (t.panel? j).map (·.spad) = ((ps.foldl (fun u q => u.spPut q.2 w.bytes (c.src w.wd x.b q.1 % 2 ^ (8 * w.bytes))) s).panel? j).map (·.spad)) ∧
    (∀ w, Issues (.st .spool w y) s c x → Traps (.st .spool w y) s c { trap := .spoolStore }) ∧
    (∀ w got, Issues (.ld .spool w y) s c x → c.any = true → polOk (polRaw s c x) [0, 1, 2, 5] = true →
      ((polOf (polRaw s c x)).acq = true → c.thr.async = none) →
      checkLanes s c (loadLanes c x.d) (fun l => s.spoolPlace c.ex (c.src .w32 x.a l) w.bytes) = .ok got →
      s.pointReady c ((polOf (polRaw s c x)).order == 5) 0 [] = true →
      ∃ t, exec (.ld .spool w y) s = .next t ∧ Awaits s t c x w.wd ∧ t.mem = s.mem ∧
        ∀ l d off, (l, some (d, off)) ∈ got → ∃ r, NewReq s t r ∧ r.ex = c.ex ∧ r.pend = some s.nextId ∧ r.lane = l ∧
          -- from the bank, at once where it does not refresh, or, where it is plain, from L1
          (r.op = .spool w d off ∧ (s.spoolWaits (s.site c.ex).1 d off = true → r.st = .sent) ∧
              (s.spoolWaits (s.site c.ex).1 d off = false →
                r.st = .data (extendLd w (sregOf x.d).isSome (Memory.read (s.die d).spool off w.bytes)) none) ∨
            (polOf (polRaw s c x)).order = 0 ∧ (polOf (polRaw s c x)).bypass = 0 ∧ r.op = .spool w (s.site c.ex).1 off ∧ ∃ v, r.st = .data v none)) ∧
    (∀ got, Issues (.ldfe y) s c x → c.parts ≠ [] → c.thr.async = none →
      checkLanes s c (accessLanes x.d c.parts) (fun l => s.spPlace c.ex false (c.src .w32 x.a l) 4) = .ok got →
      checkLanes s c (accessLanes x.d c.parts) (fun l => s.spAccess c.ex false (c.src .w32 x.a l) 4 false) = .ok got →
      dupLane (got.filterMap fun g => g.2.map fun q => (g.1, q)) = none → s.pointReady c false 4 (got.filterMap (·.2)) = true →
      (∀ l q, (l, some q) ∈ got → s.spBusy false 4 q = false ∧ p.isFull q.off = true) →
      -- each word is delivered to its lane, 0 to a helper, and marked empty
      ∃ v full, exec (.ldfe y) s = .next (((s.advance c).modPanel h fun q => { q with full := full }).writeVec c .w32 x.d v) ∧
        (∀ l q, (l, some q) ∈ got → v l = s.spVal q 4 ∧ (sregOf x.d ≠ none → v c.low = s.spVal q 4)) ∧
        (sregOf x.d = none → ∀ l, (∀ q, (l, some q) ∉ got) → v l = 0) ∧
        ∀ k, full.contains k = true ↔ p.full.contains k = true ∧ ∀ l q, (l, some q) ∈ got → k ≠ q.off / 4) ∧
    (∀ got, s.spadsOk → Issues (.stfe y) s c x → c.parts ≠ [] → s.released c.ex = true →
      checkLanes s c c.parts (fun l => s.spPlace c.ex false (c.src .w32 x.a l) 4) = .ok got →
      checkLanes s c c.parts (fun l => s.spAccess c.ex false (c.src .w32 x.a l) 4 true) = .ok got →
      dupLane (got.filterMap fun g => g.2.map fun q => (g.1, q)) = none → s.pointReady c false 4 (got.filterMap (·.2)) = true →
      (∀ l q, (l, some q) ∈ got → s.spBusy true 4 q = false ∧ p.isFull q.off = false) →
      ∃ t q', exec (.stfe y) s = .next t ∧ t.mem = s.mem ∧ t.panel? h = some q' ∧
        -- each word is stored and marked full, and no other byte changes
        (∀ l q, (l, some q) ∈ got → t.spVal q 4 = c.src .w32 x.b l % 2 ^ 32) ∧
        (∀ a, (∀ l q, (l, some q) ∈ got → a < q.off ∨ q.off + 4 ≤ a) → Memory.byte q'.spad a = Memory.byte p.spad a) ∧
        ∀ k, q'.full.contains k = true ↔ p.full.contains k = true ∨ ∃ l q, (l, some q) ∈ got ∧ k = q.off / 4)

/-- BTSET completes with its entry written in the context's table, on every die of the context, and every other entry kept, or
traps with CTX_STATE on a management core whose slot is in no state for it; it waits where the table's copy on another die is
out of reach; PREF, CINV and CFLUSH leave memory as it reads; CINV of length 0 empties the core's L1; after CFLUSH the lines of
its range, their dirty bytes written back, are in no L2, and the other lines are where they were; SPRQ and PGQ send each lane
the description of its address. A page walk that one of them makes, and a line that CFLUSH writes back, must be within reach.
That BTSET changes the table of every die in one step is the model's choice (log 41), and the state number in CTX_STATE's detail
is deduced (log 37). (R196, R200, R201, R202, R203, R462) -/
def Obligations.CachesAndQueries : Prop :=
  ∀ (s : State) (c : Cx) (x y : Args), c.any = true → s.named →
    (Issues (.btset y) s c x → (∀ m, c.ex = .mgt m → (s.ctx m (s.ctxOf c.ex)).st ∈ [CtxSt.loaded, .preparing, .saved]) →
      (s.rings.held = true → ∀ k ∈ s.holders (s.site c.ex).1 (s.ctxOf c.ex), k = (s.site c.ex).1) →
      ∃ t, exec (.btset y) s = .next t ∧ t.mem = s.mem ∧
        (let e := (t.ctx (s.site c.ex).1 (s.ctxOf c.ex)).bias
         SMap.rising (s.ctx (s.site c.ex).1 (s.ctxOf c.ex)).bias = true →
          SMap.lookD e (c.uni .w64 x.a % 64) 0 = BitVec.ofNat 64 (c.uni .w64 x.b) ∧
          ∀ j, j ≠ c.uni .w64 x.a % 64 → SMap.lookD e j 0 = SMap.lookD (s.ctx (s.site c.ex).1 (s.ctxOf c.ex)).bias j 0) ∧
        -- the context has one table, whichever of its dies reads it
        ∀ k, k ∈ s.dmap (s.site c.ex).1 (s.ctxOf c.ex) →
          (s.ctx k (s.ctxOf c.ex)).st ∈ [CtxSt.preparing, .loaded, .saving, .saved] →
          SMap.rising (s.ctx k (s.ctxOf c.ex)).bias = true →
          SMap.lookD (t.ctx k (s.ctxOf c.ex)).bias (c.uni .w64 x.a % 64) 0 = BitVec.ofNat 64 (c.uni .w64 x.b)) ∧
    -- another die's copy waits for the rings
    (∀ k, Issues (.btset y) s c x → (∀ m, c.ex = .mgt m → (s.ctx m (s.ctxOf c.ex)).st ∈ [CtxSt.loaded, .preparing, .saved]) →
      s.rings.held = true → k ∈ s.holders (s.site c.ex).1 (s.ctxOf c.ex) → k ≠ (s.site c.ex).1 → Waits (.btset y) s) ∧
    (Issues (.btset y) s c x → ∀ m, c.ex = .mgt m → (s.ctx m (s.ctxOf c.ex)).st ∉ [CtxSt.loaded, .preparing, .saved] →
      Traps (.btset y) s c { trap := .ctxState, d0 := BitVec.ofNat 64 (s.ctx m (s.ctxOf c.ex)).st.n }) ∧
    (Issues (.pref y) s c x → polOk (polRaw s c x) [0] = true → s.acquired c = true →
      (∀ l ∈ lanesOf c.act, s.peekHeld c.ex (c.src .w64 x.a l) = false) →
      ∃ t, exec (.pref y) s = .next t ∧ t.mem = s.mem ∧ t.reqs = s.reqs ∧ t.panels = (s.advance c).panels) ∧
    (∀ i f, (i = .sprq y ∧ (f = fun l => sprqVal s.time.toNat (c.src .w32 x.a l)) ∨
        i = .pgq y ∧ (f = fun l => s.pgqVal c.ex (c.src .w64 x.a l)) ∧
          ∀ l ∈ knownLanes c x, s.peekHeld c.ex (c.src .w64 x.a l) = false) → Issues i s c x →
      ∃ t, exec i s = .next t ∧ Awaits s t c x .w32 ∧ t.mem = s.mem ∧
        (sregOf x.d = none → ∀ l, l < 32 → c.act.getLsbD l = true → c.dead.getLsbD l = false → Comes s t c l (f l)) ∧
        (sregOf x.d ≠ none → Comes s t c c.low (f c.low))) ∧
    (Issues (.cinv y) s c x → (∀ q ∈ rangePages (c.uni .w64 x.a) (c.uni .w64 x.b), s.peekHeld c.ex q.1 = false) →
      ∃ t, exec (.cinv y) s = .next t ∧ t.mem = s.mem ∧
      (c.uni .w64 x.b = 0 → t.l1Of (s.site c.ex).1 (s.site c.ex).2 = []) ∧
      -- nothing enters the L1, and no sector that holds a byte of the range stays
      ∀ e ∈ t.l1Of (s.site c.ex).1 (s.site c.ex).2, e ∈ s.l1Of (s.site c.ex).1 (s.site c.ex).2 ∧
        ∀ q ∈ s.pieces c.ex (c.uni .w64 x.a) (c.uni .w64 x.b), ∀ a, q.1 ≤ a → a < q.2 →
          e.1 ≠ State.gKey (s.site c.ex).2 (s.ctxOf c.ex) a) ∧
    (Issues (.cflush y) s c x → (∀ q : Place, s.chanHeld q = false) →
      (∀ n r q, s.placeHeld (s.site c.ex).1 n r q = false) →
      ∃ t, exec (.cflush y) s = .next t ∧ t.mem = s.mem ∧ t.reqs = s.reqs ∧
        -- no line that holds a byte of the range stays in its home's L2; every other one does
        (∀ q ∈ s.pieces c.ex (c.uni .w64 x.a) (c.uni .w64 x.b), ∀ a p, a % 256 = 0 → q.1 < a + 256 → a < q.2 →
          s.resolve c.ex a = .at' p → SMap.rising (s.die (s.dieKey p)).l2 = true → t.l2Line p = none) ∧
        ∀ p : Place, SMap.rising (s.die (s.dieKey p)).l2 = true → (∀ q ∈ s.pieces c.ex (c.uni .w64 x.a) (c.uni .w64 x.b), ∀ a p', a % 256 = 0 → q.1 < a + 256 → a < q.2 →
            s.resolve c.ex a = .at' p' → s.dieKey p' ≠ s.dieKey p ∨ p'.byte / 256 ≠ p.byte / 256) → t.l2Line p = s.l2Line p)

/-- FENCE completes once what its policy waits for of the accesses of its slot's lineage is over, an SC one once the stamp that
it took is safe, with L1 emptied by an acquire beyond panel scope, and an illegal policy traps; while a contribution of its
executor is refused it waits; DRAIN completes once every access of its executor is complete, else waits, and takes a recorded
asynchronous trap; WFENCE drops the global sectors of L1; SCTS returns the stamp of the latest SC operation of the issuing
slot's lineage. (R194, R225, R226, R227, R228) -/
def Obligations.OrderingForms : Prop :=
  ∀ (s : State) (c : Cx) (x y : Args), c.any = true → s.named →
    (Issues (.fence y) s c x → let p := polOf (polRaw s c x)
      fencePolOk (polRaw s c x) = true →
      s.accepted c.ex = true → (p.rel = true → s.releasedIn c = true) → (p.acq = true → s.returned c = true) → c.thr.async = none →
      (p.order = 5 → s.pointSafe c = true) →
      ∃ t, exec (.fence y) s = .next t ∧ t.mem = s.mem ∧ (p.order ≠ 5 → t.reqs = s.reqs) ∧
        -- the stamp that an SC one held goes, and is the latest of its slot's lineage
        (p.order = 5 → ∀ k r, s.pointReq c = some (k, r) → t.reqs = SMap.del s.reqs k) ∧
        (∀ h n z, p.order = 5 → c.ex = .str h n → s.slot? c = some z →
          t.slot? c = some { z with pos := c.nxt, stamp := (c.point.map (·.2)).getD (s.lcOf c.ex) }) ∧
        (p.acq = true → 2 ≤ p.scope → (∀ m, c.ex ≠ .mgt m) →
          (t.core (State.coreKey (s.site c.ex).1 (s.site c.ex).2)).l1 = [])) ∧
    -- an SC FENCE takes its stamp first, and waits until the stamp is safe
    (Issues (.fence y) s c x → fencePolOk (polRaw s c x) = true → (polOf (polRaw s c x)).order = 5 →
      s.accepted c.ex = true → s.releasedIn c = true → s.returned c = true → c.thr.async = none →
      (s.pointReq c = none → ∃ t r, exec (.fence y) s = .next t ∧ t.mem = s.mem ∧ NewReq s t r ∧ r.ex = c.ex ∧ r.op = .point ∧
        r.stamp = some (s.stampOf c.ex)) ∧
      (s.pointReq c ≠ none → s.pointSafe c = false → Waits (.fence y) s)) ∧
    (Issues (.fence y) s c x → c.parts ≠ [] → fencePolOk (polRaw s c x) = false →
      Traps (.fence y) s c { trap := .policyInvalid, d0 := BitVec.ofNat 64 (polRaw s c x) }) ∧
    (Issues (.fence y) s c x → (polOf (polRaw s c x)).rel = true → fencePolOk (polRaw s c x) = true → s.releasedIn c = false →
      Waits (.fence y) s) ∧
    (Issues (.fence y) s c x → fencePolOk (polRaw s c x) = true → s.accepted c.ex = false → Waits (.fence y) s) ∧
    (Issues (.drain y) s c x → s.drained c.ex = true → c.thr.async = none → exec (.drain y) s = .next (s.advance c)) ∧
    (Issues (.drain y) s c x → s.drained c.ex = false → Waits (.drain y) s) ∧
    (∀ f, Issues (.drain y) s c x → s.drained c.ex = true → c.thr.async = some f → exec (.drain y) s = asyncOut s c f) ∧
    (Issues (.wfence y) s c x → s.acked c = true → ∃ t, exec (.wfence y) s = .next t ∧ t.mem = s.mem ∧ t.reqs = s.reqs ∧
      ∀ e ∈ t.l1Of (s.site c.ex).1 (s.site c.ex).2, 2 ^ 60 ≤ e.1) ∧
    (Issues (.scts y) s c x → ((s.reqsIn c).any fun r => r.2.stamp.isSome && r.2.unperformed) = false →
      exec (.scts y) s = .next ((s.advance c).writeVec c .w64 x.d fun _ => (s.lastStamp c).toNat))

/-- A request that may be performed, at a place with no uncorrectable error, is performed as one event: a load takes the bytes'
value, a store writes its bytes, an atomic returns the old value and writes the operation's result, a compare-and-swap writes
only where the old value matched; every other byte of memory reads as before. A read that meets an uncorrectable error answers
DATA_ERROR, and a request that another package denies REMOTE_DENIED; the sector an atomic touches leaves its core's L1 in each
case; an acquire at swatch scope or wider empties its core's L1 with the answer, whatever it is. A store of another package is
performed at the place this package's die map gives it, and where it is denied nothing is stored and the fault log of the die it
names receives REMOTE_DENIED with its origin, or is marked as overflown where it is full. That the detail words of REMOTE_DENIED
are the virtual address and the 64-bit PC is the model's choice (log 16), and so are the die, the byte and the free values of
the entry of a denied store whose address names no die here (log 79). (R30, R176, R179, R180, R189, R190, R191, R209, R349,
R400) -/
def Obligations.HomePerforms : Prop :=
  ∀ (s : State) (id : Nat) (r : Req), SMap.look s.reqs id = some r → s.memOk →
    -- a store of another package, where it is permitted and where it is denied
    (∀ o v, r.src = some o → r.op = .store v → s.homeReady id (s.received r) = true →
      (∀ p, s.farPlace o r.ctx r.win = some p → s.groupBad p = false → ∃ t, exec (.homeL2Access id) s = .next t ∧
        Memory.read t.mem p.key r.n = v % 256 ^ r.n ∧ t.cores = s.cores ∧
        ∀ a, (a < p.key ∨ p.key + r.n ≤ a) → Memory.byte t.mem a = Memory.byte s.mem a) ∧
      (s.farPlace o r.ctx r.win = none →
        -- the die and the byte that the address names: of the linear window, or of the slot's die map; free where there is none (log 79)
        let m := if o.core = 0x7F then List.range 16 else s.farMap r.ctx
        let h := if Word.bit r.win 41 = true ∧ m = [] then (Config.pick s.free % 16, Config.pick (s.free + 1) % 2 ^ 37)
          else homeOf r.win m.length
        let d := m.getD h.1 (h.1 % 16)
        ∃ t, exec (.homeL2Access id) s = .next t ∧ t.mem = s.mem ∧ t.cores = s.cores ∧
        (256 ≤ (s.die d).flog.entries.length → (t.die d).flog = { (s.die d).flog with ovf := true }) ∧
        ((s.die d).flog.entries.length < 256 → ∃ e, (t.die d).flog = { (s.die d).flog with entries := (s.die d).flog.entries ++ [e] } ∧
          e.code = Trap.remoteDenied.code ∧ e.cls = 0 ∧ e.pkg = o.pkg ∧ e.vdie = o.vdie ∧ e.core = o.core ∧ e.strand = o.strand ∧
          e.panel = o.panel ∧ e.pc = r.pc ∧ e.addr = BitVec.ofNat 64 (s.pkg * 2 ^ 41 + h.1 * 2 ^ 37 + h.2) ∧ e.time = s.time))) ∧
    -- an atomic, whatever comes of it, leaves nothing of its sector in its core's L1
    (r.src = none → s.homeReady id r = true → ((∃ op b, r.op = .atom op b) ∨ ∃ b v, r.op = .cas b v) →
      SMap.rising (s.l1Of r.socket r.core) = true → ∃ t, exec (.homeL2Access id) s = .next t ∧
        SMap.look (t.l1Of r.socket r.core) (State.gKey r.core r.ctx r.win) = none) ∧
    -- a request of this package that another one denies
    (r.src = none → r.place = none → s.homeReady id r = true →
      (((∃ w, r.op = .load w) ∨ (∃ op b, r.op = .atom op b) ∨ ∃ b v, r.op = .cas b v) → ∃ t r', exec (.homeL2Access id) s = .next t ∧
        t.mem = s.mem ∧ SMap.look t.reqs id = some r' ∧ r'.st = .data 0 (some { trap := .remoteDenied, d0 := r.va, d1 := r.pc })) ∧
      (∀ v, r.op = .store v → ∃ t r', exec (.homeL2Access id) s = .next t ∧ t.mem = s.mem ∧ SMap.look t.reqs id = some r' ∧
        r'.st = .ack (some { trap := .remoteDenied, d0 := r.va, d1 := r.pc }))) ∧
    -- this package's own requests
    (∀ p : Place, r.src = none → r.place = some p → s.homeReady id r = true → s.unreachable p.pkg = false →
    let emptied (t : State) : Prop := r.acq = true → 2 ≤ r.scope → t.l1Of r.socket r.core = []
    (∀ w, r.op = .load w → s.badIn p r.n = false → ∃ t r', exec (.homeL2Access id) s = .next t ∧ t.mem = s.mem ∧
      SMap.look t.reqs id = some r' ∧ r'.st = .data (extendLd w r.s64 (s.readAt p r.n)) none ∧ emptied t) ∧
    (((∃ w, r.op = .load w) ∨ (∃ op b, r.op = .atom op b) ∨ ∃ b v, r.op = .cas b v) → s.badIn p r.n = true → s.l2Has p r.n = false →
      ∃ t r', exec (.homeL2Access id) s = .next t ∧ t.mem = s.mem ∧ SMap.look t.reqs id = some r' ∧
        r'.st = .data 0 (some { trap := .dataError, d0 := r.va }) ∧ emptied t) ∧
    -- outside the bytes a write stores, every byte of memory reads as before
    (s.groupBad p = false → s.badIn p r.n = false →
    (∀ v, r.op = .store v → ∃ t r', exec (.homeL2Access id) s = .next t ∧ SMap.look t.reqs id = some r' ∧ r'.st = .ack none ∧
      Memory.read t.mem p.key r.n = v % 256 ^ r.n ∧
      ∀ a, (a < p.key ∨ p.key + r.n ≤ a) → Memory.byte t.mem a = Memory.byte s.mem a) ∧
    (∀ op b, r.op = .atom op b → ∃ t r', exec (.homeL2Access id) s = .next t ∧ SMap.look t.reqs id = some r' ∧
      r'.st = .data (s.readAt p r.n) none ∧ emptied t ∧
      Memory.read t.mem p.key r.n = atomVal op (8 * r.n) (s.readAt p r.n) b % 256 ^ r.n ∧
      ∀ a, (a < p.key ∨ p.key + r.n ≤ a) → Memory.byte t.mem a = Memory.byte s.mem a) ∧
    (∀ old new, r.op = .cas old new → ∃ t r', exec (.homeL2Access id) s = .next t ∧ SMap.look t.reqs id = some r' ∧
      r'.st = .data (s.readAt p r.n) none ∧ emptied t ∧
      (s.readAt p r.n = old → Memory.read t.mem p.key r.n = new % 256 ^ r.n) ∧ (s.readAt p r.n ≠ old → t.mem = s.mem) ∧
      ∀ a, (a < p.key ∨ p.key + r.n ≤ a) → Memory.byte t.mem a = Memory.byte s.mem a)))

/-- RED_APPLY acknowledges its request after applying every contribution, changes no byte outside the contributions' elements,
and takes each element through its contributions in ascending lane order: integer sums wrap, floating sums are exact and rounded
once with the element's own rnd under SR, minima and maxima keep one of the two. ORDINAL_ARRIVAL waits while the slice's table
is full, discards a stale contribution with ORDINAL_STALE, refuses one 64 or more ahead, holds one that is early, and applies
the next in turn and what follows it, freeing the record after the last; ORDINAL_RETRY sends a refused one again. (R192, R193,
R194, R195) -/
def Obligations.ReductionsApply : Prop :=
  ∀ (s : State) (id : Nat) (r : Req), SMap.look s.reqs id = some r → r.src = none → s.homeReady id r = true → s.memOk →
    (∀ op ar seed replay cs, r.op = .red op ar seed replay cs →
      ∃ t r', exec (.redApply id) s = .next t ∧ SMap.look t.reqs id = some r' ∧ (∃ f, r'.st = .ack f) ∧
        (∀ a, (∀ k p, k ∈ cs → k.place = some p → a < p.key ∨ p.key + redBytes op ≤ a) → Memory.byte t.mem a = Memory.byte s.mem a) ∧
        -- at good places each element takes its contributions one after another, in ascending lane order, with one gen for each line
        (let n := redBytes op
         (∀ k ∈ cs, ∃ p, k.place = some p ∧ p.key % n = 0 ∧ p.byte < 2 ^ 37 ∧ p.socket < 16 ∧ s.unreachable p.pkg = false) → s.badEcc = [] →
          r'.st = .ack none ∧ ∀ a, a % n = 0 →
            let ks := cs.filter fun k => k.place.map Place.key == some a
            ∃ vs : List Nat, vs.length = ks.length + 1 ∧ vs[0]? = some (Memory.read s.mem a n) ∧
              vs[ks.length]? = some (Memory.read t.mem a n) ∧
              ∀ (j : Nat) k p e e', ks[j]? = some k → k.place = some p → vs[j]? = some e → vs[j + 1]? = some e' →
                RedStep op ar (SideRnd replay seed p.canon ((((s.l2Line p).map (·.gen.toNat)).getD 0 + 1) % 2 ^ 16)) k e e')) ∧
    (∀ op ar seed replay o k first, r.op = .ord op ar seed replay o k first → ∃ t, exec (.ordinalArrival id) s = .next t ∧
      ((s.reqs.all fun q => match q.2.op with | .ord _ _ _ _ _ _ _ => q.1 == id | _ => true) = true →
        ∀ a, (∀ p, k.place = some p → a < p.key ∨ p.key + redBytes op ≤ a) → Memory.byte t.mem a = Memory.byte s.mem a)) ∧
    -- ORDINAL_ARRIVAL by the element's record: N is its next sequence number, q the contribution's
    (∀ op ar seed replay o k first p, r.op = .ord op ar seed replay o k first → k.place = some p →
      let dk := s.dieKey p
      let n := redBytes op
      let R := SMap.look (s.die dk).ords p.byte
      let N := (R.map (·.next)).getD 0
      let held := (R.map (·.held)).getD []
      let q := o % 2 ^ 31
      let used := ((s.die dk).ords.filter fun z => sliceOf (z.1 / 256) == sliceOf (p.byte / 256)).length
      let new (t : State) : Option OrdRec := SMap.look (t.die dk).ords p.byte
      let st (t : State) (i : Nat) : Option RSt := (SMap.look t.reqs i).map (·.st)
      let rnd (g : Nat) : Nat := SideRnd replay seed p.canon g
      let good : Prop := s.unreachable p.pkg = false ∧ s.badEcc = [] ∧ op.ord = true
      (R = none → 8192 ≤ used → exec (.ordinalArrival id) s = .next (s.post (.ordinalArrival id))) ∧
      ((q < N ∨ ∃ h ∈ held, h.1 % 2 ^ 31 = q) → R ≠ none → ∃ t, exec (.ordinalArrival id) s = .next t ∧ t.mem = s.mem ∧ new t = R ∧
        st t id = some (.ack (some { trap := .ordinalStale, d0 := k.va, d1 := BitVec.ofNat 64 (o * 2 ^ 32) }))) ∧
      ((R = none → used < 8192) → (∀ h ∈ held, h.1 % 2 ^ 31 ≠ q) →
        (N + 64 ≤ q → ∃ t r', exec (.ordinalArrival id) s = .next t ∧ t.mem = s.mem ∧ SMap.look t.reqs id = some r' ∧
          r'.refused = true ∧ r'.st = r.st ∧ .ordinalRetry id ∈ t.inflight) ∧
        (N < q → q < N + 64 → (∀ h ∈ held, h.1 % 2 ^ 31 ≠ N) → ∃ t, exec (.ordinalArrival id) s = .next t ∧ t.mem = s.mem ∧
          st t id = some .held ∧ (new t).map (·.next) = some N ∧ (new t).map (·.held) = some (held ++ [(o, id, 0)])) ∧
        -- the next in turn is applied, and the record is freed by the last
        (q = N → held = [] → good → ∃ t, exec (.ordinalArrival id) s = .next t ∧ st t id = some (.ack none) ∧
          RedStep op ar (rnd (N + 1)) k (Memory.read s.mem p.key n) (Memory.read t.mem p.key n) ∧
          (Word.bit o 31 = true → SMap.rising (s.die dk).ords = true → new t = none) ∧
          (Word.bit o 31 = false → (new t).map (·.next) = some (N + 1) ∧ (new t).map (·.held) = some [])) ∧
        -- and what it makes the next in turn is applied after it
        (∀ op2 ar2 seed2 replay2 o2 k2 first2 id2 r2, q = N → Word.bit o 31 = false → good → held = [(o2, id2, 0)] →
          o2 % 2 ^ 31 = N + 1 → id2 ≠ id → SMap.look s.reqs id2 = some r2 → r2.src = none → r2.op = .ord op2 ar2 seed2 replay2 o2 k2 first2 →
          k2.place = some p → op2.ord = true → redBytes op2 = n →
          ∃ t e, exec (.ordinalArrival id) s = .next t ∧ st t id = some (.ack none) ∧ st t id2 = some (.ack none) ∧
            RedStep op ar (rnd (N + 1)) k (Memory.read s.mem p.key n) e ∧
            RedStep op2 ar2 (SideRnd replay2 seed2 p.canon (N + 2)) k2 e (Memory.read t.mem p.key n)))) ∧
    (r.refused = true → exec (.ordinalRetry id) s = .next (s.post (.ordinalArrival id)))

/-- PENDING_FILL writes the value (0 where the access failed) to the pending register and changes no other register or lane;
WRITE_ACK drops its request, recording a failure for its executor; an L2 eviction changes no byte of memory; SPOOL_REFRESH
serves every load that waited for the bank and whose die can be reached; a page walk that one of the 32 walkers takes fills the
TLBs of its waiters or records its failure for them. (R31, R48, R180, R185, R222, R386, R398) -/
def Obligations.MemoryReturns : Prop :=
  ∀ s : State,
    -- PENDING_FILL: the register and the queue entry receive the value, and the request is gone
    (∀ id r p v f h i t q z n, SMap.look s.reqs id = some r → r.st = .data v f → r.pend = some p → r.ex = .str h i →
      s.strand? h i = some t → t.thr.pends.find? (fun q => q.id == p) = some q → q.sreg = none →
      q.lanes.find? (fun z => z.lane == r.lane && !z.bad) = some z → z.reg = some (.v n) → n < 1023 → r.lane < 32 → r.lane < t.lanes.length →
      SMap.rising (t.lanes.getD r.lane {}).v = true →
      ∃ u t', exec (.pendingFill id) s = .next u ∧ u.reqs = SMap.del s.reqs id ∧ u.mem = s.mem ∧ u.strand? h i = some t' ∧
        let val := if f.isSome then 0 else v
        let lane := t'.lanes.getD r.lane {}
        lane.vAt n = BitVec.ofNat 32 val ∧ (q.wide = true → lane.vAt (n + 1) = BitVec.ofNat 32 (val / 2 ^ 32)) ∧
        (∀ l, l ≠ r.lane → t'.lanes.getD l {} = t.lanes.getD l {}) ∧
        (∀ k, k ≠ n → (q.wide = true → k ≠ n + 1) → lane.vAt k = (t.lanes.getD r.lane {}).vAt k)) ∧
    -- WRITE_ACK: silent, or recorded for its executor
    (∀ id r f, SMap.look s.reqs id = some r → r.st = .ack f →
      (f = none → exec (.writeAck id) s = .next ((s.hearBack r).dropReq id)) ∧
      (∀ x, f = some x → r.src = none → s.alive r.ex id = true →
        exec (.writeAck id) s = .next (((s.hearBack r).dropReq id).recordAsync r.ex x))) ∧
    -- L2_EVICTION: the line goes, and no byte of memory changes
    (∀ line l, SMap.look (s.die (line / 2 ^ 29)).l2 (line % 2 ^ 29) = some l → l.dirty = 0 →
      ∃ u, exec (.l2Eviction line) s = .next u ∧ u.mem = s.mem ∧ u.reqs = s.reqs ∧
        (u.die (line / 2 ^ 29)).l2 = SMap.del (s.die (line / 2 ^ 29)).l2 (line % 2 ^ 29)) ∧
    -- SPOOL_REFRESH: once the bank is over its refresh, the loads that waited have their values
    (∀ bank, s.refreshing bank = false → SMap.rising s.reqs = true →
      ∃ u, exec (.spoolRefresh bank) s = .next u ∧ u.mem = s.mem ∧
        ∀ id r w d off, SMap.look s.reqs id = some r → r.src = none → r.op = .spool w d off → r.unperformed = true → Word.bits off 12 8 = bank →
          s.spoolWaits r.socket d off = false →
          ∃ r', SMap.look u.reqs id = some r' ∧ r'.st = .data (extendLd w r.s64 (Memory.read (s.die d).spool off r.n)) none) ∧
    -- PAGE_WALK: a leaf stands in the TLBs of those who wait, a failure is recorded for them
    (∀ d x w, (s.die d).walks.find? (fun w => w.ctx == x / 2 ^ 41 && w.page == x % 2 ^ 41) = some w → w.stale = false →
      (s.die d).walks.findIdx (fun w => w.ctx == x / 2 ^ 41 && w.page == x % 2 ^ 41) < 32 → s.walkHeld d (x / 2 ^ 41) (x % 2 ^ 41) = false →
      ∃ u, exec (.pageWalk d x) s = .next u ∧ u.mem = s.mem ∧ u.reqs = s.reqs ∧
        (∀ lf, s.walk d (x / 2 ^ 41) (x % 2 ^ 41) = .inr lf → ∀ e ∈ w.waiters,
          lf ∈ (u.core (State.coreKey d (s.site e).2)).tlb ∧ lf ∈ (u.die d).tlb) ∧
        (∀ lv, s.walk d (x / 2 ^ 41) (x % 2 ^ 41) = .inl lv → ∀ e ∈ w.waiters, ∀ v, u.thr? e = some v →
          (x % 2 ^ 41, lv) ∈ v.walkFails))

/-- CPY, CPYG and CPYM complete at issue with their slice recorded in its copy, which starts when no member is missing, and trap
where a lane is left out or the descriptor is refused; COPY_COMPLETE waits for older conflicting entries, orders its outer
indices and their elements, moves one element in each step (log 32, deduced) between the place of its far address and
scratchpad, from the Spool, within global memory or by the Bias Reader's stride, with nothing else in memory changed, and at its
end credits its knot with the bytes written or sends its join decrement; COPY_FAULT poisons its entries and records COPY_FAULT
for each member still alive. The word and field in the detail of COPY_DESC are deduced (log 19), and so is the word of
BIAS_FAULT, the bias index in its low half (log 18); that a far address is taken mod 2⁶⁴ is the model's choice (log 108). (R215,
R231, R232, R239, R242, R243, R244, R245, R246, R247, R248, R249) -/
def Obligations.CopiesArriveAndComplete : Prop :=
  ∀ (s : State) (c : Cx) (x y : Args) (h : Nat) (p : Panel) (i : Instr) (f : CpyForm) (dests : List Nat),
    (i = .cpy y ∧ f = .cpy ∨ i = .cpyg y ∧ f = .cpyg ∨ i = .cpym y ∧ f = .cpym) → c.ex.panel = some h → s.panel? h = some p →
    let d : CDesc := (List.range 16).map fun n => BitVec.ofNat 64 (c.s ((sregOf x.c).getD 0 + n))
    let lo := c.uni .w32 x.a
    let cnt := c.uni .w32 x.b
    -- a slice that passes every check joins its copy, which starts when nothing is missing
    (Issues i s c x → soleIssuer s c = true → descFault f d lo cnt = none →
      (f = .cpym → mcastDests s p d.mask = some dests) → (f ≠ .cpym → dests = [h]) → copyAddrTraps s c.ex f d dests = [] →
      (∀ z ∈ s.copies, z.2.panel = h → z.2.bobSeq = !c.ex.isStrand → z.2.k = c.thr.copySeq → z.2.form = f ∧ z.2.d = d) →
      copyPoison s (copyRegs s d dests) = none → s.acquired c = true → s.released c.ex = true →
      (∀ r ∈ copyRegs s d dests, (s.sbFree r.1).isSome = true) →
      ∃ t id z, exec i s = .next t ∧ t.mem = s.mem ∧ t.reqs = s.reqs ∧ SMap.look t.copies id = some z ∧ z.form = f ∧ z.d = d ∧
        z.panel = h ∧ (c.ex, c.pc, lo, if c.any then cnt else 0) ∈ z.slices ∧ (∀ j n, c.ex = .str j n → n ∉ z.missing) ∧
        (z.missing = [] → z.started = true)) ∧
    (Issues i s c x → soleIssuer s c = false → Traps i s c { trap := .nonuniformCopy }) ∧
    (∀ w fld, Issues i s c x → soleIssuer s c = true → descFault f d lo cnt = some (w, fld) →
      Traps i s c { trap := .copyDesc, d0 := BitVec.ofNat 64 w, d1 := BitVec.ofNat 64 (fld * 2 ^ 32) }) ∧
    -- COPY_COMPLETE waits for older entries; then it moves its elements, one in each step, and credits its knot with the bytes written
    (∀ id z, SMap.look s.copies id = some z → z.started = true → z.fault = none →
      let g : CDesc := z.d
      let w := z.place s
      let live := z.dests.filter fun j => match s.panel? j with | some q => !q.done | none => false
      (z.sbs.any (fun b => s.sbOlder b.1 b.2.1) = true → exec (.copyComplete h id) s = .next (s.post (.copyComplete z.panel id))) ∧
      (z.sbs.any (fun b => s.sbOlder b.1 b.2.1) = false →
        (z.todo = none → ∃ t is, exec (.copyComplete h id) s = .next t ∧ t.mem = s.mem ∧ is.Perm z.outer ∧
          SMap.look t.copies id = some { z with todo := some is, bias := SMap.lookD (s.ctx z.socket z.ctx).bias g.biasIdx 0 }) ∧
        (∀ i is, z.todo = some (i :: is) → z.elts = [] → z.form ≠ .cpyg → ∃ t es, exec (.copyComplete h id) s = .next t ∧
          t.mem = s.mem ∧ es.Perm (outerElts g i i) ∧ SMap.look t.copies id = some { z with todo := some is, elts := es }) ∧
        -- an outer index of CPYG is read from its array, all ones skips it
        (∀ i is pa q, z.todo = some (i :: is) → z.elts = [] → z.form = .cpyg →
          let va := (g.aux + 4 * i) % 2 ^ 64
          s.engWalkHeld w.d w.k w.c va = false → s.engPlace w.d w.k w.c va .read = .ok (pa, q) → s.unreachable q.pkg = false →
          s.engBlocked w.d 4 true q = false → s.badIn q 4 = false → ∃ t, exec (.copyComplete h id) s = .next t ∧ t.mem = s.mem ∧
            (s.readAt q 4 = 2 ^ 32 - 1 → SMap.look t.copies id = some { z with todo := some is }) ∧
            (s.readAt q 4 ≠ 2 ^ 32 - 1 → ∃ es, es.Perm (outerElts g i (s.readAt q 4)) ∧
              SMap.look t.copies id = some { z with todo := some is, elts := es })) ∧
        -- an element read from global memory into scratchpad
        (∀ is e es pa q, z.todo = some is → z.elts = e :: es → g.mode = 0 → g.transpose = false → s.engWalkHeld w.d w.k w.c e.far = false →
          s.engPlace w.d w.k w.c e.far .read = .ok (pa, q) → s.unreachable q.pkg = false → s.engBlocked w.d g.bytes true q = false →
          s.badIn q g.bytes = false → s.spadsOk →
          ∃ t, exec (.copyComplete h id) s = .next t ∧ t.mem = s.mem ∧
            SMap.look t.copies id = some { z with elts := es, moved := z.moved + g.bytes } ∧
            ∀ j ∈ live, (t.panel? j).map (fun p => p.spRead e.near.toNat g.bytes) = some (s.readAt q g.bytes)) ∧
        -- a transposed one: its row's address and the entry's stride, within the row's page; an entry that is not valid is a fault
        (∀ is e es sz stride pa q pa' q' tl, z.todo = some is → z.elts = e :: es → g.mode = 0 → g.transpose = true →
          biasEntry z.bias.toNat = some (sz, stride) → sz = g.bytes →
          let va := e.far + e.i0 * stride
          let hit := ((s.core (State.coreKey w.d w.k)).tlb.find? (·.hits w.c e.far)).or ((s.die w.d).tlb.find? (·.hits w.c e.far))
          s.engWalkHeld w.d w.k w.c e.far = false → s.engPlace w.d w.k w.c e.far .read = .ok (pa, q) →
          (hit = some tl ∨ hit = none ∧ s.walk w.d w.c (e.far / 2 ^ 16) = .inr tl) → va / 2 ^ tl.bits = e.far / 2 ^ tl.bits →
          s.engWalkHeld w.d w.k w.c va = false → s.engPlace w.d w.k w.c va .read = .ok (pa', q') → s.unreachable q'.pkg = false →
          s.engBlocked w.d g.bytes true q' = false → s.badIn q' g.bytes = false → s.spadsOk →
          ∃ t, exec (.copyComplete h id) s = .next t ∧ t.mem = s.mem ∧
            SMap.look t.copies id = some { z with elts := es, moved := z.moved + g.bytes } ∧
            ∀ j ∈ live, (t.panel? j).map (fun p => p.spRead e.near.toNat g.bytes) = some (s.readAt q' g.bytes)) ∧
        (∀ is e es, z.todo = some is → z.elts = e :: es → g.mode = 0 → g.transpose = true → biasEntry z.bias.toNat = none →
          ∃ t, exec (.copyComplete h id) s = .next t ∧ t.mem = s.mem ∧
            SMap.look t.copies id = some { z with fault := some (Trap.biasFault.code, BitVec.ofNat 64 g.biasIdx) }) ∧
        -- an element read from the Spool
        (∀ is e es v off, z.todo = some is → z.elts = e :: es → g.mode = 2 → s.spoolIn w.d w.c (e.far % 2 ^ 32) g.bytes = .ok (v, off) →
          s.spoolWaits w.d v off = false → s.spadsOk →
          ∃ t, exec (.copyComplete h id) s = .next t ∧ t.mem = s.mem ∧
            SMap.look t.copies id = some { z with elts := es, moved := z.moved + g.bytes } ∧
            ∀ j ∈ live, (t.panel? j).map (fun p => p.spRead e.near.toNat g.bytes) = some (Memory.read (s.die v).spool off g.bytes)) ∧
        -- an element moved within global memory
        (∀ is e es pa q pa' q', z.todo = some is → z.elts = e :: es → g.mode = 3 → g.transpose = false →
          s.engWalkHeld w.d w.k w.c e.far = false → s.engPlace w.d w.k w.c e.far .read = .ok (pa, q) → s.unreachable q.pkg = false →
          s.engBlocked w.d g.bytes true q = false → s.badIn q g.bytes = false →
          let va := Word.ofInt 64 e.near
          s.engWalkHeld w.d w.k w.c va = false → s.engPlace w.d w.k w.c va .write = .ok (pa', q') → s.unreachable q'.pkg = false →
          s.engBlocked w.d g.bytes true q' = false → s.groupBad q' = false → s.memOk →
          ∃ t, exec (.copyComplete h id) s = .next t ∧ t.panels = s.panels ∧
            SMap.look t.copies id = some { z with elts := es, moved := z.moved + g.bytes } ∧
            Memory.read t.mem q'.key g.bytes = s.readAt q g.bytes ∧
            ∀ a, (a < q'.key ∨ q'.key + g.bytes ≤ a) → Memory.byte t.mem a = Memory.byte s.mem a) ∧
        -- an element written from scratchpad to global memory
        (∀ is e es pa q p, z.todo = some is → z.elts = e :: es → g.mode = 1 → s.engWalkHeld w.d w.k w.c e.far = false →
          s.engPlace w.d w.k w.c e.far .write = .ok (pa, q) → s.unreachable q.pkg = false → s.engBlocked w.d g.bytes true q = false →
          s.groupBad q = false → s.memOk → s.panel? z.panel = some p →
          ∃ t, exec (.copyComplete h id) s = .next t ∧ t.panels = s.panels ∧
            SMap.look t.copies id = some { z with elts := es, moved := z.moved + g.bytes } ∧
            Memory.read t.mem q.key g.bytes = p.spRead e.near.toNat g.bytes ∧
            ∀ a, (a < q.key ∨ q.key + g.bytes ≤ a) → Memory.byte t.mem a = Memory.byte s.mem a) ∧
        -- the end
        (z.todo = some [] → z.elts = [] →
          (g.comp = 1 → s.engWalkHeld z.socket 0x7F z.ctx g.compl = false ∧ ∃ r, s.engPlace z.socket 0x7F z.ctx g.compl .both = .ok r) →
          ∃ t, exec (.copyComplete h id) s = .next t ∧ t.mem = s.mem ∧ t.reqs = s.reqs ∧
            (SMap.rising s.copies = true → SMap.look t.copies id = none) ∧
            (∀ ph off, z.knot = some (ph, off) → ∃ k v, SMap.look t.knots k = some v ∧ v.panel = ph ∧ v.off = off ∧
              v.credit = some (z.moved * z.dests.length) ∧ v.drops = z.dests.length - live.length) ∧
            (g.comp = 1 → ∃ k v, SMap.look t.joins k = some v ∧ v.ctx = z.ctx ∧ v.addr = BitVec.ofNat 64 g.compl)))) ∧
    -- the elements of one outer index: every index vector of the inner dimensions, its offsets times the strides
    (∀ (g : CDesc) (i idx : Nat), 1 ≤ g.ndim →
      (outerElts g i idx).length = ((List.range (g.ndim - 1)).map g.ext).foldl (· * ·) 1 ∧
      ∀ e ∈ outerElts g i idx, ∃ v : List Nat, v.length = g.ndim - 1 ∧ (∀ k, k < g.ndim - 1 → v.getD k 0 < g.ext k) ∧
        e.near = g.near + g.bytes * (((List.range (g.ndim - 1)).map fun k => (v.getD k 0 : Int) * g.ns k).sum + i * g.ns (g.ndim - 1)) ∧
        e.far = Word.ofInt 64 (g.far +
          g.bytes * (((List.range (g.ndim - 1)).map fun k => (v.getD k 0 : Int) * g.fs k).sum + idx * g.fs (g.ndim - 1)))) ∧
    -- COPY_FAULT poisons the copy's entries and records the fault for every member that is alive
    (∀ id z code a, SMap.look s.copies id = some z → z.fault = some (code, a) →
      ∃ t, exec (.copyFault h id) s = .next t ∧ t.mem = s.mem ∧
        (∀ b ∈ z.sbs, ∀ e, SMap.look (s.core b.1).sb b.2.1 = some e → e.op = id →
          ∃ e', SMap.look (t.core b.1).sb b.2.1 = some e' ∧ e'.poison = true) ∧
        (∀ sl ∈ z.slices, s.alive sl.1 id = true → ∃ v, t.thr? sl.1 = some v ∧ v.async.isSome = true))

/-- KNINIT writes both words of its knot; KNARR and KNEXP send their updates; KNWAIT moves on once the phase differs, else
waits; KNTRY returns the knot's state; KNOT_UPDATE waits for its panel to be resident, for what a merge ordered before it and
for earlier updates of its slot's lineage, applies arrivals, the transaction count and the drops of a copy, flips the phase of a
complete knot, or records KNOT_MISUSE and changes nothing; the last arrival of a BAR or SBAR completes and raises its generation
while an earlier one waits, and a strand that is not uniform traps (that ILLEGAL_OPERAND of the operands' values precedes it is
log 107, the model's choice); RSQ reads the scoreboard and RSCLR removes poisoned entries. (R252, R253, R254, R255, R256, R257,
R258, R259) -/
def Obligations.KnotsAndBarriers : Prop :=
  ∀ (s : State) (c : Cx) (x y : Args) (k : SpLoc), c.any = true → s.named → s.spadsOk → s.acquired c = true →
    let v := c.uni .w64 x.b
    let named := s.knotPlace c.ex (c.uni .w32 x.a) = .ok k
    let noWrite := s.sbPoison k.key 0 0 k.byte (k.byte + 16) = none
    let noRead := s.sbPoison k.key k.byte (k.byte + 16) 0 0 = none
    (Issues (.kninit y) s c x → named → noWrite → v % 2 ^ 16 ≠ 0 → v < 2 ^ 17 → s.pointReady c false 16 [k] = true →
      ∃ t, exec (.kninit y) s = .next t ∧ t.mem = s.mem ∧ t.knotW0 k.panel k.off = v % 2 ^ 16 * 2 ^ 16 + v % 2 ^ 16 ∧
        t.knotW1 k.panel k.off = if 2 ^ 16 ≤ v then 4 else 0) ∧
    (Issues (.knarr y) s c x → named → noWrite → v ≠ 0 → v < 2 ^ 16 → s.released c.ex = true →
      exec (.knarr y) s = .next ((s.advance c).sendKnot
        { panel := k.panel, off := k.off, addr := c.uni .w32 x.a, darr := v, who := [c.ex], by' := some c.ex, po := s.po c })) ∧
    (∀ i unit, (i = .knexp y ∧ unit = false ∨ i = .knexpTile y ∧ unit = true) → Issues i s c x → named → noWrite → v ≠ 0 →
      v < 2 ^ 31 → exec i s = .next ((s.advance c).sendKnot
        { panel := k.panel, off := k.off, addr := c.uni .w32 x.a, dtx := v, unit := some unit, who := [c.ex], by' := some c.ex, po := s.po c })) ∧
    (Issues (.knwait y) s c x → named → noRead → v < 2 → c.thr.async = none → s.pointReady c false 16 [k] = true →
      (s.knotPhase k.panel k.off ≠ v → exec (.knwait y) s = .next ((s.advance c).dropL1 c.ex)) ∧
      (s.knotPhase k.panel k.off = v → exec (.knwait y) s = waitAs s c .form)) ∧
    (Issues (.kntry y) s c x → named → noRead → v < 2 → c.thr.async = none → s.pointReady c false 16 [k] = true →
      let val := kntryVal (s.knotW1 k.panel k.off) v
      ∃ t, exec (.kntry y) s = .next t ∧ Awaits s t c x .w32 ∧ t.mem = s.mem ∧
        (sregOf x.d = none → ∀ l, l < 32 → c.act.getLsbD l = true → c.dead.getLsbD l = false → Comes s t c l val) ∧
        (sregOf x.d ≠ none → Comes s t c c.low val)) ∧
    -- KNOT_UPDATE: the arrivals and the transaction count change; a knot complete starts its next phase
    (∀ id u, SMap.look s.knots id = some u →
      -- the panel is on its core, or over; an instruction's update follows what a merge ordered before it, and the earlier updates of
      -- the knot that its slot's lineage sent
      let due : Prop := (∀ p, s.panel? u.panel = some p → p.core.isSome = true ∨ p.done = true) ∧
        ∀ e, u.by' = some e → s.mergeWaits e u.po = false ∧
          ∀ v ∈ s.knots, v.1 < id → v.2.by' ≠ u.by' ∨ v.2.po.before u.po = false ∨ v.2.panel ≠ u.panel ∨ v.2.off ≠ u.off
      let w0 := s.knotW0 u.panel u.off
      let w1 := s.knotW1 u.panel u.off
      let unit := Word.bit w1 2
      let arr := Word.bits w0 31 16
      let ini := Word.bits w0 15 0
      let tx := Word.toSigned 32 (w0 / 2 ^ 32) + (match u.credit with | some n => if unit then -1 else -(n : Int) | none => u.dtx)
      (¬ due → exec (.knotUpdate id) s = .next (s.post (.knotUpdate id))) ∧
      (due → (s.panel? u.panel).isSome = true → u.darr ≤ arr → (u.unit = none ∨ u.unit = some unit) → -(2 ^ 31) ≤ tx → tx ≤ 2 ^ 31 - 1 →
        ∃ t, exec (.knotUpdate id) s = .next t ∧ t.mem = s.mem ∧
          (arr = u.darr ∧ tx = 0 → t.knotW0 u.panel u.off = ini * 2 ^ 16 + ini ∧ t.knotPhase u.panel u.off = 1 - w1 % 2) ∧
          (¬ (arr = u.darr ∧ tx = 0) → t.knotW0 u.panel u.off = Word.ofInt 32 tx * 2 ^ 32 + (arr - u.darr) * 2 ^ 16 + ini ∧
            t.knotPhase u.panel u.off = w1 % 2 ∧ (u.drops = 0 → t.knotW1 u.panel u.off = w1)) ∧
          (u.drops ≠ 0 → Word.bit (t.knotW1 u.panel u.off) 1 = true ∧
            Word.bits (t.knotW1 u.panel u.off) 7 3 = min 31 (Word.bits w1 7 3 + u.drops))) ∧
      (due → arr < u.darr → exec (.knotUpdate id) s = .next (({ s with knots := SMap.del s.knots id }).misuse id u 1)) ∧
      (due → u.darr ≤ arr → (∃ b, u.unit = some b ∧ b ≠ unit) →
        exec (.knotUpdate id) s = .next (({ s with knots := SMap.del s.knots id }).misuse id u 3)) ∧
      (due → u.darr ≤ arr → (u.unit = none ∨ u.unit = some unit) → (tx < -(2 ^ 31) ∨ 2 ^ 31 - 1 < tx) →
        exec (.knotUpdate id) s = .next (({ s with knots := SMap.del s.knots id }).misuse id u 2))) ∧
    -- BAR and SBAR: the last arrival completes, an earlier one waits
    (∀ i sb h n p t, (i = .bar y ∧ sb = false ∨ i = .sbar y ∧ sb = true) → Issues i s c x → c.ex = .str h n → s.panel? h = some p →
      s.strand? h n = some t → c.parts ≠ [] → State.slotOf t (!c.slotB) = none → c.mask &&& ~~~ c.helper &&& ~~~ c.act = 0 →
      (∀ q ∈ c.thr.pends, q.windowed = false) → c.thr.async = none → c.thr.arrival = none → s.released c.ex = true → (sb = true → p.swatch.isSome = true) →
      let b := c.uni .w64 x.a
      let w := p.swatch.getD 0
      let live := if sb then s.swatchLive w else p.live.length
      let x0 := s.barrier sb h w b
      let tgt := if x0.arrived = 0 then v else x0.target
      (b < if sb then 4 else 16) → (v ≤ if sb then 256 else 32) →
      ((if tgt = 0 then live else tgt) ≤ x0.arrived + 1 →
        ∃ u, exec i s = .next u ∧ u.mem = s.mem ∧ u.barrier sb h w b = { arrived := 0, gen := x0.gen + 1, target := 0 } ∧
          u.posOf c.ex c.slotB = some c.nxt) ∧
      (¬ (if tgt = 0 then live else tgt) ≤ x0.arrived + 1 →
        ∃ u, exec i s = .next u ∧ u.mem = s.mem ∧
          u.barrier sb h w b = { arrived := x0.arrived + 1, gen := x0.gen, target := tgt } ∧
          u.posOf c.ex c.slotB = s.posOf c.ex c.slotB ∧ (u.thr c.ex).arrival = some (sb, b, x0.gen))) ∧
    -- another slot of the strand is occupied, or a lane of the slot does not arrive
    (∀ i sb h n t, (i = .bar y ∧ sb = false ∨ i = .sbar y ∧ sb = true) → Issues i s c x → c.ex = .str h n → s.strand? h n = some t →
      c.parts ≠ [] → (State.slotOf t (!c.slotB) ≠ none ∨ c.mask &&& ~~~ c.helper &&& ~~~ c.act ≠ 0) →
      (c.uni .w64 x.a < if sb then 4 else 16) → (v ≤ if sb then 256 else 32) → Traps i s c { trap := .nonuniformBarrier }) ∧
    -- RSQ and RSCLR
    (∀ h, c.ex.panel = some h →
      let key := State.coreKey (s.site c.ex).1 (s.site c.ex).2
      let a := c.uni .w64 x.a
      (Issues (.rsq y) s c x → a < 3 → ∃ t, exec (.rsq y) s = .next t ∧ Awaits s t c x .w64 ∧ t.mem = s.mem ∧
        ((sregOf x.d).isSome = true → Comes s t c c.low (rsqVal (s.core key).sb h a))) ∧
      (Issues (.rsclr y) s c x → a ≤ 64 → ∃ t, exec (.rsclr y) s = .next t ∧ t.mem = s.mem ∧
        ∀ z, z ∈ (t.core key).sb ↔ z ∈ (s.core key).sb ∧ ¬ (z.2.poison = true ∧ z.2.panel = h ∧ (a = 64 ∨ z.1 = a))))

/-- MZERO, MLDT, MADDT, MCVT and MLOOP whose operands pass their checks complete with one entry behind the others of the
engine's queue, carrying the form's tiles and operands, tiles and memory still as they were; MSTT with the tile's elements on
their way to scratchpad; MWAIT and OFENCE once nothing they name is in progress, else they wait, after which MWAIT takes a
recorded MATRIX_FAULT; MSPC with the panel's sparse configuration set. The generator words of RND SR are gensOf, by R284. That
MLOOP's slabs and MSTT's elements are read at issue is the model's reading (log 33), and so is which register writes
happen-before an OFENCE (log 97). MLOOP waits for its A registers after its checks (R278; log 34). (R261, R262, R268, R271,
R275, R276, R278, R281, R282, R285, R286, R288) -/
def Obligations.MatrixFormsEnter : Prop :=
  ∀ (s : State) (c : Cx) (x y : Args) (h : Nat) (p : Panel), c.ex.panel = some h → s.panel? h = some p → c.any = true →
    let k := panelKey p
    let room := (s.core k).eng.length < 16
    let entry := (s.sbFree k).isSome = true
    let a := c.uni .w32 x.a
    let m := c.uni .w64 x.a
    let pitch := c.uni .w64 x.b
    let sdl := c.s ((sregOf x.a).getD 0)
    let sdh := c.s ((sregOf x.a).getD 0 + 1)
    (Issues (.mzero y) s c x → tileMaskOk p m = true → m ≠ 0 → room → Enters (.mzero y) s c h p (maskTiles m) .mzero) ∧
    (Issues (.mldt y) s c x → a % 4 = 0 → pitch % 4 = 0 → 256 ≤ pitch → pitch ≤ 262140 → a + 63 * pitch + 256 ≤ p.spBytes →
      s.opPoison p false a (a + 63 * pitch + 256) = none → s.acquired c = true → room → entry →
      Enters (.mldt y) s c h p [tileOf x.c] (.mldt a pitch)) ∧
    (Issues (.maddt y) s c x → room → Enters (.maddt y) s c h p [tileOf x.a] (.madd (tileOf x.b) x.ar)) ∧
    (Issues (.mcvt y) s c x → room → 
      Enters (.mcvt y) s c h p [tileOf x.a] (.mcvt (tileOf x.b) (fmtDst x.c) x.ar (if x.ar.rnd = .sr then gensOf s c else []))) ∧
    (∀ f reuse j t,
      let b := (sregOf x.b).getD 0
      let w := mctl f (c.s b) (c.s (b + 1))
      let av := match x.a with | .v i => i.toNat | _ => 0
      Issues (.mloop f reuse y) s c x → (c.ex = .str h j ∧ w.aself = true ∨ w.aself = false ∧ p.live.contains w.astr = true ∧ j = w.astr) →
      s.strand? h j = some t → w.ksteps ≠ 0 → w.ainc ≤ 39 → w.zero = true →
      av + 16 * w.ainc * (w.ksteps - 1) + 15 < p.crec.vregs → (f = .e2m1 → w.asreg + w.asinc * (w.ksteps - 1) < p.crec.vregs) →
      (reuse = true → w.ainc ≠ 0 → w.ksteps ≤ 16) →
      (w.sparse = true → w.binc = 0 ∧ f ≠ .e2m1 ∧ ∃ q, p.sparse = some q ∧ w.baddr < q.nbc) →
      (w.sparse = false → w.baddr % 32 = 0 ∧ w.sbaddr % 32 = 0) →
      0 ≤ (mloopRange f w p.sparse).1 → (mloopRange f w p.sparse).2 ≤ p.spBytes →
      s.opPoison p false (mloopRange f w p.sparse).1.toNat (mloopRange f w p.sparse).2.toNat = none →
      -- after its checks it waits for its own strand's A registers, or takes the deferred trap of one
      (∀ q, groupPend c (.mloop f reuse x) = some q → exec (.mloop f reuse y) s = awaitPend s c q) ∧
      (groupPend c (.mloop f reuse x) = none → s.acquired c = true → (8 ≤ w.ksteps → (s.core k).grant.granted = true) → room → entry →
      ∃ l, Enters (.mloop f reuse y) s c h p [tileOf x.c]
          (.mloop reuse l w.baddr w.binc w.sbaddr w.sbinc (if w.sparse then p.sparse else none)) ∧
        l.fmt = f ∧ l.ksteps = w.ksteps ∧ l.strand = j ∧
        ∀ n, n < (if w.ainc = 0 then 1 else w.ksteps) → l.slabs[n]? = some (slabOf t (av + 16 * w.ainc * n)))) ∧
    (∀ bf,
      let row := if bf then 128 else 256
      Issues (.mstt bf y) s c x → a % 4 = 0 → pitch % 4 = 0 → row ≤ pitch → pitch ≤ 262140 → a + 63 * pitch + row ≤ p.spBytes →
      s.opPoison p true a (a + 63 * pitch + row) = none → s.acquired c = true → entry → p.tileBad = [] →
      s.sbBusy k 0 0 (p.spadBase * 4096 + a) (p.spadBase * 4096 + a + 63 * pitch + row) = false →
      ∃ t id z, exec (.mstt bf y) s = .next t ∧ t.mem = s.mem ∧ SMap.look t.mstts id = some z ∧ z.panel = h ∧
        z.tile = tileOf x.c ∧ z.bytes = msttElems p (tileOf x.c) a pitch bf x.ar (gensOf s c) ∧
        (t.panel? h).map (·.spad) = some p.spad ∧ (t.panel? h).map (·.tiles) = some p.tiles) ∧
    (Issues (.mwait y) s c x → tileMaskOk p m = true →
      let busy := (s.core k).eng.any (fun e => e.panel == h && e.tiles.any fun t => (if m = 0 then List.range 16 else maskTiles m).contains t) ||
        s.mstts.any (fun z => z.2.panel == h && (if m = 0 then List.range 16 else maskTiles m).contains z.2.tile)
      (busy = true → Waits (.mwait y) s) ∧
      (busy = false → (∀ f, c.thr.async = some f → f.trap = .matrixFault → exec (.mwait y) s = asyncOut s c f) ∧
        ((∀ f, c.thr.async = some f → f.trap ≠ .matrixFault) → exec (.mwait y) s = .next (s.advance c)))) ∧
    -- OFENCE waits for the registers that forms of the panel's strands await, issued before it was first tried, whose accesses are performed
    (Issues (.ofence y) s c x → s.acquired c = true →
      let upTo := ofenceFrom s c
      let busy : Prop := ∃ t ∈ p.strands, ∃ q ∈ t.2.thr.pends, q.awaitsReg = true ∧ q.id < upTo ∧
        (∀ r ∈ s.reqsOf (.str h t.1), r.2.pend = some q.id → r.2.unapplied = false) ∧
        ∀ z ∈ s.kvs, z.2.ex = .str h t.1 → z.2.pend ≠ q.id
      ((∀ n, (if c.slotB then c.thr.waitB else c.thr.wait) ≠ .ofence n) → upTo = s.nextId) ∧
      (∀ n, (if c.slotB then c.thr.waitB else c.thr.wait) = .ofence n → upTo = n) ∧
      (busy → exec (.ofence y) s = waitAs s c (.ofence upTo)) ∧ (¬ busy → exec (.ofence y) s = .next (s.advance c))) ∧
    (Issues (.mspc y) s c x →
      let q : Sparse := {
        colidx := Word.bits sdl 50 32, rowptr := Word.bits sdl 18 0, nnz := Word.bits sdh 63 48, nbc := Word.bits sdh 47 32,
        vals := Word.bits sdh 18 0 }
      Word.bits sdl 63 51 = 0 → Word.bits sdl 31 19 = 0 → Word.bits sdh 31 19 = 0 → q.nnz ≠ 0 →
      q.nnz ≤ 256 → q.nbc ≠ 0 → q.colidx % 2 = 0 → q.rowptr % 4 = 0 → q.vals % 32 = 0 → q.colidx + 2 * q.nnz ≤ p.spBytes →
      q.rowptr + 4 * (q.nbc + 1) ≤ p.spBytes → q.vals + 2048 * q.nnz ≤ p.spBytes →
      ∃ t, exec (.mspc y) s = .next t ∧ t.mem = s.mem ∧ (t.panel? h).map (·.sparse) = some (some q) ∧
        (t.panel? h).map (·.tiles) = some p.tiles)

/-- The head of an engine's queue starts once no older access conflicts; a K-step of MLOOP replaces each element by one exact
sum of its old value and its products (their elements read from slab and scratchpad by R263 to R265), rounded once, and leaves
other tiles and scratchpad alone; MZERO, MLDT, MADDT, MCVT and MRESC steps write their elements, MRESC.DIV each quotient
correctly rounded; a finished entry leaves the queue and the scoreboard; MSTT's writes land in scratchpad, after what a merge
ordered before them (R100); a grant is given unless the die is throttled, returned 4 microseconds after the queue emptied, and
withdrawn. (R261, R263, R264, R265, R266, R271, R278, R281, R284, R285, R315, R405) -/
def Obligations.MatrixSteps : Prop :=
  ∀ (s : State) (d k : Nat),
    let key := State.coreKey d k
    let g := (s.core key).grant
    (∀ e es, (s.core key).eng = e :: es → e.running = false → (∀ i, e.sb = some i → s.sbOlder key i = false) →
      ∃ t e1, exec (.matrixEntryStart d k) s = .next t ∧ t.mem = s.mem ∧ (t.core key).eng = e1 :: es ∧ e1.running = true ∧
        e1.tiles = e.tiles ∧ e1.step = e.step ∧ ∀ h, (t.panel? h).map (·.tiles) = (s.panel? h).map (·.tiles)) ∧
    (∀ e es i, (s.core key).eng = e :: es → e.running = false → e.sb = some i → s.sbOlder key i = true →
      exec (.matrixEntryStart d k) s = .next (s.post (.matrixEntryStart d k))) ∧
    -- one K-step: each element is one exact sum, rounded once
    (∀ e es st p T r l ba bi sba sbi q, (s.core key).eng = e :: es → e.running = true → e.steps[e.step]? = some st →
      s.panel? e.panel = some p → p.tileBad = [] → e.tiles = [T] → e.op = .mloop r l ba bi sba sbi q →
      ∃ t p1, exec (.matstep d k) s = .next t ∧ t.mem = s.mem ∧ (t.core key).eng = { e with step := e.step + 1 } :: es ∧
        t.panel? e.panel = some p1 ∧ p1.spad = p.spad ∧
        (∀ i, i < 4096 → MacStep l.fmt (if l.slabs.length ≤ 1 then l.slabs.headD [] else l.slabs.getD st.1 [])
          (if l.scales.length ≤ 1 then l.scales.headD [] else l.scales.getD st.1 []) (fun a => (Memory.byte p.spad a).toNat)
          st.2.toNat ((sba : Int) + 32 * sbi * st.1).toNat (i / 64) (i % 64) ((p.tile T).getD i 0) ((p1.tile T).getD i 0)) ∧
        (SMap.rising p.tiles = true → ∀ T', T' ≠ T → p1.tile T' = p.tile T')) ∧
    -- the steps of the other operations
    (∀ e es st p, (s.core key).eng = e :: es → e.running = true → e.steps[e.step]? = some st → s.panel? e.panel = some p →
      p.tileBad = [] →
      ∃ t p1, exec (.matstep d k) s = .next t ∧ t.mem = s.mem ∧ t.panel? e.panel = some p1 ∧ p1.spad = p.spad ∧
        (t.core key).eng = { e with step := e.step + 1 } :: es ∧
        (e.op = .mzero → p1.tile st.1 = List.replicate 4096 0) ∧
        (∀ a pitch, e.op = .mldt a pitch → ∀ i, i < 4096 →
          (p1.tile (e.tiles.headD 0)).getD i 0 = BitVec.ofNat 32 (p.spRead (a + i / 64 * pitch + 4 * (i % 64)) 4)) ∧
        (∀ src ar, e.op = .madd src ar → ∀ i, i < 4096 → (p1.tile (e.tiles.headD 0)).getD i 0 = BitVec.ofNat 32 (faddVal Fmt.f32 ar 0
          (FVal.decode Fmt.f32 ((p.tile (e.tiles.headD 0)).getD i 0).toNat) (FVal.decode Fmt.f32 ((p.tile src).getD i 0).toNat)).bits) ∧
        (∀ src fmt ar gens, e.op = .mcvt src fmt ar gens → ∀ i, i < 4096 → (p1.tile (e.tiles.headD 0)).getD i 0 =
          BitVec.ofNat 32 (rndVal fmt 0 ar (tileRnd gens i) (FVal.decode Fmt.f32 ((p.tile src).getD i 0).toNat)).bits) ∧
        (∀ div rows, e.op = .mresc div rows → ∀ i, i < 4096 →
          (rows.find? (fun r => r.1 == i / 64) = none → (p1.tile (e.tiles.headD 0)).getD i 0 = (p.tile (e.tiles.headD 0)).getD i 0) ∧
          (∀ r, rows.find? (fun r => r.1 == i / 64) = some r → div = false → (p1.tile (e.tiles.headD 0)).getD i 0 =
            BitVec.ofNat 32 (fmulVal Fmt.f32 Arith.plain 0 (FVal.decode Fmt.f32 ((p.tile (e.tiles.headD 0)).getD i 0).toNat)
              (FVal.decode Fmt.f32 r.2)).bits) ∧
          (∀ r, rows.find? (fun r => r.1 == i / 64) = some r → div = true → ∃ q,
            Quotient (FVal.decode Fmt.f32 ((p.tile (e.tiles.headD 0)).getD i 0).toNat) (FVal.decode Fmt.f32 r.2) q ∧
            (p1.tile (e.tiles.headD 0)).getD i 0 = BitVec.ofNat 32 q.bits))) ∧
    (∀ e es, (s.core key).eng = e :: es → e.running = true → e.steps.length ≤ e.step →
      ∃ t, exec (.matrixEntryComplete d k) s = .next t ∧ t.mem = s.mem ∧ (t.core key).eng = es ∧
        (∀ i z, e.sb = some i → SMap.rising (s.core key).sb = true → SMap.look (s.core key).sb i = some z → z.op = e.id →
          SMap.look (t.core key).sb i = none)) ∧
    (∀ id z, SMap.look s.mstts id = some z → s.mergeWaits z.issuer z.po = true → exec (.msttComplete id) s = .next (s.post (.msttComplete id))) ∧
    (∀ id z p, SMap.look s.mstts id = some z → s.mergeWaits z.issuer z.po = false → SMap.rising s.mstts = true → s.panel? z.panel = some p →
      ∃ t, exec (.msttComplete id) s = .next t ∧ t.mem = s.mem ∧ SMap.look t.mstts id = none ∧
        (t.panel? z.panel).map (·.spad) = some (z.bytes.foldl (fun q b => Memory.write q b.1 b.2.1 b.2.2) p.spad)) ∧
    -- grants
    (g.pending = true → (s.die d).throttled = false → ∃ t, exec (.powerGrant d k) s = .next t ∧ t.mem = s.mem ∧
      (t.core key).grant.granted = true ∧ (t.core key).grant.pending = false ∧ (t.core key).grant.standing = g.standing ∧
      (g.held = false → (s.core key).eng = [] → (t.core key).grant.emptyAt = some (g.emptyAt.getD s.time.toNat)) ∧
      (t.core key).eng = (s.core key).eng) ∧
    (g.pending = true → (s.die d).throttled = true → exec (.powerGrant d k) s = .next (s.post (.powerGrant d k))) ∧
    (∀ n, g.emptyAt = some n → g.granted = true → g.held = false →
      (n + 4000 ≤ s.time.toNat → ∃ t, exec (.grantReturn d k) s = .next t ∧ t.mem = s.mem ∧
        (t.core key).grant = { g with granted := false, emptyAt := none }) ∧
      (s.time.toNat < n + 4000 → exec (.grantReturn d k) s = .next (s.post (.grantReturn d k)))) ∧
    (∃ t, exec (.grantWithdrawal d k) s = .next t ∧ t.mem = s.mem ∧ (t.core key).grant = { g with granted := false } ∧
      (t.core key).eng = (s.core key).eng)

/-- KVMAP completes with the map its descriptor gives installed for its partition, or none for address 0, and traps with KV_DESC
on a bad field; KVLD and KVAPP with one event for each participating lane, carrying stream, position and place or bytes, and
trap with KV_NOMAP where there is no map, KVAPP with COPY_POISON where a poisoned entry covers a lane's bytes; KVSEAL, KVFORK
and KVDROP with one event for their streams; memory is unchanged until the events take effect. (R290, R291, R294, R303, R305,
R306, R307, R308, R309, R310) -/
def Obligations.KvForms : Prop :=
  ∀ (s : State) (c : Cx) (x y : Args), c.any = true → s.acquired c = true →
    let d := (s.site c.ex).1
    let k := s.ctxOf c.ex
    let a := c.uni .w64 x.a
    let b := c.uni .w64 x.b
    let mgt := match c.ex with | .mgt _ => true | .str _ _ => false | .bob _ => false
    let slotIn (ok : List CtxSt) : Prop := ∀ m, c.ex = .mgt m → (s.ctx m k).st ∈ ok
    let quiet (t : State) (w : Wd) : Prop := ∃ v, t.thr? c.ex = some v ∧
      v.pends.getLast? = some { State.newPend c s.nextId x.look.toNat w x.d with mask := 0 }
    let sends (t : State) (l : Nat) (op : KvOp) : Prop := ∃ id r, SMap.look t.kvs id = some r ∧ r.ex = c.ex ∧ r.pend = s.nextId ∧
      r.lane = l ∧ r.ctx = k ∧ r.op = op
    -- KVMAP installs what its descriptor says, or uninstalls
    (let part := s.kvPart c.ex b
     Issues (.kvmap y) s c x → slotIn [.preparing, .loaded, .saved] → (mgt = true → part < 8 ∧ s.partOk d k part = true) →
      s.released c.ex = true → s.kvs.all (fun r => r.2.ctx != k || r.2.part != part) = true →
      (a = 0 → SMap.rising (s.job k).maps = true →
        ∃ t, exec (.kvmap y) s = .next t ∧ t.mem = s.mem ∧ t.kvMap k part = none) ∧
      (∀ ws, a ≠ 0 → a % 64 = 0 → (if mgt then s.ctxWords d k a 8 else s.readWords c.ex a 8) = .ok ws →
        (mgt = false → s.notYet c.ex a 64 (s.po c) = false) →
        (kvDescFault ws = none → ∃ t, exec (.kvmap y) s = .next t ∧ t.mem = s.mem ∧ t.kvMap k part = some (kvMapOf a ws)) ∧
        (∀ o, kvDescFault ws = some o → c.parts ≠ [] → TrapsRead (.kvmap y) s c { trap := .kvDesc, d0 := BitVec.ofNat 64 o }))) ∧
    -- KVLD and KVAPP: one event for each lane
    (∀ h p m, c.ex.panel = some h → s.panel? h = some p → s.kvMap k p.part = some m → c.ex.isStrand = true →
      let key (l : Nat) : Nat := c.src .w64 x.a l
      let off (l : Nat) : Nat := c.src .w32 x.b l
      let w := c.uni .w64 x.c
      let lim (l : Nat) : Option Nat :=
        if m.hd ≤ key l / 2 ^ 56 || (Word.bit w 0 && key l / 2 ^ 56 % 64 != 0) then some 56
        else if !Word.bit w 0 && Word.bits (key l) 55 32 % 64 != 0 then some 32 else none
      (∀ e ∈ (s.core (panelKey p)).sb, e.2.poison = false) →
      (Issues (.kvld y) s c x → Word.bits w 31 1 = 0 → (∀ l ∈ c.parts, kvLane p m (key l) (off l) (64 * m.es) (lim l) = .ok (off l)) →
        (w / 2 ^ 32 = 2 ^ 32 - 1 ∨ ∃ q, s.knotPlace c.ex (w / 2 ^ 32) = .ok q) → (s.sbFree (panelKey p)).isSome = true →
        ∃ t, exec (.kvld y) s = .next t ∧ Awaits s t c x .w32 ∧ t.mem = s.mem ∧
          ∀ l ∈ c.parts, sends t l (.load s.nextId (streamOf m (key l)) (Word.bits (key l) 55 32) (key l / 2 ^ 56) (Word.bit w 0) (off l))) ∧
      (Issues (.kvapp y) s c x →
        (∀ l ∈ c.parts, kvLane p m (key l) (off l) (2 * m.hd * m.es) (if key l / 2 ^ 56 != 0 then some 56 else none) = .ok (off l)) →
        (∀ l ∈ c.parts, s.sbBusy (panelKey p) (p.spadBase * 4096 + off l) (p.spadBase * 4096 + off l + 2 * m.hd * m.es) 0 0 = false) →
        s.pointReady c false (2 * m.hd * m.es) (c.parts.map fun l => p.spLoc h (off l)) = true → s.released c.ex = true →
        ∃ t, exec (.kvapp y) s = .next t ∧ quiet t .w32 ∧ t.mem = s.mem ∧
          ∀ l ∈ c.parts, sends t l (.append (streamOf m (key l)) (Word.bits (key l) 55 32)
            ((List.range (2 * m.hd * m.es)).map fun n => Memory.byte p.spad (off l + n))))) ∧
    -- a poisoned entry over a lane's bytes: the lane's address, the entry and the lowest byte
    (∀ h p m, c.ex.panel = some h → s.panel? h = some p → s.kvMap k p.part = some m → c.ex.isStrand = true →
      let key (l : Nat) : Nat := c.src .w64 x.a l
      let off (l : Nat) : Nat := c.src .w32 x.b l
      ∀ l t, c.parts.head? = some l →
        (∀ j ∈ c.parts, kvLane p m (key j) (off j) (2 * m.hd * m.es) (if key j / 2 ^ 56 != 0 then some 56 else none) = .ok (off j)) →
        s.sbPoison (panelKey p) (p.spadBase * 4096 + off l) (p.spadBase * 4096 + off l + 2 * m.hd * m.es) 0 0 = some t →
        Issues (.kvapp y) s c x → Traps (.kvapp y) s c {
          t with d0 := BitVec.ofNat 64 (off l), d1 := BitVec.ofNat 64 (t.d0.toNat * 2 ^ 32 + t.d1.toNat / 2 ^ 32), lane := l }) ∧
    (∀ h p i, c.ex.panel = some h → s.panel? h = some p → c.ex.isStrand = true → s.kvMap k p.part = none →
      (i = .kvld y ∨ i = .kvapp y) → Issues i s c x → c.parts ≠ [] → Traps i s c { trap := .kvNomap }) ∧
    -- KVSEAL, KVFORK and KVDROP: one event for their streams
    (∀ i m op, s.kvMap k (s.kvPart c.ex (Word.bits a 30 28)) = some m → slotIn [.loaded] →
      (mgt = true → s.partOk d k (Word.bits a 30 28) = true) → s.released c.ex = true → streamFault m mgt a = none →
      (i = .kvseal y ∧ op = .seal (streamOf m a) ∨
       i = .kvfork y ∧ (mgt = true → Word.bits a 30 28 = Word.bits b 30 28) ∧ streamFault m mgt b = none ∧
         op = .fork (streamOf m a) (streamOf m b) ∨
       i = .kvdrop y ∧ op = .drop (streamOf m a) b ∧
         (Word.bit b 63 = true → Word.bits b 62 24 = 0 ∧ Word.bits b 23 0 ≤ 256 * m.maxb) ∧
         (Word.bit b 63 = false → Word.bits b 61 32 = 0 ∧ b % 2 ^ 16 + Word.bits b 31 16 ≤ m.maxb)) →
      Issues i s c x → ∃ t, exec i s = .next t ∧ quiet t .w64 ∧ t.mem = s.mem ∧ sends t c.low op)

/-- KV_EVENT is performed by the die that homes the descriptor of its map, waits its turn, answers its lane with the status of
what it did and, failed, with KV_FAULT and no effect, code DATA_ERROR for an error of a write too (R304); what it reads and
writes of LEN, entries, REF, FREEN, FREESTK and the blocks, in order, is what the pseudocode of R306 to R310 gives for its
status; KVLD_COMPLETE retires its entry and credits its knot; ROLE sets the strand's role; TMASK loads the 64 rows of its slot
and no other; MROW leaves in each active lane the new maxima, sums and factors of its two rows with the four A slabs of
probabilities, and no other lane changed; MRESC enters the engine with the factors of the active lanes. (R290, R296, R304, R306,
R307, R308, R309, R310, R312, R313, R314, R315) -/
def Obligations.KvEventsAndRows : Prop :=
  -- KV_EVENT and KVLD_COMPLETE
  (∀ (s : State) (id : Nat) (r : KvReq) (m : KvMap), SMap.look s.kvs id = some r → s.kvMap r.ctx r.part = some m →
    -- the unit of the die that homes the descriptor, which can be reached
    let d := s.kvDie r m
    let s0 := ({ s with kvs := SMap.del s.kvs id }).crossCore r.die r.core d
    let w : EngAt := { d := d, k := 0x7F, c := r.ctx }
    let ev := kvEv w m r.op s0
    (s.engWalkHeld r.die r.core r.ctx m.addr = false → s.gone d = false → (s.rings.held = false ∨ d = r.die) →
    (∀ pa p, s.engPlace r.die r.core r.ctx m.addr .read = .ok (pa, p) → p.pkg = s.pkg → d = p.socket) ∧
    (s.kvReady id r = false → exec (.kvEvent id) s = .next (s.post (.kvEvent id))) ∧
    (∀ u st v, s.kvReady id r = true → ev = .ok u (st, v) →
      ∃ t q, exec (.kvEvent id) s = .next t ∧ t.mem = u.mem ∧ SMap.look t.reqs u.nextId = some q ∧ q.st = .data st none ∧
        q.pend = some r.pend ∧ q.lane = r.lane ∧ q.ex = r.ex ∧ (∀ g p' pos dim b off, r.op = .load g p' pos dim b off → u.mem = s.mem) ∧
        -- the words and bytes it read and wrote, in order
        ∃ ks, KvRuns w s0 ks u ∧ KvScript m r.op st v ks) ∧
    (∀ f a, s.kvReady id r = true → ev = .fail f a →
      ∃ t j q, exec (.kvEvent id) s = .next t ∧ t.mem = s.mem ∧ SMap.look t.reqs j = some q ∧ q.pend = some r.pend ∧
        q.st = .data 0 (some { trap := .kvFault, d0 := BitVec.ofNat 64 a, d1 := BitVec.ofNat 64 ((if f = .storeError then Trap.dataError else f).code * 2 ^ 32), lane := if r.op.perLane then r.lane else 0xFF })))) ∧
  (∀ (s : State) (id : Nat) (z : Kvld), SMap.look s.kvlds id = some z → z.left = 0 →
    ∃ t, exec (.kvldComplete id) s = .next t ∧ t.mem = s.mem ∧
      (∀ e, SMap.rising (s.core z.key).sb = true → SMap.look (s.core z.key).sb z.sb = some e → e.op = id →
        SMap.look (t.core z.key).sb z.sb = none) ∧
      (∀ h off a, z.bad = false → z.knot = some (h, off, a) →
        ∃ j u, SMap.look t.knots j = some u ∧ u.panel = h ∧ u.off = off ∧ u.credit = some z.bytes)) ∧
  -- ROLE, TMASK, MROW and MRESC
  (∀ (s : State) (c : Cx) (x y : Args) (h n : Nat) (p : Panel) (z : Strand), c.ex = .str h n → s.panel? h = some p →
    SMap.look p.strands n = some z → z.lanes.length = 32 → c.any = true →
    let a := c.uni .w32 x.a
    let slot := c.uni .w64 x.b
    let w := c.uni .w64 x.c
    let vs := match x.d with | .v i => i.toNat | _ => 0
    let vb := match x.b with | .v i => i.toNat | _ => 0
    (Issues (.role y) s c x → c.uni .w64 x.a < 4 →
      ∃ t, exec (.role y) s = .next t ∧ t.mem = s.mem ∧ (t.strand? h n).map (·.role) = some (BitVec.ofNat 2 (c.uni .w64 x.a)) ∧
        (t.strand? h n).map (·.lanes) = some z.lanes) ∧
    (Issues (.role y) s c x → 4 ≤ c.uni .w64 x.a → c.parts ≠ [] → Traps (.role y) s c { trap := .illegalOperand }) ∧
    (Issues (.tmask y) s c x → slot ≤ 3 → a % 8 = 0 → a + 512 ≤ p.spBytes →
      s.sbPoison (panelKey p) (p.spadBase * 4096 + a) (p.spadBase * 4096 + a + 512) 0 0 = none →
      s.sbBusy (panelKey p) (p.spadBase * 4096 + a) (p.spadBase * 4096 + a + 512) 0 0 = false → s.acquired c = true →
      s.pointReady c false 512 [p.spLoc h a] = true → SMap.rising p.masks = true →
      ∃ t q, exec (.tmask y) s = .next t ∧ t.mem = s.mem ∧ t.panel? h = some q ∧ q.spad = p.spad ∧
        (∀ m, m < 64 → SMap.lookD q.masks (slot * 64 + m) 0 = ~~~ (BitVec.ofNat 64 (p.spRead (a + 8 * m) 8))) ∧
        (∀ j, (j < slot * 64 ∨ slot * 64 + 64 ≤ j) → SMap.lookD q.masks j 0 = SMap.lookD p.masks j 0)) ∧
    (∀ t, Issues (.tmask y) s c x → slot ≤ 3 → a % 8 = 0 → a + 512 ≤ p.spBytes → c.parts ≠ [] →
      s.sbPoison (panelKey p) (p.spadBase * 4096 + a) (p.spadBase * 4096 + a + 512) 0 0 = some t →
      Traps (.tmask y) s c {
        t with d0 := BitVec.ofNat 64 a, d1 := BitVec.ofNat 64 (t.d0.toNat * 2 ^ 32 + t.d1.toNat / 2 ^ 32) }) ∧
    (let scale := FVal.decode Fmt.f32 (w / 2 ^ 32)
     let ncol := Word.bits w 14 8
     let msel := w % 8
     let row (m : Nat) : List FVal := (((p.tile (tileOf x.a)).drop (64 * m)).take 64).map fun v => FVal.decode Fmt.f32 v.toNat
     let inc (m k : Nat) : Bool := k < ncol && (msel == 7 || !(SMap.lookD p.masks (msel * 64 + m) 0).getLsbD k)
     let old (l i : Nat) : FVal := FVal.decode Fmt.f32 ((c.lane l).vAt i).toNat
     let out (l g : Nat) : RowOut := rowStep scale (old l (vs + g)) (old l (vs + 2 + g)) (row (2 * l + g)) (inc (2 * l + g))
     Issues (.mrow y) s c x → (∃ m e, scale = .fin false m e) → Word.bits w 31 15 = 0 → ncol ≠ 0 → ncol ≤ 64 → Word.bits w 7 3 = 0 →
      (msel < 4 ∨ msel = 7) →
      p.tileBad = [] → (vs + 5 < vb ∨ vb + 63 < vs) → (∀ l ∈ c.lanes, SMap.rising l.v = true) →
      ∃ t z', exec (.mrow y) s = .next t ∧ t.mem = s.mem ∧ (t.panel? h).map (·.tiles) = some p.tiles ∧ t.strand? h n = some z' ∧
        (∀ l, l < 32 → c.act.getLsbD l = false → z'.lanes.getD l {} = c.lane l) ∧
        (∀ l g, l < 32 → c.act.getLsbD l = true → g < 2 →
          (z'.lanes.getD l {}).vAt (vs + g) = BitVec.ofNat 32 (out l g).mx ∧
          (z'.lanes.getD l {}).vAt (vs + 2 + g) = BitVec.ofNat 32 (out l g).sm ∧
          (z'.lanes.getD l {}).vAt (vs + 4 + g) = BitVec.ofNat 32 (out l g).al ∧
          (z'.lanes.getD l {}).qAt 0 = BitVec.ofNat 32 (out l 0).al) ∧
        -- four A slabs of probabilities: register 16k + r holds columns 16k + 2(r mod 8) and the next, of row 2l + r / 8
        (∀ l q r, l < 32 → c.act.getLsbD l = true → q < 4 → r < 16 →
          let pr := (out l (r / 8)).p
          let col := 16 * q + 2 * (r % 8)
          (z'.lanes.getD l {}).vAt (vb + 16 * q + r) = BitVec.ofNat 32 (pr.getD col 0 + 2 ^ 16 * pr.getD (col + 1) 0))) ∧
    (Issues (.mresc y) s c x → (∃ r, x.c = .sel r ∧ r.toNat < 2) → (s.core (panelKey p)).eng.length < 16 →
      Enters (.mresc y) s c h p [tileOf x.a] (.mresc (x.c == .sel 1) ((lanesOf c.act).flatMap fun l =>
        [(2 * l, ((c.lane l).vAt vb).toNat), (2 * l + 1, ((c.lane l).vAt (vb + 1)).toNat)]))))

/-- COLL and NORM complete at issue with their slice recorded in their collective, which starts when no member is missing, and
trap with COLL_DESC on a bad word; CQRD returns four zeros from an empty queue, else the oldest record, advancing the read
index; SCINC sends its increment, SCRD returns a counter, SCWAIT and MBRD move on once their condition holds and else wait; TRIG
queues its trigger in a free place; DPOST sends the demands it read; LPQ, VDHOP and VDQ return their descriptions. COLL_DESC's
detail (the word, and the lowest bit of the field) and the order of its checks are the model's reading (log 19). (R320, R326,
R328, R334, R336, R338, R340, R341, R342, R346, R350, R351) -/
def Obligations.FabricForms : Prop :=
  ∀ (s : State) (c : Cx) (x y : Args), c.any = true → s.named → s.acquired c = true → c.thr.async = none →
    (∀ m, c.ex = .mgt m → (s.ctx m (s.ctxOf c.ex)).st = .loaded) →
    let d := (s.site c.ex).1
    let k := s.ctxOf c.ex
    let a := c.uni .w64 x.a
    let b := c.uni .w64 x.b
    let words (o : Opnd) : LDesc := (List.range 8).map fun n => BitVec.ofNat 64 (c.s ((sregOf o).getD 0 + n))
    -- values on their way to consecutive S registers
    let lands (t : State) (vals : List Nat) : Prop := ∀ n v, vals[n]? = some v → ∃ id r u q, NewReq s t r ∧ r.ex = c.ex ∧
      r.pend = some id ∧ r.st = .data v none ∧ t.thr? c.ex = some u ∧ q ∈ u.pends ∧ q.id = id ∧
      q.sreg = some (((sregOf x.d).getD 0 + n) % 64, false)
    -- COLL and NORM
    (∀ i kind h p g,
      let ld := words x.a
      let tile : Option Nat := match x.b with | .imm i => some i.toNat | _ => none
      ((∃ q, i = .coll q y ∧ kind = q.c) ∨ i = .norm y ∧ kind = 8) → c.ex.panel = some h → s.panel? h = some p → Issues i s c x →
      soleIssuer s c = true → collWordFault kind false ld tile.isSome = none → s.readGroup c.ex p.die p.ctx ld.group = .ok g →
      s.groupNotYet c.ex ld.group (s.po c) = false →
      let rank := g.rank s.sysNum (s.vdie p.die p.ctx p.die)
      collSizeFault kind g.n rank ld = none → collAddrTraps s c.ex kind g.n rank ld p = [] →
      (∀ z ∈ s.colls, z.2.panel = some h → z.2.bobSeq = !c.ex.isStrand → z.2.k = c.thr.collSeq →
        z.2.kind = kind ∧ z.2.d = ld ∧ z.2.tile = tile) →
      (∀ e ∈ (s.core (panelKey p)).sb, e.2.poison = false) → s.released c.ex = true → s.panelReleased h p = true →
      (s.sbFree (panelKey p)).isSome = true →
      ∃ t id z, exec i s = .next t ∧ t.mem = s.mem ∧ t.reqs = s.reqs ∧ SMap.look t.colls id = some z ∧ z.kind = kind ∧ z.d = ld ∧
        z.tile = tile ∧ z.panel = some h ∧ (c.ex, c.pc) ∈ z.slices ∧ (∀ j n, c.ex = .str j n → n ∉ z.missing) ∧
        (z.missing = [] → z.started = true)) ∧
    (∀ i kind h p w f, ((∃ q, i = .coll q y ∧ kind = q.c) ∨ i = .norm y ∧ kind = 8) → c.ex.panel = some h → s.panel? h = some p →
      Issues i s c x → soleIssuer s c = true →
      collWordFault kind false (words x.a) (match x.b with | .imm _ => true | _ => false) = some (w, f) → Traps i s c (collTrap w f)) ∧
    -- CQRD
    (Issues (.cqrd y) s c x → a < 16 →
      let ri := SMap.lookD (s.ctx d k).ri a 0
      (ri = SMap.lookD (s.ctx d k).wi a 0 → ∃ t, exec (.cqrd y) s = .next t ∧ t.mem = s.mem ∧ lands t [0, 0, 0, 0] ∧
        (t.ctx d k).ri = (s.ctx d k).ri) ∧
      (∀ ws, ri ≠ SMap.lookD (s.ctx d k).wi a 0 → s.ctxWords d k (s.cqSlot d k a ri) 4 = .ok ws →
        ∃ t, exec (.cqrd y) s = .next t ∧ t.mem = s.mem ∧ lands t (ws.map (·.toNat)) ∧
          SMap.lookD (t.ctx d k).ri a 0 = (ri + 1) % 2 ^ 32)) ∧
    -- stitch counters
    (∀ p n, s.scPlace d k a = .ok (p, n) →
      (Issues (.scinc y) s c x → b ≠ 0 → b < 2 ^ 32 → s.released c.ex = true →
        ∃ t id, exec (.scinc y) s = .next t ∧ t.mem = s.mem ∧
          SMap.look t.scIncs id = some { ctx := k, socket := p, home := d, cnt := n, amt := b } ∧ ∀ j i, t.sc j i = s.sc j i) ∧
      (Issues (.scrd y) s c x → s.scFar c.ex p = false → ∃ t, exec (.scrd y) s = .next t ∧ t.mem = s.mem ∧ lands t [(s.sc p n).toNat]) ∧
      (Issues (.scwait y) s c x → s.scFar c.ex p = false → b ≤ (s.sc p n).toNat → 
        exec (.scwait y) s = .next (((s.advance c).crossCore d (s.site c.ex).2 p).dropL1 c.ex)) ∧
      (Issues (.scwait y) s c x → (s.scFar c.ex p = true ∨ (s.sc p n).toNat < b) → exec (.scwait y) s = waitAs s c .form)) ∧
    (∀ i f, (i = .scinc y ∧ b ≠ 0 ∧ b < 2 ^ 32 ∨ i = .scrd y ∨ i = .scwait y) → s.scPlace d k a = .error f → c.parts ≠ [] → Issues i s c x →
      Traps i s c f) ∧
    -- MBRD
    (Issues (.mbrd y) s c x → a < 8 →
      let v := s.ctxReg d k (0x30 + a)
      (v.getLsbD 63 = true → exec (.mbrd y) s = .next (((s.advance c).writeVec c .w64 x.d fun _ => v.toNat).dropL1 c.ex)) ∧
      (v.getLsbD 63 = false → exec (.mbrd y) s = waitAs s c .form)) ∧
    -- TRIG
    (∀ g,
      let w := c.s ((sregOf x.b).getD 0)
      let kind := Word.bits w 34 32
      let ld := words x.a
      Issues (.trig y) s c x → w / 2 ^ 62 ≤ 1 → Word.bits w 61 60 = 0 → Word.bits w 47 35 = 0 → kind ≤ 4 →
      (w / 2 ^ 62 = 1 → w % 2 ^ 32 = 0 ∧ (sregOf x.b).getD 0 ≠ 63) → (w / 2 ^ 62 = 0 → Word.bits w 59 48 < (s.scWin d k).2) →
      collWordFault kind true ld false = none → s.readGroup c.ex d k ld.group = .ok g → s.groupNotYet c.ex ld.group (s.po c) = false →
      let rank := g.rank s.sysNum (s.vdie d k d)
      collSizeFault kind g.n rank ld = none → ld.srcA % ld.es = 0 → ld.dstA % ld.es = 0 →
      (ld.comp = 1 → ∃ r, s.scPlace d k ld.compl = .ok r) → s.released c.ex = true →
      (∃ j, j < 1024 ∧ SMap.look (s.die d).trigs j = none) →
      ∃ t j z, exec (.trig y) s = .next t ∧ t.mem = s.mem ∧ SMap.look (s.die d).trigs j = none ∧ SMap.look (t.die d).trigs j = some z ∧
        z.ctx = k ∧ z.kind = kind ∧ z.d = ld ∧ z.rank = rank ∧ (z.time = true ↔ w / 2 ^ 62 = 1) ∧
        z.cnt = (s.scWin d k).1 + Word.bits w 59 48 ∧
        z.thresh = if w / 2 ^ 62 = 1 then c.s ((sregOf x.b).getD 0 + 1) else w % 2 ^ 32) ∧
    -- DPOST and LPQ
    (let group := c.s ((sregOf x.a).getD 0 + 4)
     let tag := c.s ((sregOf x.a).getD 0 + 7)
     (∀ i, (i = .dpost y ∨ i = .lpq y) → Issues i s c x → c.parts ≠ [] → 2 ^ 32 ≤ tag → Traps i s c (collTrap 7 32)) ∧
     (∀ g counts, Issues (.dpost y) s c x → tag < 2 ^ 32 → s.readGroup c.ex d k group = .ok g →
        (∀ q ∈ g.pkgs, q ≠ s.sysNum → ∃ z, SMap.look s.peers q = some z ∧ z.exch = true) → g.n ≤ 4096 → b % 4 = 0 →
        s.readUnits c.ex b g.n = .ok counts → s.released c.ex = true → s.issuerReleased c.ex = true → s.groupNotYet c.ex group (s.po c) = false →
        s.notYet c.ex b (4 * g.n) (s.po c) = false →
        ∃ t id z, exec (.dpost y) s = .next t ∧ t.mem = s.mem ∧ SMap.look t.demands id = some z ∧ z.ctx = k ∧ z.socket = d ∧ z.group = group ∧
          z.tag = tag ∧ z.counts = counts ∧ z.rank = g.rank s.sysNum (s.vdie d k d) ∧ z.pos = s.seqOf k d group tag true) ∧
     (let mine (q : Exch) : Prop := q ∈ s.exchs ∧ q.ctx = k ∧ q.group = group ∧ q.tag = tag ∧
        (SMap.look q.posts (q.grp.rank s.sysNum (s.vdie d k d))).isSome = true
      (Issues (.lpq y) s c x → tag < 2 ^ 32 → (∀ q, ¬ mine q) → ∃ t, exec (.lpq y) s = .next t ∧ t.mem = s.mem ∧ lands t [0, 0]) ∧
      (∀ q, Issues (.lpq y) s c x → tag < 2 ^ 32 → mine q → (∀ q', mine q' → q' ≠ q → q'.pos < q.pos) →
        ∃ t, exec (.lpq y) s = .next t ∧ t.mem = s.mem ∧ lands t (lpqVals q (q.grp.rank s.sysNum (s.vdie d k d)) b)))) ∧
    -- VDHOP and VDQ
    (Issues (.vdhop y) s c x → a < (s.dmap d k).length → b < (s.dmap d k).length →
      ∃ t, exec (.vdhop y) s = .next t ∧ t.mem = s.mem ∧ lands t [s.hops ((s.dmap d k).getD a 0) ((s.dmap d k).getD b 0)]) ∧
    (Issues (.vdq y) s c x → (a < 16 ∨ a = 255) → ∃ t, exec (.vdq y) s = .next t ∧ t.mem = s.mem ∧ lands t [s.vdqVal d k a])

/-- A collective whose status is decided completes without moving an element, recording COLL_FAIL for its live issuers where it
failed; one of this package whose members have read their sources gives its destination the elements of its kind, writes one in
each step and nothing else, and completes once every member has written; a stitch increment steps one counter and makes its due
triggers next; a due trigger starts its collective; a demand is kept by its exchange; a member begins and ends its phases;
arbiters see, take over with a plan numbered above those seen, and return; a flit is resent until it is acknowledged or the
eighth failure loses the port; a lost port stays lost; reopened rings hold no injections and let go what waited for them. That
the two arbiters number their plans separately is the model's choice (log 93). That one element moves in each step (log 27, log
32), and that a flit's resending is one retry which succeeds or fails freely (log 80), are the model's choices. (R19, R215,
R322, R323, R328, R331, R336, R338, R342, R344, R345, R347) -/
def Obligations.FabricSteps : Prop :=
  ∀ s : State,
    -- COLL_COMPLETE: what has not started, or is finished, stands; a status decided already completes with no element moved
    (∀ id z, SMap.look s.colls id = some z → (z.started = false ∨ z.fin = true) → exec (.collComplete id) s = .next s) ∧
    (∀ id z, SMap.look s.colls id = some z → z.started = true → z.fin = false →
      let ms := s.mates z
      let n := z.grp.n
      let cnt := z.ld.count
      let w := s.collAt z
      let again := exec (.collComplete id) s = .next (s.post (.collComplete id))
      (s.collHeld z = true → again) ∧
      (∀ f, z.forced = some f → f ≠ 1 → f ≠ 8 → ∃ st, s.endStatus z = some st ∧ st ≠ 1 ∧ st ≠ 8 ∧ st ≤ f) ∧
      (∀ st, s.collHeld z = false → s.endStatus z = some st → z.ld.cq = false → z.ld.comp ≠ 0 → SMap.rising s.colls = true →
        ∃ t, exec (.collComplete id) s = .next t ∧ t.mem = s.mem ∧ (∀ z', SMap.look t.colls id = some z' → z'.fin = true) ∧
          (st ≠ 1 → st ≠ 8 → ∀ sl ∈ z.slices, s.alive sl.1 (z.since.getD id) = true → ∃ u, t.thr? sl.1 = some u ∧ u.async.isSome = true)) ∧
      (s.collHeld z = false → s.endStatus z = none →
        (∀ i j, z.sb = some (i, j) → s.sbOlder i j = true → again) ∧
        -- a group of this package whose members have all read their sources
        ((∀ i j, z.sb = some (i, j) → s.sbOlder i j = false) → z.src.isSome = true → z.pkgs = [s.sysNum] →
          (∀ r, r < n → ∃ m, mateAt ms r = some m ∧ m.src.isSome = true) →
          -- what its destination receives, by the kind of collective
          (z.out = none → z.kind ≤ 4 → ∃ t z' els, exec (.collComplete id) s = .next t ∧ t.mem = s.mem ∧
            SMap.look t.colls id = some z' ∧ z'.out = some els ∧ z'.fin = false ∧
            (z.kind = 0 → ∀ r e, r < n → e < cnt → ∃ f, (r * cnt + e, srcElt ms z r e, f) ∈ els) ∧
            (z.kind = 1 → ∀ e, e < cnt → ∃ f, (e, foldRanks z.ld.op z.ld.ty ((List.range n).map fun i => srcElt ms z i (z.rank * cnt + e)), f) ∈ els) ∧
            (z.kind = 2 → ∀ e, e < cnt → ∃ f, (e, foldRanks z.ld.op z.ld.ty ((List.range n).map fun i => srcElt ms z i e), f) ∈ els) ∧
            (z.kind = 3 → ∀ e, e < cnt → ∃ f, (e, srcElt ms z z.ld.aux e, f) ∈ els) ∧
            (z.kind = 4 → z.rank ≠ 0 → ∀ e, e < cnt → ∃ f, (e, srcElt ms z (z.rank - 1) e, f) ∈ els)) ∧
          -- one element written in each step
          (∀ i v f rest, z.out = some ((i, some v, f) :: rest) → z.kind ≤ 4 → z.status = 1 →
            let a := Word.ofInt 64 (z.ld.dstA + z.ld.es * i)
            (∀ pa q, z.ld.dstG = true → s.engWalkHeld w.d w.k w.c a = false → s.engPlace w.d w.k w.c a .write = .ok (pa, q) →
              s.unreachable q.pkg = false → s.engBlocked w.d z.ld.es false q = false → s.groupBad q = false → s.memOk →
              ∃ t, exec (.collComplete id) s = .next t ∧
                SMap.look t.colls id = some { z with out := some rest, bytes := z.bytes + z.ld.es } ∧
                Memory.read t.mem q.key z.ld.es = v % 256 ^ z.ld.es ∧
                ∀ b, (b < q.key ∨ q.key + z.ld.es ≤ b) → Memory.byte t.mem b = Memory.byte s.mem b) ∧
            (∀ h p, z.ld.dstG = false → z.panel = some h → s.panel? h = some p →
              ∃ t, exec (.collComplete id) s = .next t ∧ t.mem = s.mem ∧
                SMap.look t.colls id = some { z with out := some rest, bytes := z.bytes + z.ld.es } ∧
                (t.panel? h).map (·.spad) = some (Memory.write p.spad (z.ld.dstA + z.ld.es * i) z.ld.es v))) ∧
          -- it completes once every member has written its destination
          (z.out = some [] → z.kind ≤ 4 → (∀ r m, r < n → mateAt ms r = some m → m.wrote = true) → z.ld.cq = false → z.ld.comp ≠ 0 →
            SMap.rising s.colls = true →
            ∃ t, exec (.collComplete id) s = .next t ∧ t.mem = s.mem ∧ ∀ z', SMap.look t.colls id = some z' → z'.fin = true)))) ∧
    -- STITCH_INCREMENT: one counter steps, and the triggers it makes due are next
    (∀ id y, SMap.look s.scIncs id = some y →
      let far : Prop := s.rings.held = true ∧ y.home ≠ y.socket ∨ s.gone y.socket = true
      (far → exec (.stitchIncrement id) s = .next (s.post (.stitchIncrement id))) ∧
      (¬ far → SMap.rising (s.die y.socket).stitch = true →
        ∃ t, exec (.stitchIncrement id) s = .next t ∧ t.mem = s.mem ∧
          t.sc y.socket y.cnt = s.sc y.socket y.cnt + BitVec.ofNat 64 y.amt ∧
          (∀ p n, (p ≠ y.socket ∨ n ≠ y.cnt) → t.sc p n = s.sc p n) ∧
          ∀ e ∈ (s.die y.socket).trigs, e.2.time = false → e.2.cnt = y.cnt →
            e.2.thresh ≤ (s.sc y.socket y.cnt + BitVec.ofNat 64 y.amt).toNat → .triggerFire y.socket e.1 ∈ t.inflight)) ∧
    -- TRIGGER_FIRE
    (∀ d i g, SMap.look (s.die d).trigs i = some g → SMap.rising (s.die d).trigs = true →
      (s.trigDue d g = false → exec (.triggerFire d i) s = .next (if g.time then s.post (.triggerFire d i) else s)) ∧
      (s.trigDue d g = true → (∀ u ∈ (s.die d).trigs, u.2.cnt = g.cnt → u.2.time = false → g.time = false → g.order ≤ u.2.order) →
        ∃ t id z, exec (.triggerFire d i) s = .next t ∧ t.mem = s.mem ∧ SMap.look (t.die d).trigs i = none ∧
          SMap.look t.colls id = some z ∧ z.kind = g.kind ∧ z.d = g.d ∧ z.started = true ∧ z.socket = d ∧ z.ctx = g.ctx)) ∧
    -- EXCHANGE_DEMAND and EXCHANGE_PHASE
    (∀ id y, SMap.look s.demands id = some y → s.rings.held = true →
      exec (.exchangeDemand id) s = .next (s.post (.exchangeDemand id))) ∧
    (∀ id y, SMap.look s.demands id = some y → s.rings.held = false →
      (∀ q ∈ s.exchs, q.ctx = y.ctx → q.group = y.group → q.tag = y.tag → q.pos = y.pos → SMap.look q.posts y.rank = none) →
      ∃ t q, exec (.exchangeDemand id) s = .next t ∧ t.mem = s.mem ∧ q ∈ t.exchs ∧ q.ctx = y.ctx ∧ q.group = y.group ∧
        q.tag = y.tag ∧ q.pos = y.pos ∧ SMap.look q.posts y.rank = some y.counts) ∧
    (∀ id z q ph b act, SMap.look s.colls id = some z → s.rings.held = false → z.fin = false → z.src.isSome = true → z.kind = 5 →
      s.exchs.find? (fun q => q.ctx == z.ctx && q.group == z.ld.group && q.tag == z.ld.tag && q.pos == z.seq) = some q →
      (s.spans q = false ∨ s.arb.crossPrimary = true) → q.isOver = false →
      (z.posted = true ∨ (SMap.look q.posts z.rank).isSome = true) → q.phases = some ph →
      SMap.lookD q.begun z.rank (0, false) = (b, act) →
      (act = true → ∃ t q', exec (.exchangePhase id) s = .next t ∧ t.mem = s.mem ∧ q' ∈ t.exchs ∧
        SMap.look q'.begun z.rank = some (b, false) ∧ q'.sent = (sendPhase s (s.mates z) z q z.rank (ph.getD (b - 1) [])).sent) ∧
      (act = false → b < ph.length → ∃ t q', exec (.exchangePhase id) s = .next t ∧ t.mem = s.mem ∧ q' ∈ t.exchs ∧
        SMap.look q'.begun z.rank = some (b + 1, true) ∧ q'.sent = q.sent)) ∧
    -- the arbiters, the ports and the rings
    (∃ t, exec .heartbeat s = .next t ∧ t.mem = s.mem ∧ t.arb.last = s.arb.last ∧ t.arb.lastCross = s.arb.lastCross ∧
      (s.arb.standby = true → s.rings.held = false → s.arb.last ≤ t.arb.seen) ∧
      (s.arb.standby = false ∨ s.rings.held = true → t.arb.seen = s.arb.seen) ∧
      (s.arb.crossPrimary = true → s.arb.lastCross ≤ t.arb.seenCross)) ∧
    (s.arb.standby = false → exec .standbyTakeover s = .next s) ∧
    (s.arb.standby = true → ∃ t, exec .standbyTakeover s = .next t ∧ t.mem = s.mem ∧ t.arb.standby = false ∧ t.arb.failed = true ∧
      -- the plan of an exchange is numbered above every number seen, and is a residual one where a member has more than it posted
      ∀ q, s.exchs = [q] → s.spans q = false → q.isOver = false → q.phases.isSome = true → ∃ q', t.exchs = [q'] ∧
        q'.num = (max s.arb.seen q.num + 1) % 2 ^ 32 ∧ q'.resid = (q.resid || s.overDemand q) ∧ q'.posts = q.posts) ∧
    (s.arb.failed = true → ∃ t, exec .arbiterReturn s = .next t ∧ t.mem = s.mem ∧ t.arb.standby = true ∧ t.arb.failed = false) ∧
    (s.arb.crossPrimary = true → s.arb.crossStandby = false → ∃ t, exec (.arbiterPackageLoss true) s = .next t ∧ t.mem = s.mem ∧
      t.arb.crossPrimary = false ∧ ∀ e ∈ s.colls, e.2.kind = 5 → e.2.started = true → e.2.fin = false →
        e.2.pkgs.any (· != s.sysNum) = true → (e.1, { e.2 with forced := some 2 }) ∈ t.colls) ∧
    (s.arb.crossStandby = true → ∃ t, exec (.arbiterPackageLoss true) s = .next t ∧ t.mem = s.mem ∧ t.arb.crossPrimary = true ∧
      t.arb.crossStandby = false ∧
      -- only plans of exchanges that span packages are numbered anew
      ∀ q, s.exchs = [q] → s.spans q = true → q.isOver = false → q.phases.isSome = true → t.arb.last = s.arb.last ∧ ∃ q', t.exchs = [q'] ∧
        q'.num = (max s.arb.seenCross q.num + 1) % 2 ^ 32 ∧ q'.resid = (q.resid || s.overDemand q) ∧ q'.posts = q.posts) ∧
    (∀ p, (16 ≤ p ∨ s.portsLost.contains p = true) → exec (.flitRetry p) s = .next s) ∧
    (∀ p, p < 16 → s.portsLost.contains p = false → SMap.rising s.retries = true → ∃ t, exec (.flitRetry p) s = .next t ∧ t.mem = s.mem ∧
      let k := SMap.lookD s.retries p 0
      -- acknowledged now, or one failed retry more; the eighth in a row loses the port
      (t.portsLost = s.portsLost ∧ SMap.lookD t.retries p 0 = 0 ∨ k + 1 < 8 ∧ t.portsLost = s.portsLost ∧ SMap.lookD t.retries p 0 = k + 1 ∨
        8 ≤ k + 1 ∧ p ∈ t.portsLost ∧ SMap.lookD t.retries p 0 = 0)) ∧
    (∀ p, p < 16 → ∃ t, exec (.portLoss p) s = .next t ∧ t.mem = s.mem ∧ p ∈ t.portsLost ∧ ∀ q ∈ s.portsLost, q ∈ t.portsLost) ∧
    (∃ t, exec .ringReopen s = .next t ∧ t.mem = s.mem ∧ t.rings.held = false ∧ t.rings.chain = s.rings.chain ∧
      -- what waited for the rings goes on: the HOSTMB signals, and the images that resume on another die
      t.rung = [] ∧ (∀ m ∈ s.rung, (t.mgt m).mevent.getLsbD 5 = true) ∧ ∀ d ∈ s.dies, .panelPlacement d.1 ∈ t.inflight)

/-- FORK completes with its record last in the ring of its level, its four words written at the ring's next place and its
garment's live count raised, or waits while the ring is full or its place cannot be reached; JCTR writes the 64 bytes of its
object and no other byte; LNCH starts the garment of its descriptor and returns its number; FORK and LNCH trap with SCHED_DESC
on a bad field; YIELD begins the save that was asked for, of the block's LIVEV registers and LIVEQ queue entries; QPUSH and QPOP
move tokens in order, wait on a full or short queue or on one of another die while the rings are held, and trap on a bad
reference; PRIO sets the panel's priority; SRD returns an identity. SCHED_DESC's detail (the word, and the lowest bit of the
field) is the model's reading (log 19), and that the die holds a record which memory does not take is its choice (log 30); that
JCTR's object is written and its garment's live count raised in the issuing step is deduced (log 46). (R354, R357, R362, R371,
R374, R375, R376, R377, R378, R379, R380, R381) -/
def Obligations.SchedulingForms : Prop :=
  ∀ (s : State) (c : Cx) (x y : Args), c.any = true → s.acquired c = true → c.thr.async = none →
    let d := (s.site c.ex).1
    let k := s.ctxOf c.ex
    let a := c.uni .w64 x.a
    let b := c.uni .w64 x.b
    let slotIn (ok : List CtxSt) : Prop := ∀ m, c.ex = .mgt m → (s.ctx m k).st ∈ ok
    -- FORK and JCTR
    (∀ h p, c.ex.panel = some h → s.panel? h = some p →
      let r := recAt c x.a
      let key := State.ringKey p.ctx p.part b
      let i := SMap.lookD (s.die p.die).tails key 0 % s.ringCap p.die p.ctx
      let va (j : Nat) : Nat := (s.ringVa p.die p.ctx p.part b i + 8 * j) % 2 ^ 64
      let w : EngAt := { d := p.die, k := 0x7F, c := p.ctx }
      let pushed (t : State) (slot : Option Nat) : Prop :=
        exec (.fork y) s = .next t ∧
        t.ring p.die key = s.ring p.die key ++ [{ crec := r, garment := p.garment, slot := slot }] ∧
        ∀ g, SMap.look (s.job p.ctx).garments p.garment = some g →
          SMap.look (t.job p.ctx).garments p.garment = some { g with live := g.live + r.panels }
      (Issues (.fork y) s c x → b ≤ 3 → recFault r = none →
        (s.ringFull p.die p.ctx p.part b = true → Waits (.fork y) s) ∧
        (s.ringFull p.die p.ctx p.part b = false →
          -- the four words of the record are written at the ring's next place; what one write changes is said below
          (∀ s1 s2 s3 s4, (s.advance c).wr w (va 0) 8 r.hdr.toNat = .ok s1 () → s1.wr w (va 1) 8 r.frame.toNat = .ok s2 () →
            s2.wr w (va 2) 8 r.join.toNat = .ok s3 () → s3.wr w (va 3) 8 r.shape.toNat = .ok s4 () →
            ∃ t, pushed t (some i) ∧ t.mem = s4.mem) ∧
          -- where memory does not take them, the die holds the record (the model's choice, log 30)
          (∀ f va', (s.advance c).wr w (va 0) 8 r.hdr.toNat = .fail f va' → ∃ t, pushed t none ∧ t.mem = s.mem) ∧
          ((s.advance c).wr w (va 0) 8 r.hdr.toNat = .wait → Waits (.fork y) s))) ∧
      (∀ w f, Issues (.fork y) s c x → b ≤ 3 → c.parts ≠ [] → recFault r = some (w, f) → Traps (.fork y) s c (schedTrap w f)) ∧
      (∀ pa pl, Issues (.jctr y) s c x → b % 2 ^ 32 ≠ 0 → b < 2 ^ 34 → recFault (recAt c x.c) = none → a % 64 = 0 →
        s.placeOf c.ex a .write = .ok (pa, some pl) →
        (s.reqs.any fun z => z.2.ex == c.ex && z.2.unapplied) = false → (s.kvs.any fun z => z.2.ex == c.ex) = false →
        s.mergeWaits c.ex (s.po c) = false →
        s.unreachable pl.pkg = false → s.engBlocked p.die 64 false pl = false → s.groupBad pl = false →
        Word.bit (s.readAt pl 8) 33 = false → s.memOk →
        ∃ t, exec (.jctr y) s = .next t ∧
          Memory.read t.mem pl.key 64 = joinObject p.gid p.part (Word.bits b 33 32) (b % 2 ^ 32) (recAt c x.c) % 256 ^ 64 ∧
          (∀ z, (z < pl.key ∨ pl.key + 64 ≤ z) → Memory.byte t.mem z = Memory.byte s.mem z) ∧
          ∀ g, SMap.look (s.job p.ctx).garments p.garment = some g →
            SMap.look (t.job p.ctx).garments p.garment = some { g with live := g.live + 1 })) ∧
    -- a word written by an engine changes its 8 bytes and no other
    (∀ (w : EngAt) va v pa q, s.memOk → s.engWalkHeld w.d w.k w.c va = false → s.engPlace w.d w.k w.c va .write = .ok (pa, q) →
      s.unreachable q.pkg = false → s.engBlocked w.d 8 false q = false → s.groupBad q = false →
      ∃ u, s.wr w va 8 v = .ok u () ∧ Memory.read u.mem q.key 8 = v % 256 ^ 8 ∧
        ∀ z, (z < q.key ∨ q.key + 8 ≤ z) → Memory.byte u.mem z = Memory.byte s.mem z) ∧
    -- LNCH
    (∀ ws, Issues (.lnch y) s c x → slotIn [.preparing, .loaded, .saved] → a % 8 = 0 → s.readWords c.ex a 8 = .ok ws →
      s.notYet c.ex a 64 (s.po c) = false → s.pointReady c false 0 [] = true →
      (garmentFault s d k ws = none → (s.rings.held = true → ∀ e ∈ s.launchDies d k ws, e = d) → ∃ t g, exec (.lnch y) s = .next t ∧ t.mem = s.mem ∧ (t.job k).gid = s.nextGid k ∧
        SMap.look (t.job k).garments (s.nextGid k) = some g ∧ g.fin = false ∧
        g.live = (ws.getD 4 0).toNat % 2 ^ 32 * (recOf ws).panels ∧ g.status = ws.getD 5 0 ∧
        ∀ n, x.d = .s n → (s.thr c.ex).ss.length = 64 → (t.thr c.ex).ss.getD n.toNat 0 = BitVec.ofNat 64 (s.nextGid k % 2 ^ 24)) ∧
      (∀ w f, c.parts ≠ [] → garmentFault s d k ws = some (w, f) → TrapsRead (.lnch y) s c (schedTrap w f))) ∧
    -- YIELD
    (∀ h i z, Issues (.yield y) s c x → c.ex = .str h i → s.strand? h i = some z →
      (z.yieldAt = none → exec (.yield y) s = .next (s.advance c)) ∧
      (z.yieldAt.isSome = true → z.saving = false → State.slotOf z (!c.slotB) = none →
        ∃ t, exec (.yield y) s = .next t ∧ t.mem = s.mem ∧ (t.strand? h i).map (·.saving) = some true ∧
          .forcedSave h i ∈ t.inflight ∧
          (t.strand? h i).map (·.coop) = some (some (Hdr.livev c.hdr, Hdr.liveq c.hdr)))) ∧
    -- QPUSH and QPOP
    (let toks := if uniform x.b then [c.uni .w32 x.b] else c.parts.map (c.src .w32 x.b)
     Issues (.qpush y) s c x → toks ≠ [] → slotIn [.loaded] →
      (∀ e q, s.tokenQueue d k a = some (e, q) → (s.rings.held = true → e = d) →
        ((SMap.lookD (s.die e).tokens q []).length + toks.length ≤ tokenCap → s.released c.ex = true →
          ∃ t, exec (.qpush y) s = .next t ∧ t.mem = s.mem ∧
            SMap.lookD (t.die e).tokens q [] = SMap.lookD (s.die e).tokens q [] ++ toks.map (BitVec.ofNat 32)) ∧
        (tokenCap < (SMap.lookD (s.die e).tokens q []).length + toks.length → exec (.qpush y) s = waitAs s c .form)) ∧
      (∀ e q, s.tokenQueue d k a = some (e, q) → s.rings.held = true → e ≠ d → exec (.qpush y) s = waitAs s c .form) ∧
      (s.tokenQueue d k a = none → c.parts ≠ [] → Traps (.qpush y) s c { trap := .tokenRange, d0 := BitVec.ofNat 64 a })) ∧
    (let ls := if (sregOf x.d).isSome then [c.low] else c.parts
     Issues (.qpop y) s c x → ls ≠ [] → slotIn [.loaded] →
      (∀ e q, s.tokenQueue d k a = some (e, q) → (s.rings.held = true → e = d) →
        let have' := SMap.lookD (s.die e).tokens q []
        (ls.length ≤ have'.length → SMap.rising (s.die e).tokens = true →
          ∃ t, exec (.qpop y) s = .next t ∧ t.mem = s.mem ∧ SMap.lookD (t.die e).tokens q [] = have'.drop ls.length ∧
            ∀ h i z z' j l, c.ex = .str h i → sregOf x.d = none → s.strand? h i = some z → z.lanes.length = 32 →
              t.strand? h i = some z' → ls[j]? = some l → c.dead.getLsbD l = false →
              (z'.lanes.getD l {}).qAt 0 = have'.getD j 0) ∧
        (have'.length < ls.length → exec (.qpop y) s = waitAs s c .form)) ∧
      (∀ e q, s.tokenQueue d k a = some (e, q) → s.rings.held = true → e ≠ d → exec (.qpop y) s = waitAs s c .form) ∧
      (s.tokenQueue d k a = none → c.parts ≠ [] → Traps (.qpop y) s c { trap := .tokenRange, d0 := BitVec.ofNat 64 a })) ∧
    -- PRIO and SRD
    (Issues (.prio y) s c x → a ≤ 3 → ∃ t, exec (.prio y) s = .next t ∧ t.mem = s.mem ∧
      ∀ h, c.ex.panel = some h → (t.panel? h).map (·.prio) = some a) ∧
    (Issues (.prio y) s c x → 3 < a → c.parts ≠ [] → Traps (.prio y) s c { trap := .illegalOperand }) ∧
    (Issues (.srd y) s c x →
      ((s.identity c (sregOf x.d).isSome a c.low).isSome = true →
        Gives (.srd y) s c x .w32 fun l => (s.identity c (sregOf x.d).isSome a l).getD 0) ∧
      (s.identity c (sregOf x.d).isSome a c.low = none → c.parts ≠ [] → Traps (.srd y) s c { trap := .illegalOperand }))

/-- A placement takes the head of its ring and starts its panels with their identities, or gives them a status and no strands,
or brings a saved panel or strand back; a distributor pushes its oldest record that fits; a panel whose work is over sends its
join decrement, then leaves; one of which only saved strands are left, its bobbin ended or evicted, is swapped out; a join
decrement takes one off its object, changes no other byte, and its last one hands over the continuation record; pre-emption asks
the strands it chose to yield by their deadline; pre-emption and a forced save keep every lane's registers, a save by YIELD
those declared live; the Gather Former forms and starts groups; an expired watchdog ends its context on every die of it; a
finished save leaves the slot SAVED. Which cores a pre-emption keeps and whom it chooses follow log 85; that an entry header
which cannot be read counts as a bad entry is log 74; the save area's room by kind is log 30: these are the model's readings.
(R116, R117, R235, R358, R361, R363, R366, R367, R368, R369, R393, R414) -/
def Obligations.PlacementSteps : Prop :=
  ∀ (s : State) (d h : Nat),
    -- PANEL_PLACEMENT and DISTRIBUTOR_PUSH
    (s.gone d = true → exec (.panelPlacement d) s = .next s) ∧
    (s.gone d = false → s.headHeld d = true → exec (.panelPlacement d) s = .next (s.post (.panelPlacement d))) ∧
    (s.gone d = false → s.headHeld d = false →
      (∀ c p l u at' good, State.bestCand (s.candidates d) = some (.unit c p l u at') → s.entriesOk d c u.crec = .ok good →
        SMap.rising (s.die d).rings = true →
        ∃ t, exec (.panelPlacement d) s = .next t ∧ t.mem = s.mem ∧
          t.ring d (State.ringKey c p l) = (s.ring d (State.ringKey c p l)).drop 1 ∧
          ∀ i, i < u.crec.panels → ∃ q, t.panel? (s.nextId + i) = some q ∧ q.ctx = c ∧ q.die = d ∧ q.part = p ∧ q.garment = u.garment ∧
            q.panelId = (u.crec.panelId + i) % 2 ^ 19 ∧ (at' = [] → q.status = 5 ∧ q.strands = []) ∧
            (at' ≠ [] → good = false → q.status = 4 ∧ q.strands = []) ∧
            (at' ≠ [] → good = true → q.status = 0 ∧ q.core = (at'[i]?).map (·.1) ∧ q.strands.length = u.crec.nstr)) ∧
      (∀ i, State.bestCand (s.candidates d) = some (.strand h i) →
        exec (.panelPlacement d) s = .next ((s.modStrand h i fun t => { t with out := false }).post (.panelPlacement d))) ∧
      -- a saved panel that resumes: its executors as they were, its L1 lines gone
      (∀ k b p, State.bestCand (s.candidates d) = some (.resume [(h, k, b)]) → s.panel? h = some p →
        ∃ t q, exec (.panelPlacement d) s = .next t ∧ t.mem = s.mem ∧ t.panel? h = some q ∧ q.die = d ∧ q.core = some k ∧ q.spadBase = b ∧
          q.saved = [] ∧ q.spad = p.spad ∧
          -- every executor as it was; the progress it made was counted where it made it (R393)
          q.strands = p.strands.map (fun z => (z.1, { z.2 with thr := { z.2.thr with lastProgress := 0 } })) ∧
          q.bob = { p.bob with thr := { p.bob.thr with lastProgress := 0 } } ∧ (t.core (State.coreKey d k)).l1 = [] ∧
          h ∉ (t.job p.ctx).resume ∧
          -- its scoreboard entries are registered again, each younger than the ones before it
          (SMap.rising (s.core (State.coreKey d k)).sb = true → p.saved.length ≤ s.sbRoom (State.coreKey d k) →
            ∃ f : Nat → SbEntry, (∀ n e, p.saved[n]? = some e → (∃ j, SMap.look (t.core (State.coreKey d k)).sb j = some (f n)) ∧
              (f n).op = e.op ∧ (f n).panel = h ∧ (f n).poison = e.poison ∧ (f n).rlo = e.rlo + b * 4096 ∧ (f n).rhi = e.rhi + b * 4096 ∧
              (f n).wlo = e.wlo + b * 4096 ∧ (f n).whi = e.whi + b * 4096) ∧
            ∀ m n, m < n → n < p.saved.length → (f m).age < (f n).age))) ∧
    (∀ i u, (s.die d).held.findIdx? (fun z => (s.ctx d z.ctx).st == .loaded && !s.ringFull d z.ctx z.part z.level) = some i →
      (s.die d).held[i]? = some u →
      let s1 := s.modDie d fun x => { x with held := x.held.eraseIdx i }
      (∀ v, s1.ringPush d u.ctx u.part u.level u.unit = some v →
        ∃ t, exec (.distributorPush d) s = .next t ∧ t.mem = v.mem ∧ (t.die d).held = (s.die d).held.eraseIdx i ∧
          ∃ sl, t.ring d (State.ringKey u.ctx u.part u.level) =
            s.ring d (State.ringKey u.ctx u.part u.level) ++ [{ u.unit with slot := sl }]) ∧
      (s1.ringPush d u.ctx u.part u.level u.unit = none → exec (.distributorPush d) s = .next (s.post (.distributorPush d)))) ∧
    -- PANEL_COMPLETE and JOIN_DECREMENT
    (∀ p, s.panel? h = some p → p.live ≠ [] → State.mustLeave p = false → exec (.panelComplete h) s = .next s) ∧
    -- a panel of which only images are left leaves its core: one evicted, or whose bobbin has ended
    (∀ p, s.panel? h = some p → p.core.isSome = true → p.leaving = false → p.killed = false → p.done = false → p.swatch = none →
      (∀ t ∈ p.strands, t.2.isOver = true ∨ t.2.out = true) →
      (p.bob.isOver = true ∧ (∃ t ∈ p.strands, t.2.isOver = false ∧ t.2.out = true) ∨ p.bob.isOver = false ∧ p.bob.evict = true) →
      ∃ t, exec (.panelComplete h) s = .next t ∧ t.mem = s.mem ∧ t.panel? h = some { p with leaving := true } ∧ .panelSwapOut h ∈ t.inflight) ∧
    (∀ p, s.panel? h = some p → p.done = false → p.live = [] → p.bob.isOver = true → p.records = 0 → s.panelIdle h p = true →
      (p.crec.join ≠ 0 → p.joined = 0 → ∃ t id j, exec (.panelComplete h) s = .next t ∧ t.mem = s.mem ∧
        SMap.look t.joins id = some j ∧ j.addr = p.crec.join ∧ j.panel = some h ∧ j.ctx = p.ctx ∧
        (t.panel? h).map (·.joined) = some 1) ∧
      (∀ u, (p.crec.join = 0 ∨ p.joined = 2) → p.joined ≠ 1 → s.garmentSub p.die p.ctx p.garment p.status = some u → p.swatch = none →
        SMap.rising u.panels = true → ∃ t, exec (.panelComplete h) s = .next t ∧ t.mem = u.mem ∧ t.panel? h = none) ∧
      ((p.crec.join = 0 ∨ p.joined = 2) → p.joined ≠ 1 → s.garmentSub p.die p.ctx p.garment p.status = none →
        exec (.panelComplete h) s = .next (s.post (.panelComplete h)))) ∧
    (∀ id j pa pl,
      let s0 := { s with joins := SMap.del s.joins id }
      let w := s.readAt pl 8
      let n := w % 2 ^ 32
      SMap.look s.joins id = some j → j.addr.toNat % 64 = 0 → s0.engWalkHeld j.socket 0x7F j.ctx j.addr.toNat = false → s0.engPlace j.socket 0x7F j.ctx j.addr.toNat .both = .ok (pa, pl) →
      s.unreachable pl.pkg = false → s0.engBlocked j.socket 8 true pl = false → s.groupBad pl = false → s.badIn pl 8 = false → Word.bit w 33 = true → n ≠ 0 →
      s.memOk →
      ∃ t, exec (.joinDecrement id) s = .next t ∧
        Memory.read t.mem pl.key 8 = (if n = 1 then w - 1 - 2 ^ 33 else w - 1) ∧
        (∀ z, (z < pl.key ∨ pl.key + 8 ≤ z) → Memory.byte t.mem z = Memory.byte s.mem z) ∧
        (n = 1 → pl.pkg = s.pkg → ∃ u ∈ (t.die pl.socket).held, u.ctx = j.ctx ∧ u.unit.garment = s.garmentKey j.ctx (w / 2 ^ 40) ∧
          u.unit.crec = recOf ((List.range 4).map fun i => BitVec.ofNat 64 (s.readAt { pl with byte := pl.byte + 8 + 8 * i } 8)))) ∧
    (∀ id j, SMap.look s.joins id = some j → j.addr.toNat % 64 ≠ 0 →
      ∃ t, exec (.joinDecrement id) s = .next t ∧ t.mem = s.mem ∧ ∀ x p, j.panel = some x → s.panel? x = some p →
        t.panel? x = some { p with joined := 2, status := 6 }) ∧
    -- PREEMPTION, FORCED_SAVE and PANEL_SWAP_OUT
    (s.starvedRings d = [] → exec (.preemption d) s = .next s) ∧
    -- the strands chosen on the lowest core that they free are asked to yield by the deadline of the partition
    (∀ c p l u k vs, s.starvedRings d = [(c, p, l)] → s.headOf d c p l = some u →
      let w := s.part d c p
      k < 80 → Word.bit (partReach w) (k / 8) = true → s.choose' d k u.crec (partPrio w) = some (vs, false) →
      (∀ j, j < k → Word.bit (partReach w) (j / 8) = true → s.choose' d j u.crec (partPrio w) = none) →
      ∃ t, exec (.preemption d) s = .next t ∧ (t.die d).preempts = (s.die d).preempts ++ [{ core := k, sw := u.crec.sw, ctx := c, part := p, level := l }] ∧
        ∀ v ∈ vs, ∀ z, s.strand? v.panel v.slot = some z → (t.strand? v.panel v.slot).map (·.yieldAt) =
          some (some (z.yieldAt.getD (BitVec.ofNat 64 (s.time.toNat + 64 * partYwin w))))) ∧
    (∃ t, exec (.preemption d) s = .next t ∧ t.mem = s.mem ∧ t.reqs = s.reqs ∧
      ∀ j i, (t.strand? j i).map (·.lanes) = (s.strand? j i).map (·.lanes)) ∧
    (∀ i z, s.strand? h i = some z → z.isOver = false →
      (z.saving = true → s.quiet (.str h i) = true → s.roomFor (.str h i) 3 1 = true → ∃ t z', exec (.forcedSave h i) s = .next t ∧ t.mem = s.mem ∧
        t.strand? h i = some z' ∧ z'.out = true ∧ z'.saving = false ∧
        -- a forced save keeps every register, a cooperative one those that its block's header declares live
        (z.coop = none → z'.lanes = z.lanes) ∧
        (∀ v q, z.coop = some (v, q) → z'.lanes.length = z.lanes.length ∧ ∀ l, l < z.lanes.length →
          let n := z.lanes.getD l {}
          let n' := z'.lanes.getD l {}
          n'.o = n.o ∧ n'.p = n.p ∧ n'.sr = n.sr ∧
          (n.q.length = 16 → ∀ k, k < 16 → n'.qAt k = if k < q then n.qAt k else 0) ∧
          (SMap.rising n.v = true → ∀ k, n'.vAt k = if k < v then n.vAt k else 0))) ∧
      (z.saving = true → (s.quiet (.str h i) && s.roomFor (.str h i) 3 1) = false → exec (.forcedSave h i) s = .next (s.post (.forcedSave h i))) ∧
      (∀ dl, z.saving = false → z.yieldAt = some dl → s.time.toNat < dl.toNat →
        exec (.forcedSave h i) s = .next (s.post (.forcedSave h i))) ∧
      (∀ dl, z.saving = false → z.yieldAt = some dl → dl.toNat ≤ s.time.toNat →
        exec (.forcedSave h i) s = .next ((s.modStrand h i fun t => { t with saving := true }).post (.forcedSave h i)))) ∧
    (∀ p, s.panel? h = some p → p.core.isSome = true → p.killed = false → p.leaving = true →
      let key := State.coreKey p.die (p.core.getD 0x7F)
      let base := p.spadBase * 4096
      let done := s.panelQuiet h p && s.settled h p &&
        s.areaRoom p.die p.ctx [(4, 1), (3, (p.strands.filter fun t => !t.2.isOver && !t.2.out).length)]
      (done = true → ∃ t q, exec (.panelSwapOut h) s = .next t ∧ t.mem = s.mem ∧ t.panel? h = some q ∧
        q.core = none ∧ q.leaving = false ∧ q.spad = p.spad ∧ q.strands.map (·.1) = p.strands.map (·.1) ∧
        -- its scoreboard entries leave the core with it, oldest first and relative to the panel
        (∃ es : List (Nat × SbEntry), es.Perm ((s.core key).sb.filter fun e => e.2.panel == h) ∧ (es.map (·.2.age)).Pairwise (· ≤ ·) ∧
          q.saved = es.map (fun e => {
            op := e.2.op, rlo := e.2.rlo - base, rhi := e.2.rhi - base, wlo := e.2.wlo - base, whi := e.2.whi - base, poison := e.2.poison })) ∧
        ∀ e ∈ (t.core key).sb, e.2.panel ≠ h) ∧
      (done = false → exec (.panelSwapOut h) s = .next (s.post (.panelSwapOut h)))) ∧
    -- the Gather Former
    (∀ p, s.panel? h = some p → p.killed = false →
      let alive := (p.strands.map (·.2)).filter fun t => !t.isOver
      (∀ g, fullestGroup p.spawn = some g → (alive = [] ∨ p.groups = [] ∧ (alive.any fun t => t.waits.any p.lacksRoom) = true) →
        ∃ t q, exec (.gatherFlush h) s = .next t ∧ t.mem = s.mem ∧ t.panel? h = some q ∧
          q.groups = p.groups ++ [p.spawn.filter fun r => r.tgt == g] ∧ q.spawn = p.spawn.filter fun r => r.tgt != g) ∧
      (∀ z ∈ alive, (z.waits = [] ∨ Waiting.none ∈ z.waits ∨ Waiting.form ∈ z.waits) → (alive.any fun t => t.waits.any p.lacksRoom) = false → exec (.gatherFlush h) s = .next s)) ∧
    (∀ p g gs, s.panel? h = some p → p.groups = g :: gs → p.leaving = false → s.strandRoom p 1 = true →
      (∃ i, i < 32 ∧ ∀ t, SMap.look p.strands i = some t → t.isOver = true) →
      ∃ t q i z, exec (.gatheredStrandStart h) s = .next t ∧ t.mem = s.mem ∧ t.panel? h = some q ∧ q.groups = gs ∧ i < 32 ∧
        SMap.look q.strands i = some z ∧ z.isOver = false ∧ z.helper &&& z.ended = 0) ∧
    -- the watchdog and the end of a save
    (∀ c, (s.ctx d c).wdLimit = 0 → exec (.watchdogExpiry d c) s = .next s) ∧
    (∀ c, (s.ctx d c).wdLimit ≠ 0 → (s.ctx d c).st = .loaded → s.watched d c = false →
      exec (.watchdogExpiry d c) s = .next ((s.progressed d c).post (.watchdogExpiry d c))) ∧
    (∀ c, (s.ctx d c).wdLimit ≠ 0 → (s.ctx d c).st = .loaded → s.watched d c = true →
      (s.time.toNat < s.lastProgress d c + (s.ctx d c).wdLimit.toNat →
        exec (.watchdogExpiry d c) s = .next (s.post (.watchdogExpiry d c))) ∧
      (s.lastProgress d c + (s.ctx d c).wdLimit.toNat ≤ s.time.toNat →
        -- the context ends on every die of it, during a save on any of them with another code
        ((∀ k ∈ s.ctxDies d c, s.saveRuns k c = false) → ∃ t, exec (.watchdogExpiry d c) s = .next t ∧ t.mem = s.mem ∧
          ∀ k ∈ s.ctxDies d c, (t.ctx k c).st = .ended ∧ (t.ctx k c).ending = 5) ∧
        ((∃ k ∈ s.ctxDies d c, s.saveRuns k c = true) → ∃ t, exec (.watchdogExpiry d c) s = .next t ∧
          ∀ k ∈ s.ctxDies d c, (t.ctx k c).st = .ended ∧ (t.ctx k c).ending = 6))) ∧
    (∀ c, (s.ctx d c).st ≠ .saving → exec (.contextSaveDone d c) s = .next s) ∧
    (∀ c u, (s.ctx d c).st = .saving → (s.panels.any fun p => p.2.ctx == c && p.2.die == d && p.2.core.isSome && !p.2.done) = false →
      s.writeImage d c false 0 = some u →
      ∃ t, exec (.contextSaveDone d c) s = .next t ∧ t.mem = u.mem ∧ (t.ctx d c).st = .saved)

/-- TRAP and BKPT take their trap with the code, SVC takes its trap after the instruction, and a code above 255 traps, none of
them with only helper lanes active; HALT halts its core; DWIN opens a window on the oldest unclaimed entry, on the entry of its
handle, or on none, and traps on another handle (no detail is named, so it reads 0: log 25); TRET returns from a management
core's own trap to SY.MEPC, resumes a parked strand with its registers kept, ends its panel, or keeps it parked; a parked
executor enters the table once its writes are acknowledged; WDATA writes the selected item. (R385, R388, R389, R390, R408, R409,
R410, R418) -/
def Obligations.TrapsAndHandlers : Prop :=
  (∀ (s : State) (c : Cx) (x y : Args), c.any = true →
    let v := c.uni .w64 x.a
    -- TRAP, BKPT and SVC
    (∀ i t, (i = .trap y ∧ t = Trap.trap ∨ i = .bkpt y ∧ t = Trap.bkpt) → Issues i s c x → c.parts ≠ [] → v < 256 →
      Traps i s c { trap := t, d0 := BitVec.ofNat 64 v }) ∧
    (Issues (.svc y) s c x → c.parts ≠ [] → v < 256 →
      exec (.svc y) s = .next ((s.advance c).takeTrap c.ex c.slotB c.pc { trap := .svc, d0 := BitVec.ofNat 64 v } .after)) ∧
    (∀ i, (i = .trap y ∨ i = .bkpt y ∨ i = .svc y) → Issues i s c x → c.parts ≠ [] → 256 ≤ v →
      Traps i s c { trap := .illegalOperand }) ∧
    -- with only helper lanes active none of them traps
    (∀ i, (i = .trap y ∨ i = .bkpt y ∨ i = .svc y) → Issues i s c x → c.parts = [] → exec i s = .next (s.advance c)) ∧
    (∀ m, c.ex = .mgt m → c.parts ≠ [] →
      let sees (t : State) (w : Nat) : Prop := ∀ n, x.d = .s n → (s.mgt m).thr.ss.length = 64 →
        (t.mgt m).thr.ss.getD n.toNat 0 = BitVec.ofNat 64 w
      let tab := (s.die m).parked
      -- HALT
      (Issues (.halt y) s c x → ∃ t, exec (.halt y) s = .next t ∧ t.mem = s.mem ∧ (t.mgt m).st = .halted ∧ (t.mgt m).pos = c.nxt) ∧
      -- DWIN
      (Issues (.dwin y) s c x → s.acquired c = true → c.thr.async = none →
        (v = 2 ^ 64 - 1 → (∀ e ∈ tab, e.2.claimed = true) →
          ∃ t, exec (.dwin y) s = .next t ∧ t.mem = s.mem ∧ (t.mgt m).window = none ∧ sees t 0) ∧
        (∀ i e, v = 2 ^ 64 - 1 → (i, e) ∈ tab → e.claimed = false →
          (∀ z ∈ tab, z.2.claimed = false → z ≠ (i, e) → e.order < z.2.order) →
          ∃ t, exec (.dwin y) s = .next t ∧ t.mem = s.mem ∧ (t.mgt m).window = some (i, e.order) ∧ sees t (handleOf i e) ∧
            SMap.look (t.die m).parked i = some { e with claimed := true }) ∧
        (∀ i e, v ≠ 2 ^ 64 - 1 → tab.find? (fun z => handleOf z.1 z.2 == v) = some (i, e) →
          ∃ t, exec (.dwin y) s = .next t ∧ t.mem = s.mem ∧ (t.mgt m).window = some (i, e.order) ∧ sees t v) ∧
        (v ≠ 2 ^ 64 - 1 → tab.find? (fun z => handleOf z.1 z.2 == v) = none →
          Traps (.dwin y) s c { trap := .windowState })) ∧
      -- TRET: the return from a management core's own trap, and what becomes of a window's executor
      (Issues (.tret y) s c x →
        (v = 3 → (s.mgt m).intrap = true → ∃ t, exec (.tret y) s = .next t ∧ t.mem = s.mem ∧ (t.mgt m).intrap = false ∧
          (t.mgt m).pos.pc = (s.mgt m).mepc ∧ sees t 0) ∧
        (v = 3 → (s.mgt m).intrap = false → Traps (.tret y) s c { trap := .windowState }) ∧
        (v < 3 → m < 16 → s.openWin m = none → Traps (.tret y) s c { trap := .windowState }) ∧
        (∀ i e h n z, v < 3 → m < 16 → s.openWin m = some (i, e) → e.ex = .str h n → s.strand? h n = some z → s.winSaving e.ex = false →
          (v = 0 → resumable z = false → ∃ t, exec (.tret y) s = .next t ∧ t.mem = s.mem ∧ sees t 1 ∧ t.strand? h n = some z) ∧
          (v = 0 → resumable z = true → s.acquired c = true → s.released c.ex = true → SMap.rising tab = true →
            ∃ t, exec (.tret y) s = .next t ∧ t.mem = s.mem ∧ sees t 0 ∧ (t.mgt m).window = none ∧
              SMap.look (t.die m).parked i = none ∧ (t.strand? h n).map (·.thr.park) = some none ∧
              (t.strand? h n).map (·.lanes) = some z.lanes) ∧
          (v = 1 → ∃ t, exec (.tret y) s = .next t ∧ t.mem = s.mem ∧ sees t 0 ∧ (t.mgt m).window = none ∧
            (t.panel? h).map (·.killed) = some true ∧ (t.strand? h n).map (·.isOver) = some true) ∧
          (v = 2 → ∃ t, exec (.tret y) s = .next t ∧ t.mem = s.mem ∧ sees t 0 ∧ (t.mgt m).window = none ∧
            SMap.look (t.die m).parked i = some { e with claimed := true } ∧ (t.strand? h n).map (·.lanes) = some z.lanes))) ∧
      (Issues (.tret y) s c x → 3 < v → Traps (.tret y) s c { trap := .illegalOperand, d0 := BitVec.ofNat 64 v }))) ∧
  -- EXECUTOR_PARK and WDATA
  (∀ (s : State) (h n : Nat) (k : Park) (p : Panel) (e : Ex), e = (if n = 32 then .bob h else .str h n) → (s.thr e).park = some k →
    s.panel? h = some p → k.place = .draining →
    (s.released e = false → exec (.executorPark h n) s = .next (s.post (.executorPark h n))) ∧
    (s.released e = true → ∃ t i z, exec (.executorPark h n) s = .next t ∧ t.mem = s.mem ∧ SMap.look (s.die p.die).parked i = none ∧
      SMap.look (t.die p.die).parked i = some z ∧ z.ex = e ∧ z.claimed = false ∧
      (t.thr e).park = some { k with place := .table i })) ∧
  (∀ (s : State) (m i : Nat) (e : ParkEntry) (v : BitVec 64), s.openWin m = some (i, e) →
    ((s.winItem e.ex (s.mgt m).wsel).isSome = true → exec (.wdata m v) s = .next (s.setWinItem e.ex (s.mgt m).wsel v)) ∧
    (s.winItem e.ex (s.mgt m).wsel = none → exec (.wdata m v) s = .next s) ∧
    -- a register or an S register written through the window reads so
    (∀ h n z q idx, e.ex = .str h n → s.panel? h = some q → SMap.look q.strands n = some z → z.thr.ss.length = 64 → idx < 64 →
      selArea (s.mgt m).wsel = 3 → selIndex (s.mgt m).wsel = idx →
      (s.setWinItem e.ex (s.mgt m).wsel v).winItem e.ex (s.mgt m).wsel = some v.toNat))

/-- SYRD returns a register that its executor may reach and SYWR writes one, each trapping with SYSREG_ACCESS elsewhere; a
context register is written while its slot is FREE or PREPARING, which becomes PREPARING; TLBI drops its range and completes
once no access by it is in progress; CTXL loads a prepared context whose die map and partitions are valid, or an image that
passes its checks, CTXS saves, ends or frees it, and each traps with CTX_STATE in any other state, CTXS with MISALIGNED on an
address that is not a multiple of 64 KiB and with ILLEGAL_OPERAND on any other mode; WDOG sets the limit and returns the old
one, on a package management core for every die of the slot; TIME and WAITT follow the time base; PWREQ and PWRQ ask for and
describe a grant. The slot's state in CTX_STATE's detail and SYSREG_ACCESS without one are log 37; that TLBI waits for the
accesses within the 32 MiB pages its range touches is log 53; that PWREQ 0 leaves an MLOOP's own request is log 96; PWRQ's free
value and WDOG's dies on a package management core are log 54; that an image's load keeps the slot's bias table as it stands is
log 99: these are the model's choices. (R353, R391, R399, R401, R402, R403, R404, R405, R411, R413, R414, R415) -/
def Obligations.SystemForms : Prop :=
  ∀ (s : State) (c : Cx) (x y : Args), c.any = true →
    let a := c.uni .w64 x.a
    let b := c.uni .w64 x.b
    -- SYRD
    (∀ h i, Issues (.syrd y) s c x → c.ex = .str h i →
      (a = 0x48 → (s.reqsOf c.ex).any (fun r => r.2.flags != 0) = false →
        Gives (.syrd y) s c x .w64 fun _ => ((s.strand? h i).map (·.fflags.toNat)).getD 0) ∧
      (a = 0x49 → Gives (.syrd y) s c x .w64 fun _ => ((s.strand? h i).map (·.role.toNat)).getD 0)) ∧
    (∀ i, (i = .syrd y ∧ sysReach c.ex false a = false ∨ i = .sywr y ∧ (∃ m, c.ex = .mgt m) ∧ sysReach c.ex true a = false) →
      Issues i s c x → c.parts ≠ [] → a < 2 ^ 12 → Traps i s c { trap := .sysregAccess }) ∧
    -- TIME and WAITT
    (Issues (.time y) s c x → Gives (.time y) s c x .w64 fun _ => s.time.toNat) ∧
    (Issues (.waitt y) s c x → a ≤ s.time.toNat → exec (.waitt y) s = .next (s.advance c)) ∧
    (Issues (.waitt y) s c x → s.time.toNat < a → (∀ m, c.ex = .mgt m → s.mevent m &&& (s.mgt m).meven.toNat = 0) →
      (c.thr.async = none → Waits (.waitt y) s) ∧ (∀ f, c.thr.async = some f → exec (.waitt y) s = asyncOut s c f)) ∧
    -- PWREQ and PWRQ
    (let dk := powerCore s c x.b
     let g := (s.core (State.coreKey dk.1 dk.2)).grant
     Issues (.pwreq y) s c x → a ≤ 1 → dk.2 ≤ 79 →
      ∃ t, exec (.pwreq y) s = .next t ∧ t.mem = s.mem ∧
        (let g' := (t.core (State.coreKey dk.1 dk.2)).grant
         g'.granted = g.granted ∧ (a = 1 → g'.held = true ∧ (g.granted = false → g'.pending = true)) ∧
         (a = 0 → (∀ h, c.ex.panel = some h → h ∉ g'.standing) ∧ (c.ex.panel = none → g'.mgtStanding = false) ∧
           -- a request that an MLOOP made and still awaits stays (the model's choice, log 96)
           g'.pending = (g.pending && (g'.held || g.loop))))) ∧
    (Issues (.pwreq y) s c x → c.parts ≠ [] → (1 < a ∨ 79 < (powerCore s c x.b).2) → Traps (.pwreq y) s c { trap := .illegalOperand }) ∧
    (let dk := powerCore s c x.a
     Issues (.pwrq y) s c x → dk.1 < 16 → dk.2 ≤ 79 →
      Gives (.pwrq y) s c x .w64 fun _ => grantWord (s.core (State.coreKey dk.1 dk.2)).grant) ∧
    (Issues (.pwrq y) s c x → 16 ≤ (powerCore s c x.a).1 →
      ∃ v, v < 8 ∧ exec (.pwrq y) s = .next (({ s.advance c with free := s.free + 1 } : State).writeVec c .w64 x.d fun _ => v)) ∧
    (∀ m, c.ex = .mgt m → c.parts ≠ [] →
      let k := (s.mgt m).ctxsel.toNat
      let st := (s.ctx m k).st
      let v : W64 := BitVec.ofNat 64 b
      let w0 (t : State) (n : Nat) : Prop := ∀ q, x.d = .s q → (s.mgt m).thr.ss.length = 64 →
        (t.mgt m).thr.ss.getD q.toNat 0 = BitVec.ofNat 64 n
      -- registers of a management core
      (Issues (.syrd y) s c x → sysReach c.ex false a = true → a ≠ 0xC6 → Gives (.syrd y) s c x .w64 fun _ => s.mgtReg m a) ∧
      (∀ i e n, Issues (.syrd y) s c x → a = 0xC6 → m < 16 → s.openWin m = some (i, e) → s.winItem e.ex (s.mgt m).wsel = some n →
        s.winWaits e.ex (s.mgt m).wsel = false → Gives (.syrd y) s c x .w64 fun _ => n) ∧
      (Issues (.sywr y) s c x → m < 16 → a ≤ 0x40 →
        ((st = .free ∨ st = .preparing) → ∃ t, exec (.sywr y) s = .next t ∧ t.mem = s.mem ∧
          t.ctxReg m k a = ctxWrite a (s.ctxReg m k a) v ∧ (t.ctx m k).st = .preparing ∧
          ∀ n, n ≠ a → t.ctxReg m k n = s.ctxReg m k n) ∧
        (st ≠ .free → st ≠ .preparing → ctxAnyMask a = 0 →
          Traps (.sywr y) s c { trap := .ctxState, d0 := BitVec.ofNat 64 st.n })) ∧
      (Issues (.sywr y) s c x → sysReach c.ex true a = true → 0x40 < a → a ≠ 0xC6 → ∃ t, exec (.sywr y) s = .next t ∧ t.mem = s.mem ∧
        (a = 0x80 → (t.mgt m).ctxsel = BitVec.ofNat 4 b) ∧ (a = 0x83 → (t.mgt m).meven = BitVec.ofNat 6 b) ∧
        (a = 0x82 → (t.mgt m).mevent = (s.mgt m).mevent &&& ~~~ (BitVec.ofNat 6 b)) ∧
        (a = 0x85 → (t.mgt m).mvec = v) ∧ (a = 0x86 → (t.mgt m).mepc = v) ∧ (t.mgt m).intrap = (s.mgt m).intrap ∧
        t.panels = s.panels) ∧
      -- TLBI: the entries of the range go first, and it completes once no access by them is in progress
      (Issues (.tlbi y) s c x → m < 16 → (st = .loaded ∨ st = .saving ∨ st = .saved) → s.acquired c = true → s.released c.ex = true →
        (s.rings.held = true → (∃ e ∈ s.dmap m k, e ≠ m) → Waits (.tlbi y) s) ∧ ((s.rings.held = true → ∀ e ∈ s.dmap m k, e = m) →
        ((s.mgt m).tlbi = none → ∃ t, exec (.tlbi y) s = .next t ∧ t.mem = s.mem ∧ (t.mgt m).tlbi = some s.nextId ∧
          (t.mgt m).pos = (s.mgt m).pos ∧ ∀ e ∈ s.dmap m k, (∀ z ∈ (t.die e).tlb, z.overlaps k a b = false) ∧
            ∀ q ∈ t.cores, q.1 / 128 = e → ∀ z ∈ q.2.tlb, z.overlaps k a b = false) ∧
        (∀ q, (s.mgt m).tlbi = some q → s.tlbBusy k a b q = true → Waits (.tlbi y) s) ∧
        (∀ q, (s.mgt m).tlbi = some q → s.tlbBusy k a b q = false → ∃ t, exec (.tlbi y) s = .next t ∧ t.mem = s.mem ∧
          (t.mgt m).tlbi = none ∧ (t.mgt m).pos = c.nxt))) ∧
      -- contexts
      (Issues (.ctxl y) s c x → a = 0 →
        (st = .preparing → s.mapOk m k = true → s.partsOk m k = true →
          ∃ t, exec (.ctxl y) s = .next t ∧ t.mem = s.mem ∧ (t.ctx m k).st = .loaded ∧ w0 t 0) ∧
        (st = .preparing → s.mapOk m k = false → Traps (.ctxl y) s c { trap := .dieMapInvalid }) ∧
        (st = .preparing → s.mapOk m k = true → s.partsOk m k = false → Traps (.ctxl y) s c { trap := .partitionInvalid }) ∧
        (st ≠ .preparing → Traps (.ctxl y) s c { trap := .ctxState, d0 := BitVec.ofNat 64 st.n })) ∧
      -- an image that passes its checks: registers, indices, counts and queues as it holds them, its panels on their resume lists
      (Issues (.ctxl y) s c x → a ≠ 0 →
        (st ≠ .saved → Traps (.ctxl y) s c { trap := .ctxState, d0 := 1 }) ∧
        (st = .saved → s.notYet c.ex a 65536 = false →
          ((s.imageAt a = none ∨ ∃ z, s.imageAt a = some z ∧ (z.slot ≠ k ∨ z.vdie ≠ s.vdie m k m ∨ z.latched = true)) →
            Traps (.ctxl y) s c { trap := .ctxState, d0 := 1 }) ∧
          (∀ z, s.imageAt a = some z → z.slot = k → z.vdie = s.vdie m k m → z.latched = false →
            ∃ t, exec (.ctxl y) s = .next t ∧ t.mem = s.mem ∧ (t.ctx m k).st = .loaded ∧ (t.ctx m k).regs = z.ctx.regs ∧
              (t.ctx m k).wi = z.ctx.wi ∧ (t.ctx m k).ri = z.ctx.ri ∧ (t.ctx m k).bias = (s.ctx m k).bias ∧ (t.ctx m k).wdLimit = z.ctx.wdLimit ∧ (t.job k).gid = z.gid ∧ w0 t 0 ∧
              ∀ h p, h ∈ z.panels → s.panel? h = some p → p.ctx = k → p.die = m → p.core = none → p.done = false →
                State.anyParked p = false → h ∈ (t.job k).resume))) ∧
      (Issues (.ctxs y) s c x → a % 2 ^ 16 = 0 →
        (b = 0 → st = .loaded → ∃ t, exec (.ctxs y) s = .next t ∧ t.mem = s.mem ∧ (t.ctx m k).st = .saving ∧ w0 t 0 ∧
          .contextSaveDone m k ∈ t.inflight) ∧
        (b = 1 → (st = .loaded ∨ st = .saving ∨ st = .saved) → ∃ t, exec (.ctxs y) s = .next t ∧ t.mem = s.mem ∧
          (t.ctx m k).st = .ended ∧ (t.ctx m k).ending = 1 ∧ w0 t 0) ∧
        (b = 2 → st = .ended → SMap.rising (s.die m).ctxs = true → ∃ t, exec (.ctxs y) s = .next t ∧ t.mem = s.mem ∧ t.ctx m k = {} ∧
          w0 t 0) ∧
        ((b = 0 ∧ st ≠ .loaded ∨ b = 1 ∧ st ≠ .loaded ∧ st ≠ .saving ∧ st ≠ .saved ∨ b = 2 ∧ st ≠ .ended) →
          Traps (.ctxs y) s c { trap := .ctxState, d0 := BitVec.ofNat 64 st.n })) ∧
      (Issues (.ctxs y) s c x → 2 < b → Traps (.ctxs y) s c { trap := .illegalOperand }) ∧
      (Issues (.ctxs y) s c x → b ≤ 2 → a % 2 ^ 16 ≠ 0 → Traps (.ctxs y) s c { trap := .misaligned, d0 := BitVec.ofNat 64 a }) ∧
      (Issues (.wdog y) s c x → m < 16 → (st = .free ∨ st = .preparing) →
        ∃ t, exec (.wdog y) s = .next t ∧ t.mem = s.mem ∧ (t.ctx m k).wdLimit = BitVec.ofNat 64 a ∧ (t.ctx m k).st = .preparing ∧
          w0 t (s.ctx m k).wdLimit.toNat) ∧
      -- on a package management core every die of the slot's map
      (∀ d ds, Issues (.wdog y) s c x → 16 ≤ m → (List.range 16).find? (fun e => (s.ctx e k).st != .free) = some d → s.dmap d k = d :: ds →
        (∀ e ∈ d :: ds, (s.ctx e k).st = .free ∨ (s.ctx e k).st = .preparing) → s.rings.held = false →
        ∃ t, exec (.wdog y) s = .next t ∧ t.mem = s.mem ∧ w0 t (s.ctx d k).wdLimit.toNat ∧
          ∀ e ∈ d :: ds, (t.ctx e k).wdLimit = BitVec.ofNat 64 a ∧ (t.ctx e k).st = .preparing)) ∧
    -- steps of time
    (∀ n, exec (.tbstep n) s = .next { s with time := s.time + BitVec.ofNat 64 (n % 2 ^ 32) }) ∧
    (∀ p rx, s.ptp.length = 4 → ∃ t, exec (.ptpEventFrame p rx) s = .next t ∧ t.mem = s.mem ∧
      t.ptp.getD (p % 2 + (if rx then 2 else 0)) 0 = s.time)

/-- A device store writes its register's writable bits and no other register; DOORBELL moves a staged message to a free mailbox
and sets HOSTMB, which the rings carry to another die than IOD-W and hold back while they wrap, and counts a refused one; TRAIN
holds and releases a channel, which has trained where a pattern test completed while it was held and the last one met no failing
data lane, and the last channel released after it has trained sets STAGE to 3 (that, and what counts as trained, is the model's
choice, log 23); that the agenda holds such steps is log 61; a pattern test on a channel that is not held sets REFUSED and DONE,
one that runs ignores a start, and its end writes the FAIL bits, BUSY 0 and DONE; REPAIR is ignored whole where a set VALID
names a lane outside its half; FLOG_POP drops the oldest entry of a fault log. (R19, R387, R400, R420, R424, R425, R429, R435,
R436, R437) -/
def Obligations.DeviceSteps : Prop :=
  ∀ (s : State) (sock ch v : Nat), SMap.rising s.devRegs = true →
    let base := 0x10000 + 0x1000 * ch
    -- only the registers named differ
    let only (t : State) (k : Nat) (offs : List Nat) : Prop := t.mem = s.mem ∧ t.panels = s.panels ∧ t.cores = s.cores ∧
      ∀ n o, devKey n o ∉ offs.map (devKey k) → t.dev n o = s.dev n o
    -- DEVICE_REGISTER_WRITE
    (∀ off, (sock < 0x10 ∨ sock = 0x10 ∧ 0x1000 ≤ off) →
      ∃ t, exec (.deviceRegisterWrite sock off v) s = .next t ∧ t.dev sock off = v % 2 ^ 32 ∧ only t sock [off]) ∧
    (∀ off, sock = 0x10 → off < 0x1000 → exec (.deviceRegisterWrite sock off v) s = .next s) ∧
    (∀ off, 0x20 ≤ sock → off % 0x1000 = 4 →
      ∃ t, exec (.deviceRegisterWrite sock off v) s = .next t ∧ t.dev sock off = v % 2 ∧ only t sock [off]) ∧
    (∀ off, 0x20 ≤ sock → 0x100 ≤ off % 0x1000 →
      ∃ t, exec (.deviceRegisterWrite sock off v) s = .next t ∧ t.dev sock off = v % 64 ∧ only t sock [off]) ∧
    (∀ off, 0x20 ≤ sock → off % 0x1000 < 0x100 → off % 0x1000 ≠ 4 → exec (.deviceRegisterWrite sock off v) s = .next s) ∧
    -- DOORBELL
    (∀ m, m ≤ 16 → s.dev 0x10 (0x1000 + 64 * m) = s.dev 0x10 (0x1000 + 64 * m + 48) →
      ∃ t, exec (.doorbell m) s = .next t ∧ only t 0x10 ((List.range 6).map fun k => 0x1000 + 64 * m + 4 * k) ∧
        (∀ k, k < 6 → t.dev 0x10 (0x1000 + 64 * m + 4 * k) = s.dev 0x10 (0x2000 + 64 * m + 4 * k)) ∧
        -- HOSTMB is set at once, but on another die than IOD-W's the rings carry it (R19)
        (if m ≠ 16 ∧ s.rings.held = true then t.rung = s.rung ++ [m] ∧ t.mgts = s.mgts
         else t.rung = s.rung ∧ (t.mgt m).mevent = (s.mgt m).mevent ||| 0x20 ∧ ∀ j, j ≠ m → t.mgt j = s.mgt j)) ∧
    (∀ m, (16 < m ∨ s.dev 0x10 (0x1000 + 64 * m) ≠ s.dev 0x10 (0x1000 + 64 * m + 48)) → s.dev 0x10 0x3008 < 2 ^ 32 - 1 →
      ∃ t, exec (.doorbell m) s = .next t ∧ t.dev 0x10 0x3008 = s.dev 0x10 0x3008 + 1 ∧ only t 0x10 [0x3008] ∧ t.mgts = s.mgts) ∧
    -- TRAIN
    (∃ t, exec (.train sock ch true) s = .next t ∧ t.dev sock base = 1 ∧ only t sock [base] ∧ t.stage = s.stage ∧ t.trained = s.trained ∧
      (s.dev sock base ≠ 1 → devKey sock base ∉ t.tested) ∧ (s.dev sock base = 1 → t.tested = s.tested)) ∧
    (∃ t, exec (.train sock ch false) s = .next t ∧ t.dev sock base = 0 ∧ only t sock [base] ∧ devKey sock base ∉ t.tested ∧
      (s.trainedNow sock ch = false → t.trained = s.trained ∧ t.stage = s.stage) ∧
      (s.trainedNow sock ch = true → sock * 32 + ch ∈ t.trained ∧
        t.stage = (if s.stage = 2 ∧ t.trained.length = 1024 then 3 else s.stage))) ∧
    -- a channel has trained that is held, on which a test has completed since it was, the last one without a failing data lane
    (s.trainedNow sock ch = true ↔ s.dev sock base = 1 ∧ devKey sock base ∈ s.tested ∧ Word.bit (s.dev sock (base + 8)) 0 = true ∧
      Word.bit (s.dev sock (base + 8)) 1 = false ∧ s.dev sock (base + 0x10) = 0 ∧ s.dev sock (base + 0x14) = 0) ∧
    -- PATTERN_TEST_START and PATTERN_TEST_DONE
    (s.dev sock base ≠ 1 → ∃ t, exec (.patternTestStart sock ch v) s = .next t ∧
      t.dev sock (base + 8) = s.dev sock (base + 8) ||| 5 ∧ only t sock [base + 8]) ∧
    (s.dev sock base = 1 → Word.bit (s.dev sock (base + 8)) 1 = true → exec (.patternTestStart sock ch v) s = .next s) ∧
    (s.dev sock base = 1 → Word.bit (s.dev sock (base + 8)) 1 = false →
      ∃ t, exec (.patternTestStart sock ch v) s = .next t ∧ t.dev sock (base + 4) = v % 2 ∧ t.dev sock (base + 8) = 2 ∧
        only t sock [base + 4, base + 8] ∧ .patternTestDone sock ch ∈ t.inflight) ∧
    (SMap.look s.tests (devKey sock base) = none → exec (.patternTestDone sock ch) s = .next s) ∧
    (∀ lo hi sp, SMap.look s.tests (devKey sock base) = some (lo, hi, sp) → SMap.rising s.tests = true →
      ∃ t, exec (.patternTestDone sock ch) s = .next t ∧ t.dev sock (base + 0x10) = lo ∧ t.dev sock (base + 0x14) = hi ∧
        t.dev sock (base + 0x18) = sp ∧ t.dev sock (base + 8) = s.dev sock (base + 8) / 4 * 4 + 1 ∧ only t sock [base + 8, base + 0x10, base + 0x14, base + 0x18] ∧
        SMap.look t.tests (devKey sock base) = none ∧ devKey sock base ∈ t.tested) ∧
    -- REPAIR
    ((Word.bit v 7 = true ∧ 32 ≤ Word.bits v 6 0 ∨ Word.bit v 15 = true ∧ (Word.bits v 14 8 < 32 ∨ 64 ≤ Word.bits v 14 8)) →
      exec (.repair sock ch v) s = .next s) ∧
    ((Word.bit v 7 = true → Word.bits v 6 0 < 32) → (Word.bit v 15 = true → 32 ≤ Word.bits v 14 8 ∧ Word.bits v 14 8 < 64) →
      ∃ t, exec (.repair sock ch v) s = .next t ∧ t.dev sock (base + 0x20) = v % 2 ^ 16 ∧ only t sock [base + 0x20]) ∧
    -- FLOG_POP
    (∃ t, exec (.flogPop sock) s = .next t ∧ (t.die sock).flog.entries = (s.die sock).flog.entries.drop 1 ∧
      (t.die sock).flog.ovf = (s.die sock).flog.ovf ∧ only t sock [])

/-- POWER_ON and POWER_OFF leave the reset state but for the OTP array; a boot length starts the verification, which rejects
with its code or derives the alias key and releases the management cores at firmware; the host agent writes the boot region,
turns control writes into the registers' own steps, and reads and writes memory regions within their rights; the mailbox
commands are answered with their statuses, and QUOTE, CERTS and SHUTTLE have their effects; a Spool load fills a context's share
between kernels, one step for each 32-byte group, and drops the Spool sectors as it ends; each loss wraps or splits the rings,
takes IOD-E's ports with it and ends the contexts it must; and the thermal limits withdraw grants, return them, or switch the
dies off. Region keys, section places and the firmware's entry are free values (log 6, log 23). The model's choices: the form of
the alias key and of the quote's bytes (log 7), a Spool load that finds no context or goes outside the share and loads nothing
(log 58), the mailbox statuses (log 60), the chain in force from the step of the loss on (log 57), the halted cores of a die
that THERMAL_SHUTDOWN switches off (log 73), and what goes on after the chain splits or IOD-W is lost (log 87). (R17, R18, R31,
R179, R423, R426, R427, R428, R429, R430, R431, R433) -/
def Obligations.HostSteps : Prop :=
  ∀ s : State, s.memOk →
    let refuses (i : Instr) (c : Nat) (f : Trap) (a : W64) : Prop := exec i s = .next (s.agentRefuse c f a)
    let answers (i : Instr) (m status result : Nat) : Prop := SMap.rising s.devRegs = true → ∃ t, exec i s = .next t ∧ t.mem = s.mem ∧
      t.dev 0x10 (0x1030 + 64 * m) = s.mboxWord m 0 % 2 ^ 32 ∧ t.dev 0x10 (0x1034 + 64 * m) = status * 2 ^ 24 ∧
      t.mboxWord m 7 = result % 2 ^ 64
    let overAll (t : State) (code : Nat) : Prop := ∀ d c, d < 16 → c < 16 →
      ((s.ctx d c).st = .loaded ∨ (s.ctx d c).st = .saving ∨ (s.ctx d c).st = .saved) →
      (t.ctx d c).st = .ended ∧ (t.ctx d c).ending = code
    -- a stop lost: the ring wraps, a chain loses its end stop, and one inside a chain splits it, which ends every context
    let ends (ch : List Nat) (pos : Nat) : Bool := ch.head? == some pos || ch.getLast? == some pos
    let inside (pos : Nat) : Bool := match s.rings.chain with
      | none => false
      | some ch => !s.rings.split && ch.contains pos && !ends ch pos
    let breaks (t : State) (pos : Nat) : Prop :=
      (s.rings.chain = none → t.rings.held = true ∧ t.rings.split = s.rings.split ∧
        t.rings.chain = some ((List.range 17).map fun i => (pos + 1 + i) % 18)) ∧
      (∀ ch, s.rings.chain = some ch → s.rings.split = false → ch.contains pos = true → ends ch pos = true →
        t.rings.held = true ∧ t.rings.split = false ∧ t.rings.chain = some (ch.filter fun q => q != pos)) ∧
      (inside pos = true → t.rings.split = true ∧ overAll t 3)
    -- power
    exec .powerOn s = .next { State.reset with otpFloor := s.otpFloor, free := s.free, nextId := s.nextId } ∧
    exec .powerOff s = .next { State.reset with mgts := [], off := true, otpFloor := s.otpFloor, free := s.free, nextId := s.nextId } ∧
    -- boot
    (∀ n, s.romWaits = true → ∃ t, exec (.bootlen n) s = .next t ∧ t.bootLen = n % 2 ^ 32 ∧ t.stage = 1 ∧ t.mem = s.mem ∧
      .imageVerification ∈ t.inflight) ∧
    (∀ n, s.romWaits = false → exec (.bootlen n) s = .next s) ∧
    (s.off = true ∨ s.stage ≠ 1 → exec .imageVerification s = .next s) ∧
    (s.off = false → s.stage = 1 →
      let rd (i : Nat) : Byte := Memory.byte s.image i
      let e := s.imgErr rd s.bootLen
      ∃ t, exec .imageVerification s = .next t ∧ (e ≠ 0 → t = { s with stage := 0, bootErr := e }) ∧
        (e = 0 → t.stage = 2 ∧ t.svn = imgLe rd 8 4 ∧ t.imgHash = shaBytes (imgBytes rd 0 s.bootLen) ∧ t.romSecret = false ∧
          t.aliasKey = aliasScalar deviceSecret (shaBytes (imgBytes rd 0 s.bootLen ++ leBytes 4 (imgLe rd 8 4))) ∧
          ∀ m, m < 18 → s.gone m = false → (t.mgt m).st = .running ∧ (t.mgt m).pos.pc = Config.firmwareEntry m)) ∧
    (s.off = false → 2 ≤ s.stage → exec .otpFloorRaise s = .next { s with otpFloor := max s.otpFloor s.svn }) ∧
    ((s.off = true ∨ s.stage < 2) → exec .otpFloorRaise s = .next s) ∧
    -- RDMA_WRITE and RDMA_READ: the boot region, the control region, memory regions
    (∀ addr data, s.agent = true → s.stage = 0 → 0x1000 ≤ addr → addr + data.length ≤ 2 ^ 26 + 2 ^ 12 → Memory.wf s.image = true →
      ∃ t, exec (.rdmaWrite 0 addr data) s = .next t ∧ t.mem = s.mem ∧ t.stage = 0 ∧
        (∀ i, i < data.length → Memory.byte t.image (addr - 0x1000 + i) = data.getD i 0) ∧
        ∀ a, (a < addr - 0x1000 ∨ addr - 0x1000 + data.length ≤ a) → Memory.byte t.image a = Memory.byte s.image a) ∧
    (∀ addr data, s.agent = true → 2 ≤ s.stage → refuses (.rdmaWrite 0 addr data) 0 .physRange (s.openWord 0)) ∧
    (∀ addr data, s.agent = true → 2 ≤ s.stage → addr % 4 = 0 → data.length % 4 = 0 → 0x1000 ≤ addr →
      addr + data.length ≤ 0x4000 →
      -- one register step for each word that names a register, in ascending order; a word that names none is logged
      let word (o : Nat) : Instr := devStep 0x10 o (imgLe (fun j => data.getD (o - addr + j) 0) 0 4)
      let offs := (List.range (data.length / 4)).map fun i => addr + 4 * i
      let steps := (offs.filter fun o => s.devThere 0x10 o).map word
      ((∀ o ∈ offs, s.devThere 0x10 o = true) → exec (.rdmaWrite 1 addr data) s = .next { s with agenda := steps ++ s.agenda }) ∧
      (∀ o ∈ offs, s.devThere 0x10 o = false →
        let u := s.agentRefuse 0 .physRange (s.openWord 0)
        exec (.rdmaWrite 1 addr data) s = .next { u with agenda := steps ++ u.agenda })) ∧
    (∀ addr data, s.agent = true → 2 ≤ s.stage → addr % 4 = 0 → data.length % 4 = 0 → (addr < 0x1000 ∨ 0x4000 < addr + data.length) →
      refuses (.rdmaWrite 1 addr data) 0 .physRange (s.openWord 0)) ∧
    (∀ key addr data c base len r w, s.agent = true → 2 ≤ s.stage → 2 ≤ key →
      Config.region key = some (c, base, len, r, w) → base ≤ addr → addr + data.length ≤ base + len →
      (w = false → refuses (.rdmaWrite key addr data) c .permission (s.faultAddr (s.agentDie c) c addr)) ∧
      (r = false → refuses (.rdmaRead key addr data.length) c .permission (s.faultAddr (s.agentDie c) c addr)) ∧
      (w = true → s.agentHeld c .write (groupPieces addr data.length) = true → exec (.rdmaWrite key addr data) s = .next s) ∧
      (∀ pa p, w = true → s.agentHeld c .write (groupPieces addr data.length) = false → 0 < data.length → addr % 32 + data.length ≤ 32 → s.engPlace (s.agentDie c) 0x7F c addr .write = .ok (pa, p) →
        s.groupBad p = false → ∃ t, exec (.rdmaWrite key addr data) s = .next t ∧ t.memOk ∧
          (∀ i, i < data.length → Memory.byte t.mem (p.key + i) = data.getD i 0) ∧
          ∀ a, (a < p.key ∨ p.key + data.length ≤ a) → Memory.byte t.mem a = Memory.byte s.mem a)) ∧
    (∀ key addr n, ∃ t, exec (.rdmaRead key addr n) s = .next t ∧ t.mem = s.mem ∧ t.panels = s.panels) ∧
    (∀ q, exec (.send q) s = .next s ∧ exec (.rdmaAtomic q) s = .next s) ∧
    -- mailbox commands
    (∀ m, m < 16 → s.mboxBusy m = true →
      let c := s.mboxWord m 0 / 2 ^ 52 % 16
      let a := s.mboxWord m 1
      let st := (s.ctx m c).st
      let s1 := s.modMgt m fun g => { g with ctxsel := BitVec.ofNat 4 c }
      -- the mailbox stands on IOD-W, and the rings carry it to the die's firmware and back
      (s.rings.held = true → exec (.launch m) s = .next (s.post (.launch m))) ∧ (s.rings.held = false →
      (s.mboxCmd m ≠ 1 → answers (.launch m) m 2 0) ∧
      (s.mboxCmd m = 1 → st ≠ .preparing → st ≠ .loaded → st ≠ .saved → answers (.launch m) m 4 0) ∧
      (s.mboxCmd m = 1 → (st = .preparing ∨ st = .loaded ∨ st = .saved) → a % 8 ≠ 0 → answers (.launch m) m 3 0) ∧
      (s.mboxCmd m = 1 → (st = .preparing ∨ st = .loaded ∨ st = .saved) → a % 8 = 0 →
        (s1.notYet (.mgt m) a 64 = true → exec (.launch m) s = .next (s.post (.launch m))) ∧
        (s1.notYet (.mgt m) a 64 = false →
          (∀ f, s1.readWords (.mgt m) a 8 = .trap f → answers (.launch m) m 3 0) ∧
          (∀ ws, s1.readWords (.mgt m) a 8 = .ok ws →
            (∀ f, garmentFault s1 m c ws = some f → answers (.launch m) m 3 0) ∧
            (garmentFault s1 m c ws = none →
              let u := (s1.launchDies m c ws).foldl (fun s e => s.crossCore m 0x7F e) s1
              exec (.launch m) s = withSoft (m, 0x7F) (s1.readPlace (.mgt m)) a 64
                (.next ((u.launch m c ws).2.answerMbox m 1 ((u.launch m c ws).1 % 2 ^ 24))))))))) ∧
    (s.mboxBusy 16 = true →
      let rd1 := s.rangeHeld (s.mboxWord 16 1) 32 true
      let wr2 := s.rangeHeld (s.mboxWord 16 2) 192 false
      (∀ nonce, s.mboxCmd 16 = 2 → rd1 = false → wr2 = false → s.getBytes (s.mboxWord 16 1) 32 = some nonce →
        s.placed (s.mboxWord 16 2) 192 = true →
        let body := nonce ++ s.imgHash ++ s.shHash ++ leBytes 4 s.svn ++ leBytes 4 s.floor ++ leBytes 8 s.time.toNat ++
          (List.range 4).flatMap fun i => leBytes 4 (Config.otpWord (34 + i)).toNat
        -- the signature r, s over the SHA-256 of the body under the alias key; its nonce is a free value
        let sig := P256.sign s.aliasKey (beNat (shaBytes body)) fun i => Config.nonce (s.free + i)
        exec .quote s = .next (((({ s with free := s.free + 4 } : State).bytesRead (s.mboxWord 16 1) 32).putBytes (s.mboxWord 16 2)
          (body ++ beBytes 32 sig.1 ++ beBytes 32 sig.2)).answerMbox 16 1 0)) ∧
      (s.mboxCmd 16 = 2 → (rd1 || wr2) = true → exec .quote s = .next (s.post .quote)) ∧
      (s.mboxCmd 16 = 2 → rd1 = false → wr2 = false → (s.getBytes (s.mboxWord 16 1) 32 = none ∨ s.placed (s.mboxWord 16 2) 192 = false) →
        answers .quote 16 3 0) ∧
      (s.mboxCmd 16 = 3 →
        let bs := s.certs.take (s.mboxWord 16 2)
        s.rangeHeld (s.mboxWord 16 1) bs.length false = false →
        exec .certs s = .next (if s.placed (s.mboxWord 16 1) bs.length = true
          then (s.putBytes (s.mboxWord 16 1) bs).answerMbox 16 1 bs.length else s.answerMbox 16 3 0)) ∧
      (∀ d c, d < 16 → c < 16 → s.mboxCmd 16 = 4 → (s.ctx d c).st = .loaded → answers .shuttle 16 4 0) ∧
      -- an image of its own that R428 accepts gives the shuttles their firmware
      (∀ h bs, s.mboxCmd 16 = 4 → (∀ d c, d < 16 → c < 16 → (s.ctx d c).st ≠ .loaded) →
        let a := s.mboxWord 16 1
        let len := imgLe (fun i => h.getD i 0) 16 8
        let rd (i : Nat) : Byte := bs.getD i 0
        s.rangeHeld a 256 true = false → s.getBytes a 256 = some h → len ≤ 2 ^ 26 → s.rangeHeld a len true = false →
        s.getBytes a len = some bs →
        exec .shuttle s = .next (if s.imgErr rd len = 0 ∧ ∃ z ∈ imgSections rd, z.1 = 3
          then ({ s.bytesRead a len with shHash := shaBytes (shuttleOf rd) } : State).answerMbox 16 1 0
          else (s.bytesRead a len).answerMbox 16 5 0)) ∧
      (s.mboxCmd 16 ≠ 2 → s.mboxCmd 16 ≠ 3 → s.mboxCmd 16 ≠ 4 → answers .quote 16 2 0 ∧ answers .certs 16 2 0 ∧ answers .shuttle 16 2 0)) ∧
    -- SPOOL_LOAD_COPY: the range up to the next 32-byte boundary, and the rest in a step of its own
    (∀ k c src dst n,
      let w := (s.ctxReg k c 0x38).toNat
      let share := Word.bits w 11 0 * 65536 ≤ dst ∧ dst + n ≤ min (Word.bits w 28 16) 4096 * 65536
      let runs := (∃ p ∈ s.panels, p.2.ctx = c ∧ p.2.done = false) ∨ (∃ g ∈ (s.job c).garments, g.2.live ≠ 0) ∨
        ∃ d ∈ s.dies, (∃ r ∈ d.2.rings, r.1 / 32 = c ∧ r.2 ≠ []) ∨ ∃ u ∈ d.2.held, u.ctx = c
      let m := min n (32 - src % 32)
      let unspooled (t : State) : Prop := (∀ j, ∀ e ∈ (t.core j).l1, e.1 / 2 ^ 60 ≠ 1) ∧ ∀ j, ∀ e ∈ (t.mgt j).l1, e.1 / 2 ^ 60 ≠ 1
      (s.gone k = true ∨ (s.ctx k c).st ≠ .loaded ∨ ¬ share → exec (.spoolLoadCopy k c src dst n) s = .next s) ∧
      (s.gone k = false → (s.ctx k c).st = .loaded → share →
        (runs → exec (.spoolLoadCopy k c src dst n) s = .next (s.post (.spoolLoadCopy k c src dst n))) ∧
        (¬ runs → n = 0 → ∃ t, exec (.spoolLoadCopy k c src dst n) s = .next t ∧ t.mem = s.mem ∧ (t.die k).spool = (s.die k).spool ∧ unspooled t) ∧
        (¬ runs → 0 < n → s.engRead k 0x7F c src m true = .wait →
          exec (.spoolLoadCopy k c src dst n) s = .next (s.post (.spoolLoadCopy k c src dst n))) ∧
        (∀ s1 f, ¬ runs → 0 < n → s.engRead k 0x7F c src m true = .fail s1 f →
          ∃ t, exec (.spoolLoadCopy k c src dst n) s = .next t ∧ t.mem = s1.mem ∧ (t.die k).spool = (s1.die k).spool ∧ unspooled t) ∧
        (∀ s1 v, ¬ runs → 0 < n → s.engRead k 0x7F c src m true = .ok s1 v → Memory.wf (s1.die k).spool = true →
          ∃ t, exec (.spoolLoadCopy k c src dst n) s = .next t ∧ t.mem = s1.mem ∧
            (∀ i, i < m → Memory.byte (t.die k).spool (dst + i) = BitVec.ofNat 8 (v / 2 ^ (8 * i))) ∧
            (∀ a, (a < dst ∨ dst + m ≤ a) → Memory.byte (t.die k).spool a = Memory.byte (s1.die k).spool a) ∧
            .spoolLoadCopy k c (src + m) (dst + m) (n - m) ∈ t.inflight))) ∧
    -- losses
    (∀ d, 16 ≤ d ∨ (s.die d).lost = true → exec (.computeDieLoss d) s = .next s) ∧
    (∀ d, d < 16 → (s.die d).lost = false → ∃ t, exec (.computeDieLoss d) s = .next t ∧ t.mem = s.mem ∧
      (t.die d).lost = true ∧ (t.mgt d).st = .halted ∧ breaks t (ringPos d) ∧
      (inside (ringPos d) = false → ∀ e c, e < 16 → c < 16 → (s.ctx e c).st = .loaded → d ∈ s.dmap e c →
        (t.ctx e c).st = .ended ∧ (t.ctx e c).ending = 2)) ∧
    (∀ pos, (s.rings.chain = none → ∃ t, exec (.ringSegmentLoss pos) s = .next t ∧ t.mem = s.mem ∧ t.rings.held = true ∧
        t.rings.chain = some ((List.range 18).map fun i => (pos % 18 + 1 + i) % 18)) ∧
      (∀ ch, s.rings.chain = some ch → s.rings.split = false → (pos % 18, (pos % 18 + 1) % 18) ∈ List.zip ch (ch.drop 1) →
        ∃ t, exec (.ringSegmentLoss pos) s = .next t ∧ t.mem = s.mem ∧ t.rings.split = true ∧ overAll t 3)) ∧
    ((s.die 17).lost = false → ∃ t, exec .iodELoss s = .next t ∧ t.mem = s.mem ∧ (t.die 17).lost = true ∧ (t.mgt 17).st = .halted ∧
      t.arb.standby = false ∧ breaks t 9 ∧ ∀ p, 8 ≤ p → p < 16 → p ∈ t.portsLost) ∧
    ((s.die 16).lost = false → ∃ t, exec .iodWLoss s = .next t ∧ t.mem = s.mem ∧ (t.die 16).lost = true ∧ (t.mgt 16).st = .halted ∧
      overAll t 4) ∧
    -- thermal limits
    (∀ d, ∃ t, exec (.thermalThrottle d) s = .next t ∧ t.mem = s.mem ∧ t.panels = s.panels ∧ (t.die d).throttled = true ∧
      ∀ k, (k / 128 = d → (t.core k).grant.granted = false) ∧ (k / 128 ≠ d → t.core k = s.core k)) ∧
    (∀ d, ∃ t, exec (.thermalRecovery d) s = .next t ∧ t.mem = s.mem ∧ t.panels = s.panels ∧ (t.die d).throttled = false ∧
      ∀ k q, SMap.look s.cores k = some q → k / 128 = d → q.grant.held = true → q.grant.granted = false →
        (t.core k).grant.pending = true ∧ .powerGrant d (k % 128) ∈ t.inflight) ∧
    (∀ d, ∃ t, exec (.thermalShutdown d) s = .next t ∧ t.mem = s.mem ∧ overAll t 4 ∧
      ∀ k, (k < 16 ∨ k = 17) → (t.die k).off = true ∧ (t.mgt k).st = .halted)

/-- After power-on reset the package management core of IOD-W runs its boot ROM and every other management core is held, no
panel exists, every context slot is FREE, no trap, request, fault log entry or grant stands, the rings are intact, BOOTSTAT
reads stage 0 without error, and memory is in canonical form. The time base and the registers for which the spec states no reset
value are the model's choice (log 1). (R7, R16, R24, R391, R400, R405, R427, R429) -/
def Obligations.ResetState : Prop :=
  let s := State.reset
  s.memOk ∧ s.spadsOk ∧ s.stepsOnly ∧ s.named ∧ s.agenda = [] ∧ s.inflight = [] ∧ s.off = false ∧ s.stage = 0 ∧ s.bootErr = 0 ∧ s.time = 0 ∧
  s.panels = [] ∧ s.reqs = [] ∧ s.tested = [] ∧ s.trained = [] ∧ s.rings.chain = none ∧ s.rings.held = false ∧
  (s.mgt 16).st = .running ∧ (∀ m, m ≠ 16 → (s.mgt m).st = .held) ∧
  (∀ m, (s.mgt m).intrap = false ∧ (s.mgt m).mvec = 0 ∧ (s.mgt m).meven = 0 ∧ (s.mgt m).ctxsel = 0) ∧
  (∀ d c, (s.ctx d c).st = .free) ∧ (∀ d, (s.die d).lost = false ∧ (s.die d).parked = [] ∧ (s.die d).flog.entries = []) ∧
  (∀ k, (s.core k).grant.granted = false ∧ (s.core k).sb = [])

/-- From any state whose memory is in canonical form, reached by a run or not, whatever the next step is (a step of the module,
an event from outside, or an issue of any instruction), the memory after it is in canonical form: equal memories stay equal
data. (R27, R180) -/
def Obligations.MemoryCanonical : Prop :=
  ∀ s t : State, s.memOk → step s = .next t → t.memOk

/-- From every state whose panels and strands are canonical maps and whose waiting steps are steps of the module, whatever
stands in memory and in every register, the next step answers a next state: no instruction faults and none is refused, on any
executor, with any operands; what is illegal takes its trap. (R10, R66, R79, R382, R385, R390) -/
def Obligations.EveryStepCompletes : Prop :=
  ∀ s : State, SMap.rising s.panels = true → (∀ e ∈ s.panels, SMap.rising e.2.strands = true) → s.stepsOnly →
    ∃ t, step s = .next t
end

