-- ==== Sys2Proof/Laws/Maps.lean ====
section
/-! SUPPORT. Finite maps and byte memory: a look-up after an update, and that every update keeps the canonical form. -/

namespace Sys2Proof.Machine

/-! Look-ups. -/

theorem SMap.look_put_same {α : Type} (m : SMap α) (k : Nat) (v : α) : SMap.look (SMap.put m k v) k = some v := by
  induction m with
  | nil => simp [SMap.put, SMap.look]
  | cons e m ih =>
    obtain ⟨k', v'⟩ := e
    simp only [SMap.put]
    split
    · simp [SMap.look]
    · split
      · simp [SMap.look]
      · rename_i h1 h2
        simp [SMap.look, h1, h2, ih]

theorem SMap.look_put_other {α : Type} (m : SMap α) {k j : Nat} (v : α) (h : j ≠ k) :
    SMap.look (SMap.put m k v) j = SMap.look m j := by
  have hk : k ≠ j := fun e => h e.symm
  induction m with
  | nil => simp [SMap.put, SMap.look, hk]
  | cons e m ih =>
    obtain ⟨k', v'⟩ := e
    simp only [SMap.put]
    split
    · rename_i h1
      subst h1
      simp [SMap.look, hk]
    · split
      · rename_i h1 h2
        simp only [SMap.look, hk, if_false]
        split
        · rename_i h3
          have h4 : k' ≠ j := by omega
          have h5 : j < k' := by omega
          simp [h4, h5]
        · rfl
      · simp only [SMap.look, ih]

theorem SMap.lookD_put_same {α : Type} (m : SMap α) (k : Nat) (v d : α) : SMap.lookD (SMap.put m k v) k d = v := by
  simp [SMap.lookD, SMap.look_put_same]

theorem SMap.lookD_put_other {α : Type} (m : SMap α) {k j : Nat} (v d : α) (h : j ≠ k) :
    SMap.lookD (SMap.put m k v) j d = SMap.lookD m j d := by
  simp [SMap.lookD, SMap.look_put_other m v h]

/-! Rising keys. -/

theorem SMap.above_mono {α : Type} {m : SMap α} {a b : Nat} (h : a ≤ b) (hm : SMap.above b m = true) :
    SMap.above a m = true := by
  cases m with
  | nil => rfl
  | cons e m =>
    simp only [SMap.above, Bool.and_eq_true, decide_eq_true_eq] at hm ⊢
    exact ⟨by omega, hm.2⟩

theorem SMap.above_put {α : Type} {m : SMap α} {b k : Nat} {v : α} (hk : b < k) (hm : SMap.above b m = true) :
    SMap.above b (SMap.put m k v) = true := by
  induction m generalizing b with
  | nil => simp [SMap.put, SMap.above, hk]
  | cons e m ih =>
    obtain ⟨k', v'⟩ := e
    simp only [SMap.above, Bool.and_eq_true, decide_eq_true_eq] at hm
    simp only [SMap.put]
    split
    · rename_i h1
      subst h1
      simp [SMap.above, hm]
    · split
      · simp_all [SMap.above]
      · rename_i h1 h2
        simp only [SMap.above, Bool.and_eq_true, decide_eq_true_eq]
        exact ⟨hm.1, ih (by omega) hm.2⟩

theorem SMap.above_del {α : Type} {m : SMap α} {b : Nat} (k : Nat) (hm : SMap.above b m = true) :
    SMap.above b (SMap.del m k) = true := by
  induction m generalizing b with
  | nil => rfl
  | cons e m ih =>
    obtain ⟨k', v'⟩ := e
    have hm0 := hm
    simp only [SMap.above, Bool.and_eq_true, decide_eq_true_eq] at hm
    simp only [SMap.del]
    split
    · exact SMap.above_mono (by omega) hm.2
    · split
      · exact hm0
      · simp only [SMap.above, Bool.and_eq_true, decide_eq_true_eq]
        exact ⟨hm.1, ih hm.2⟩

theorem SMap.rising_put {α : Type} {m : SMap α} (k : Nat) (v : α) (hm : SMap.rising m = true) :
    SMap.rising (SMap.put m k v) = true := by
  cases m with
  | nil => rfl
  | cons e m =>
    obtain ⟨k', v'⟩ := e
    simp only [SMap.rising] at hm
    simp only [SMap.put]
    split
    · rename_i h1
      subst h1
      exact hm
    · split
      · simp_all [SMap.rising, SMap.above]
      · exact SMap.above_put (by omega) hm

theorem SMap.rising_del {α : Type} {m : SMap α} (k : Nat) (hm : SMap.rising m = true) :
    SMap.rising (SMap.del m k) = true := by
  cases m with
  | nil => rfl
  | cons e m =>
    obtain ⟨k', v'⟩ := e
    simp only [SMap.rising] at hm
    simp only [SMap.del]
    split
    · cases m with
      | nil => rfl
      | cons f m =>
        simp only [SMap.above, Bool.and_eq_true] at hm
        exact hm.2
    · split
      · exact hm
      · exact SMap.above_del k hm

/-! Values. -/

theorem SMap.mem_put {α : Type} {m : SMap α} {k : Nat} {v : α} {e : Nat × α} (h : e ∈ SMap.put m k v) :
    e = (k, v) ∨ e ∈ m := by
  induction m with
  | nil => simpa [SMap.put] using h
  | cons f m ih =>
    obtain ⟨k', v'⟩ := f
    simp only [SMap.put] at h
    split at h
    · simp only [List.mem_cons] at h ⊢
      rcases h with h | h
      · exact .inl h
      · exact .inr (.inr h)
    · split at h
      · simp only [List.mem_cons] at h ⊢
        exact h
      · simp only [List.mem_cons] at h ⊢
        rcases h with h | h
        · exact .inr (.inl h)
        · rcases ih h with h | h
          · exact .inl h
          · exact .inr (.inr h)

theorem SMap.mem_del {α : Type} {m : SMap α} {k : Nat} {e : Nat × α} (h : e ∈ SMap.del m k) : e ∈ m := by
  induction m with
  | nil => simp [SMap.del] at h
  | cons f m ih =>
    obtain ⟨k', v'⟩ := f
    simp only [SMap.del] at h
    split at h
    · exact List.mem_cons_of_mem _ h
    · split at h
      · exact h
      · simp only [List.mem_cons] at h ⊢
        rcases h with h | h
        · exact .inl h
        · exact .inr (ih h)

theorem SMap.wf_putD {α : Type} [DecidableEq α] {d : α} {m : SMap α} (k : Nat) (v : α) (hm : SMap.wf d m = true) :
    SMap.wf d (SMap.putD m k v d) = true := by
  simp only [SMap.wf, Bool.and_eq_true, List.all_eq_true] at hm ⊢
  simp only [SMap.putD]
  split
  · exact ⟨SMap.rising_del k hm.1, fun e he => hm.2 e (SMap.mem_del he)⟩
  · rename_i hv
    refine ⟨SMap.rising_put k v hm.1, fun e he => ?_⟩
    rcases SMap.mem_put he with rfl | he
    · simpa using hv
    · exact hm.2 e he

/-! Byte memory. -/

theorem Memory.wf_nil : Memory.wf [] = true := rfl

/-- Writing one byte keeps memory canonical. -/
theorem Memory.wf_setByte {m : List Host.Cell} (a : Nat) (b : Byte) (hm : Memory.wf m = true) :
    Memory.wf (Memory.setByte m a b) = true := SMap.wf_putD a b hm

/-- Writing bytes keeps memory canonical. -/
theorem Memory.wf_write (n : Nat) {m : List Host.Cell} (a v : Nat) (hm : Memory.wf m = true) :
    Memory.wf (Memory.write m a n v) = true := by
  induction n generalizing m a v with
  | zero => exact hm
  | succ n ih => exact ih (a + 1) (v / 256) (Memory.wf_setByte a _ hm)

theorem SMap.look_above {α : Type} {m : SMap α} {b k : Nat} (h : k ≤ b) (hm : SMap.above b m = true) : SMap.look m k = none := by
  induction m with
  | nil => rfl
  | cons e m ih =>
    obtain ⟨k', v'⟩ := e
    simp only [SMap.above, Bool.and_eq_true, decide_eq_true_eq] at hm
    have h1 : k' ≠ k := by omega
    have h2 : k < k' := by omega
    simp [SMap.look, h1, h2]

theorem SMap.look_del_same {α : Type} {m : SMap α} {k : Nat} (hm : SMap.rising m = true) : SMap.look (SMap.del m k) k = none := by
  induction m with
  | nil => rfl
  | cons e m ih =>
    obtain ⟨k', v'⟩ := e
    simp only [SMap.rising] at hm
    simp only [SMap.del]
    split
    · rename_i h1
      exact SMap.look_above (by omega) hm
    · split
      · rename_i h1 h2
        simp [SMap.look, h1, h2]
      · rename_i h1 h2
        simp only [SMap.look, h1, h2, if_false]
        apply ih
        cases m with
        | nil => rfl
        | cons f m =>
          simp only [SMap.above, Bool.and_eq_true] at hm
          exact hm.2

theorem SMap.look_del_other {α : Type} {m : SMap α} {k j : Nat} (h : j ≠ k) (hm : SMap.rising m = true) :
    SMap.look (SMap.del m k) j = SMap.look m j := by
  induction m with
  | nil => rfl
  | cons e m ih =>
    obtain ⟨k', v'⟩ := e
    simp only [SMap.rising] at hm
    simp only [SMap.del]
    split
    · rename_i h1
      have h2 : k' ≠ j := by omega
      simp only [SMap.look, h2, if_false]
      split
      · rename_i h3
        exact SMap.look_above (by omega) hm
      · rfl
    · split
      · rfl
      · simp only [SMap.look]
        rw [ih]
        cases m with
        | nil => rfl
        | cons f m =>
          simp only [SMap.above, Bool.and_eq_true] at hm
          exact hm.2

/-- A byte read where it was just written. -/
theorem Memory.byte_setByte_same {m : List Host.Cell} (a : Nat) (b : Byte) (hm : Memory.wf m = true) :
    Memory.byte (Memory.setByte m a b) a = b := by
  simp only [Memory.wf, SMap.wf, Bool.and_eq_true] at hm
  simp only [Memory.byte, Memory.setByte, SMap.putD]
  split
  · rename_i h
    simp [SMap.lookD, SMap.look_del_same hm.1, h]
  · exact SMap.lookD_put_same m a b 0

/-- A byte read where another was written. -/
theorem Memory.byte_setByte_other {m : List Host.Cell} {a x : Nat} (b : Byte) (h : x ≠ a) (hm : Memory.wf m = true) :
    Memory.byte (Memory.setByte m a b) x = Memory.byte m x := by
  simp only [Memory.wf, SMap.wf, Bool.and_eq_true] at hm
  simp only [Memory.byte, Memory.setByte, SMap.putD]
  split
  · simp [SMap.lookD, SMap.look_del_other h hm.1]
  · exact SMap.lookD_put_other m b 0 h

/-- A write of n bytes leaves every other byte as it was. -/
theorem Memory.byte_write_other (n : Nat) {m : List Host.Cell} {a x : Nat} (v : Nat) (h : x < a ∨ a + n ≤ x)
    (hm : Memory.wf m = true) : Memory.byte (Memory.write m a n v) x = Memory.byte m x := by
  induction n generalizing m a v with
  | zero => rfl
  | succ n ih =>
    rw [Memory.write, ih (v / 256) (by omega) (Memory.wf_setByte a _ hm)]
    exact Memory.byte_setByte_other _ (by omega) hm

/-- A value read where it was just written. -/
theorem Memory.read_write_same (n : Nat) {m : List Host.Cell} (a v : Nat) (hm : Memory.wf m = true) :
    Memory.read (Memory.write m a n v) a n = v % 256 ^ n := by
  induction n generalizing m a v with
  | zero => simp [Memory.read, Nat.mod_one]
  | succ n ih =>
    have hw := Memory.wf_setByte a (BitVec.ofNat 8 v) hm
    rw [Memory.read, Memory.write, ih (a + 1) (v / 256) hw, Memory.byte_write_other n _ (by omega) hw,
      Memory.byte_setByte_same a _ hm]
    simp only [BitVec.toNat_ofNat]
    rw [show (2 : Nat) ^ 8 = 256 from rfl, Nat.pow_succ', Nat.mod_mul]

/-- A value read where none of its bytes was written. -/
theorem Memory.read_write_other (n : Nat) {m : List Host.Cell} {a x k : Nat} (v : Nat) (h : x + k ≤ a ∨ a + n ≤ x)
    (hm : Memory.wf m = true) : Memory.read (Memory.write m a n v) x k = Memory.read m x k := by
  induction k generalizing x with
  | zero => rfl
  | succ k ih => rw [Memory.read, Memory.read, ih (by omega), Memory.byte_write_other n v (by omega) hm]

end Sys2Proof.Machine
end

