-- ==== Sys2Proof/Laws/State.lean ====
section
/-! SUPPORT. What each update of the state leaves as it was: one lemma per field per update; and, for updates that act on a panel or an
executor where there is one, which fields they may change at all. -/

namespace Sys2Proof.Machine

/-! setCore. -/

@[simp] theorem State.setCore_dies (s : State) (k : Nat) (c : Core) : (s.setCore k c).dies = s.dies := rfl
@[simp] theorem State.setCore_mgts (s : State) (k : Nat) (c : Core) : (s.setCore k c).mgts = s.mgts := rfl
@[simp] theorem State.setCore_panels (s : State) (k : Nat) (c : Core) : (s.setCore k c).panels = s.panels := rfl
@[simp] theorem State.setCore_swatches (s : State) (k : Nat) (c : Core) : (s.setCore k c).swatches = s.swatches := rfl
@[simp] theorem State.setCore_jobs (s : State) (k : Nat) (c : Core) : (s.setCore k c).jobs = s.jobs := rfl
@[simp] theorem State.setCore_reqs (s : State) (k : Nat) (c : Core) : (s.setCore k c).reqs = s.reqs := rfl
@[simp] theorem State.setCore_copies (s : State) (k : Nat) (c : Core) : (s.setCore k c).copies = s.copies := rfl
@[simp] theorem State.setCore_knots (s : State) (k : Nat) (c : Core) : (s.setCore k c).knots = s.knots := rfl
@[simp] theorem State.setCore_joins (s : State) (k : Nat) (c : Core) : (s.setCore k c).joins = s.joins := rfl
@[simp] theorem State.setCore_mstts (s : State) (k : Nat) (c : Core) : (s.setCore k c).mstts = s.mstts := rfl
@[simp] theorem State.setCore_kvs (s : State) (k : Nat) (c : Core) : (s.setCore k c).kvs = s.kvs := rfl
@[simp] theorem State.setCore_kvlds (s : State) (k : Nat) (c : Core) : (s.setCore k c).kvlds = s.kvlds := rfl
@[simp] theorem State.setCore_colls (s : State) (k : Nat) (c : Core) : (s.setCore k c).colls = s.colls := rfl
@[simp] theorem State.setCore_collSeqs (s : State) (k : Nat) (c : Core) : (s.setCore k c).collSeqs = s.collSeqs := rfl
@[simp] theorem State.setCore_scIncs (s : State) (k : Nat) (c : Core) : (s.setCore k c).scIncs = s.scIncs := rfl
@[simp] theorem State.setCore_demands (s : State) (k : Nat) (c : Core) : (s.setCore k c).demands = s.demands := rfl
@[simp] theorem State.setCore_exchs (s : State) (k : Nat) (c : Core) : (s.setCore k c).exchs = s.exchs := rfl
@[simp] theorem State.setCore_arb (s : State) (k : Nat) (c : Core) : (s.setCore k c).arb = s.arb := rfl
@[simp] theorem State.setCore_images (s : State) (k : Nat) (c : Core) : (s.setCore k c).images = s.images := rfl
@[simp] theorem State.setCore_mem (s : State) (k : Nat) (c : Core) : (s.setCore k c).mem = s.mem := rfl
@[simp] theorem State.setCore_badEcc (s : State) (k : Nat) (c : Core) : (s.setCore k c).badEcc = s.badEcc := rfl
@[simp] theorem State.setCore_softEcc (s : State) (k : Nat) (c : Core) : (s.setCore k c).softEcc = s.softEcc := rfl
@[simp] theorem State.setCore_time (s : State) (k : Nat) (c : Core) : (s.setCore k c).time = s.time := rfl
@[simp] theorem State.setCore_frac (s : State) (k : Nat) (c : Core) : (s.setCore k c).frac = s.frac := rfl
@[simp] theorem State.setCore_lc (s : State) (k : Nat) (c : Core) : (s.setCore k c).lc = s.lc := rfl
@[simp] theorem State.setCore_cur (s : State) (k : Nat) (c : Core) : (s.setCore k c).cur = s.cur := rfl
@[simp] theorem State.setCore_pkg (s : State) (k : Nat) (c : Core) : (s.setCore k c).pkg = s.pkg := rfl
@[simp] theorem State.setCore_sysNum (s : State) (k : Nat) (c : Core) : (s.setCore k c).sysNum = s.sysNum := rfl
@[simp] theorem State.setCore_domain (s : State) (k : Nat) (c : Core) : (s.setCore k c).domain = s.domain := rfl
@[simp] theorem State.setCore_peers (s : State) (k : Nat) (c : Core) : (s.setCore k c).peers = s.peers := rfl
@[simp] theorem State.setCore_devRegs (s : State) (k : Nat) (c : Core) : (s.setCore k c).devRegs = s.devRegs := rfl
@[simp] theorem State.setCore_tests (s : State) (k : Nat) (c : Core) : (s.setCore k c).tests = s.tests := rfl
@[simp] theorem State.setCore_tested (s : State) (k : Nat) (c : Core) : (s.setCore k c).tested = s.tested := rfl
@[simp] theorem State.setCore_trained (s : State) (k : Nat) (c : Core) : (s.setCore k c).trained = s.trained := rfl
@[simp] theorem State.setCore_rings (s : State) (k : Nat) (c : Core) : (s.setCore k c).rings = s.rings := rfl
@[simp] theorem State.setCore_rung (s : State) (k : Nat) (c : Core) : (s.setCore k c).rung = s.rung := rfl
@[simp] theorem State.setCore_portsLost (s : State) (k : Nat) (c : Core) : (s.setCore k c).portsLost = s.portsLost := rfl
@[simp] theorem State.setCore_retries (s : State) (k : Nat) (c : Core) : (s.setCore k c).retries = s.retries := rfl
@[simp] theorem State.setCore_doubleTraps (s : State) (k : Nat) (c : Core) : (s.setCore k c).doubleTraps = s.doubleTraps := rfl
@[simp] theorem State.setCore_romSecret (s : State) (k : Nat) (c : Core) : (s.setCore k c).romSecret = s.romSecret := rfl
@[simp] theorem State.setCore_aliasKey (s : State) (k : Nat) (c : Core) : (s.setCore k c).aliasKey = s.aliasKey := rfl
@[simp] theorem State.setCore_rota (s : State) (k : Nat) (c : Core) : (s.setCore k c).rota = s.rota := rfl
@[simp] theorem State.setCore_rotaLeft (s : State) (k : Nat) (c : Core) : (s.setCore k c).rotaLeft = s.rotaLeft := rfl
@[simp] theorem State.setCore_flushes (s : State) (k : Nat) (c : Core) : (s.setCore k c).flushes = s.flushes := rfl
@[simp] theorem State.setCore_issues (s : State) (k : Nat) (c : Core) : (s.setCore k c).issues = s.issues := rfl
@[simp] theorem State.setCore_tbrate (s : State) (k : Nat) (c : Core) : (s.setCore k c).tbrate = s.tbrate := rfl
@[simp] theorem State.setCore_ptp (s : State) (k : Nat) (c : Core) : (s.setCore k c).ptp = s.ptp := rfl
@[simp] theorem State.setCore_stage (s : State) (k : Nat) (c : Core) : (s.setCore k c).stage = s.stage := rfl
@[simp] theorem State.setCore_bootErr (s : State) (k : Nat) (c : Core) : (s.setCore k c).bootErr = s.bootErr := rfl
@[simp] theorem State.setCore_image (s : State) (k : Nat) (c : Core) : (s.setCore k c).image = s.image := rfl
@[simp] theorem State.setCore_bootLen (s : State) (k : Nat) (c : Core) : (s.setCore k c).bootLen = s.bootLen := rfl
@[simp] theorem State.setCore_imgHash (s : State) (k : Nat) (c : Core) : (s.setCore k c).imgHash = s.imgHash := rfl
@[simp] theorem State.setCore_svn (s : State) (k : Nat) (c : Core) : (s.setCore k c).svn = s.svn := rfl
@[simp] theorem State.setCore_shHash (s : State) (k : Nat) (c : Core) : (s.setCore k c).shHash = s.shHash := rfl
@[simp] theorem State.setCore_otpFloor (s : State) (k : Nat) (c : Core) : (s.setCore k c).otpFloor = s.otpFloor := rfl
@[simp] theorem State.setCore_off (s : State) (k : Nat) (c : Core) : (s.setCore k c).off = s.off := rfl
@[simp] theorem State.setCore_turn (s : State) (k : Nat) (c : Core) : (s.setCore k c).turn = s.turn := rfl
@[simp] theorem State.setCore_agenda (s : State) (k : Nat) (c : Core) : (s.setCore k c).agenda = s.agenda := rfl
@[simp] theorem State.setCore_inflight (s : State) (k : Nat) (c : Core) : (s.setCore k c).inflight = s.inflight := rfl
@[simp] theorem State.setCore_nextId (s : State) (k : Nat) (c : Core) : (s.setCore k c).nextId = s.nextId := rfl
@[simp] theorem State.setCore_free (s : State) (k : Nat) (c : Core) : (s.setCore k c).free = s.free := rfl

/-! setDie. -/

@[simp] theorem State.setDie_cores (s : State) (k : Nat) (d : Die) : (s.setDie k d).cores = s.cores := rfl
@[simp] theorem State.setDie_mgts (s : State) (k : Nat) (d : Die) : (s.setDie k d).mgts = s.mgts := rfl
@[simp] theorem State.setDie_panels (s : State) (k : Nat) (d : Die) : (s.setDie k d).panels = s.panels := rfl
@[simp] theorem State.setDie_swatches (s : State) (k : Nat) (d : Die) : (s.setDie k d).swatches = s.swatches := rfl
@[simp] theorem State.setDie_jobs (s : State) (k : Nat) (d : Die) : (s.setDie k d).jobs = s.jobs := rfl
@[simp] theorem State.setDie_reqs (s : State) (k : Nat) (d : Die) : (s.setDie k d).reqs = s.reqs := rfl
@[simp] theorem State.setDie_copies (s : State) (k : Nat) (d : Die) : (s.setDie k d).copies = s.copies := rfl
@[simp] theorem State.setDie_knots (s : State) (k : Nat) (d : Die) : (s.setDie k d).knots = s.knots := rfl
@[simp] theorem State.setDie_joins (s : State) (k : Nat) (d : Die) : (s.setDie k d).joins = s.joins := rfl
@[simp] theorem State.setDie_mstts (s : State) (k : Nat) (d : Die) : (s.setDie k d).mstts = s.mstts := rfl
@[simp] theorem State.setDie_kvs (s : State) (k : Nat) (d : Die) : (s.setDie k d).kvs = s.kvs := rfl
@[simp] theorem State.setDie_kvlds (s : State) (k : Nat) (d : Die) : (s.setDie k d).kvlds = s.kvlds := rfl
@[simp] theorem State.setDie_colls (s : State) (k : Nat) (d : Die) : (s.setDie k d).colls = s.colls := rfl
@[simp] theorem State.setDie_collSeqs (s : State) (k : Nat) (d : Die) : (s.setDie k d).collSeqs = s.collSeqs := rfl
@[simp] theorem State.setDie_scIncs (s : State) (k : Nat) (d : Die) : (s.setDie k d).scIncs = s.scIncs := rfl
@[simp] theorem State.setDie_demands (s : State) (k : Nat) (d : Die) : (s.setDie k d).demands = s.demands := rfl
@[simp] theorem State.setDie_exchs (s : State) (k : Nat) (d : Die) : (s.setDie k d).exchs = s.exchs := rfl
@[simp] theorem State.setDie_arb (s : State) (k : Nat) (d : Die) : (s.setDie k d).arb = s.arb := rfl
@[simp] theorem State.setDie_images (s : State) (k : Nat) (d : Die) : (s.setDie k d).images = s.images := rfl
@[simp] theorem State.setDie_mem (s : State) (k : Nat) (d : Die) : (s.setDie k d).mem = s.mem := rfl
@[simp] theorem State.setDie_badEcc (s : State) (k : Nat) (d : Die) : (s.setDie k d).badEcc = s.badEcc := rfl
@[simp] theorem State.setDie_softEcc (s : State) (k : Nat) (d : Die) : (s.setDie k d).softEcc = s.softEcc := rfl
@[simp] theorem State.setDie_time (s : State) (k : Nat) (d : Die) : (s.setDie k d).time = s.time := rfl
@[simp] theorem State.setDie_frac (s : State) (k : Nat) (d : Die) : (s.setDie k d).frac = s.frac := rfl
@[simp] theorem State.setDie_lc (s : State) (k : Nat) (d : Die) : (s.setDie k d).lc = s.lc := rfl
@[simp] theorem State.setDie_cur (s : State) (k : Nat) (d : Die) : (s.setDie k d).cur = s.cur := rfl
@[simp] theorem State.setDie_pkg (s : State) (k : Nat) (d : Die) : (s.setDie k d).pkg = s.pkg := rfl
@[simp] theorem State.setDie_sysNum (s : State) (k : Nat) (d : Die) : (s.setDie k d).sysNum = s.sysNum := rfl
@[simp] theorem State.setDie_domain (s : State) (k : Nat) (d : Die) : (s.setDie k d).domain = s.domain := rfl
@[simp] theorem State.setDie_peers (s : State) (k : Nat) (d : Die) : (s.setDie k d).peers = s.peers := rfl
@[simp] theorem State.setDie_devRegs (s : State) (k : Nat) (d : Die) : (s.setDie k d).devRegs = s.devRegs := rfl
@[simp] theorem State.setDie_tests (s : State) (k : Nat) (d : Die) : (s.setDie k d).tests = s.tests := rfl
@[simp] theorem State.setDie_tested (s : State) (k : Nat) (d : Die) : (s.setDie k d).tested = s.tested := rfl
@[simp] theorem State.setDie_trained (s : State) (k : Nat) (d : Die) : (s.setDie k d).trained = s.trained := rfl
@[simp] theorem State.setDie_rings (s : State) (k : Nat) (d : Die) : (s.setDie k d).rings = s.rings := rfl
@[simp] theorem State.setDie_rung (s : State) (k : Nat) (d : Die) : (s.setDie k d).rung = s.rung := rfl
@[simp] theorem State.setDie_portsLost (s : State) (k : Nat) (d : Die) : (s.setDie k d).portsLost = s.portsLost := rfl
@[simp] theorem State.setDie_retries (s : State) (k : Nat) (d : Die) : (s.setDie k d).retries = s.retries := rfl
@[simp] theorem State.setDie_doubleTraps (s : State) (k : Nat) (d : Die) : (s.setDie k d).doubleTraps = s.doubleTraps := rfl
@[simp] theorem State.setDie_romSecret (s : State) (k : Nat) (d : Die) : (s.setDie k d).romSecret = s.romSecret := rfl
@[simp] theorem State.setDie_aliasKey (s : State) (k : Nat) (d : Die) : (s.setDie k d).aliasKey = s.aliasKey := rfl
@[simp] theorem State.setDie_rota (s : State) (k : Nat) (d : Die) : (s.setDie k d).rota = s.rota := rfl
@[simp] theorem State.setDie_rotaLeft (s : State) (k : Nat) (d : Die) : (s.setDie k d).rotaLeft = s.rotaLeft := rfl
@[simp] theorem State.setDie_flushes (s : State) (k : Nat) (d : Die) : (s.setDie k d).flushes = s.flushes := rfl
@[simp] theorem State.setDie_issues (s : State) (k : Nat) (d : Die) : (s.setDie k d).issues = s.issues := rfl
@[simp] theorem State.setDie_tbrate (s : State) (k : Nat) (d : Die) : (s.setDie k d).tbrate = s.tbrate := rfl
@[simp] theorem State.setDie_ptp (s : State) (k : Nat) (d : Die) : (s.setDie k d).ptp = s.ptp := rfl
@[simp] theorem State.setDie_stage (s : State) (k : Nat) (d : Die) : (s.setDie k d).stage = s.stage := rfl
@[simp] theorem State.setDie_bootErr (s : State) (k : Nat) (d : Die) : (s.setDie k d).bootErr = s.bootErr := rfl
@[simp] theorem State.setDie_image (s : State) (k : Nat) (d : Die) : (s.setDie k d).image = s.image := rfl
@[simp] theorem State.setDie_bootLen (s : State) (k : Nat) (d : Die) : (s.setDie k d).bootLen = s.bootLen := rfl
@[simp] theorem State.setDie_imgHash (s : State) (k : Nat) (d : Die) : (s.setDie k d).imgHash = s.imgHash := rfl
@[simp] theorem State.setDie_svn (s : State) (k : Nat) (d : Die) : (s.setDie k d).svn = s.svn := rfl
@[simp] theorem State.setDie_shHash (s : State) (k : Nat) (d : Die) : (s.setDie k d).shHash = s.shHash := rfl
@[simp] theorem State.setDie_otpFloor (s : State) (k : Nat) (d : Die) : (s.setDie k d).otpFloor = s.otpFloor := rfl
@[simp] theorem State.setDie_off (s : State) (k : Nat) (d : Die) : (s.setDie k d).off = s.off := rfl
@[simp] theorem State.setDie_turn (s : State) (k : Nat) (d : Die) : (s.setDie k d).turn = s.turn := rfl
@[simp] theorem State.setDie_agenda (s : State) (k : Nat) (d : Die) : (s.setDie k d).agenda = s.agenda := rfl
@[simp] theorem State.setDie_inflight (s : State) (k : Nat) (d : Die) : (s.setDie k d).inflight = s.inflight := rfl
@[simp] theorem State.setDie_nextId (s : State) (k : Nat) (d : Die) : (s.setDie k d).nextId = s.nextId := rfl
@[simp] theorem State.setDie_free (s : State) (k : Nat) (d : Die) : (s.setDie k d).free = s.free := rfl

/-! modDie. -/

@[simp] theorem State.modDie_cores (s : State) (k : Nat) (f : Die → Die) : (s.modDie k f).cores = s.cores := rfl
@[simp] theorem State.modDie_mgts (s : State) (k : Nat) (f : Die → Die) : (s.modDie k f).mgts = s.mgts := rfl
@[simp] theorem State.modDie_panels (s : State) (k : Nat) (f : Die → Die) : (s.modDie k f).panels = s.panels := rfl
@[simp] theorem State.modDie_swatches (s : State) (k : Nat) (f : Die → Die) : (s.modDie k f).swatches = s.swatches := rfl
@[simp] theorem State.modDie_jobs (s : State) (k : Nat) (f : Die → Die) : (s.modDie k f).jobs = s.jobs := rfl
@[simp] theorem State.modDie_reqs (s : State) (k : Nat) (f : Die → Die) : (s.modDie k f).reqs = s.reqs := rfl
@[simp] theorem State.modDie_copies (s : State) (k : Nat) (f : Die → Die) : (s.modDie k f).copies = s.copies := rfl
@[simp] theorem State.modDie_knots (s : State) (k : Nat) (f : Die → Die) : (s.modDie k f).knots = s.knots := rfl
@[simp] theorem State.modDie_joins (s : State) (k : Nat) (f : Die → Die) : (s.modDie k f).joins = s.joins := rfl
@[simp] theorem State.modDie_mstts (s : State) (k : Nat) (f : Die → Die) : (s.modDie k f).mstts = s.mstts := rfl
@[simp] theorem State.modDie_kvs (s : State) (k : Nat) (f : Die → Die) : (s.modDie k f).kvs = s.kvs := rfl
@[simp] theorem State.modDie_kvlds (s : State) (k : Nat) (f : Die → Die) : (s.modDie k f).kvlds = s.kvlds := rfl
@[simp] theorem State.modDie_colls (s : State) (k : Nat) (f : Die → Die) : (s.modDie k f).colls = s.colls := rfl
@[simp] theorem State.modDie_collSeqs (s : State) (k : Nat) (f : Die → Die) : (s.modDie k f).collSeqs = s.collSeqs := rfl
@[simp] theorem State.modDie_scIncs (s : State) (k : Nat) (f : Die → Die) : (s.modDie k f).scIncs = s.scIncs := rfl
@[simp] theorem State.modDie_demands (s : State) (k : Nat) (f : Die → Die) : (s.modDie k f).demands = s.demands := rfl
@[simp] theorem State.modDie_exchs (s : State) (k : Nat) (f : Die → Die) : (s.modDie k f).exchs = s.exchs := rfl
@[simp] theorem State.modDie_arb (s : State) (k : Nat) (f : Die → Die) : (s.modDie k f).arb = s.arb := rfl
@[simp] theorem State.modDie_images (s : State) (k : Nat) (f : Die → Die) : (s.modDie k f).images = s.images := rfl
@[simp] theorem State.modDie_mem (s : State) (k : Nat) (f : Die → Die) : (s.modDie k f).mem = s.mem := rfl
@[simp] theorem State.modDie_badEcc (s : State) (k : Nat) (f : Die → Die) : (s.modDie k f).badEcc = s.badEcc := rfl
@[simp] theorem State.modDie_softEcc (s : State) (k : Nat) (f : Die → Die) : (s.modDie k f).softEcc = s.softEcc := rfl
@[simp] theorem State.modDie_time (s : State) (k : Nat) (f : Die → Die) : (s.modDie k f).time = s.time := rfl
@[simp] theorem State.modDie_frac (s : State) (k : Nat) (f : Die → Die) : (s.modDie k f).frac = s.frac := rfl
@[simp] theorem State.modDie_lc (s : State) (k : Nat) (f : Die → Die) : (s.modDie k f).lc = s.lc := rfl
@[simp] theorem State.modDie_cur (s : State) (k : Nat) (f : Die → Die) : (s.modDie k f).cur = s.cur := rfl
@[simp] theorem State.modDie_pkg (s : State) (k : Nat) (f : Die → Die) : (s.modDie k f).pkg = s.pkg := rfl
@[simp] theorem State.modDie_sysNum (s : State) (k : Nat) (f : Die → Die) : (s.modDie k f).sysNum = s.sysNum := rfl
@[simp] theorem State.modDie_domain (s : State) (k : Nat) (f : Die → Die) : (s.modDie k f).domain = s.domain := rfl
@[simp] theorem State.modDie_peers (s : State) (k : Nat) (f : Die → Die) : (s.modDie k f).peers = s.peers := rfl
@[simp] theorem State.modDie_devRegs (s : State) (k : Nat) (f : Die → Die) : (s.modDie k f).devRegs = s.devRegs := rfl
@[simp] theorem State.modDie_tests (s : State) (k : Nat) (f : Die → Die) : (s.modDie k f).tests = s.tests := rfl
@[simp] theorem State.modDie_tested (s : State) (k : Nat) (f : Die → Die) : (s.modDie k f).tested = s.tested := rfl
@[simp] theorem State.modDie_trained (s : State) (k : Nat) (f : Die → Die) : (s.modDie k f).trained = s.trained := rfl
@[simp] theorem State.modDie_rings (s : State) (k : Nat) (f : Die → Die) : (s.modDie k f).rings = s.rings := rfl
@[simp] theorem State.modDie_rung (s : State) (k : Nat) (f : Die → Die) : (s.modDie k f).rung = s.rung := rfl
@[simp] theorem State.modDie_portsLost (s : State) (k : Nat) (f : Die → Die) : (s.modDie k f).portsLost = s.portsLost := rfl
@[simp] theorem State.modDie_retries (s : State) (k : Nat) (f : Die → Die) : (s.modDie k f).retries = s.retries := rfl
@[simp] theorem State.modDie_doubleTraps (s : State) (k : Nat) (f : Die → Die) : (s.modDie k f).doubleTraps = s.doubleTraps := rfl
@[simp] theorem State.modDie_romSecret (s : State) (k : Nat) (f : Die → Die) : (s.modDie k f).romSecret = s.romSecret := rfl
@[simp] theorem State.modDie_aliasKey (s : State) (k : Nat) (f : Die → Die) : (s.modDie k f).aliasKey = s.aliasKey := rfl
@[simp] theorem State.modDie_rota (s : State) (k : Nat) (f : Die → Die) : (s.modDie k f).rota = s.rota := rfl
@[simp] theorem State.modDie_rotaLeft (s : State) (k : Nat) (f : Die → Die) : (s.modDie k f).rotaLeft = s.rotaLeft := rfl
@[simp] theorem State.modDie_flushes (s : State) (k : Nat) (f : Die → Die) : (s.modDie k f).flushes = s.flushes := rfl
@[simp] theorem State.modDie_issues (s : State) (k : Nat) (f : Die → Die) : (s.modDie k f).issues = s.issues := rfl
@[simp] theorem State.modDie_tbrate (s : State) (k : Nat) (f : Die → Die) : (s.modDie k f).tbrate = s.tbrate := rfl
@[simp] theorem State.modDie_ptp (s : State) (k : Nat) (f : Die → Die) : (s.modDie k f).ptp = s.ptp := rfl
@[simp] theorem State.modDie_stage (s : State) (k : Nat) (f : Die → Die) : (s.modDie k f).stage = s.stage := rfl
@[simp] theorem State.modDie_bootErr (s : State) (k : Nat) (f : Die → Die) : (s.modDie k f).bootErr = s.bootErr := rfl
@[simp] theorem State.modDie_image (s : State) (k : Nat) (f : Die → Die) : (s.modDie k f).image = s.image := rfl
@[simp] theorem State.modDie_bootLen (s : State) (k : Nat) (f : Die → Die) : (s.modDie k f).bootLen = s.bootLen := rfl
@[simp] theorem State.modDie_imgHash (s : State) (k : Nat) (f : Die → Die) : (s.modDie k f).imgHash = s.imgHash := rfl
@[simp] theorem State.modDie_svn (s : State) (k : Nat) (f : Die → Die) : (s.modDie k f).svn = s.svn := rfl
@[simp] theorem State.modDie_shHash (s : State) (k : Nat) (f : Die → Die) : (s.modDie k f).shHash = s.shHash := rfl
@[simp] theorem State.modDie_otpFloor (s : State) (k : Nat) (f : Die → Die) : (s.modDie k f).otpFloor = s.otpFloor := rfl
@[simp] theorem State.modDie_off (s : State) (k : Nat) (f : Die → Die) : (s.modDie k f).off = s.off := rfl
@[simp] theorem State.modDie_turn (s : State) (k : Nat) (f : Die → Die) : (s.modDie k f).turn = s.turn := rfl
@[simp] theorem State.modDie_agenda (s : State) (k : Nat) (f : Die → Die) : (s.modDie k f).agenda = s.agenda := rfl
@[simp] theorem State.modDie_inflight (s : State) (k : Nat) (f : Die → Die) : (s.modDie k f).inflight = s.inflight := rfl
@[simp] theorem State.modDie_nextId (s : State) (k : Nat) (f : Die → Die) : (s.modDie k f).nextId = s.nextId := rfl
@[simp] theorem State.modDie_free (s : State) (k : Nat) (f : Die → Die) : (s.modDie k f).free = s.free := rfl

/-! modCore. -/

@[simp] theorem State.modCore_dies (s : State) (k : Nat) (f : Core → Core) : (s.modCore k f).dies = s.dies := rfl
@[simp] theorem State.modCore_mgts (s : State) (k : Nat) (f : Core → Core) : (s.modCore k f).mgts = s.mgts := rfl
@[simp] theorem State.modCore_panels (s : State) (k : Nat) (f : Core → Core) : (s.modCore k f).panels = s.panels := rfl
@[simp] theorem State.modCore_swatches (s : State) (k : Nat) (f : Core → Core) : (s.modCore k f).swatches = s.swatches := rfl
@[simp] theorem State.modCore_jobs (s : State) (k : Nat) (f : Core → Core) : (s.modCore k f).jobs = s.jobs := rfl
@[simp] theorem State.modCore_reqs (s : State) (k : Nat) (f : Core → Core) : (s.modCore k f).reqs = s.reqs := rfl
@[simp] theorem State.modCore_copies (s : State) (k : Nat) (f : Core → Core) : (s.modCore k f).copies = s.copies := rfl
@[simp] theorem State.modCore_knots (s : State) (k : Nat) (f : Core → Core) : (s.modCore k f).knots = s.knots := rfl
@[simp] theorem State.modCore_joins (s : State) (k : Nat) (f : Core → Core) : (s.modCore k f).joins = s.joins := rfl
@[simp] theorem State.modCore_mstts (s : State) (k : Nat) (f : Core → Core) : (s.modCore k f).mstts = s.mstts := rfl
@[simp] theorem State.modCore_kvs (s : State) (k : Nat) (f : Core → Core) : (s.modCore k f).kvs = s.kvs := rfl
@[simp] theorem State.modCore_kvlds (s : State) (k : Nat) (f : Core → Core) : (s.modCore k f).kvlds = s.kvlds := rfl
@[simp] theorem State.modCore_colls (s : State) (k : Nat) (f : Core → Core) : (s.modCore k f).colls = s.colls := rfl
@[simp] theorem State.modCore_collSeqs (s : State) (k : Nat) (f : Core → Core) : (s.modCore k f).collSeqs = s.collSeqs := rfl
@[simp] theorem State.modCore_scIncs (s : State) (k : Nat) (f : Core → Core) : (s.modCore k f).scIncs = s.scIncs := rfl
@[simp] theorem State.modCore_demands (s : State) (k : Nat) (f : Core → Core) : (s.modCore k f).demands = s.demands := rfl
@[simp] theorem State.modCore_exchs (s : State) (k : Nat) (f : Core → Core) : (s.modCore k f).exchs = s.exchs := rfl
@[simp] theorem State.modCore_arb (s : State) (k : Nat) (f : Core → Core) : (s.modCore k f).arb = s.arb := rfl
@[simp] theorem State.modCore_images (s : State) (k : Nat) (f : Core → Core) : (s.modCore k f).images = s.images := rfl
@[simp] theorem State.modCore_mem (s : State) (k : Nat) (f : Core → Core) : (s.modCore k f).mem = s.mem := rfl
@[simp] theorem State.modCore_badEcc (s : State) (k : Nat) (f : Core → Core) : (s.modCore k f).badEcc = s.badEcc := rfl
@[simp] theorem State.modCore_softEcc (s : State) (k : Nat) (f : Core → Core) : (s.modCore k f).softEcc = s.softEcc := rfl
@[simp] theorem State.modCore_time (s : State) (k : Nat) (f : Core → Core) : (s.modCore k f).time = s.time := rfl
@[simp] theorem State.modCore_frac (s : State) (k : Nat) (f : Core → Core) : (s.modCore k f).frac = s.frac := rfl
@[simp] theorem State.modCore_lc (s : State) (k : Nat) (f : Core → Core) : (s.modCore k f).lc = s.lc := rfl
@[simp] theorem State.modCore_cur (s : State) (k : Nat) (f : Core → Core) : (s.modCore k f).cur = s.cur := rfl
@[simp] theorem State.modCore_pkg (s : State) (k : Nat) (f : Core → Core) : (s.modCore k f).pkg = s.pkg := rfl
@[simp] theorem State.modCore_sysNum (s : State) (k : Nat) (f : Core → Core) : (s.modCore k f).sysNum = s.sysNum := rfl
@[simp] theorem State.modCore_domain (s : State) (k : Nat) (f : Core → Core) : (s.modCore k f).domain = s.domain := rfl
@[simp] theorem State.modCore_peers (s : State) (k : Nat) (f : Core → Core) : (s.modCore k f).peers = s.peers := rfl
@[simp] theorem State.modCore_devRegs (s : State) (k : Nat) (f : Core → Core) : (s.modCore k f).devRegs = s.devRegs := rfl
@[simp] theorem State.modCore_tests (s : State) (k : Nat) (f : Core → Core) : (s.modCore k f).tests = s.tests := rfl
@[simp] theorem State.modCore_tested (s : State) (k : Nat) (f : Core → Core) : (s.modCore k f).tested = s.tested := rfl
@[simp] theorem State.modCore_trained (s : State) (k : Nat) (f : Core → Core) : (s.modCore k f).trained = s.trained := rfl
@[simp] theorem State.modCore_rings (s : State) (k : Nat) (f : Core → Core) : (s.modCore k f).rings = s.rings := rfl
@[simp] theorem State.modCore_rung (s : State) (k : Nat) (f : Core → Core) : (s.modCore k f).rung = s.rung := rfl
@[simp] theorem State.modCore_portsLost (s : State) (k : Nat) (f : Core → Core) : (s.modCore k f).portsLost = s.portsLost := rfl
@[simp] theorem State.modCore_retries (s : State) (k : Nat) (f : Core → Core) : (s.modCore k f).retries = s.retries := rfl
@[simp] theorem State.modCore_doubleTraps (s : State) (k : Nat) (f : Core → Core) : (s.modCore k f).doubleTraps = s.doubleTraps := rfl
@[simp] theorem State.modCore_romSecret (s : State) (k : Nat) (f : Core → Core) : (s.modCore k f).romSecret = s.romSecret := rfl
@[simp] theorem State.modCore_aliasKey (s : State) (k : Nat) (f : Core → Core) : (s.modCore k f).aliasKey = s.aliasKey := rfl
@[simp] theorem State.modCore_rota (s : State) (k : Nat) (f : Core → Core) : (s.modCore k f).rota = s.rota := rfl
@[simp] theorem State.modCore_rotaLeft (s : State) (k : Nat) (f : Core → Core) : (s.modCore k f).rotaLeft = s.rotaLeft := rfl
@[simp] theorem State.modCore_flushes (s : State) (k : Nat) (f : Core → Core) : (s.modCore k f).flushes = s.flushes := rfl
@[simp] theorem State.modCore_issues (s : State) (k : Nat) (f : Core → Core) : (s.modCore k f).issues = s.issues := rfl
@[simp] theorem State.modCore_tbrate (s : State) (k : Nat) (f : Core → Core) : (s.modCore k f).tbrate = s.tbrate := rfl
@[simp] theorem State.modCore_ptp (s : State) (k : Nat) (f : Core → Core) : (s.modCore k f).ptp = s.ptp := rfl
@[simp] theorem State.modCore_stage (s : State) (k : Nat) (f : Core → Core) : (s.modCore k f).stage = s.stage := rfl
@[simp] theorem State.modCore_bootErr (s : State) (k : Nat) (f : Core → Core) : (s.modCore k f).bootErr = s.bootErr := rfl
@[simp] theorem State.modCore_image (s : State) (k : Nat) (f : Core → Core) : (s.modCore k f).image = s.image := rfl
@[simp] theorem State.modCore_bootLen (s : State) (k : Nat) (f : Core → Core) : (s.modCore k f).bootLen = s.bootLen := rfl
@[simp] theorem State.modCore_imgHash (s : State) (k : Nat) (f : Core → Core) : (s.modCore k f).imgHash = s.imgHash := rfl
@[simp] theorem State.modCore_svn (s : State) (k : Nat) (f : Core → Core) : (s.modCore k f).svn = s.svn := rfl
@[simp] theorem State.modCore_shHash (s : State) (k : Nat) (f : Core → Core) : (s.modCore k f).shHash = s.shHash := rfl
@[simp] theorem State.modCore_otpFloor (s : State) (k : Nat) (f : Core → Core) : (s.modCore k f).otpFloor = s.otpFloor := rfl
@[simp] theorem State.modCore_off (s : State) (k : Nat) (f : Core → Core) : (s.modCore k f).off = s.off := rfl
@[simp] theorem State.modCore_turn (s : State) (k : Nat) (f : Core → Core) : (s.modCore k f).turn = s.turn := rfl
@[simp] theorem State.modCore_agenda (s : State) (k : Nat) (f : Core → Core) : (s.modCore k f).agenda = s.agenda := rfl
@[simp] theorem State.modCore_inflight (s : State) (k : Nat) (f : Core → Core) : (s.modCore k f).inflight = s.inflight := rfl
@[simp] theorem State.modCore_nextId (s : State) (k : Nat) (f : Core → Core) : (s.modCore k f).nextId = s.nextId := rfl
@[simp] theorem State.modCore_free (s : State) (k : Nat) (f : Core → Core) : (s.modCore k f).free = s.free := rfl

/-! modMgt. -/

@[simp] theorem State.modMgt_cores (s : State) (k : Nat) (f : Mgt → Mgt) : (s.modMgt k f).cores = s.cores := rfl
@[simp] theorem State.modMgt_dies (s : State) (k : Nat) (f : Mgt → Mgt) : (s.modMgt k f).dies = s.dies := rfl
@[simp] theorem State.modMgt_panels (s : State) (k : Nat) (f : Mgt → Mgt) : (s.modMgt k f).panels = s.panels := rfl
@[simp] theorem State.modMgt_swatches (s : State) (k : Nat) (f : Mgt → Mgt) : (s.modMgt k f).swatches = s.swatches := rfl
@[simp] theorem State.modMgt_jobs (s : State) (k : Nat) (f : Mgt → Mgt) : (s.modMgt k f).jobs = s.jobs := rfl
@[simp] theorem State.modMgt_reqs (s : State) (k : Nat) (f : Mgt → Mgt) : (s.modMgt k f).reqs = s.reqs := rfl
@[simp] theorem State.modMgt_copies (s : State) (k : Nat) (f : Mgt → Mgt) : (s.modMgt k f).copies = s.copies := rfl
@[simp] theorem State.modMgt_knots (s : State) (k : Nat) (f : Mgt → Mgt) : (s.modMgt k f).knots = s.knots := rfl
@[simp] theorem State.modMgt_joins (s : State) (k : Nat) (f : Mgt → Mgt) : (s.modMgt k f).joins = s.joins := rfl
@[simp] theorem State.modMgt_mstts (s : State) (k : Nat) (f : Mgt → Mgt) : (s.modMgt k f).mstts = s.mstts := rfl
@[simp] theorem State.modMgt_kvs (s : State) (k : Nat) (f : Mgt → Mgt) : (s.modMgt k f).kvs = s.kvs := rfl
@[simp] theorem State.modMgt_kvlds (s : State) (k : Nat) (f : Mgt → Mgt) : (s.modMgt k f).kvlds = s.kvlds := rfl
@[simp] theorem State.modMgt_colls (s : State) (k : Nat) (f : Mgt → Mgt) : (s.modMgt k f).colls = s.colls := rfl
@[simp] theorem State.modMgt_collSeqs (s : State) (k : Nat) (f : Mgt → Mgt) : (s.modMgt k f).collSeqs = s.collSeqs := rfl
@[simp] theorem State.modMgt_scIncs (s : State) (k : Nat) (f : Mgt → Mgt) : (s.modMgt k f).scIncs = s.scIncs := rfl
@[simp] theorem State.modMgt_demands (s : State) (k : Nat) (f : Mgt → Mgt) : (s.modMgt k f).demands = s.demands := rfl
@[simp] theorem State.modMgt_exchs (s : State) (k : Nat) (f : Mgt → Mgt) : (s.modMgt k f).exchs = s.exchs := rfl
@[simp] theorem State.modMgt_arb (s : State) (k : Nat) (f : Mgt → Mgt) : (s.modMgt k f).arb = s.arb := rfl
@[simp] theorem State.modMgt_images (s : State) (k : Nat) (f : Mgt → Mgt) : (s.modMgt k f).images = s.images := rfl
@[simp] theorem State.modMgt_mem (s : State) (k : Nat) (f : Mgt → Mgt) : (s.modMgt k f).mem = s.mem := rfl
@[simp] theorem State.modMgt_badEcc (s : State) (k : Nat) (f : Mgt → Mgt) : (s.modMgt k f).badEcc = s.badEcc := rfl
@[simp] theorem State.modMgt_softEcc (s : State) (k : Nat) (f : Mgt → Mgt) : (s.modMgt k f).softEcc = s.softEcc := rfl
@[simp] theorem State.modMgt_time (s : State) (k : Nat) (f : Mgt → Mgt) : (s.modMgt k f).time = s.time := rfl
@[simp] theorem State.modMgt_frac (s : State) (k : Nat) (f : Mgt → Mgt) : (s.modMgt k f).frac = s.frac := rfl
@[simp] theorem State.modMgt_lc (s : State) (k : Nat) (f : Mgt → Mgt) : (s.modMgt k f).lc = s.lc := rfl
@[simp] theorem State.modMgt_cur (s : State) (k : Nat) (f : Mgt → Mgt) : (s.modMgt k f).cur = s.cur := rfl
@[simp] theorem State.modMgt_pkg (s : State) (k : Nat) (f : Mgt → Mgt) : (s.modMgt k f).pkg = s.pkg := rfl
@[simp] theorem State.modMgt_sysNum (s : State) (k : Nat) (f : Mgt → Mgt) : (s.modMgt k f).sysNum = s.sysNum := rfl
@[simp] theorem State.modMgt_domain (s : State) (k : Nat) (f : Mgt → Mgt) : (s.modMgt k f).domain = s.domain := rfl
@[simp] theorem State.modMgt_peers (s : State) (k : Nat) (f : Mgt → Mgt) : (s.modMgt k f).peers = s.peers := rfl
@[simp] theorem State.modMgt_devRegs (s : State) (k : Nat) (f : Mgt → Mgt) : (s.modMgt k f).devRegs = s.devRegs := rfl
@[simp] theorem State.modMgt_tests (s : State) (k : Nat) (f : Mgt → Mgt) : (s.modMgt k f).tests = s.tests := rfl
@[simp] theorem State.modMgt_tested (s : State) (k : Nat) (f : Mgt → Mgt) : (s.modMgt k f).tested = s.tested := rfl
@[simp] theorem State.modMgt_trained (s : State) (k : Nat) (f : Mgt → Mgt) : (s.modMgt k f).trained = s.trained := rfl
@[simp] theorem State.modMgt_rings (s : State) (k : Nat) (f : Mgt → Mgt) : (s.modMgt k f).rings = s.rings := rfl
@[simp] theorem State.modMgt_rung (s : State) (k : Nat) (f : Mgt → Mgt) : (s.modMgt k f).rung = s.rung := rfl
@[simp] theorem State.modMgt_portsLost (s : State) (k : Nat) (f : Mgt → Mgt) : (s.modMgt k f).portsLost = s.portsLost := rfl
@[simp] theorem State.modMgt_retries (s : State) (k : Nat) (f : Mgt → Mgt) : (s.modMgt k f).retries = s.retries := rfl
@[simp] theorem State.modMgt_doubleTraps (s : State) (k : Nat) (f : Mgt → Mgt) : (s.modMgt k f).doubleTraps = s.doubleTraps := rfl
@[simp] theorem State.modMgt_romSecret (s : State) (k : Nat) (f : Mgt → Mgt) : (s.modMgt k f).romSecret = s.romSecret := rfl
@[simp] theorem State.modMgt_aliasKey (s : State) (k : Nat) (f : Mgt → Mgt) : (s.modMgt k f).aliasKey = s.aliasKey := rfl
@[simp] theorem State.modMgt_rota (s : State) (k : Nat) (f : Mgt → Mgt) : (s.modMgt k f).rota = s.rota := rfl
@[simp] theorem State.modMgt_rotaLeft (s : State) (k : Nat) (f : Mgt → Mgt) : (s.modMgt k f).rotaLeft = s.rotaLeft := rfl
@[simp] theorem State.modMgt_flushes (s : State) (k : Nat) (f : Mgt → Mgt) : (s.modMgt k f).flushes = s.flushes := rfl
@[simp] theorem State.modMgt_issues (s : State) (k : Nat) (f : Mgt → Mgt) : (s.modMgt k f).issues = s.issues := rfl
@[simp] theorem State.modMgt_tbrate (s : State) (k : Nat) (f : Mgt → Mgt) : (s.modMgt k f).tbrate = s.tbrate := rfl
@[simp] theorem State.modMgt_ptp (s : State) (k : Nat) (f : Mgt → Mgt) : (s.modMgt k f).ptp = s.ptp := rfl
@[simp] theorem State.modMgt_stage (s : State) (k : Nat) (f : Mgt → Mgt) : (s.modMgt k f).stage = s.stage := rfl
@[simp] theorem State.modMgt_bootErr (s : State) (k : Nat) (f : Mgt → Mgt) : (s.modMgt k f).bootErr = s.bootErr := rfl
@[simp] theorem State.modMgt_image (s : State) (k : Nat) (f : Mgt → Mgt) : (s.modMgt k f).image = s.image := rfl
@[simp] theorem State.modMgt_bootLen (s : State) (k : Nat) (f : Mgt → Mgt) : (s.modMgt k f).bootLen = s.bootLen := rfl
@[simp] theorem State.modMgt_imgHash (s : State) (k : Nat) (f : Mgt → Mgt) : (s.modMgt k f).imgHash = s.imgHash := rfl
@[simp] theorem State.modMgt_svn (s : State) (k : Nat) (f : Mgt → Mgt) : (s.modMgt k f).svn = s.svn := rfl
@[simp] theorem State.modMgt_shHash (s : State) (k : Nat) (f : Mgt → Mgt) : (s.modMgt k f).shHash = s.shHash := rfl
@[simp] theorem State.modMgt_otpFloor (s : State) (k : Nat) (f : Mgt → Mgt) : (s.modMgt k f).otpFloor = s.otpFloor := rfl
@[simp] theorem State.modMgt_off (s : State) (k : Nat) (f : Mgt → Mgt) : (s.modMgt k f).off = s.off := rfl
@[simp] theorem State.modMgt_turn (s : State) (k : Nat) (f : Mgt → Mgt) : (s.modMgt k f).turn = s.turn := rfl
@[simp] theorem State.modMgt_agenda (s : State) (k : Nat) (f : Mgt → Mgt) : (s.modMgt k f).agenda = s.agenda := rfl
@[simp] theorem State.modMgt_inflight (s : State) (k : Nat) (f : Mgt → Mgt) : (s.modMgt k f).inflight = s.inflight := rfl
@[simp] theorem State.modMgt_nextId (s : State) (k : Nat) (f : Mgt → Mgt) : (s.modMgt k f).nextId = s.nextId := rfl
@[simp] theorem State.modMgt_free (s : State) (k : Nat) (f : Mgt → Mgt) : (s.modMgt k f).free = s.free := rfl

/-! setPanel. -/

@[simp] theorem State.setPanel_cores (s : State) (h : Nat) (p : Panel) : (s.setPanel h p).cores = s.cores := rfl
@[simp] theorem State.setPanel_dies (s : State) (h : Nat) (p : Panel) : (s.setPanel h p).dies = s.dies := rfl
@[simp] theorem State.setPanel_mgts (s : State) (h : Nat) (p : Panel) : (s.setPanel h p).mgts = s.mgts := rfl
@[simp] theorem State.setPanel_swatches (s : State) (h : Nat) (p : Panel) : (s.setPanel h p).swatches = s.swatches := rfl
@[simp] theorem State.setPanel_jobs (s : State) (h : Nat) (p : Panel) : (s.setPanel h p).jobs = s.jobs := rfl
@[simp] theorem State.setPanel_reqs (s : State) (h : Nat) (p : Panel) : (s.setPanel h p).reqs = s.reqs := rfl
@[simp] theorem State.setPanel_copies (s : State) (h : Nat) (p : Panel) : (s.setPanel h p).copies = s.copies := rfl
@[simp] theorem State.setPanel_knots (s : State) (h : Nat) (p : Panel) : (s.setPanel h p).knots = s.knots := rfl
@[simp] theorem State.setPanel_joins (s : State) (h : Nat) (p : Panel) : (s.setPanel h p).joins = s.joins := rfl
@[simp] theorem State.setPanel_mstts (s : State) (h : Nat) (p : Panel) : (s.setPanel h p).mstts = s.mstts := rfl
@[simp] theorem State.setPanel_kvs (s : State) (h : Nat) (p : Panel) : (s.setPanel h p).kvs = s.kvs := rfl
@[simp] theorem State.setPanel_kvlds (s : State) (h : Nat) (p : Panel) : (s.setPanel h p).kvlds = s.kvlds := rfl
@[simp] theorem State.setPanel_colls (s : State) (h : Nat) (p : Panel) : (s.setPanel h p).colls = s.colls := rfl
@[simp] theorem State.setPanel_collSeqs (s : State) (h : Nat) (p : Panel) : (s.setPanel h p).collSeqs = s.collSeqs := rfl
@[simp] theorem State.setPanel_scIncs (s : State) (h : Nat) (p : Panel) : (s.setPanel h p).scIncs = s.scIncs := rfl
@[simp] theorem State.setPanel_demands (s : State) (h : Nat) (p : Panel) : (s.setPanel h p).demands = s.demands := rfl
@[simp] theorem State.setPanel_exchs (s : State) (h : Nat) (p : Panel) : (s.setPanel h p).exchs = s.exchs := rfl
@[simp] theorem State.setPanel_arb (s : State) (h : Nat) (p : Panel) : (s.setPanel h p).arb = s.arb := rfl
@[simp] theorem State.setPanel_images (s : State) (h : Nat) (p : Panel) : (s.setPanel h p).images = s.images := rfl
@[simp] theorem State.setPanel_mem (s : State) (h : Nat) (p : Panel) : (s.setPanel h p).mem = s.mem := rfl
@[simp] theorem State.setPanel_badEcc (s : State) (h : Nat) (p : Panel) : (s.setPanel h p).badEcc = s.badEcc := rfl
@[simp] theorem State.setPanel_softEcc (s : State) (h : Nat) (p : Panel) : (s.setPanel h p).softEcc = s.softEcc := rfl
@[simp] theorem State.setPanel_time (s : State) (h : Nat) (p : Panel) : (s.setPanel h p).time = s.time := rfl
@[simp] theorem State.setPanel_frac (s : State) (h : Nat) (p : Panel) : (s.setPanel h p).frac = s.frac := rfl
@[simp] theorem State.setPanel_lc (s : State) (h : Nat) (p : Panel) : (s.setPanel h p).lc = s.lc := rfl
@[simp] theorem State.setPanel_cur (s : State) (h : Nat) (p : Panel) : (s.setPanel h p).cur = s.cur := rfl
@[simp] theorem State.setPanel_pkg (s : State) (h : Nat) (p : Panel) : (s.setPanel h p).pkg = s.pkg := rfl
@[simp] theorem State.setPanel_sysNum (s : State) (h : Nat) (p : Panel) : (s.setPanel h p).sysNum = s.sysNum := rfl
@[simp] theorem State.setPanel_domain (s : State) (h : Nat) (p : Panel) : (s.setPanel h p).domain = s.domain := rfl
@[simp] theorem State.setPanel_peers (s : State) (h : Nat) (p : Panel) : (s.setPanel h p).peers = s.peers := rfl
@[simp] theorem State.setPanel_devRegs (s : State) (h : Nat) (p : Panel) : (s.setPanel h p).devRegs = s.devRegs := rfl
@[simp] theorem State.setPanel_tests (s : State) (h : Nat) (p : Panel) : (s.setPanel h p).tests = s.tests := rfl
@[simp] theorem State.setPanel_tested (s : State) (h : Nat) (p : Panel) : (s.setPanel h p).tested = s.tested := rfl
@[simp] theorem State.setPanel_trained (s : State) (h : Nat) (p : Panel) : (s.setPanel h p).trained = s.trained := rfl
@[simp] theorem State.setPanel_rings (s : State) (h : Nat) (p : Panel) : (s.setPanel h p).rings = s.rings := rfl
@[simp] theorem State.setPanel_rung (s : State) (h : Nat) (p : Panel) : (s.setPanel h p).rung = s.rung := rfl
@[simp] theorem State.setPanel_portsLost (s : State) (h : Nat) (p : Panel) : (s.setPanel h p).portsLost = s.portsLost := rfl
@[simp] theorem State.setPanel_retries (s : State) (h : Nat) (p : Panel) : (s.setPanel h p).retries = s.retries := rfl
@[simp] theorem State.setPanel_doubleTraps (s : State) (h : Nat) (p : Panel) : (s.setPanel h p).doubleTraps = s.doubleTraps := rfl
@[simp] theorem State.setPanel_romSecret (s : State) (h : Nat) (p : Panel) : (s.setPanel h p).romSecret = s.romSecret := rfl
@[simp] theorem State.setPanel_aliasKey (s : State) (h : Nat) (p : Panel) : (s.setPanel h p).aliasKey = s.aliasKey := rfl
@[simp] theorem State.setPanel_rota (s : State) (h : Nat) (p : Panel) : (s.setPanel h p).rota = s.rota := rfl
@[simp] theorem State.setPanel_rotaLeft (s : State) (h : Nat) (p : Panel) : (s.setPanel h p).rotaLeft = s.rotaLeft := rfl
@[simp] theorem State.setPanel_flushes (s : State) (h : Nat) (p : Panel) : (s.setPanel h p).flushes = s.flushes := rfl
@[simp] theorem State.setPanel_issues (s : State) (h : Nat) (p : Panel) : (s.setPanel h p).issues = s.issues := rfl
@[simp] theorem State.setPanel_tbrate (s : State) (h : Nat) (p : Panel) : (s.setPanel h p).tbrate = s.tbrate := rfl
@[simp] theorem State.setPanel_ptp (s : State) (h : Nat) (p : Panel) : (s.setPanel h p).ptp = s.ptp := rfl
@[simp] theorem State.setPanel_stage (s : State) (h : Nat) (p : Panel) : (s.setPanel h p).stage = s.stage := rfl
@[simp] theorem State.setPanel_bootErr (s : State) (h : Nat) (p : Panel) : (s.setPanel h p).bootErr = s.bootErr := rfl
@[simp] theorem State.setPanel_image (s : State) (h : Nat) (p : Panel) : (s.setPanel h p).image = s.image := rfl
@[simp] theorem State.setPanel_bootLen (s : State) (h : Nat) (p : Panel) : (s.setPanel h p).bootLen = s.bootLen := rfl
@[simp] theorem State.setPanel_imgHash (s : State) (h : Nat) (p : Panel) : (s.setPanel h p).imgHash = s.imgHash := rfl
@[simp] theorem State.setPanel_svn (s : State) (h : Nat) (p : Panel) : (s.setPanel h p).svn = s.svn := rfl
@[simp] theorem State.setPanel_shHash (s : State) (h : Nat) (p : Panel) : (s.setPanel h p).shHash = s.shHash := rfl
@[simp] theorem State.setPanel_otpFloor (s : State) (h : Nat) (p : Panel) : (s.setPanel h p).otpFloor = s.otpFloor := rfl
@[simp] theorem State.setPanel_off (s : State) (h : Nat) (p : Panel) : (s.setPanel h p).off = s.off := rfl
@[simp] theorem State.setPanel_turn (s : State) (h : Nat) (p : Panel) : (s.setPanel h p).turn = s.turn := rfl
@[simp] theorem State.setPanel_agenda (s : State) (h : Nat) (p : Panel) : (s.setPanel h p).agenda = s.agenda := rfl
@[simp] theorem State.setPanel_inflight (s : State) (h : Nat) (p : Panel) : (s.setPanel h p).inflight = s.inflight := rfl
@[simp] theorem State.setPanel_nextId (s : State) (h : Nat) (p : Panel) : (s.setPanel h p).nextId = s.nextId := rfl
@[simp] theorem State.setPanel_free (s : State) (h : Nat) (p : Panel) : (s.setPanel h p).free = s.free := rfl

/-! modJob. -/

@[simp] theorem State.modJob_cores (s : State) (c : Nat) (f : Job → Job) : (s.modJob c f).cores = s.cores := rfl
@[simp] theorem State.modJob_dies (s : State) (c : Nat) (f : Job → Job) : (s.modJob c f).dies = s.dies := rfl
@[simp] theorem State.modJob_mgts (s : State) (c : Nat) (f : Job → Job) : (s.modJob c f).mgts = s.mgts := rfl
@[simp] theorem State.modJob_panels (s : State) (c : Nat) (f : Job → Job) : (s.modJob c f).panels = s.panels := rfl
@[simp] theorem State.modJob_swatches (s : State) (c : Nat) (f : Job → Job) : (s.modJob c f).swatches = s.swatches := rfl
@[simp] theorem State.modJob_reqs (s : State) (c : Nat) (f : Job → Job) : (s.modJob c f).reqs = s.reqs := rfl
@[simp] theorem State.modJob_copies (s : State) (c : Nat) (f : Job → Job) : (s.modJob c f).copies = s.copies := rfl
@[simp] theorem State.modJob_knots (s : State) (c : Nat) (f : Job → Job) : (s.modJob c f).knots = s.knots := rfl
@[simp] theorem State.modJob_joins (s : State) (c : Nat) (f : Job → Job) : (s.modJob c f).joins = s.joins := rfl
@[simp] theorem State.modJob_mstts (s : State) (c : Nat) (f : Job → Job) : (s.modJob c f).mstts = s.mstts := rfl
@[simp] theorem State.modJob_kvs (s : State) (c : Nat) (f : Job → Job) : (s.modJob c f).kvs = s.kvs := rfl
@[simp] theorem State.modJob_kvlds (s : State) (c : Nat) (f : Job → Job) : (s.modJob c f).kvlds = s.kvlds := rfl
@[simp] theorem State.modJob_colls (s : State) (c : Nat) (f : Job → Job) : (s.modJob c f).colls = s.colls := rfl
@[simp] theorem State.modJob_collSeqs (s : State) (c : Nat) (f : Job → Job) : (s.modJob c f).collSeqs = s.collSeqs := rfl
@[simp] theorem State.modJob_scIncs (s : State) (c : Nat) (f : Job → Job) : (s.modJob c f).scIncs = s.scIncs := rfl
@[simp] theorem State.modJob_demands (s : State) (c : Nat) (f : Job → Job) : (s.modJob c f).demands = s.demands := rfl
@[simp] theorem State.modJob_exchs (s : State) (c : Nat) (f : Job → Job) : (s.modJob c f).exchs = s.exchs := rfl
@[simp] theorem State.modJob_arb (s : State) (c : Nat) (f : Job → Job) : (s.modJob c f).arb = s.arb := rfl
@[simp] theorem State.modJob_images (s : State) (c : Nat) (f : Job → Job) : (s.modJob c f).images = s.images := rfl
@[simp] theorem State.modJob_mem (s : State) (c : Nat) (f : Job → Job) : (s.modJob c f).mem = s.mem := rfl
@[simp] theorem State.modJob_badEcc (s : State) (c : Nat) (f : Job → Job) : (s.modJob c f).badEcc = s.badEcc := rfl
@[simp] theorem State.modJob_softEcc (s : State) (c : Nat) (f : Job → Job) : (s.modJob c f).softEcc = s.softEcc := rfl
@[simp] theorem State.modJob_time (s : State) (c : Nat) (f : Job → Job) : (s.modJob c f).time = s.time := rfl
@[simp] theorem State.modJob_frac (s : State) (c : Nat) (f : Job → Job) : (s.modJob c f).frac = s.frac := rfl
@[simp] theorem State.modJob_lc (s : State) (c : Nat) (f : Job → Job) : (s.modJob c f).lc = s.lc := rfl
@[simp] theorem State.modJob_cur (s : State) (c : Nat) (f : Job → Job) : (s.modJob c f).cur = s.cur := rfl
@[simp] theorem State.modJob_pkg (s : State) (c : Nat) (f : Job → Job) : (s.modJob c f).pkg = s.pkg := rfl
@[simp] theorem State.modJob_sysNum (s : State) (c : Nat) (f : Job → Job) : (s.modJob c f).sysNum = s.sysNum := rfl
@[simp] theorem State.modJob_domain (s : State) (c : Nat) (f : Job → Job) : (s.modJob c f).domain = s.domain := rfl
@[simp] theorem State.modJob_peers (s : State) (c : Nat) (f : Job → Job) : (s.modJob c f).peers = s.peers := rfl
@[simp] theorem State.modJob_devRegs (s : State) (c : Nat) (f : Job → Job) : (s.modJob c f).devRegs = s.devRegs := rfl
@[simp] theorem State.modJob_tests (s : State) (c : Nat) (f : Job → Job) : (s.modJob c f).tests = s.tests := rfl
@[simp] theorem State.modJob_tested (s : State) (c : Nat) (f : Job → Job) : (s.modJob c f).tested = s.tested := rfl
@[simp] theorem State.modJob_trained (s : State) (c : Nat) (f : Job → Job) : (s.modJob c f).trained = s.trained := rfl
@[simp] theorem State.modJob_rings (s : State) (c : Nat) (f : Job → Job) : (s.modJob c f).rings = s.rings := rfl
@[simp] theorem State.modJob_rung (s : State) (c : Nat) (f : Job → Job) : (s.modJob c f).rung = s.rung := rfl
@[simp] theorem State.modJob_portsLost (s : State) (c : Nat) (f : Job → Job) : (s.modJob c f).portsLost = s.portsLost := rfl
@[simp] theorem State.modJob_retries (s : State) (c : Nat) (f : Job → Job) : (s.modJob c f).retries = s.retries := rfl
@[simp] theorem State.modJob_doubleTraps (s : State) (c : Nat) (f : Job → Job) : (s.modJob c f).doubleTraps = s.doubleTraps := rfl
@[simp] theorem State.modJob_romSecret (s : State) (c : Nat) (f : Job → Job) : (s.modJob c f).romSecret = s.romSecret := rfl
@[simp] theorem State.modJob_aliasKey (s : State) (c : Nat) (f : Job → Job) : (s.modJob c f).aliasKey = s.aliasKey := rfl
@[simp] theorem State.modJob_rota (s : State) (c : Nat) (f : Job → Job) : (s.modJob c f).rota = s.rota := rfl
@[simp] theorem State.modJob_rotaLeft (s : State) (c : Nat) (f : Job → Job) : (s.modJob c f).rotaLeft = s.rotaLeft := rfl
@[simp] theorem State.modJob_flushes (s : State) (c : Nat) (f : Job → Job) : (s.modJob c f).flushes = s.flushes := rfl
@[simp] theorem State.modJob_issues (s : State) (c : Nat) (f : Job → Job) : (s.modJob c f).issues = s.issues := rfl
@[simp] theorem State.modJob_tbrate (s : State) (c : Nat) (f : Job → Job) : (s.modJob c f).tbrate = s.tbrate := rfl
@[simp] theorem State.modJob_ptp (s : State) (c : Nat) (f : Job → Job) : (s.modJob c f).ptp = s.ptp := rfl
@[simp] theorem State.modJob_stage (s : State) (c : Nat) (f : Job → Job) : (s.modJob c f).stage = s.stage := rfl
@[simp] theorem State.modJob_bootErr (s : State) (c : Nat) (f : Job → Job) : (s.modJob c f).bootErr = s.bootErr := rfl
@[simp] theorem State.modJob_image (s : State) (c : Nat) (f : Job → Job) : (s.modJob c f).image = s.image := rfl
@[simp] theorem State.modJob_bootLen (s : State) (c : Nat) (f : Job → Job) : (s.modJob c f).bootLen = s.bootLen := rfl
@[simp] theorem State.modJob_imgHash (s : State) (c : Nat) (f : Job → Job) : (s.modJob c f).imgHash = s.imgHash := rfl
@[simp] theorem State.modJob_svn (s : State) (c : Nat) (f : Job → Job) : (s.modJob c f).svn = s.svn := rfl
@[simp] theorem State.modJob_shHash (s : State) (c : Nat) (f : Job → Job) : (s.modJob c f).shHash = s.shHash := rfl
@[simp] theorem State.modJob_otpFloor (s : State) (c : Nat) (f : Job → Job) : (s.modJob c f).otpFloor = s.otpFloor := rfl
@[simp] theorem State.modJob_off (s : State) (c : Nat) (f : Job → Job) : (s.modJob c f).off = s.off := rfl
@[simp] theorem State.modJob_turn (s : State) (c : Nat) (f : Job → Job) : (s.modJob c f).turn = s.turn := rfl
@[simp] theorem State.modJob_agenda (s : State) (c : Nat) (f : Job → Job) : (s.modJob c f).agenda = s.agenda := rfl
@[simp] theorem State.modJob_inflight (s : State) (c : Nat) (f : Job → Job) : (s.modJob c f).inflight = s.inflight := rfl
@[simp] theorem State.modJob_nextId (s : State) (c : Nat) (f : Job → Job) : (s.modJob c f).nextId = s.nextId := rfl
@[simp] theorem State.modJob_free (s : State) (c : Nat) (f : Job → Job) : (s.modJob c f).free = s.free := rfl

/-! modCtx. -/

@[simp] theorem State.modCtx_cores (s : State) (d c : Nat) (f : Ctx → Ctx) : (s.modCtx d c f).cores = s.cores := rfl
@[simp] theorem State.modCtx_mgts (s : State) (d c : Nat) (f : Ctx → Ctx) : (s.modCtx d c f).mgts = s.mgts := rfl
@[simp] theorem State.modCtx_panels (s : State) (d c : Nat) (f : Ctx → Ctx) : (s.modCtx d c f).panels = s.panels := rfl
@[simp] theorem State.modCtx_swatches (s : State) (d c : Nat) (f : Ctx → Ctx) : (s.modCtx d c f).swatches = s.swatches := rfl
@[simp] theorem State.modCtx_jobs (s : State) (d c : Nat) (f : Ctx → Ctx) : (s.modCtx d c f).jobs = s.jobs := rfl
@[simp] theorem State.modCtx_reqs (s : State) (d c : Nat) (f : Ctx → Ctx) : (s.modCtx d c f).reqs = s.reqs := rfl
@[simp] theorem State.modCtx_copies (s : State) (d c : Nat) (f : Ctx → Ctx) : (s.modCtx d c f).copies = s.copies := rfl
@[simp] theorem State.modCtx_knots (s : State) (d c : Nat) (f : Ctx → Ctx) : (s.modCtx d c f).knots = s.knots := rfl
@[simp] theorem State.modCtx_joins (s : State) (d c : Nat) (f : Ctx → Ctx) : (s.modCtx d c f).joins = s.joins := rfl
@[simp] theorem State.modCtx_mstts (s : State) (d c : Nat) (f : Ctx → Ctx) : (s.modCtx d c f).mstts = s.mstts := rfl
@[simp] theorem State.modCtx_kvs (s : State) (d c : Nat) (f : Ctx → Ctx) : (s.modCtx d c f).kvs = s.kvs := rfl
@[simp] theorem State.modCtx_kvlds (s : State) (d c : Nat) (f : Ctx → Ctx) : (s.modCtx d c f).kvlds = s.kvlds := rfl
@[simp] theorem State.modCtx_colls (s : State) (d c : Nat) (f : Ctx → Ctx) : (s.modCtx d c f).colls = s.colls := rfl
@[simp] theorem State.modCtx_collSeqs (s : State) (d c : Nat) (f : Ctx → Ctx) : (s.modCtx d c f).collSeqs = s.collSeqs := rfl
@[simp] theorem State.modCtx_scIncs (s : State) (d c : Nat) (f : Ctx → Ctx) : (s.modCtx d c f).scIncs = s.scIncs := rfl
@[simp] theorem State.modCtx_demands (s : State) (d c : Nat) (f : Ctx → Ctx) : (s.modCtx d c f).demands = s.demands := rfl
@[simp] theorem State.modCtx_exchs (s : State) (d c : Nat) (f : Ctx → Ctx) : (s.modCtx d c f).exchs = s.exchs := rfl
@[simp] theorem State.modCtx_arb (s : State) (d c : Nat) (f : Ctx → Ctx) : (s.modCtx d c f).arb = s.arb := rfl
@[simp] theorem State.modCtx_images (s : State) (d c : Nat) (f : Ctx → Ctx) : (s.modCtx d c f).images = s.images := rfl
@[simp] theorem State.modCtx_mem (s : State) (d c : Nat) (f : Ctx → Ctx) : (s.modCtx d c f).mem = s.mem := rfl
@[simp] theorem State.modCtx_badEcc (s : State) (d c : Nat) (f : Ctx → Ctx) : (s.modCtx d c f).badEcc = s.badEcc := rfl
@[simp] theorem State.modCtx_softEcc (s : State) (d c : Nat) (f : Ctx → Ctx) : (s.modCtx d c f).softEcc = s.softEcc := rfl
@[simp] theorem State.modCtx_time (s : State) (d c : Nat) (f : Ctx → Ctx) : (s.modCtx d c f).time = s.time := rfl
@[simp] theorem State.modCtx_frac (s : State) (d c : Nat) (f : Ctx → Ctx) : (s.modCtx d c f).frac = s.frac := rfl
@[simp] theorem State.modCtx_lc (s : State) (d c : Nat) (f : Ctx → Ctx) : (s.modCtx d c f).lc = s.lc := rfl
@[simp] theorem State.modCtx_cur (s : State) (d c : Nat) (f : Ctx → Ctx) : (s.modCtx d c f).cur = s.cur := rfl
@[simp] theorem State.modCtx_pkg (s : State) (d c : Nat) (f : Ctx → Ctx) : (s.modCtx d c f).pkg = s.pkg := rfl
@[simp] theorem State.modCtx_sysNum (s : State) (d c : Nat) (f : Ctx → Ctx) : (s.modCtx d c f).sysNum = s.sysNum := rfl
@[simp] theorem State.modCtx_domain (s : State) (d c : Nat) (f : Ctx → Ctx) : (s.modCtx d c f).domain = s.domain := rfl
@[simp] theorem State.modCtx_peers (s : State) (d c : Nat) (f : Ctx → Ctx) : (s.modCtx d c f).peers = s.peers := rfl
@[simp] theorem State.modCtx_devRegs (s : State) (d c : Nat) (f : Ctx → Ctx) : (s.modCtx d c f).devRegs = s.devRegs := rfl
@[simp] theorem State.modCtx_tests (s : State) (d c : Nat) (f : Ctx → Ctx) : (s.modCtx d c f).tests = s.tests := rfl
@[simp] theorem State.modCtx_tested (s : State) (d c : Nat) (f : Ctx → Ctx) : (s.modCtx d c f).tested = s.tested := rfl
@[simp] theorem State.modCtx_trained (s : State) (d c : Nat) (f : Ctx → Ctx) : (s.modCtx d c f).trained = s.trained := rfl
@[simp] theorem State.modCtx_rings (s : State) (d c : Nat) (f : Ctx → Ctx) : (s.modCtx d c f).rings = s.rings := rfl
@[simp] theorem State.modCtx_rung (s : State) (d c : Nat) (f : Ctx → Ctx) : (s.modCtx d c f).rung = s.rung := rfl
@[simp] theorem State.modCtx_portsLost (s : State) (d c : Nat) (f : Ctx → Ctx) : (s.modCtx d c f).portsLost = s.portsLost := rfl
@[simp] theorem State.modCtx_retries (s : State) (d c : Nat) (f : Ctx → Ctx) : (s.modCtx d c f).retries = s.retries := rfl
@[simp] theorem State.modCtx_doubleTraps (s : State) (d c : Nat) (f : Ctx → Ctx) : (s.modCtx d c f).doubleTraps = s.doubleTraps := rfl
@[simp] theorem State.modCtx_romSecret (s : State) (d c : Nat) (f : Ctx → Ctx) : (s.modCtx d c f).romSecret = s.romSecret := rfl
@[simp] theorem State.modCtx_aliasKey (s : State) (d c : Nat) (f : Ctx → Ctx) : (s.modCtx d c f).aliasKey = s.aliasKey := rfl
@[simp] theorem State.modCtx_rota (s : State) (d c : Nat) (f : Ctx → Ctx) : (s.modCtx d c f).rota = s.rota := rfl
@[simp] theorem State.modCtx_rotaLeft (s : State) (d c : Nat) (f : Ctx → Ctx) : (s.modCtx d c f).rotaLeft = s.rotaLeft := rfl
@[simp] theorem State.modCtx_flushes (s : State) (d c : Nat) (f : Ctx → Ctx) : (s.modCtx d c f).flushes = s.flushes := rfl
@[simp] theorem State.modCtx_issues (s : State) (d c : Nat) (f : Ctx → Ctx) : (s.modCtx d c f).issues = s.issues := rfl
@[simp] theorem State.modCtx_tbrate (s : State) (d c : Nat) (f : Ctx → Ctx) : (s.modCtx d c f).tbrate = s.tbrate := rfl
@[simp] theorem State.modCtx_ptp (s : State) (d c : Nat) (f : Ctx → Ctx) : (s.modCtx d c f).ptp = s.ptp := rfl
@[simp] theorem State.modCtx_stage (s : State) (d c : Nat) (f : Ctx → Ctx) : (s.modCtx d c f).stage = s.stage := rfl
@[simp] theorem State.modCtx_bootErr (s : State) (d c : Nat) (f : Ctx → Ctx) : (s.modCtx d c f).bootErr = s.bootErr := rfl
@[simp] theorem State.modCtx_image (s : State) (d c : Nat) (f : Ctx → Ctx) : (s.modCtx d c f).image = s.image := rfl
@[simp] theorem State.modCtx_bootLen (s : State) (d c : Nat) (f : Ctx → Ctx) : (s.modCtx d c f).bootLen = s.bootLen := rfl
@[simp] theorem State.modCtx_imgHash (s : State) (d c : Nat) (f : Ctx → Ctx) : (s.modCtx d c f).imgHash = s.imgHash := rfl
@[simp] theorem State.modCtx_svn (s : State) (d c : Nat) (f : Ctx → Ctx) : (s.modCtx d c f).svn = s.svn := rfl
@[simp] theorem State.modCtx_shHash (s : State) (d c : Nat) (f : Ctx → Ctx) : (s.modCtx d c f).shHash = s.shHash := rfl
@[simp] theorem State.modCtx_otpFloor (s : State) (d c : Nat) (f : Ctx → Ctx) : (s.modCtx d c f).otpFloor = s.otpFloor := rfl
@[simp] theorem State.modCtx_off (s : State) (d c : Nat) (f : Ctx → Ctx) : (s.modCtx d c f).off = s.off := rfl
@[simp] theorem State.modCtx_turn (s : State) (d c : Nat) (f : Ctx → Ctx) : (s.modCtx d c f).turn = s.turn := rfl
@[simp] theorem State.modCtx_agenda (s : State) (d c : Nat) (f : Ctx → Ctx) : (s.modCtx d c f).agenda = s.agenda := rfl
@[simp] theorem State.modCtx_inflight (s : State) (d c : Nat) (f : Ctx → Ctx) : (s.modCtx d c f).inflight = s.inflight := rfl
@[simp] theorem State.modCtx_nextId (s : State) (d c : Nat) (f : Ctx → Ctx) : (s.modCtx d c f).nextId = s.nextId := rfl
@[simp] theorem State.modCtx_free (s : State) (d c : Nat) (f : Ctx → Ctx) : (s.modCtx d c f).free = s.free := rfl

/-! setMem. -/

@[simp] theorem State.setMem_cores (s : State) (m : List Host.Cell) : (s.setMem m).cores = s.cores := rfl
@[simp] theorem State.setMem_dies (s : State) (m : List Host.Cell) : (s.setMem m).dies = s.dies := rfl
@[simp] theorem State.setMem_mgts (s : State) (m : List Host.Cell) : (s.setMem m).mgts = s.mgts := rfl
@[simp] theorem State.setMem_panels (s : State) (m : List Host.Cell) : (s.setMem m).panels = s.panels := rfl
@[simp] theorem State.setMem_swatches (s : State) (m : List Host.Cell) : (s.setMem m).swatches = s.swatches := rfl
@[simp] theorem State.setMem_jobs (s : State) (m : List Host.Cell) : (s.setMem m).jobs = s.jobs := rfl
@[simp] theorem State.setMem_reqs (s : State) (m : List Host.Cell) : (s.setMem m).reqs = s.reqs := rfl
@[simp] theorem State.setMem_copies (s : State) (m : List Host.Cell) : (s.setMem m).copies = s.copies := rfl
@[simp] theorem State.setMem_knots (s : State) (m : List Host.Cell) : (s.setMem m).knots = s.knots := rfl
@[simp] theorem State.setMem_joins (s : State) (m : List Host.Cell) : (s.setMem m).joins = s.joins := rfl
@[simp] theorem State.setMem_mstts (s : State) (m : List Host.Cell) : (s.setMem m).mstts = s.mstts := rfl
@[simp] theorem State.setMem_kvs (s : State) (m : List Host.Cell) : (s.setMem m).kvs = s.kvs := rfl
@[simp] theorem State.setMem_kvlds (s : State) (m : List Host.Cell) : (s.setMem m).kvlds = s.kvlds := rfl
@[simp] theorem State.setMem_colls (s : State) (m : List Host.Cell) : (s.setMem m).colls = s.colls := rfl
@[simp] theorem State.setMem_collSeqs (s : State) (m : List Host.Cell) : (s.setMem m).collSeqs = s.collSeqs := rfl
@[simp] theorem State.setMem_scIncs (s : State) (m : List Host.Cell) : (s.setMem m).scIncs = s.scIncs := rfl
@[simp] theorem State.setMem_demands (s : State) (m : List Host.Cell) : (s.setMem m).demands = s.demands := rfl
@[simp] theorem State.setMem_exchs (s : State) (m : List Host.Cell) : (s.setMem m).exchs = s.exchs := rfl
@[simp] theorem State.setMem_arb (s : State) (m : List Host.Cell) : (s.setMem m).arb = s.arb := rfl
@[simp] theorem State.setMem_images (s : State) (m : List Host.Cell) : (s.setMem m).images = s.images := rfl
@[simp] theorem State.setMem_badEcc (s : State) (m : List Host.Cell) : (s.setMem m).badEcc = s.badEcc := rfl
@[simp] theorem State.setMem_softEcc (s : State) (m : List Host.Cell) : (s.setMem m).softEcc = s.softEcc := rfl
@[simp] theorem State.setMem_time (s : State) (m : List Host.Cell) : (s.setMem m).time = s.time := rfl
@[simp] theorem State.setMem_frac (s : State) (m : List Host.Cell) : (s.setMem m).frac = s.frac := rfl
@[simp] theorem State.setMem_lc (s : State) (m : List Host.Cell) : (s.setMem m).lc = s.lc := rfl
@[simp] theorem State.setMem_cur (s : State) (m : List Host.Cell) : (s.setMem m).cur = s.cur := rfl
@[simp] theorem State.setMem_pkg (s : State) (m : List Host.Cell) : (s.setMem m).pkg = s.pkg := rfl
@[simp] theorem State.setMem_sysNum (s : State) (m : List Host.Cell) : (s.setMem m).sysNum = s.sysNum := rfl
@[simp] theorem State.setMem_domain (s : State) (m : List Host.Cell) : (s.setMem m).domain = s.domain := rfl
@[simp] theorem State.setMem_peers (s : State) (m : List Host.Cell) : (s.setMem m).peers = s.peers := rfl
@[simp] theorem State.setMem_devRegs (s : State) (m : List Host.Cell) : (s.setMem m).devRegs = s.devRegs := rfl
@[simp] theorem State.setMem_tests (s : State) (m : List Host.Cell) : (s.setMem m).tests = s.tests := rfl
@[simp] theorem State.setMem_tested (s : State) (m : List Host.Cell) : (s.setMem m).tested = s.tested := rfl
@[simp] theorem State.setMem_trained (s : State) (m : List Host.Cell) : (s.setMem m).trained = s.trained := rfl
@[simp] theorem State.setMem_rings (s : State) (m : List Host.Cell) : (s.setMem m).rings = s.rings := rfl
@[simp] theorem State.setMem_rung (s : State) (m : List Host.Cell) : (s.setMem m).rung = s.rung := rfl
@[simp] theorem State.setMem_portsLost (s : State) (m : List Host.Cell) : (s.setMem m).portsLost = s.portsLost := rfl
@[simp] theorem State.setMem_retries (s : State) (m : List Host.Cell) : (s.setMem m).retries = s.retries := rfl
@[simp] theorem State.setMem_doubleTraps (s : State) (m : List Host.Cell) : (s.setMem m).doubleTraps = s.doubleTraps := rfl
@[simp] theorem State.setMem_romSecret (s : State) (m : List Host.Cell) : (s.setMem m).romSecret = s.romSecret := rfl
@[simp] theorem State.setMem_aliasKey (s : State) (m : List Host.Cell) : (s.setMem m).aliasKey = s.aliasKey := rfl
@[simp] theorem State.setMem_rota (s : State) (m : List Host.Cell) : (s.setMem m).rota = s.rota := rfl
@[simp] theorem State.setMem_rotaLeft (s : State) (m : List Host.Cell) : (s.setMem m).rotaLeft = s.rotaLeft := rfl
@[simp] theorem State.setMem_flushes (s : State) (m : List Host.Cell) : (s.setMem m).flushes = s.flushes := rfl
@[simp] theorem State.setMem_issues (s : State) (m : List Host.Cell) : (s.setMem m).issues = s.issues := rfl
@[simp] theorem State.setMem_tbrate (s : State) (m : List Host.Cell) : (s.setMem m).tbrate = s.tbrate := rfl
@[simp] theorem State.setMem_ptp (s : State) (m : List Host.Cell) : (s.setMem m).ptp = s.ptp := rfl
@[simp] theorem State.setMem_stage (s : State) (m : List Host.Cell) : (s.setMem m).stage = s.stage := rfl
@[simp] theorem State.setMem_bootErr (s : State) (m : List Host.Cell) : (s.setMem m).bootErr = s.bootErr := rfl
@[simp] theorem State.setMem_image (s : State) (m : List Host.Cell) : (s.setMem m).image = s.image := rfl
@[simp] theorem State.setMem_bootLen (s : State) (m : List Host.Cell) : (s.setMem m).bootLen = s.bootLen := rfl
@[simp] theorem State.setMem_imgHash (s : State) (m : List Host.Cell) : (s.setMem m).imgHash = s.imgHash := rfl
@[simp] theorem State.setMem_svn (s : State) (m : List Host.Cell) : (s.setMem m).svn = s.svn := rfl
@[simp] theorem State.setMem_shHash (s : State) (m : List Host.Cell) : (s.setMem m).shHash = s.shHash := rfl
@[simp] theorem State.setMem_otpFloor (s : State) (m : List Host.Cell) : (s.setMem m).otpFloor = s.otpFloor := rfl
@[simp] theorem State.setMem_off (s : State) (m : List Host.Cell) : (s.setMem m).off = s.off := rfl
@[simp] theorem State.setMem_turn (s : State) (m : List Host.Cell) : (s.setMem m).turn = s.turn := rfl
@[simp] theorem State.setMem_agenda (s : State) (m : List Host.Cell) : (s.setMem m).agenda = s.agenda := rfl
@[simp] theorem State.setMem_inflight (s : State) (m : List Host.Cell) : (s.setMem m).inflight = s.inflight := rfl
@[simp] theorem State.setMem_nextId (s : State) (m : List Host.Cell) : (s.setMem m).nextId = s.nextId := rfl
@[simp] theorem State.setMem_free (s : State) (m : List Host.Cell) : (s.setMem m).free = s.free := rfl

/-! post. -/

@[simp] theorem State.post_cores (s : State) (i : Instr) : (s.post i).cores = s.cores := rfl
@[simp] theorem State.post_dies (s : State) (i : Instr) : (s.post i).dies = s.dies := rfl
@[simp] theorem State.post_mgts (s : State) (i : Instr) : (s.post i).mgts = s.mgts := rfl
@[simp] theorem State.post_panels (s : State) (i : Instr) : (s.post i).panels = s.panels := rfl
@[simp] theorem State.post_swatches (s : State) (i : Instr) : (s.post i).swatches = s.swatches := rfl
@[simp] theorem State.post_jobs (s : State) (i : Instr) : (s.post i).jobs = s.jobs := rfl
@[simp] theorem State.post_reqs (s : State) (i : Instr) : (s.post i).reqs = s.reqs := rfl
@[simp] theorem State.post_copies (s : State) (i : Instr) : (s.post i).copies = s.copies := rfl
@[simp] theorem State.post_knots (s : State) (i : Instr) : (s.post i).knots = s.knots := rfl
@[simp] theorem State.post_joins (s : State) (i : Instr) : (s.post i).joins = s.joins := rfl
@[simp] theorem State.post_mstts (s : State) (i : Instr) : (s.post i).mstts = s.mstts := rfl
@[simp] theorem State.post_kvs (s : State) (i : Instr) : (s.post i).kvs = s.kvs := rfl
@[simp] theorem State.post_kvlds (s : State) (i : Instr) : (s.post i).kvlds = s.kvlds := rfl
@[simp] theorem State.post_colls (s : State) (i : Instr) : (s.post i).colls = s.colls := rfl
@[simp] theorem State.post_collSeqs (s : State) (i : Instr) : (s.post i).collSeqs = s.collSeqs := rfl
@[simp] theorem State.post_scIncs (s : State) (i : Instr) : (s.post i).scIncs = s.scIncs := rfl
@[simp] theorem State.post_demands (s : State) (i : Instr) : (s.post i).demands = s.demands := rfl
@[simp] theorem State.post_exchs (s : State) (i : Instr) : (s.post i).exchs = s.exchs := rfl
@[simp] theorem State.post_arb (s : State) (i : Instr) : (s.post i).arb = s.arb := rfl
@[simp] theorem State.post_images (s : State) (i : Instr) : (s.post i).images = s.images := rfl
@[simp] theorem State.post_mem (s : State) (i : Instr) : (s.post i).mem = s.mem := rfl
@[simp] theorem State.post_badEcc (s : State) (i : Instr) : (s.post i).badEcc = s.badEcc := rfl
@[simp] theorem State.post_softEcc (s : State) (i : Instr) : (s.post i).softEcc = s.softEcc := rfl
@[simp] theorem State.post_time (s : State) (i : Instr) : (s.post i).time = s.time := rfl
@[simp] theorem State.post_frac (s : State) (i : Instr) : (s.post i).frac = s.frac := rfl
@[simp] theorem State.post_lc (s : State) (i : Instr) : (s.post i).lc = s.lc := rfl
@[simp] theorem State.post_cur (s : State) (i : Instr) : (s.post i).cur = s.cur := rfl
@[simp] theorem State.post_pkg (s : State) (i : Instr) : (s.post i).pkg = s.pkg := rfl
@[simp] theorem State.post_sysNum (s : State) (i : Instr) : (s.post i).sysNum = s.sysNum := rfl
@[simp] theorem State.post_domain (s : State) (i : Instr) : (s.post i).domain = s.domain := rfl
@[simp] theorem State.post_peers (s : State) (i : Instr) : (s.post i).peers = s.peers := rfl
@[simp] theorem State.post_devRegs (s : State) (i : Instr) : (s.post i).devRegs = s.devRegs := rfl
@[simp] theorem State.post_tests (s : State) (i : Instr) : (s.post i).tests = s.tests := rfl
@[simp] theorem State.post_tested (s : State) (i : Instr) : (s.post i).tested = s.tested := rfl
@[simp] theorem State.post_trained (s : State) (i : Instr) : (s.post i).trained = s.trained := rfl
@[simp] theorem State.post_rings (s : State) (i : Instr) : (s.post i).rings = s.rings := rfl
@[simp] theorem State.post_rung (s : State) (i : Instr) : (s.post i).rung = s.rung := rfl
@[simp] theorem State.post_portsLost (s : State) (i : Instr) : (s.post i).portsLost = s.portsLost := rfl
@[simp] theorem State.post_retries (s : State) (i : Instr) : (s.post i).retries = s.retries := rfl
@[simp] theorem State.post_doubleTraps (s : State) (i : Instr) : (s.post i).doubleTraps = s.doubleTraps := rfl
@[simp] theorem State.post_romSecret (s : State) (i : Instr) : (s.post i).romSecret = s.romSecret := rfl
@[simp] theorem State.post_aliasKey (s : State) (i : Instr) : (s.post i).aliasKey = s.aliasKey := rfl
@[simp] theorem State.post_rota (s : State) (i : Instr) : (s.post i).rota = s.rota := rfl
@[simp] theorem State.post_rotaLeft (s : State) (i : Instr) : (s.post i).rotaLeft = s.rotaLeft := rfl
@[simp] theorem State.post_flushes (s : State) (i : Instr) : (s.post i).flushes = s.flushes := rfl
@[simp] theorem State.post_issues (s : State) (i : Instr) : (s.post i).issues = s.issues := rfl
@[simp] theorem State.post_tbrate (s : State) (i : Instr) : (s.post i).tbrate = s.tbrate := rfl
@[simp] theorem State.post_ptp (s : State) (i : Instr) : (s.post i).ptp = s.ptp := rfl
@[simp] theorem State.post_stage (s : State) (i : Instr) : (s.post i).stage = s.stage := rfl
@[simp] theorem State.post_bootErr (s : State) (i : Instr) : (s.post i).bootErr = s.bootErr := rfl
@[simp] theorem State.post_image (s : State) (i : Instr) : (s.post i).image = s.image := rfl
@[simp] theorem State.post_bootLen (s : State) (i : Instr) : (s.post i).bootLen = s.bootLen := rfl
@[simp] theorem State.post_imgHash (s : State) (i : Instr) : (s.post i).imgHash = s.imgHash := rfl
@[simp] theorem State.post_svn (s : State) (i : Instr) : (s.post i).svn = s.svn := rfl
@[simp] theorem State.post_shHash (s : State) (i : Instr) : (s.post i).shHash = s.shHash := rfl
@[simp] theorem State.post_otpFloor (s : State) (i : Instr) : (s.post i).otpFloor = s.otpFloor := rfl
@[simp] theorem State.post_off (s : State) (i : Instr) : (s.post i).off = s.off := rfl
@[simp] theorem State.post_turn (s : State) (i : Instr) : (s.post i).turn = s.turn := rfl
@[simp] theorem State.post_agenda (s : State) (i : Instr) : (s.post i).agenda = s.agenda := rfl
@[simp] theorem State.post_nextId (s : State) (i : Instr) : (s.post i).nextId = s.nextId := rfl
@[simp] theorem State.post_free (s : State) (i : Instr) : (s.post i).free = s.free := rfl

/-! The updated field itself. -/

@[simp] theorem State.setCore_core (s : State) (k : Nat) (c : Core) : (s.setCore k c).core k = c := by
  simp [State.core, State.setCore, SMap.lookD_put_same]

@[simp] theorem State.setDie_die (s : State) (k : Nat) (d : Die) : (s.setDie k d).die k = d := by
  simp [State.die, State.setDie, SMap.lookD_put_same]

@[simp] theorem State.modMgt_mgt (s : State) (k : Nat) (f : Mgt → Mgt) : (s.modMgt k f).mgt k = f (s.mgt k) := by
  simp [State.mgt, State.modMgt, SMap.lookD_put_same]

theorem State.modMgt_mgt_other (s : State) {k j : Nat} (f : Mgt → Mgt) (h : j ≠ k) : (s.modMgt k f).mgt j = s.mgt j := by
  simp [State.mgt, State.modMgt, SMap.lookD_put_other _ _ _ h]

@[simp] theorem State.modJob_job (s : State) (k : Nat) (f : Job → Job) : (s.modJob k f).job k = f (s.job k) := by
  simp [State.job, State.modJob, SMap.lookD_put_same]

@[simp] theorem State.setPanel_panel (s : State) (h : Nat) (p : Panel) : (s.setPanel h p).panel? h = some p := by
  simp [State.panel?, State.setPanel, SMap.look_put_same]

theorem State.setPanel_panel_other (s : State) {h j : Nat} (p : Panel) (hj : j ≠ h) : (s.setPanel h p).panel? j = s.panel? j := by
  simp [State.panel?, State.setPanel, SMap.look_put_other _ _ hj]

@[simp] theorem State.modCtx_ctx (s : State) (d c : Nat) (f : Ctx → Ctx) : (s.modCtx d c f).ctx d c = f (s.ctx d c) := by
  simp [State.ctx, State.modCtx, State.modDie, State.die, State.setDie, SMap.lookD_put_same]

@[simp] theorem State.setMem_mem (s : State) (m : List Host.Cell) : (s.setMem m).mem = m := rfl

@[simp] theorem State.post_inflight (s : State) (i : Instr) : (s.post i).inflight = s.inflight ++ [i] := rfl

/-! Updates where there is something to update: only panels change, or panels and management cores. -/

theorem State.modPanel_only (s : State) (h : Nat) (f : Panel → Panel) : ∃ ps, s.modPanel h f = { s with panels := ps } := by
  unfold State.modPanel
  split
  · exact ⟨_, rfl⟩
  · exact ⟨s.panels, rfl⟩

theorem State.modPanel_of {s : State} {h : Nat} {p : Panel} (hp : s.panel? h = some p) (f : Panel → Panel) :
    s.modPanel h f = s.setPanel h (f p) := by
  simp [State.modPanel, hp]

theorem State.modPanel_panel {s : State} {h : Nat} {p : Panel} (hp : s.panel? h = some p) (f : Panel → Panel) :
    (s.modPanel h f).panel? h = some (f p) := by
  simp [State.modPanel_of hp]

theorem State.modPanel_panel_other (s : State) {h j : Nat} (f : Panel → Panel) (hj : j ≠ h) :
    (s.modPanel h f).panel? j = s.panel? j := by
  unfold State.modPanel
  split
  · exact State.setPanel_panel_other s _ hj
  · rfl

theorem State.modStrand_only (s : State) (h i : Nat) (f : Strand → Strand) : ∃ ps, s.modStrand h i f = { s with panels := ps } :=
  State.modPanel_only s h _

theorem State.modStrand_strand {s : State} {h i : Nat} {t : Strand} (ht : s.strand? h i = some t) (f : Strand → Strand) :
    (s.modStrand h i f).strand? h i = some (f t) := by
  unfold State.strand? at ht
  split at ht
  · rename_i p hp
    simp [State.modStrand, State.strand?, State.modPanel_panel hp, ht, SMap.look_put_same]
  · cases ht

theorem State.modBob_only (s : State) (h : Nat) (f : Bobbin → Bobbin) : ∃ ps, s.modBob h f = { s with panels := ps } :=
  State.modPanel_only s h _

theorem State.modThr_only (s : State) (e : Ex) (f : Thr → Thr) :
    ∃ ps ms, s.modThr e f = { s with panels := ps, mgts := ms } := by
  cases e with
  | str h i =>
    obtain ⟨ps, hp⟩ := State.modStrand_only s h i (fun t => { t with thr := f t.thr })
    exact ⟨ps, s.mgts, hp⟩
  | bob h =>
    obtain ⟨ps, hp⟩ := State.modBob_only s h (fun b => { b with thr := f b.thr })
    exact ⟨ps, s.mgts, hp⟩
  | mgt m => exact ⟨s.panels, _, rfl⟩

/-- What a state shares with another that differs from it in panels and management cores alone. -/
theorem State.only_trans {s t u : State} (h1 : ∃ ps ms, t = { s with panels := ps, mgts := ms })
    (h2 : ∃ ps ms, u = { t with panels := ps, mgts := ms }) : ∃ ps ms, u = { s with panels := ps, mgts := ms } := by
  obtain ⟨ps, ms, rfl⟩ := h1
  obtain ⟨ps', ms', rfl⟩ := h2
  exact ⟨ps', ms', rfl⟩

theorem State.setPos_only (s : State) (e : Ex) (b : Bool) (p : Pos) :
    ∃ ps ms, s.setPos e b p = { s with panels := ps, mgts := ms } := by
  cases e with
  | str h i =>
    obtain ⟨ps, hp⟩ := State.modStrand_only s h i _
    exact ⟨ps, s.mgts, hp⟩
  | bob h =>
    obtain ⟨ps, hp⟩ := State.modBob_only s h (fun x => { x with pos := p })
    exact ⟨ps, s.mgts, hp⟩
  | mgt m => exact ⟨s.panels, _, rfl⟩

/-- An issue changes its executor alone: no memory, no other agent, no step in progress. -/
theorem State.issued_only (s : State) (c : Cx) : ∃ ps ms, s.issued c = { s with panels := ps, mgts := ms } := by
  simp only [State.issued]
  generalize hs : s.modThr c.ex _ = s1
  have h1 : ∃ ps ms, s1 = { s with panels := ps, mgts := ms } := hs ▸ State.modThr_only s _ _
  split
  · rename_i h i _
    obtain ⟨ps, hp⟩ := State.modStrand_only s1 h i (fun t => { t with lastB := c.slotB, tried := none })
    exact State.only_trans h1 ⟨ps, s1.mgts, hp⟩
  · exact h1
  · exact h1

theorem State.advance_only (s : State) (c : Cx) : ∃ ps ms, s.advance c = { s with panels := ps, mgts := ms } :=
  State.only_trans (State.issued_only s c) (State.setPos_only _ _ _ _)

theorem State.setS_only (s : State) (e : Ex) (n v : Nat) : ∃ ps ms, s.setS e n v = { s with panels := ps, mgts := ms } :=
  State.modThr_only s e _

theorem State.modLanes_only (s : State) (e : Ex) (m : Mask) (k : Nat) (f : Nat → Lane → Lane) :
    ∃ ps ms, s.modLanes e m k f = { s with panels := ps, mgts := ms } := by
  cases e with
  | str h i =>
    obtain ⟨ps, hp⟩ := State.modStrand_only s h i _
    exact ⟨ps, s.mgts, hp⟩
  | bob h => exact ⟨s.panels, s.mgts, rfl⟩
  | mgt m => exact ⟨s.panels, s.mgts, rfl⟩

/-- Results are written to the issuing executor alone. -/
theorem State.writeVec_only (s : State) (c : Cx) (w : Wd) (d : Opnd) (v : Nat → Nat) :
    ∃ ps ms, s.writeVec c w d v = { s with panels := ps, mgts := ms } := by
  unfold State.writeVec
  split
  · split
    · exact State.setS_only s _ _ _
    · exact ⟨s.panels, s.mgts, rfl⟩
  · exact State.modLanes_only s _ _ _ _

end Sys2Proof.Machine
end

