-- ==== Sys2Proof/Laws/Ops.lean ====
section
/-! SUPPORT. What each shared operation can do: reading a part back after an update of it, the outcomes of an issue, of a wait, of a
trap and of the checks that come before an access, and what settling and branching keep. -/

namespace Sys2Proof.Machine

/-! A part read back after its update. -/

@[simp] theorem State.core_modCore_same (s : State) (k : Nat) (f : Core → Core) : (s.modCore k f).core k = f (s.core k) := by
  simp [State.core, State.modCore, State.setCore, SMap.lookD_put_same]

theorem State.core_modCore_other (s : State) {k j : Nat} (f : Core → Core) (h : j ≠ k) : (s.modCore k f).core j = s.core j := by
  simp [State.core, State.modCore, State.setCore, SMap.lookD_put_other _ _ _ h]

@[simp] theorem State.die_modDie_same (s : State) (k : Nat) (f : Die → Die) : (s.modDie k f).die k = f (s.die k) := by
  simp [State.die, State.modDie, State.setDie, SMap.lookD_put_same]

theorem State.die_modDie_other (s : State) {k j : Nat} (f : Die → Die) (h : j ≠ k) : (s.modDie k f).die j = s.die j := by
  simp [State.die, State.modDie, State.setDie, SMap.lookD_put_other _ _ _ h]

theorem State.ctx_modCtx_other (s : State) {d c e k : Nat} (f : Ctx → Ctx) (h : e ≠ d ∨ k ≠ c) :
    (s.modCtx d c f).ctx e k = s.ctx e k := by
  by_cases he : e = d
  · subst he
    have hk : k ≠ c := h.resolve_left (fun n => n rfl)
    simp [State.ctx, State.modCtx, SMap.lookD_put_other _ _ _ hk]
  · simp [State.ctx, State.modCtx, State.die_modDie_other _ _ he]

@[simp] theorem State.panel?_modPanel_same (s : State) (h : Nat) (f : Panel → Panel) :
    (s.modPanel h f).panel? h = (s.panel? h).map f := by
  unfold State.modPanel
  split
  · next p hp => simp [hp]
  · next hp => simp [hp]

@[simp] theorem State.strand?_modStrand_same (s : State) (h i : Nat) (f : Strand → Strand) :
    (s.modStrand h i f).strand? h i = (s.strand? h i).map f := by
  simp only [State.modStrand, State.strand?, State.panel?_modPanel_same]
  cases hp : s.panel? h with
  | none => rfl
  | some p =>
    cases hi : SMap.look p.strands i with
    | none => simp [hi]
    | some t => simp [hi, SMap.look_put_same]

theorem State.strand?_modStrand_other (s : State) {h i j k : Nat} (f : Strand → Strand) (n : j ≠ h ∨ k ≠ i) :
    (s.modStrand h i f).strand? j k = s.strand? j k := by
  unfold State.modStrand State.strand?
  by_cases hj : j = h
  · subst hj
    have hk : k ≠ i := n.resolve_left (fun m => m rfl)
    rw [State.panel?_modPanel_same]
    cases hp : s.panel? j with
    | none => rfl
    | some p =>
      cases hi : SMap.look p.strands i with
      | none => simp [hi]
      | some t => simp [hi, SMap.look_put_other _ _ hk]
  · rw [State.modPanel_panel_other _ _ hj]

/-- What an executor holds, after an update of that. -/
@[simp] theorem State.thr?_modThr_same (s : State) (e : Ex) (f : Thr → Thr) : (s.modThr e f).thr? e = (s.thr? e).map f := by
  cases e with
  | str h i => simp only [State.thr?, State.modThr, State.strand?_modStrand_same]; cases s.strand? h i <;> rfl
  | bob h => simp only [State.thr?, State.modThr, State.modBob, State.panel?_modPanel_same]; cases s.panel? h <;> rfl
  | mgt m => simp [State.thr?, State.modThr]

/-! An issue. -/

theorem run_go {i : Instr} {s : State} {c : Cx} {x : Args} (h : issue i s = .go c x) (k : Cx → Args → Out) : run i s k = k c x := by
  simp [run, h]

theorem run_out {i : Instr} {s : State} {o : Out} (h : issue i s = .out o) (k : Cx → Args → Out) : run i s k = o := by
  simp [run, h]

/-- What an instruction does: it is turned away by its checks, or its meaning runs on the context they leave. -/
theorem run_cases (i : Instr) (s : State) (k : Cx → Args → Out) :
    (issue i s = .none ∧ run i s k = .refused .noExecutor) ∨ (∃ o, issue i s = .out o ∧ run i s k = o) ∨
      (∃ c x, issue i s = .go c x ∧ run i s k = k c x) := by
  unfold run
  split
  · next h => exact .inl ⟨h, rfl⟩
  · next o h => exact .inr (.inl ⟨o, h, rfl⟩)
  · next c x h => exact .inr (.inr ⟨c, x, h, rfl⟩)

theorem vecForm_go {i : Instr} {s : State} {c : Cx} {x : Args} (h : issue i s = .go c x) (w : Wd) (f : Cx → Args → Nat → Nat) :
    vecForm i w f s = .next ((s.advance c).writeVec c w x.d (f c x)) := run_go h _

/-! Waits. -/

/-- A wait changes no register and no memory: steps in progress become due, each of them once. -/
theorem waitOut_only (s : State) : ∃ a f, waitOut s = .next { s with agenda := s.agenda ++ a, inflight := [], free := f } :=
  ⟨_, _, rfl⟩

theorem length_insertAt {α : Type} (k : Nat) (x : α) (xs : List α) : (insertAt k x xs).length = xs.length + 1 := by
  induction xs generalizing k with
  | nil => rfl
  | cons y ys ih =>
    unfold insertAt
    split
    · rfl
    · simp [ih]

theorem mem_insertAt {α : Type} {k : Nat} {x z : α} {xs : List α} : z ∈ insertAt k x xs ↔ z = x ∨ z ∈ xs := by
  induction xs generalizing k with
  | nil => simp [insertAt]
  | cons y ys ih =>
    unfold insertAt
    split
    · simp
    · simp only [List.mem_cons, ih]
      constructor
      · rintro (h | h | h)
        · exact .inr (.inl h)
        · exact .inl h
        · exact .inr (.inr h)
      · rintro (h | h | h)
        · exact .inr (.inl h)
        · exact .inl h
        · exact .inr (.inr h)

/-- A shuffled list has the same elements. -/
theorem mem_shuffle {α : Type} {n : Nat} {z : α} {xs : List α} : z ∈ shuffle n xs ↔ z ∈ xs := by
  induction xs generalizing n with
  | nil => simp [shuffle]
  | cons y ys ih => simp [shuffle, mem_insertAt, ih]

theorem length_shuffle {α : Type} (n : Nat) (xs : List α) : (shuffle n xs).length = xs.length := by
  induction xs generalizing n with
  | nil => rfl
  | cons y ys ih => simp [shuffle, length_insertAt, ih]

/-! Traps. -/

/-- Taking a trap touches panels and management cores, and may post the executor's parking or report a double trap: nothing else. -/
theorem State.takeTrap_only (s : State) (e : Ex) (b : Bool) (pc : W64) (f : TrapInfo) (k : TKind) :
    ∃ ps ms is ds, s.takeTrap e b pc f k =
      { s with panels := ps, mgts := ms, inflight := s.inflight ++ is, doubleTraps := s.doubleTraps ++ ds } := by
  cases e with
  | mgt m =>
    simp only [State.takeTrap]
    split
    · exact ⟨s.panels, _, [], [m], by rw [List.append_nil]; rfl⟩
    · exact ⟨s.panels, _, [], [], by rw [List.append_nil, List.append_nil]; rfl⟩
  | str h n =>
    obtain ⟨ps, ms, hs⟩ := State.modThr_only s (.str h n) (parkThr pc f k b)
    exact ⟨ps, ms, [.executorPark h n], [], by simp [State.takeTrap, hs, State.post]⟩
  | bob h =>
    obtain ⟨ps, ms, hs⟩ := State.modThr_only s (.bob h) (parkThr pc f k false)
    exact ⟨ps, ms, [.executorPark h 32], [], by simp [State.takeTrap, hs, State.post]⟩

@[simp] theorem State.takeTrap_mem (s : State) (e : Ex) (b : Bool) (pc : W64) (f : TrapInfo) (k : TKind) :
    (s.takeTrap e b pc f k).mem = s.mem := by
  obtain ⟨_, _, _, _, h⟩ := s.takeTrap_only e b pc f k
  rw [h]

@[simp] theorem State.takeTrap_reqs (s : State) (e : Ex) (b : Bool) (pc : W64) (f : TrapInfo) (k : TKind) :
    (s.takeTrap e b pc f k).reqs = s.reqs := by
  obtain ⟨_, _, _, _, h⟩ := s.takeTrap_only e b pc f k
  rw [h]

/-- A check before an effect passes, traps, waits for a page walk, or waits for a place to come in reach. -/
theorem andThen_cases {α : Type} (s : State) (c : Cx) (r : Res α) (f : α → Out) :
    (∃ a, r = .ok a ∧ andThen s c r f = f a) ∨ (∃ t, r = .trap t ∧ andThen s c r f = trapOut s c t) ∨
      (∃ p, r = .miss p ∧ andThen s c r f = missOut s c p) ∨ (r = .held ∧ andThen s c r f = waitOut s) := by
  cases r with
  | ok a => exact .inl ⟨a, rfl, rfl⟩
  | trap t => exact .inr (.inl ⟨t, rfl, rfl⟩)
  | miss p => exact .inr (.inr (.inl ⟨p, rfl, rfl⟩))
  | held => exact .inr (.inr (.inr ⟨rfl, rfl⟩))

/-- The waits before an access: it waits, takes the recorded asynchronous trap, or goes on with every wait over. -/
theorem ordered_cases (s : State) (c : Cx) (rel acq : Bool) (k : Unit → Out) :
    ordered s c rel acq k = waitOut s ∨ (acq = true ∧ ∃ t, c.thr.async = some t ∧ ordered s c rel acq k = asyncOut s c t) ∨
      (s.acquired c = true ∧ (rel = true → s.released c.ex = true) ∧ (acq = true → c.thr.async = none) ∧
        ordered s c rel acq k = k ()) := by
  unfold ordered
  cases ha : s.acquired c
  · exact .inl (by simp)
  · cases hr : s.released c.ex <;> cases rel <;> cases acq <;> cases ht : c.thr.async <;> simp

/-- A policy that the form accepts lets it go on. -/
theorem withPol_ok {s : State} {c : Cx} {v : Nat} {os : List Nat} (h : polOk v os = true) (k : Pol → Out) :
    withPol s c v os k = k (polOf v) := by simp [withPol, h]

theorem withPol_bad {s : State} {c : Cx} {v : Nat} {os : List Nat} (h : polOk v os = false) (k : Pol → Out) :
    withPol s c v os k = trapOut s c { trap := .policyInvalid, d0 := BitVec.ofNat 64 v } := by simp [withPol, h]

/-! Slots. -/

/-- One round of settling moves slots, the join record, frames and record of emptied slots only, and begins a segment of program order. -/
theorem settleOnce_only {t u : Strand} (h : settleOnce t = some u) :
    u = { t with a := u.a, b := u.b, join := u.join, frames := u.frames, emptied := u.emptied, segs := u.segs } := by
  unfold settleOnce at h
  cases hf : t.frames <;> simp only [hf] at h <;> (repeat' split at h) <;>
    first
      | (cases h; done)
      | (injection h with h; subst h; rfl)

theorem settleN_only (n : Nat) (t : Strand) :
    settleN n t = { t with
      a := (settleN n t).a, b := (settleN n t).b, join := (settleN n t).join, frames := (settleN n t).frames,
      emptied := (settleN n t).emptied, segs := (settleN n t).segs } := by
  induction n generalizing t with
  | zero => rfl
  | succ n ih =>
    unfold settleN
    cases h : settleOnce t with
    | none => rfl
    | some u =>
      have h1 := settleOnce_only h
      have h2 := ih u
      simp only
      rw [h2, h1]

/-- Settling moves slots, the join record, frames and record of emptied slots: lanes, registers, predicates and traps stay. -/
theorem settle_only (t : Strand) :
    settle t = { t with
      a := (settle t).a, b := (settle t).b, join := (settle t).join, frames := (settle t).frames,
      emptied := (settle t).emptied, segs := (settle t).segs } :=
  settleN_only _ t

@[simp] theorem settle_thr (t : Strand) : (settle t).thr = t.thr := by rw [settle_only]
@[simp] theorem settle_lanes (t : Strand) : (settle t).lanes = t.lanes := by rw [settle_only]
@[simp] theorem settle_ended (t : Strand) : (settle t).ended = t.ended := by rw [settle_only]
@[simp] theorem settle_helper (t : Strand) : (settle t).helper = t.helper := by rw [settle_only]

/-! Requests. -/

/-- A request sent stands under the next name, with its step made possible. -/
theorem State.addReq_look (s : State) (r : Req) (f : Nat → Instr) : SMap.look (s.addReq r f).reqs s.nextId = some r :=
  SMap.look_put_same _ _ _

theorem State.addReq_only (s : State) (r : Req) (f : Nat → Instr) :
    s.addReq r f = { s with reqs := SMap.put s.reqs s.nextId r, nextId := s.nextId + 1, inflight := s.inflight ++ [f s.nextId] } := rfl

/-! The home. -/

@[simp] theorem State.setLine_mem (s : State) (p : Place) (l : L2Line) : (s.setLine p l).mem = s.mem := rfl

@[simp] theorem State.bumpUe_mem (s : State) (k : Nat) : (s.bumpUe k).mem = s.mem := by
  unfold State.bumpUe; split <;> rfl

@[simp] theorem State.logFault_mem (s : State) (d : Nat) (e : FlogEntry) : (s.logFault d e).mem = s.mem := by
  unfold State.logFault; dsimp only; split <;> rfl

@[simp] theorem State.dropGroup_mem (s : State) (d a : Nat) : (s.dropGroup d a).mem = s.mem := by simp [State.dropGroup]

/-- A write at the home leaves memory as it was, or with the n low bytes of v at the place; one that is refused leaves it. -/
theorem State.homeWrite_mem (s : State) (p : Place) (n v : Nat) (keep : Bool) :
    (s.homeWrite p n v keep).1.mem = s.mem ∨
      (s.homeWrite p n v keep).1.mem = Memory.write s.mem p.key n v ∧ (s.homeWrite p n v keep).2 = true := by
  unfold State.homeWrite
  dsimp only
  split
  · exact .inl (by simp only [State.bumpUe_mem]; split <;> rfl)
  · split
    · exact .inl (by simp only [State.dropGroup_mem]; split <;> rfl)
    · refine .inr ⟨?_, rfl⟩
      rw [State.setMem_mem]
      congr 1
      split <;> split <;> split <;> rfl

theorem State.homeWrite_refused {s : State} {p : Place} {n v : Nat} {keep : Bool} (h : (s.homeWrite p n v keep).2 = false) :
    (s.homeWrite p n v keep).1.mem = s.mem := by
  rcases s.homeWrite_mem p n v keep with e | ⟨-, e⟩
  · exact e
  · simp [h] at e

/-- A write at the home keeps the canonical form. -/
theorem State.homeWrite_wf (s : State) (p : Place) (n v : Nat) (keep : Bool) (h : Memory.wf s.mem = true) :
    Memory.wf (s.homeWrite p n v keep).1.mem = true := by
  rcases s.homeWrite_mem p n v keep with e | ⟨e, -⟩ <;> rw [e]
  · exact h
  · exact Memory.wf_write n _ _ h

/-! Clocks and soft errors: what a message and a corrected read leave as they were. -/

/-- A clock heard changes cores and management cores alone. -/
theorem State.hear_only (s : State) (d k : Nat) (lc : W64) : ∃ a b, s.hear d k lc = { s with cores := a, mgts := b } := by
  have pick {c : Prop} [Decidable c] {x y : State} (hx : ∃ a b, x = { s with cores := a, mgts := b })
      (hy : ∃ a b, y = { s with cores := a, mgts := b }) : ∃ a b, (if c then x else y) = { s with cores := a, mgts := b } := by
    split
    · exact hx
    · exact hy
  exact pick (pick ⟨s.cores, s.mgts, rfl⟩ ⟨s.cores, _, rfl⟩) (pick ⟨s.cores, s.mgts, rfl⟩ ⟨_, s.mgts, rfl⟩)

theorem State.tell_only (s : State) (h : Nat) (lc : W64) : ∃ a, s.tell h lc = { s with dies := a } := by
  unfold State.tell
  split <;> exact ⟨_, rfl⟩

/-- A message of a core and its answer change cores, management cores and dies alone. -/
theorem State.crossCore_only (s : State) (d k h : Nat) :
    ∃ a b e, s.crossCore d k h = { s with cores := a, mgts := b, dies := e } := by
  unfold State.crossCore
  split
  · exact ⟨_, _, _, rfl⟩
  · obtain ⟨e, he⟩ := s.tell_only h (s.lc + if k = 0x7F then (s.mgt d).lcAhead else (s.core (coreKey d k)).lcAhead)
    dsimp only
    rw [he]
    obtain ⟨a, b, hh⟩ := State.hear_only { s with dies := e } d k (({ s with dies := e } : State).die h).lcHeard
    exact ⟨a, b, e, hh⟩

theorem State.crossHomes_only (ps : List Place) (s : State) (d k : Nat) :
    ∃ a b e, s.crossHomes d k ps = { s with cores := a, mgts := b, dies := e } := by
  induction ps generalizing s with
  | nil => exact ⟨_, _, _, rfl⟩
  | cons p ps ih =>
    obtain ⟨a, b, e, h⟩ := s.crossCore_only d k (s.dieKey p)
    obtain ⟨a', b', e', h'⟩ := ih (s.crossCore d k (s.dieKey p))
    refine ⟨a', b', e', ?_⟩
    rw [show s.crossHomes d k (p :: ps) = (s.crossCore d k (s.dieKey p)).crossHomes d k ps from rfl, h', h]

/-- A soft error corrected changes the list of them and the device registers alone. -/
theorem State.corrected_only (s : State) (p : Place) : ∃ a r, s.corrected p = { s with softEcc := a, devRegs := r } := by
  unfold State.corrected
  dsimp only
  split
  · split <;> exact ⟨_, _, rfl⟩
  · exact ⟨_, _, rfl⟩

theorem State.correctedAll_only (ps : List Place) (s : State) :
    ∃ a r, s.correctedAll ps = { s with softEcc := a, devRegs := r } := by
  have fold : ∀ (ps : List Place) (s : State), ∃ a r, ps.foldl State.corrected s = { s with softEcc := a, devRegs := r } := by
    intro ps
    induction ps with
    | nil => exact fun s => ⟨_, _, rfl⟩
    | cons p ps ih =>
      intro s
      obtain ⟨a, r, h⟩ := s.corrected_only p
      obtain ⟨a', r', h'⟩ := ih (s.corrected p)
      exact ⟨a', r', by rw [List.foldl_cons, h', h]⟩
  unfold State.correctedAll
  split
  · exact ⟨_, _, rfl⟩
  · exact fold ps s

/-- A next state after a read is a next state with the errors met corrected and the clocks carried, and with the memory it has. -/
theorem withSoft_next (site : Nat × Nat) (at' : Nat → Option Place) (va n : Nat) (t : State) :
    ∃ u, withSoft site at' va n (.next t) = .next u ∧ u.mem = t.mem ∧ u.panels = t.panels ∧ u.reqs = t.reqs := by
  unfold withSoft afterNext
  dsimp only
  obtain ⟨a, r, h⟩ := t.correctedAll_only _
  obtain ⟨b, c, e, h'⟩ := State.crossHomes_only _ (t.correctedAll _) site.1 site.2
  exact ⟨_, rfl, by rw [h', h], by rw [h', h], by rw [h', h]⟩

/-- A read by an instruction waits for bytes that cannot be had yet, or is the check that follows its errors counted. -/
theorem andRead_cases {α : Type} (s : State) (c : Cx) (at' : Nat → Option Place) (va n : Nat) (wait : Bool) (r : Res α) (f : α → Out) :
    (wait = true ∧ andRead s c at' va n wait r f = waitOut s) ∨
      andRead s c at' va n wait r f = andThen (s.countUe at' r) c r fun a => withSoft (s.site c.ex) at' va n (f a) := by
  unfold andRead
  cases wait
  · exact .inr rfl
  · cases r.arrived
    · exact .inr rfl
    · exact .inl ⟨rfl, rfl⟩

/-- Behind the checks of an MLOOP: it waits for a register of its group, takes its deferred trap, or goes on. -/
theorem awaitGroup_cases (s : State) (c : Cx) (i : Instr) (k : Unit → Out) :
    (∃ p, groupPend c i = some p ∧ awaitGroup s c i k = awaitPend s c p) ∨ (groupPend c i = none ∧ awaitGroup s c i k = k ()) := by
  unfold awaitGroup
  cases h : groupPend c i with
  | none => exact .inr ⟨rfl, rfl⟩
  | some p => exact .inl ⟨p, rfl, rfl⟩

/-- An access performed at its issue that waits takes its stamp at most, which changes requests and its executor alone. -/
theorem State.takePoint_only (s : State) (c : Cx) : ∃ ps ms, s.takePoint c = { s with
    panels := ps, mgts := ms, reqs := (s.takePoint c).reqs, nextId := s.nextId + 1, inflight := (s.takePoint c).inflight } := by
  unfold State.takePoint State.addReq
  obtain ⟨ps, ms, h⟩ := State.modThr_only _ _ _
  dsimp only
  exact ⟨ps, ms, by rw [h]⟩

theorem pointWait_cases (s : State) (c : Cx) (sc : Bool) :
    pointWait s c sc = waitOut s ∨ (sc = true ∧ s.pointReq c = none ∧ pointWait s c sc = waitOut (s.takePoint c)) := by
  unfold pointWait
  cases sc
  · exact .inl rfl
  · cases h : s.pointReq c with
    | none => exact .inr ⟨rfl, rfl, rfl⟩
    | some p => exact .inl rfl

/-- What emptied slots and one more had issued, together. -/
theorem Emptied.mem_join {a b : Emptied} {n : Nat} : n ∈ (a.join b).segs ↔ n ∈ a.segs ∨ n ∈ b.segs := by
  by_cases h : n ∈ a.segs <;> simp [Emptied.join, h]

theorem Emptied.mem_add {e : Emptied} {x : PcSlot} {n : Nat} :
    n ∈ (e.add (some x)).segs ↔ n ∈ e.segs ∨ n = x.seg ∨ n ∈ x.line ∨ n ∈ x.past := by
  simp [Emptied.add, Emptied.mem_join, PcSlot.reach]

theorem laterStamp_max (a b : W64) : (laterStamp a b).toNat = max a.toNat b.toNat := by
  unfold laterStamp
  split <;> omega

end Sys2Proof.Machine
end

