-- ==== Sys2Proof/Laws/PerInstr.lean ====
section
/-! SUPPORT. What holds of every instruction as syntax: an instruction of a program has an opcode that its word has room for (R41, R42),
a form and operand fields; a step of the module has none of the three. -/

namespace Sys2Proof.Laws

open Sys2Proof

/-- An opcode that its field holds: seven bits in a short unit, ten in a long instruction. -/
def F.fits : OpCode → Bool
  | .short n => n < 2 ^ 7
  | .long n => n < 2 ^ 10

/-- The opcode fits, and opcode, form and fields stand together. -/
def F.Statement (i : Instr) : Prop :=
  i.code.all F.fits = true ∧ i.spec.isSome = i.code.isSome ∧ i.fields.isSome = i.code.isSome

theorem F.nopShort (g : Guard) : F.Statement (.nopShort g) := ⟨rfl, rfl, rfl⟩

theorem F.iadd32S (x : SArgs) : F.Statement (.iadd32S x) := ⟨rfl, rfl, rfl⟩

theorem F.isub32S (x : SArgs) : F.Statement (.isub32S x) := ⟨rfl, rfl, rfl⟩

theorem F.imul32S (x : SArgs) : F.Statement (.imul32S x) := ⟨rfl, rfl, rfl⟩

theorem F.iminS32S (x : SArgs) : F.Statement (.iminS32S x) := ⟨rfl, rfl, rfl⟩

theorem F.imaxS32S (x : SArgs) : F.Statement (.imaxS32S x) := ⟨rfl, rfl, rfl⟩

theorem F.and32S (x : SArgs) : F.Statement (.and32S x) := ⟨rfl, rfl, rfl⟩

theorem F.or32S (x : SArgs) : F.Statement (.or32S x) := ⟨rfl, rfl, rfl⟩

theorem F.xor32S (x : SArgs) : F.Statement (.xor32S x) := ⟨rfl, rfl, rfl⟩

theorem F.shl32S (x : SArgs) : F.Statement (.shl32S x) := ⟨rfl, rfl, rfl⟩

theorem F.shr32S (x : SArgs) : F.Statement (.shr32S x) := ⟨rfl, rfl, rfl⟩

theorem F.sar32S (x : SArgs) : F.Statement (.sar32S x) := ⟨rfl, rfl, rfl⟩

theorem F.mov32S (x : SArgs) : F.Statement (.mov32S x) := ⟨rfl, rfl, rfl⟩

theorem F.iadd64S (x : SArgs) : F.Statement (.iadd64S x) := ⟨rfl, rfl, rfl⟩

theorem F.popc32S (x : SArgs) : F.Statement (.popc32S x) := ⟨rfl, rfl, rfl⟩

theorem F.isetEq32S (x : SArgs) : F.Statement (.isetEq32S x) := ⟨rfl, rfl, rfl⟩

theorem F.isetLtS32S (x : SArgs) : F.Statement (.isetLtS32S x) := ⟨rfl, rfl, rfl⟩

theorem F.isetLtN32S (x : SArgs) : F.Statement (.isetLtN32S x) := ⟨rfl, rfl, rfl⟩

theorem F.faddF32S (x : SArgs) : F.Statement (.faddF32S x) := ⟨rfl, rfl, rfl⟩

theorem F.fmulF32S (x : SArgs) : F.Statement (.fmulF32S x) := ⟨rfl, rfl, rfl⟩

theorem F.fminF32S (x : SArgs) : F.Statement (.fminF32S x) := ⟨rfl, rfl, rfl⟩

theorem F.fmaxF32S (x : SArgs) : F.Statement (.fmaxF32S x) := ⟨rfl, rfl, rfl⟩

theorem F.fsetLtF32S (x : SArgs) : F.Statement (.fsetLtF32S x) := ⟨rfl, rfl, rfl⟩

theorem F.fsetEqF32S (x : SArgs) : F.Statement (.fsetEqF32S x) := ⟨rfl, rfl, rfl⟩

theorem F.faddBF16S (x : SArgs) : F.Statement (.faddBF16S x) := ⟨rfl, rfl, rfl⟩

theorem F.fmulBF16S (x : SArgs) : F.Statement (.fmulBF16S x) := ⟨rfl, rfl, rfl⟩

theorem F.cvtBF16F32S (x : SArgs) : F.Statement (.cvtBF16F32S x) := ⟨rfl, rfl, rfl⟩

theorem F.cvtF32BF16S (x : SArgs) : F.Statement (.cvtF32BF16S x) := ⟨rfl, rfl, rfl⟩

theorem F.nop (x : Args) : F.Statement (.nop x) := ⟨rfl, rfl, rfl⟩

theorem F.bra (x : Args) : F.Statement (.bra x) := ⟨rfl, rfl, rfl⟩

theorem F.brc (x : Args) : F.Statement (.brc x) := ⟨rfl, rfl, rfl⟩

theorem F.brx (x : Args) : F.Statement (.brx x) := ⟨rfl, rfl, rfl⟩

theorem F.brsp (x : Args) : F.Statement (.brsp x) := ⟨rfl, rfl, rfl⟩

theorem F.call (x : Args) : F.Statement (.call x) := ⟨rfl, rfl, rfl⟩

theorem F.ret (x : Args) : F.Statement (.ret x) := ⟨rfl, rfl, rfl⟩

theorem F.retr (x : Args) : F.Statement (.retr x) := ⟨rfl, rfl, rfl⟩

theorem F.join (x : Args) : F.Statement (.join x) := ⟨rfl, rfl, rfl⟩

theorem F.exit (x : Args) : F.Statement (.exit x) := ⟨rfl, rfl, rfl⟩

theorem F.loop (x : Args) : F.Statement (.loop x) := ⟨rfl, rfl, rfl⟩

theorem F.walk (x : Args) : F.Statement (.walk x) := ⟨rfl, rfl, rfl⟩

theorem F.wnext (x : Args) : F.Statement (.wnext x) := ⟨rfl, rfl, rfl⟩

theorem F.dqpush (x : Args) : F.Statement (.dqpush x) := ⟨rfl, rfl, rfl⟩

theorem F.dqbr (x : Args) : F.Statement (.dqbr x) := ⟨rfl, rfl, rfl⟩

theorem F.iadd (w : Wd) (x : Args) : F.Statement (.iadd w x) := by
  cases w <;> exact ⟨rfl, rfl, rfl⟩

theorem F.isub (w : Wd) (x : Args) : F.Statement (.isub w x) := by
  cases w <;> exact ⟨rfl, rfl, rfl⟩

theorem F.imul (w : Wd) (x : Args) : F.Statement (.imul w x) := by
  cases w <;> exact ⟨rfl, rfl, rfl⟩

theorem F.imulh (t : ITy) (x : Args) : F.Statement (.imulh t x) := by
  cases t <;> exact ⟨rfl, rfl, rfl⟩

theorem F.imad (w : Wd) (x : Args) : F.Statement (.imad w x) := by
  cases w <;> exact ⟨rfl, rfl, rfl⟩

theorem F.imin (t : ITy) (x : Args) : F.Statement (.imin t x) := by
  cases t <;> exact ⟨rfl, rfl, rfl⟩

theorem F.imax (t : ITy) (x : Args) : F.Statement (.imax t x) := by
  cases t <;> exact ⟨rfl, rfl, rfl⟩

theorem F.iabs (w : Wd) (x : Args) : F.Statement (.iabs w x) := by
  cases w <;> exact ⟨rfl, rfl, rfl⟩

theorem F.and (w : Wd) (x : Args) : F.Statement (.and w x) := by
  cases w <;> exact ⟨rfl, rfl, rfl⟩

theorem F.or (w : Wd) (x : Args) : F.Statement (.or w x) := by
  cases w <;> exact ⟨rfl, rfl, rfl⟩

theorem F.xor (w : Wd) (x : Args) : F.Statement (.xor w x) := by
  cases w <;> exact ⟨rfl, rfl, rfl⟩

theorem F.not (w : Wd) (x : Args) : F.Statement (.not w x) := by
  cases w <;> exact ⟨rfl, rfl, rfl⟩

theorem F.shl (w : Wd) (x : Args) : F.Statement (.shl w x) := by
  cases w <;> exact ⟨rfl, rfl, rfl⟩

theorem F.shr (w : Wd) (x : Args) : F.Statement (.shr w x) := by
  cases w <;> exact ⟨rfl, rfl, rfl⟩

theorem F.sar (w : Wd) (x : Args) : F.Statement (.sar w x) := by
  cases w <;> exact ⟨rfl, rfl, rfl⟩

theorem F.rot (w : Wd) (x : Args) : F.Statement (.rot w x) := by
  cases w <;> exact ⟨rfl, rfl, rfl⟩

theorem F.bfx (t : ITy) (x : Args) : F.Statement (.bfx t x) := by
  cases t <;> exact ⟨rfl, rfl, rfl⟩

theorem F.bfi (w : Wd) (x : Args) : F.Statement (.bfi w x) := by
  cases w <;> exact ⟨rfl, rfl, rfl⟩

theorem F.popc (w : Wd) (x : Args) : F.Statement (.popc w x) := by
  cases w <;> exact ⟨rfl, rfl, rfl⟩

theorem F.clz (w : Wd) (x : Args) : F.Statement (.clz w x) := by
  cases w <;> exact ⟨rfl, rfl, rfl⟩

theorem F.ctz (w : Wd) (x : Args) : F.Statement (.ctz w x) := by
  cases w <;> exact ⟨rfl, rfl, rfl⟩

theorem F.brev (w : Wd) (x : Args) : F.Statement (.brev w x) := by
  cases w <;> exact ⟨rfl, rfl, rfl⟩

theorem F.bperm (w : Wd) (x : Args) : F.Statement (.bperm w x) := by
  cases w <;> exact ⟨rfl, rfl, rfl⟩

theorem F.clmul (w : Wd) (x : Args) : F.Statement (.clmul w x) := by
  cases w <;> exact ⟨rfl, rfl, rfl⟩

theorem F.clmulh (w : Wd) (x : Args) : F.Statement (.clmulh w x) := by
  cases w <;> exact ⟨rfl, rfl, rfl⟩

theorem F.sel (w : Wd) (x : Args) : F.Statement (.sel w x) := by
  cases w <;> exact ⟨rfl, rfl, rfl⟩

theorem F.mov (w : Wd) (x : Args) : F.Statement (.mov w x) := by
  cases w <;> exact ⟨rfl, rfl, rfl⟩

theorem F.movi (w : Wd) (x : Args) : F.Statement (.movi w x) := by
  cases w <;> exact ⟨rfl, rfl, rfl⟩

theorem F.lea (w : Wd) (x : Args) : F.Statement (.lea w x) := by
  cases w <;> exact ⟨rfl, rfl, rfl⟩

theorem F.iset (k : ICond) (t : ITy) (x : Args) : F.Statement (.iset k t x) := by
  cases k <;> cases t <;> exact ⟨rfl, rfl, rfl⟩

theorem F.plop (x : Args) : F.Statement (.plop x) := ⟨rfl, rfl, rfl⟩

theorem F.qxch (m : QxMode) (x : Args) : F.Statement (.qxch m x) := by
  cases m <;> exact ⟨rfl, rfl, rfl⟩

theorem F.qbc (l : BitVec 2) (x : Args) : F.Statement (.qbc l x) := ⟨by have h := l.isLt; simp [Instr.code, F.fits]; omega, rfl, rfl⟩

theorem F.shfl (m : ShMode) (x : Args) : F.Statement (.shfl m x) := by
  cases m <;> exact ⟨rfl, rfl, rfl⟩

theorem F.vote (m : VoMode) (x : Args) : F.Statement (.vote m x) := by
  cases m <;> exact ⟨rfl, rfl, rfl⟩

theorem F.fadd (f : FTy) (x : Args) : F.Statement (.fadd f x) := by
  cases f <;> exact ⟨rfl, rfl, rfl⟩

theorem F.fmul (f : FTy) (x : Args) : F.Statement (.fmul f x) := by
  cases f <;> exact ⟨rfl, rfl, rfl⟩

theorem F.ffma (f : FTy) (x : Args) : F.Statement (.ffma f x) := by
  cases f <;> exact ⟨rfl, rfl, rfl⟩

theorem F.fscale (f : FTy3) (x : Args) : F.Statement (.fscale f x) := by
  cases f <;> exact ⟨rfl, rfl, rfl⟩

theorem F.fmin (f : FTy3) (x : Args) : F.Statement (.fmin f x) := by
  cases f <;> exact ⟨rfl, rfl, rfl⟩

theorem F.fmax (f : FTy3) (x : Args) : F.Statement (.fmax f x) := by
  cases f <;> exact ⟨rfl, rfl, rfl⟩

theorem F.fset (k : FCond) (f : FTy3) (x : Args) : F.Statement (.fset k f x) := by
  cases k <;> cases f <;> exact ⟨rfl, rfl, rfl⟩

theorem F.frcp (x : Args) : F.Statement (.frcp x) := ⟨rfl, rfl, rfl⟩

theorem F.frsq (x : Args) : F.Statement (.frsq x) := ⟨rfl, rfl, rfl⟩

theorem F.fsqrt (x : Args) : F.Statement (.fsqrt x) := ⟨rfl, rfl, rfl⟩

theorem F.fexp2 (x : Args) : F.Statement (.fexp2 x) := ⟨rfl, rfl, rfl⟩

theorem F.flog2 (x : Args) : F.Statement (.flog2 x) := ⟨rfl, rfl, rfl⟩

theorem F.ftanh (x : Args) : F.Statement (.ftanh x) := ⟨rfl, rfl, rfl⟩

theorem F.fclass (f : FTy3) (x : Args) : F.Statement (.fclass f x) := by
  cases f <;> exact ⟨rfl, rfl, rfl⟩

theorem F.hfma2 (bf : Bool) (x : Args) : F.Statement (.hfma2 bf x) := by
  cases bf <;> exact ⟨rfl, rfl, rfl⟩

theorem F.dot2 (bf : Bool) (x : Args) : F.Statement (.dot2 bf x) := by
  cases bf <;> exact ⟨rfl, rfl, rfl⟩

theorem F.cvt (x : Args) : F.Statement (.cvt x) := ⟨rfl, rfl, rfl⟩

theorem F.pack (x : Args) : F.Statement (.pack x) := ⟨rfl, rfl, rfl⟩

theorem F.unpk (x : Args) : F.Statement (.unpk x) := ⟨rfl, rfl, rfl⟩

theorem F.rnd (x : Args) : F.Statement (.rnd x) := ⟨rfl, rfl, rfl⟩

theorem F.mxsc (x : Args) : F.Statement (.mxsc x) := ⟨rfl, rfl, rfl⟩

theorem F.ld (space : Space) (w : LdW) (x : Args) : F.Statement (.ld space w x) := by
  cases space <;> cases w <;> exact ⟨rfl, rfl, rfl⟩

theorem F.st (space : Space) (w : StW) (x : Args) : F.Statement (.st space w x) := by
  cases space <;> cases w <;> exact ⟨rfl, rfl, rfl⟩

theorem F.atom (op : AtomOp) (w : Wd) (x : Args) : F.Statement (.atom op w x) := by
  cases op <;> cases w <;> exact ⟨rfl, rfl, rfl⟩

theorem F.atcas (w : Wd) (x : Args) : F.Statement (.atcas w x) := by
  cases w <;> exact ⟨rfl, rfl, rfl⟩

theorem F.red (op : RedOp) (x : Args) : F.Statement (.red op x) := by
  cases op <;> exact ⟨rfl, rfl, rfl⟩

theorem F.ldt (x : Args) : F.Statement (.ldt x) := ⟨rfl, rfl, rfl⟩

theorem F.btset (x : Args) : F.Statement (.btset x) := ⟨rfl, rfl, rfl⟩

theorem F.ldfe (x : Args) : F.Statement (.ldfe x) := ⟨rfl, rfl, rfl⟩

theorem F.stfe (x : Args) : F.Statement (.stfe x) := ⟨rfl, rfl, rfl⟩

theorem F.pref (x : Args) : F.Statement (.pref x) := ⟨rfl, rfl, rfl⟩

theorem F.sprq (x : Args) : F.Statement (.sprq x) := ⟨rfl, rfl, rfl⟩

theorem F.pgq (x : Args) : F.Statement (.pgq x) := ⟨rfl, rfl, rfl⟩

theorem F.cinv (x : Args) : F.Statement (.cinv x) := ⟨rfl, rfl, rfl⟩

theorem F.cflush (x : Args) : F.Statement (.cflush x) := ⟨rfl, rfl, rfl⟩

theorem F.fence (x : Args) : F.Statement (.fence x) := ⟨rfl, rfl, rfl⟩

theorem F.drain (x : Args) : F.Statement (.drain x) := ⟨rfl, rfl, rfl⟩

theorem F.wfence (x : Args) : F.Statement (.wfence x) := ⟨rfl, rfl, rfl⟩

theorem F.scts (x : Args) : F.Statement (.scts x) := ⟨rfl, rfl, rfl⟩

theorem F.cpy (x : Args) : F.Statement (.cpy x) := ⟨rfl, rfl, rfl⟩

theorem F.cpyg (x : Args) : F.Statement (.cpyg x) := ⟨rfl, rfl, rfl⟩

theorem F.cpym (x : Args) : F.Statement (.cpym x) := ⟨rfl, rfl, rfl⟩

theorem F.kninit (x : Args) : F.Statement (.kninit x) := ⟨rfl, rfl, rfl⟩

theorem F.knarr (x : Args) : F.Statement (.knarr x) := ⟨rfl, rfl, rfl⟩

theorem F.knexp (x : Args) : F.Statement (.knexp x) := ⟨rfl, rfl, rfl⟩

theorem F.knexpTile (x : Args) : F.Statement (.knexpTile x) := ⟨rfl, rfl, rfl⟩

theorem F.knwait (x : Args) : F.Statement (.knwait x) := ⟨rfl, rfl, rfl⟩

theorem F.kntry (x : Args) : F.Statement (.kntry x) := ⟨rfl, rfl, rfl⟩

theorem F.bar (x : Args) : F.Statement (.bar x) := ⟨rfl, rfl, rfl⟩

theorem F.sbar (x : Args) : F.Statement (.sbar x) := ⟨rfl, rfl, rfl⟩

theorem F.rsq (x : Args) : F.Statement (.rsq x) := ⟨rfl, rfl, rfl⟩

theorem F.rsclr (x : Args) : F.Statement (.rsclr x) := ⟨rfl, rfl, rfl⟩

theorem F.mloop (f : MFmt) (reuse : Bool) (x : Args) : F.Statement (.mloop f reuse x) := by
  cases f <;> cases reuse <;> exact ⟨rfl, rfl, rfl⟩

theorem F.mzero (x : Args) : F.Statement (.mzero x) := ⟨rfl, rfl, rfl⟩

theorem F.mldt (x : Args) : F.Statement (.mldt x) := ⟨rfl, rfl, rfl⟩

theorem F.mstt (bf : Bool) (x : Args) : F.Statement (.mstt bf x) := by
  cases bf <;> exact ⟨rfl, rfl, rfl⟩

theorem F.mwait (x : Args) : F.Statement (.mwait x) := ⟨rfl, rfl, rfl⟩

theorem F.ofence (x : Args) : F.Statement (.ofence x) := ⟨rfl, rfl, rfl⟩

theorem F.mspc (x : Args) : F.Statement (.mspc x) := ⟨rfl, rfl, rfl⟩

theorem F.mcvt (x : Args) : F.Statement (.mcvt x) := ⟨rfl, rfl, rfl⟩

theorem F.maddt (x : Args) : F.Statement (.maddt x) := ⟨rfl, rfl, rfl⟩

theorem F.kvmap (x : Args) : F.Statement (.kvmap x) := ⟨rfl, rfl, rfl⟩

theorem F.kvld (x : Args) : F.Statement (.kvld x) := ⟨rfl, rfl, rfl⟩

theorem F.kvapp (x : Args) : F.Statement (.kvapp x) := ⟨rfl, rfl, rfl⟩

theorem F.kvseal (x : Args) : F.Statement (.kvseal x) := ⟨rfl, rfl, rfl⟩

theorem F.kvfork (x : Args) : F.Statement (.kvfork x) := ⟨rfl, rfl, rfl⟩

theorem F.kvdrop (x : Args) : F.Statement (.kvdrop x) := ⟨rfl, rfl, rfl⟩

theorem F.role (x : Args) : F.Statement (.role x) := ⟨rfl, rfl, rfl⟩

theorem F.tmask (x : Args) : F.Statement (.tmask x) := ⟨rfl, rfl, rfl⟩

theorem F.mrow (x : Args) : F.Statement (.mrow x) := ⟨rfl, rfl, rfl⟩

theorem F.mresc (x : Args) : F.Statement (.mresc x) := ⟨rfl, rfl, rfl⟩

theorem F.coll (k : CKind) (x : Args) : F.Statement (.coll k x) := by
  cases k <;> exact ⟨rfl, rfl, rfl⟩

theorem F.norm (x : Args) : F.Statement (.norm x) := ⟨rfl, rfl, rfl⟩

theorem F.mbrd (x : Args) : F.Statement (.mbrd x) := ⟨rfl, rfl, rfl⟩

theorem F.trig (x : Args) : F.Statement (.trig x) := ⟨rfl, rfl, rfl⟩

theorem F.scinc (x : Args) : F.Statement (.scinc x) := ⟨rfl, rfl, rfl⟩

theorem F.scrd (x : Args) : F.Statement (.scrd x) := ⟨rfl, rfl, rfl⟩

theorem F.scwait (x : Args) : F.Statement (.scwait x) := ⟨rfl, rfl, rfl⟩

theorem F.cqrd (x : Args) : F.Statement (.cqrd x) := ⟨rfl, rfl, rfl⟩

theorem F.dpost (x : Args) : F.Statement (.dpost x) := ⟨rfl, rfl, rfl⟩

theorem F.lpq (x : Args) : F.Statement (.lpq x) := ⟨rfl, rfl, rfl⟩

theorem F.vdhop (x : Args) : F.Statement (.vdhop x) := ⟨rfl, rfl, rfl⟩

theorem F.vdq (x : Args) : F.Statement (.vdq x) := ⟨rfl, rfl, rfl⟩

theorem F.fork (x : Args) : F.Statement (.fork x) := ⟨rfl, rfl, rfl⟩

theorem F.jctr (x : Args) : F.Statement (.jctr x) := ⟨rfl, rfl, rfl⟩

theorem F.lnch (x : Args) : F.Statement (.lnch x) := ⟨rfl, rfl, rfl⟩

theorem F.yield (x : Args) : F.Statement (.yield x) := ⟨rfl, rfl, rfl⟩

theorem F.qpush (x : Args) : F.Statement (.qpush x) := ⟨rfl, rfl, rfl⟩

theorem F.qpop (x : Args) : F.Statement (.qpop x) := ⟨rfl, rfl, rfl⟩

theorem F.prio (x : Args) : F.Statement (.prio x) := ⟨rfl, rfl, rfl⟩

theorem F.srd (x : Args) : F.Statement (.srd x) := ⟨rfl, rfl, rfl⟩

theorem F.trap (x : Args) : F.Statement (.trap x) := ⟨rfl, rfl, rfl⟩

theorem F.tret (x : Args) : F.Statement (.tret x) := ⟨rfl, rfl, rfl⟩

theorem F.syrd (x : Args) : F.Statement (.syrd x) := ⟨rfl, rfl, rfl⟩

theorem F.sywr (x : Args) : F.Statement (.sywr x) := ⟨rfl, rfl, rfl⟩

theorem F.tlbi (x : Args) : F.Statement (.tlbi x) := ⟨rfl, rfl, rfl⟩

theorem F.ctxs (x : Args) : F.Statement (.ctxs x) := ⟨rfl, rfl, rfl⟩

theorem F.ctxl (x : Args) : F.Statement (.ctxl x) := ⟨rfl, rfl, rfl⟩

theorem F.dwin (x : Args) : F.Statement (.dwin x) := ⟨rfl, rfl, rfl⟩

theorem F.time (x : Args) : F.Statement (.time x) := ⟨rfl, rfl, rfl⟩

theorem F.waitt (x : Args) : F.Statement (.waitt x) := ⟨rfl, rfl, rfl⟩

theorem F.pwreq (x : Args) : F.Statement (.pwreq x) := ⟨rfl, rfl, rfl⟩

theorem F.pwrq (x : Args) : F.Statement (.pwrq x) := ⟨rfl, rfl, rfl⟩

theorem F.wdog (x : Args) : F.Statement (.wdog x) := ⟨rfl, rfl, rfl⟩

theorem F.bkpt (x : Args) : F.Statement (.bkpt x) := ⟨rfl, rfl, rfl⟩

theorem F.halt (x : Args) : F.Statement (.halt x) := ⟨rfl, rfl, rfl⟩

theorem F.svc (x : Args) : F.Statement (.svc x) := ⟨rfl, rfl, rfl⟩

theorem F.pendingFill (id : Nat) : F.Statement (.pendingFill id) := ⟨rfl, rfl, rfl⟩

theorem F.writeAck (id : Nat) : F.Statement (.writeAck id) := ⟨rfl, rfl, rfl⟩

theorem F.homeL2Access (id : Nat) : F.Statement (.homeL2Access id) := ⟨rfl, rfl, rfl⟩

theorem F.redApply (id : Nat) : F.Statement (.redApply id) := ⟨rfl, rfl, rfl⟩

theorem F.ordinalArrival (id : Nat) : F.Statement (.ordinalArrival id) := ⟨rfl, rfl, rfl⟩

theorem F.ordinalRetry (id : Nat) : F.Statement (.ordinalRetry id) := ⟨rfl, rfl, rfl⟩

theorem F.l2Eviction (line : Nat) : F.Statement (.l2Eviction line) := ⟨rfl, rfl, rfl⟩

theorem F.spoolRefresh (bank : Nat) : F.Statement (.spoolRefresh bank) := ⟨rfl, rfl, rfl⟩

theorem F.pageWalk (socket : Nat) (page : Nat) : F.Statement (.pageWalk socket page) := ⟨rfl, rfl, rfl⟩

theorem F.executorPark (panel : Nat) (slot : Nat) : F.Statement (.executorPark panel slot) := ⟨rfl, rfl, rfl⟩

theorem F.copyComplete (panel : Nat) (id : Nat) : F.Statement (.copyComplete panel id) := ⟨rfl, rfl, rfl⟩

theorem F.copyFault (panel : Nat) (id : Nat) : F.Statement (.copyFault panel id) := ⟨rfl, rfl, rfl⟩

theorem F.knotUpdate (id : Nat) : F.Statement (.knotUpdate id) := ⟨rfl, rfl, rfl⟩

theorem F.kvldComplete (id : Nat) : F.Statement (.kvldComplete id) := ⟨rfl, rfl, rfl⟩

theorem F.kvEvent (id : Nat) : F.Statement (.kvEvent id) := ⟨rfl, rfl, rfl⟩

theorem F.matrixEntryStart (socket : Nat) (core : Nat) : F.Statement (.matrixEntryStart socket core) := ⟨rfl, rfl, rfl⟩

theorem F.matstep (socket : Nat) (core : Nat) : F.Statement (.matstep socket core) := ⟨rfl, rfl, rfl⟩

theorem F.matrixEntryComplete (socket : Nat) (core : Nat) : F.Statement (.matrixEntryComplete socket core) := ⟨rfl, rfl, rfl⟩

theorem F.msttComplete (id : Nat) : F.Statement (.msttComplete id) := ⟨rfl, rfl, rfl⟩

theorem F.powerGrant (socket : Nat) (core : Nat) : F.Statement (.powerGrant socket core) := ⟨rfl, rfl, rfl⟩

theorem F.grantReturn (socket : Nat) (core : Nat) : F.Statement (.grantReturn socket core) := ⟨rfl, rfl, rfl⟩

theorem F.grantWithdrawal (socket : Nat) (core : Nat) : F.Statement (.grantWithdrawal socket core) := ⟨rfl, rfl, rfl⟩

theorem F.collComplete (id : Nat) : F.Statement (.collComplete id) := ⟨rfl, rfl, rfl⟩

theorem F.stitchIncrement (id : Nat) : F.Statement (.stitchIncrement id) := ⟨rfl, rfl, rfl⟩

theorem F.triggerFire (socket : Nat) (idx : Nat) : F.Statement (.triggerFire socket idx) := ⟨rfl, rfl, rfl⟩

theorem F.exchangeDemand (id : Nat) : F.Statement (.exchangeDemand id) := ⟨rfl, rfl, rfl⟩

theorem F.exchangePhase (id : Nat) : F.Statement (.exchangePhase id) := ⟨rfl, rfl, rfl⟩

theorem F.heartbeat : F.Statement (.heartbeat) := ⟨rfl, rfl, rfl⟩

theorem F.standbyTakeover : F.Statement (.standbyTakeover) := ⟨rfl, rfl, rfl⟩

theorem F.ringReopen : F.Statement (.ringReopen) := ⟨rfl, rfl, rfl⟩

theorem F.panelPlacement (socket : Nat) : F.Statement (.panelPlacement socket) := ⟨rfl, rfl, rfl⟩

theorem F.distributorPush (socket : Nat) : F.Statement (.distributorPush socket) := ⟨rfl, rfl, rfl⟩

theorem F.panelComplete (panel : Nat) : F.Statement (.panelComplete panel) := ⟨rfl, rfl, rfl⟩

theorem F.joinDecrement (id : Nat) : F.Statement (.joinDecrement id) := ⟨rfl, rfl, rfl⟩

theorem F.preemption (socket : Nat) : F.Statement (.preemption socket) := ⟨rfl, rfl, rfl⟩

theorem F.forcedSave (panel : Nat) (slot : Nat) : F.Statement (.forcedSave panel slot) := ⟨rfl, rfl, rfl⟩

theorem F.panelSwapOut (panel : Nat) : F.Statement (.panelSwapOut panel) := ⟨rfl, rfl, rfl⟩

theorem F.gatherFlush (panel : Nat) : F.Statement (.gatherFlush panel) := ⟨rfl, rfl, rfl⟩

theorem F.gatheredStrandStart (panel : Nat) : F.Statement (.gatheredStrandStart panel) := ⟨rfl, rfl, rfl⟩

theorem F.watchdogExpiry (socket : Nat) (ctx : Nat) : F.Statement (.watchdogExpiry socket ctx) := ⟨rfl, rfl, rfl⟩

theorem F.contextSaveDone (socket : Nat) (ctx : Nat) : F.Statement (.contextSaveDone socket ctx) := ⟨rfl, rfl, rfl⟩

theorem F.powerOn : F.Statement (.powerOn) := ⟨rfl, rfl, rfl⟩

theorem F.powerOff : F.Statement (.powerOff) := ⟨rfl, rfl, rfl⟩

theorem F.bootlen (len : Nat) : F.Statement (.bootlen len) := ⟨rfl, rfl, rfl⟩

theorem F.imageVerification : F.Statement (.imageVerification) := ⟨rfl, rfl, rfl⟩

theorem F.doorbell (m : Nat) : F.Statement (.doorbell m) := ⟨rfl, rfl, rfl⟩

theorem F.train (socket : Nat) (channel : Nat) (on : Bool) : F.Statement (.train socket channel on) := ⟨rfl, rfl, rfl⟩

theorem F.patternTestStart (socket : Nat) (channel : Nat) (value : Nat) : F.Statement (.patternTestStart socket channel value) := ⟨rfl, rfl, rfl⟩

theorem F.patternTestDone (socket : Nat) (channel : Nat) : F.Statement (.patternTestDone socket channel) := ⟨rfl, rfl, rfl⟩

theorem F.repair (socket : Nat) (channel : Nat) (value : Nat) : F.Statement (.repair socket channel value) := ⟨rfl, rfl, rfl⟩

theorem F.deviceRegisterWrite (socket : Nat) (offset : Nat) (value : Nat) : F.Statement (.deviceRegisterWrite socket offset value) := ⟨rfl, rfl, rfl⟩

theorem F.flogPop (socket : Nat) : F.Statement (.flogPop socket) := ⟨rfl, rfl, rfl⟩

theorem F.tbstep (step : Nat) : F.Statement (.tbstep step) := ⟨rfl, rfl, rfl⟩

theorem F.wdata (socket : Nat) (value : BitVec 64) : F.Statement (.wdata socket value) := ⟨rfl, rfl, rfl⟩

theorem F.flitRetry (port : Nat) : F.Statement (.flitRetry port) := ⟨rfl, rfl, rfl⟩

theorem F.portLoss (port : Nat) : F.Statement (.portLoss port) := ⟨rfl, rfl, rfl⟩

theorem F.computeDieLoss (socket : Nat) : F.Statement (.computeDieLoss socket) := ⟨rfl, rfl, rfl⟩

theorem F.ringSegmentLoss (position : Nat) : F.Statement (.ringSegmentLoss position) := ⟨rfl, rfl, rfl⟩

theorem F.iodELoss : F.Statement (.iodELoss) := ⟨rfl, rfl, rfl⟩

theorem F.iodWLoss : F.Statement (.iodWLoss) := ⟨rfl, rfl, rfl⟩

theorem F.thermalThrottle (socket : Nat) : F.Statement (.thermalThrottle socket) := ⟨rfl, rfl, rfl⟩

theorem F.thermalRecovery (socket : Nat) : F.Statement (.thermalRecovery socket) := ⟨rfl, rfl, rfl⟩

theorem F.thermalShutdown (socket : Nat) : F.Statement (.thermalShutdown socket) := ⟨rfl, rfl, rfl⟩

theorem F.rdmaWrite (region : Nat) (addr : Nat) (data : List (BitVec 8)) : F.Statement (.rdmaWrite region addr data) := ⟨rfl, rfl, rfl⟩

theorem F.rdmaRead (region : Nat) (addr : Nat) (len : Nat) : F.Statement (.rdmaRead region addr len) := ⟨rfl, rfl, rfl⟩

theorem F.send (qp : Nat) : F.Statement (.send qp) := ⟨rfl, rfl, rfl⟩

theorem F.rdmaAtomic (qp : Nat) : F.Statement (.rdmaAtomic qp) := ⟨rfl, rfl, rfl⟩

theorem F.ptpEventFrame (port : Nat) (rx : Bool) : F.Statement (.ptpEventFrame port rx) := ⟨rfl, rfl, rfl⟩

theorem F.launch (mailbox : Nat) : F.Statement (.launch mailbox) := ⟨rfl, rfl, rfl⟩

theorem F.quote : F.Statement (.quote) := ⟨rfl, rfl, rfl⟩

theorem F.certs : F.Statement (.certs) := ⟨rfl, rfl, rfl⟩

theorem F.shuttle : F.Statement (.shuttle) := ⟨rfl, rfl, rfl⟩

theorem F.spoolLoadCopy (socket : Nat) (ctx : Nat) (src : Nat) (dst : Nat) (len : Nat) : F.Statement (.spoolLoadCopy socket ctx src dst len) := ⟨rfl, rfl, rfl⟩

theorem F.arbiterReturn : F.Statement (.arbiterReturn) := ⟨rfl, rfl, rfl⟩

theorem F.arbiterPackageLoss (primary : Bool) : F.Statement (.arbiterPackageLoss primary) := ⟨rfl, rfl, rfl⟩

theorem F.otpFloorRaise : F.Statement (.otpFloorRaise) := ⟨rfl, rfl, rfl⟩

end Sys2Proof.Laws
end

