-- ==== Sys2Proof/Tests/Slice0.lean ====
section
/-! SUPPORT. Tests: words written out from R41, R42, R70 and R72 to R75 decode to the instructions they stand for; ill-formed terms are
refused; single steps against values worked out from the rules; and for every statement states and operands that meet its hypotheses. -/

namespace Sys2Proof.Tests

open Sys2Proof Sys2Proof.Machine

/-- Fields all zero: queue-only destination and Q0 sources, no guard and no prefix. -/
def plain : Args := { g := Guard.always, look := 0, d := .q 0, a := .q 0, b := .q 0, c := .q 0, ar := Arith.plain, mp := .none }

/-- A destination and sources A and B. -/
def args (d a b : Opnd) : Args := { plain with d := d, a := a, b := b }

/-- The same with a selector in source C. -/
def argsC (d a b : Opnd) (k : BitVec 8) : Args := { args d a b with c := .sel k }

def short (a b : Opnd) : SArgs := { g := Guard.always, a := a, b := b, ar := Arith.plain }

/-! Decoding: the opcodes of R70 and R72 to R75, unguarded (PRED 7), every operand field 0. -/

def shortOk (e : Nat × Instr) : Bool := decide (decode [BitVec.ofNat 32 (4 * e.1 + 0xE00)] = .ok e.2 1)

/-- A long instruction: opcode10, source C, and what it is. -/
def longOk (e : Nat × Nat × Instr) : Bool :=
  decide (decode [BitVec.ofNat 32 (1 + 4 * e.1 + 0x7000), BitVec.ofNat 32 (e.2.1 * 2 ^ 24)] = .ok e.2.2 2)

theorem test_decode_short : ([
    (0x0, .nopShort Guard.always), (0x1, .iadd32S (short (.q 0) (.q 0))), (0x2, .isub32S (short (.q 0) (.q 0))),
    (0x3, .imul32S (short (.q 0) (.q 0))), (0x4, .iminS32S (short (.q 0) (.q 0))), (0x5, .imaxS32S (short (.q 0) (.q 0))),
    (0x6, .and32S (short (.q 0) (.q 0))), (0x7, .or32S (short (.q 0) (.q 0))), (0x8, .xor32S (short (.q 0) (.q 0))),
    (0x9, .shl32S (short (.q 0) (.q 0))), (0xa, .shr32S (short (.q 0) (.q 0))), (0xb, .sar32S (short (.q 0) (.q 0))),
    (0xc, .mov32S (short (.q 0) (.q 0))), (0xd, .iadd64S (short (.q 0) (.q 0))), (0xe, .popc32S (short (.q 0) (.q 0))),
    (0xf, .isetEq32S (short (.q 0) (.q 0))), (0x10, .isetLtS32S (short (.q 0) (.q 0))),
    (0x11, .isetLtN32S (short (.q 0) (.q 0))), (0x20, .faddF32S (short (.q 0) (.q 0))),
    (0x21, .fmulF32S (short (.q 0) (.q 0))), (0x22, .fminF32S (short (.q 0) (.q 0))), (0x23, .fmaxF32S (short (.q 0) (.q 0))),
    (0x24, .fsetLtF32S (short (.q 0) (.q 0))), (0x25, .fsetEqF32S (short (.q 0) (.q 0))),
    (0x26, .faddBF16S (short (.q 0) (.q 0))), (0x27, .fmulBF16S (short (.q 0) (.q 0))),
    (0x28, .cvtBF16F32S (short (.q 0) (.q 0))), (0x29, .cvtF32BF16S (short (.q 0) (.q 0)))] : List (Nat × Instr)).all shortOk = true := by decide

theorem test_decode_control : ([
    (0x0, 0x0, .nop plain), (0x1, 0x0, .bra plain), (0x2, 0x0, .brc plain), (0x3, 0x0, .brx plain), (0x4, 0x0, .brsp plain),
    (0x5, 0x0, .call plain), (0x6, 0x0, .ret plain), (0x7, 0x0, .retr plain), (0x8, 0x0, .join plain), (0x9, 0x0, .exit plain),
    (0xa, 0x0, .loop plain), (0xb, 0x0, .walk plain), (0xc, 0x0, .wnext plain), (0xd, 0x0, .dqpush plain),
    (0xe, 0x0, .dqbr plain)] : List (Nat × Nat × Instr)).all longOk = true := by decide

theorem test_decode_integer : ([
    (0x80, 0x0, .iadd .w32 plain), (0x86, 0x0, .isub .w64 plain), (0x88, 0x0, .imul .w32 plain),
    (0x8f, 0x0, .imulh .n64 plain), (0x92, 0x0, .imad .w64 plain), (0x95, 0x0, .imin .n32 plain),
    (0x9a, 0x0, .imax .s64 plain), (0x9e, 0x0, .iabs .w64 plain), (0xa0, 0x0, .and .w32 plain), (0xa6, 0x0, .or .w64 plain),
    (0xa8, 0x0, .xor .w32 plain), (0xae, 0x0, .not .w64 plain), (0xb0, 0x0, .shl .w32 plain), (0xb6, 0x0, .shr .w64 plain),
    (0xb8, 0x0, .sar .w32 plain), (0xbe, 0x0, .rot .w64 plain), (0xc1, 0x0, .bfx .n32 plain), (0xc6, 0x0, .bfi .w64 plain),
    (0xca, 0x0, .popc .w64 plain), (0xcc, 0x0, .clz .w32 plain), (0xd2, 0x0, .ctz .w64 plain), (0xd4, 0x0, .brev .w32 plain),
    (0xda, 0x0, .bperm .w64 plain), (0xdc, 0x0, .clmul .w32 plain), (0xe2, 0x0, .clmulh .w64 plain),
    (0xe6, 0x0, .sel .w64 { plain with c := .sel 0x0 }), (0xe8, 0x0, .mov .w32 plain), (0xee, 0x0, .movi .w64 plain),
    (0xf2, 0x0, .lea .w64 plain), (0x117, 0x0, .iset .ge .n64 { plain with c := .sel 0x0 }),
    (0x118, 0x0, .plop { plain with c := .sel 0x0 }), (0x123, 0x0, .qxch .rot plain), (0x127, 0x0, .qbc 3 plain),
    (0x12b, 0x0, .shfl .bfly plain), (0x12f, 0x0, .vote .ballot { plain with c := .sel 0x0 })] : List (Nat × Nat × Instr)).all longOk = true := by decide

theorem test_decode_float : ([
    (0x143, 0x0, .fadd .f64 plain), (0x146, 0x0, .fmul .bf16 plain), (0x149, 0x0, .ffma .f16 plain),
    (0x14e, 0x0, .fmin .bf16 plain), (0x150, 0x0, .fmax .f32 plain), (0x154, 0x0, .frcp plain), (0x155, 0x0, .frsq plain),
    (0x156, 0x0, .fsqrt plain), (0x157, 0x0, .fexp2 plain), (0x158, 0x0, .flog2 plain), (0x159, 0x0, .ftanh plain),
    (0x17e, 0x0, .fset .nan .bf16 { plain with c := .sel 0x0 }), (0x182, 0x0, .fscale .bf16 plain),
    (0x185, 0x0, .fclass .f16 plain), (0x190, 0x1, .cvt { plain with c := .sel 0x1 }),
    (0x191, 0x10, .pack { plain with c := .sel 0x10 }), (0x192, 0x1, .unpk { plain with c := .sel 0x1 }),
    (0x193, 0x10, .rnd { plain with c := .sel 0x10 }), (0x194, 0x60, .mxsc { plain with c := .sel 0x60 }),
    (0x199, 0x0, .hfma2 true plain), (0x19a, 0x0, .dot2 false plain)] : List (Nat × Nat × Instr)).all longOk = true := by decide

theorem test_decode_memory : ([
    (0x1fd, 0x0, .ld .spool .b64 plain), (0x209, 0x0, .st .sw .b16 plain), (0x221, 0x0, .atom .exch .w64 plain),
    (0x223, 0x0, .atcas .w64 plain), (0x22e, 0x0, .red .maxF32 plain), (0x230, 0x0, .ldt plain), (0x231, 0x0, .btset plain),
    (0x232, 0x0, .ldfe plain), (0x233, 0x0, .stfe plain), (0x234, 0x0, .pref plain), (0x235, 0x0, .sprq plain),
    (0x236, 0x0, .pgq plain), (0x237, 0x0, .cinv plain), (0x238, 0x0, .cflush plain)] : List (Nat × Nat × Instr)).all longOk = true := by decide

theorem test_decode_ordering : ([
    (0x240, 0x0, .fence plain), (0x241, 0x0, .drain plain), (0x242, 0x0, .wfence plain), (0x243, 0x0, .scts plain)] : List (Nat × Nat × Instr)).all longOk = true := by decide

theorem test_decode_copy : ([
    (0x260, 0xd0, .cpy { plain with c := .s 16 }), (0x261, 0xd0, .cpyg { plain with c := .s 16 }),
    (0x262, 0xd0, .cpym { plain with c := .s 16 }), (0x268, 0x0, .kninit plain), (0x269, 0x0, .knarr plain),
    (0x26a, 0x0, .knexp plain), (0x26b, 0x0, .knexpTile plain), (0x26c, 0x0, .knwait plain), (0x26d, 0x0, .kntry plain),
    (0x270, 0x0, .bar plain), (0x271, 0x0, .sbar plain), (0x274, 0x0, .rsq plain), (0x275, 0x0, .rsclr plain)] : List (Nat × Nat × Instr)).all longOk = true := by decide

theorem test_decode_matrix : ([
    (0x2c7, 0x0, .mloop .e2m1 true { plain with c := .sel 0x0 }), (0x2d0, 0x0, .mzero plain),
    (0x2d1, 0x0, .mldt { plain with c := .sel 0x0 }), (0x2d3, 0x0, .mstt true { plain with c := .sel 0x0 }),
    (0x2d4, 0x0, .mwait plain), (0x2d5, 0x0, .ofence plain), (0x2d6, 0x0, .mspc plain),
    (0x2d7, 0x10, .mcvt { plain with c := .sel 0x10 }), (0x2d8, 0x0, .maddt plain)] : List (Nat × Nat × Instr)).all longOk = true := by decide

theorem test_decode_attention : ([
    (0x320, 0x0, .kvmap plain), (0x321, 0x0, .kvld plain), (0x322, 0x0, .kvapp plain), (0x323, 0x0, .kvseal plain),
    (0x324, 0x0, .kvfork plain), (0x325, 0x0, .kvdrop plain), (0x326, 0x0, .role plain), (0x327, 0x0, .tmask plain),
    (0x328, 0x0, .mrow plain), (0x329, 0x0, .mresc { plain with c := .sel 0x0 })] : List (Nat × Nat × Instr)).all longOk = true := by decide

theorem test_decode_fabric : ([
    (0x365, 0x0, .coll .xch plain), (0x368, 0x0, .norm plain), (0x369, 0x0, .mbrd plain), (0x36a, 0x0, .trig plain),
    (0x36b, 0x0, .scinc plain), (0x36c, 0x0, .scrd plain), (0x36d, 0x0, .scwait plain), (0x36e, 0x0, .cqrd plain),
    (0x36f, 0x0, .dpost plain), (0x370, 0x0, .lpq plain), (0x371, 0x0, .vdhop plain), (0x372, 0x0, .vdq plain)] : List (Nat × Nat × Instr)).all longOk = true := by decide

theorem test_decode_scheduling : ([
    (0x3b0, 0x0, .fork plain), (0x3b1, 0x0, .jctr plain), (0x3b2, 0x0, .lnch plain), (0x3b3, 0x0, .yield plain),
    (0x3b4, 0x0, .qpush plain), (0x3b5, 0x0, .qpop plain), (0x3b6, 0x0, .prio plain), (0x3b7, 0x0, .srd plain)] : List (Nat × Nat × Instr)).all longOk = true := by decide

theorem test_decode_system : ([
    (0x3d0, 0x0, .trap plain), (0x3d1, 0x0, .tret plain), (0x3d2, 0x0, .syrd plain), (0x3d3, 0x0, .sywr plain),
    (0x3d4, 0x0, .tlbi plain), (0x3d5, 0x0, .ctxs plain), (0x3d6, 0x0, .ctxl plain), (0x3d7, 0x0, .dwin plain),
    (0x3d8, 0x0, .time plain), (0x3d9, 0x0, .waitt plain), (0x3da, 0x0, .pwreq plain), (0x3db, 0x0, .pwrq plain),
    (0x3dc, 0x0, .wdog plain), (0x3dd, 0x0, .bkpt plain), (0x3de, 0x0, .halt plain), (0x3df, 0x0, .svc plain)] : List (Nat × Nat × Instr)).all longOk = true := by decide

/-- The spec's own worked words: short IADD.32 Q, O2, 5; ?!P2 FFMA.RUP.SATF V12, O3, Q1, V40 with its prefix; EXIT. -/
theorem test_decode_iadd_short : decode [0x71504E04] = .ok (.iadd32S (short (.o 2) (.imm 5))) 1 := by decide

def worked : Args :=
  { args (.v 12) (.o 3) (.q 1) with g := { pred := 2, neg := true }, c := .v 40, ar := { rnd := .rup, sat := .satf, neg := 0 } }

theorem test_decode_ffma : decode [0x000000A2, 0x80C0A521, 0xA8001403] = .ok (.ffma .f32 worked) 3 := by decide

theorem test_decode_exit : decode [0x00007025, 0] = .ok (.exit plain) 2 := by decide

/-- Values that no table names are refused (R76), and so is a unit of no kind. -/
theorem test_decode_unassigned : [0x0F, 0x9D, 0x102 + 4 * 0 - 1, 0x14F, 0x195, 0x1E6, 0x22F, 0x239, 0x244, 0x263, 0x2D9, 0x32A, 0x366,
    0x3B8, 0x3E0, 0x3FF].all (fun n => decide (decode [BitVec.ofNat 32 (1 + 4 * n + 0x7000), 0] = .bad .illegalInstruction)) = true := by
  decide

/-! Well-formedness: one ill-formed term for each check. -/

/-- A queue age in a destination, a source C no field can hold, operands where the form has none, a lookahead on a form without one, an
unsigned EQ, a prefix the form does not take, a policy of both kinds, three prefix words, an immediate that its field cannot hold. -/
theorem test_wf_refuses : ([
    .iadd .w32 (args (.q 1) (.q 0) (.q 0)), .iadd .w32 (args (.sel 0) (.q 0) (.q 0)), .iadd .w32 (args (.v 3) (.sel 1) (.q 0)),
    .iadd .w32 { plain with c := .v 1 }, .imad .w32 { plain with c := .v 64 }, .sel .w32 plain, .plop (argsC (.q 0) (.q 0) (.q 0) 8),
    .nop (args (.v 1) (.q 0) (.q 0)), .iadd .w32 { plain with look := 1 }, .iset .eq .n32 (argsC (.q 0) (.q 0) (.q 0) 7),
    .and .w32 { plain with ar := { rnd := .rup, sat := .none, neg := 0 } }, .iadd .w32 { plain with mp := .inline 1 },
    .ld .g .b32 { plain with c := .s 1, mp := .inline 1 }, .cvt (argsC (.q 0) (.q 0) (.q 0) 0), .iadd .w32 (args (.imm 200) (.q 0) (.q 0)),
    .iadd32S (short (.vo 1) (.q 0)), .iadd32S (short (.v 128) (.q 0)), .mov32S (short (.q 0) (.imm 3)), .wdata 0 0] : List Instr).all
    (fun i => !i.wf) = true := by decide

theorem test_wf_accepts : ([
    .iadd .w32 (args (.v 639) (.s 63) (.imm 0x7FFFFFFFF)), .imad .w64 { plain with c := .s 63 }, .sel .w32 (argsC (.q 0) (.o 7) (.vo 7) 7),
    .frcp { plain with look := 15 }, .ld .g .b32 { plain with mp := .cls 7 }, .iadd32S (short (.v 127) (.imm 31)),
    .iset .ne .s64 (argsC (.v 0) (.q 14) (.q 0) 6)] : List Instr).all (fun i => i.wf) = true := by decide

/-- The round trip at the ends of the fields (DecodeEncode, DecodedWellFormed). -/
theorem test_encode_ends : ([
    .iadd .w32 (args (.v 639) (.s 63) (.imm 0x7FFFFFFFF)), .frcp { plain with g := { pred := 6, neg := true }, look := 15, a := .vo 7 },
    .ld .g .b64 { plain with a := .v 638, mp := .inline 0x3FFFFFF }, .iadd32S (short (.v 127) (.imm 31)),
    .ffma .f32 { plain with c := .v 63, ar := { rnd := .sr, sat := .satf, neg := 0x3F } }] : List Instr).all
    (fun i => i.wf && decide (decode (encode i) = .ok i (encode i).length)) = true := by decide

/-! A small module: one panel (handle 1) of one strand with two lanes and a bobbin on core 0 of die 0, context slot 0 loaded, one page
of memory, and the instruction that issues at address 0x1008 of a block at 0x1000. -/

/-- A strand at the fixture's instruction with lanes of a mask. -/
def thread (m : Mask) : Strand := { a := some { pos := { pc := 0x1008, kind := .inside 0x1000 0x403 }, mask := m } }

def panelOf (t : Strand) : Panel :=
  { crec := { hdr := 0x1000, frame := 0, join := 0, shape := BitVec.ofNat 64 (16 * 2 ^ 40 + 16 * 2 ^ 35 + 80 * 2 ^ 28) }
    panelId := 0, garment := 0, swatch := none, part := 0, ctx := 0, die := 0, core := some 0, prio := 0
    strands := [(0, t)], bob := { pos := { pc := 0x1008, kind := .inside 0x1000 0x403 } } }

/-- Headers at 0x1100 for strands (callee, respawn target) and at 0x1200 for the other executors; the context's tables at 0 map
the first 32 MiB to themselves. -/
def text : List Host.Cell :=
  Memory.write (Memory.write (Memory.write (Memory.write [] 0 8 0x80001) 0x80000 8 0x3B) 0x1100 8 (3 + 4 * 4 + 2 ^ 31 + 2 ^ 48 + 2 ^ 49)) 0x1200 8 (3 + 4 * 4 + 2 ^ 30 + 2 ^ 48 + 2 ^ 49)

/-- The module with the executor that issues. -/
def box (e : Ex) (p : Panel := panelOf (thread 3)) : State :=
  { (State.reset.placeCtx).setPanel 1 p with
    mem := text
    stage := 3
    mgts := [(0, { st := .running }), (16, { st := .running })]
    nextId := 2
    cur := { ex := e, pc := 0x1008, blk := 0x1000, hdr := 0x403, nxt := { pc := 0x1010, kind := .inside 0x1000 0x403 } } }

/-- A strand's module, with S registers and one lane's values. -/
def onStr (t : Strand := thread 3) : State := box (.str 1 0) (panelOf t)
def onBob (b : List W64 := List.replicate 64 0) : State :=
  box (.bob 1) { panelOf (thread 3) with bob := { pos := { pc := 0x1008, kind := .inside 0x1000 0x403 }, thr := { ss := b } } }
def onMgt (m : Nat := 0) (g : Mgt := { st := .running }) : State := { box (.mgt m) with mgts := SMap.put [(0, g), (16, g)] m g }

/-- S registers with some values from S1 on. -/
def sregs (vs : List W64) : List W64 := 0 :: vs ++ List.replicate (63 - vs.length) 0
def withS (vs : List W64) (t : Strand := thread 3) : Strand := { t with thr := { t.thr with ss := sregs vs } }

/-- The issue passes every check, and its context meets a condition. -/
def goes (i : Instr) (s : State) (p : Cx → Args → Bool := fun c _ => c.any) : Bool :=
  match issue i s with
  | .go c x => p c x
  | .none => false
  | .out _ => false

/-- An evaluated issue is an issue in the sense of the statements. -/
theorem goes_issues {i : Instr} {s : State} {p : Cx → Args → Bool} (h : goes i s p = true) : ∃ c x, Issues i s c x ∧ p c x = true := by
  unfold goes at h
  split at h
  · next c x hi => exact ⟨c, x, hi, h⟩
  · cases h
  · cases h

/-- The same for every instruction of a list. -/
theorem all_issue {is : List Instr} {s : State} {p : Cx → Args → Bool} (h : is.all (fun i => goes i s p) = true) :
    ∀ i ∈ is, ∃ c x, Issues i s c x ∧ p c x = true := fun i hi => goes_issues (List.all_eq_true.mp h i hi)

/-- The checks before an instruction's operands pass, and the context meets a condition. -/
def may (i : Instr) (s : State) (p : Cx → Args → Bool) : Bool :=
  match s.mkCx, i.spec, i.fields with
  | some c0, some sp, some x =>
    let c := c0.guarded x.g
    !c.thr.resumeTrap && !bobSr c.ex i && guardOk c.ex i x.g && mgtOnlyZero c.ex sp.a x.a && mgtOnlyZero c.ex sp.b x.b &&
      exOk c.ex sp.ex && roleOk s c.ex sp.role && p c x
  | _, _, _ => false

theorem may_issue {i : Instr} {s : State} {p : Cx → Args → Bool} (h : may i s p = true) : ∃ c sp x, MayIssue i s c sp x ∧ p c x = true := by
  unfold may at h
  split at h
  · next c0 sp x h1 h2 h3 =>
    simp only [Bool.and_eq_true, Bool.not_eq_true'] at h
    exact ⟨c0.guarded x.g, sp, x, ⟨by simp [h1], h2, h3, h.1.1.1.1.1.1.1, h.1.1.1.1.1.1.2, h.1.1.1.1.1.2, h.1.1.1.1.2, h.1.1.1.2,
      h.1.1.2, h.1.2⟩, h.2⟩
  · cases h

theorem all_may {is : List Instr} {s : State} {p : Cx → Args → Bool} (h : is.all (fun i => may i s p) = true) :
    ∀ i ∈ is, ∃ c sp x, MayIssue i s c sp x ∧ p c x = true := fun i hi => may_issue (List.all_eq_true.mp h i hi)

/-- A step answers a next state that meets a condition. -/
def nexts (o : Out) (p : State → Bool) : Bool :=
  match o with
  | .next t => p t
  | .fault _ => false
  | .refused _ => false

def resOk {α : Type} (r : Res α) : Bool := match r with | .ok _ => true | .trap _ => false | .miss _ => false | .held => false
def excOk {α ε : Type} (r : Except ε α) : Bool := match r with | .ok _ => true | .error _ => false

/-! Witnesses: states and operands that meet the hypotheses of each statement, clause by clause. -/

/-! Part A: the decoder, the step, an issue's checks, traps. -/

/-- A placed EXIT is fetched and decoded from a state with nothing due (StepRunsDecoded). -/
def fetchable (s : State) : Bool :=
  s.agenda.isEmpty && !s.off && s.inflight.isEmpty && s.tick.dueExpiry.isNone &&
  (match s.tick.nextUnit with
    | none => false
    | some u =>
      let s1 : State := ({ s.tick with turn := none, free := s.tick.free + 1 } : State).picked u
      match s1.posOf u.1 u.2 with
      | none => false
      | some p =>
        (s1.resumeTrap? u.1).isNone &&
        match s1.blockOf u.1 (s1.joinOfEx u.1) p with
        | .ok blk hdr a =>
          (match s1.fetchItem u.1 (blk.toNat + 4 * Hdr.len hdr) 4 {} a with
            | .ok us => (match decode us with | .ok i _ => decide (i = .exit plain) | .bad _ => false)
            | .trap _ => false
            | .held => false
            | .miss _ => false)
        | .joins => false
        | .held => false
        | .trap _ _ => false
        | .miss _ => false)

theorem witness_StepRunsDecoded : fetchable (State.reset.withFetchWord 64 0x7025) = true := by decide

/-- A watchdog of 100 whose strand has run since 0, at 99 and at 100 after the tick. -/
theorem witness_StepTakesAgenda_expiry :
    let wd (n : Nat) : State := { onStr.modCtx 0 0 fun c => { c with wdLimit := 100 } with time := BitVec.ofNat 64 n }
    (wd 98).tick.dueExpiry = none ∧ (wd 99).tick.dueExpiry = some (0, 0) := by decide

theorem witness_StepTakesAgenda : (State.reset.post .heartbeat).flushInflight.agenda ≠ [] ∧
    ((State.reset.post .heartbeat).flushInflight).tick.dueExpiry = none ∧ { State.reset with off := true }.agenda = [] := by
  decide

/-- What the statements on issues suppose before any check (IssueGoes, WrongExecutorTraps, RoleTraps). -/
def begins (i : Instr) (s : State) (p : Cx → Spec → Args → Bool) : Bool :=
  match s.mkCx, i.spec, i.fields with
  | some c, some sp, some x => c.thr.pends.isEmpty && !c.thr.resumeTrap && mgtOnlyZero c.ex sp.a x.a && mgtOnlyZero c.ex sp.b x.b &&
      (!c.ex.scalar || x.g == Guard.always) && p c sp x
  | _, _, _ => false

/-- An unguarded BRA with its target, a guarded add, a SEL from V[O0], on each executor. -/
theorem witness_IssueGoes :
    let ok (i : Instr) (s : State) : Bool := begins i s fun c sp x =>
      exOk c.ex sp.ex && roleOk s c.ex sp.role && !bobSr c.ex i && guardOk c.ex i x.g && fieldsOk (s.who c.ex) i sp x &&
      (match earlyTarget s (c.guarded x.g) i with | none => true | some k => resOk (s.checkTarget c.ex k.1 k.2)) &&
      (c.guarded x.g).parts.all fun l => !laneBad (s.vregs c.ex) ((c.guarded x.g).lane l) sp x
    ok (.bra (args (.q 0) (.imm 0x20) (.q 0))) onStr = true ∧
    ok (.iadd .w32 { args (.v 639) (.vo 0) (.q 15) with g := { pred := 0, neg := true } }) onStr = true ∧
    ok (.iadd .w64 (args (.s 63) (.s 1) (.imm 5))) onBob = true ∧
    ok (.bra (args (.q 0) (.imm 0x40) (.q 0))) onBob = true ∧ ok (.bra (args (.q 0) (.imm 0x40) (.q 0))) onMgt = true ∧
    ok (.time { plain with d := .s 0 }) (onMgt 16) = true := by decide

theorem witness_GuardSelectsLanes : ∃ c : Cx, c.ex = .str 1 0 ∧ c.mask.getLsbD 1 = true ∧ xor ((c.lane 1).pAt 0) true = true :=
  ⟨{ ex := .str 1 0, slotB := false, pc := 0, blk := 0, hdr := 0, nxt := { pc := 0, kind := .entered }, mask := 3, act := 3, helper := 0,
     lanes := [], thr := {} }, by decide⟩

theorem witness_WrongExecutorTraps :
    let ok (i : Instr) (s : State) : Bool := begins i s fun c sp _ => !exOk c.ex sp.ex
    ok (.walk plain) onStr = true ∧ ok (.fadd .f32 plain) onBob = true ∧ ok (.exit plain) onMgt = true ∧
    ok (.ctxl plain) (onMgt 16) = true := by decide

theorem witness_RoleTraps : begins (.mzero plain) (onStr { thread 3 with role := 3 }) (fun c sp _ =>
    exOk c.ex sp.ex && !roleOk (onStr { thread 3 with role := 3 }) c.ex sp.role) = true := by decide

theorem witness_TrapParksStrand : (onStr.strand? 1 0).isSome = true := by decide

theorem witness_ManagementTrap : ((onMgt).mgt 0).intrap = false ∧ ((onMgt 0 { st := .running, intrap := true }).mgt 0).intrap = true := by
  decide

theorem witness_AsyncTrapRecorded :
    let s := onStr { thread 3 with thr := { async := some { trap := .storeError }, more := 255 } }
    ((onStr.thr? (.str 1 0)).map (·.async)) = some none ∧ ((s.thr? (.str 1 0)).map (·.more)) = some 255 := by decide

/-! Part B: the computing forms. -/

def r32 : Args := args (.v 3) (.o 1) (.q 2)
def r64 : Args := args (.v 2) (.o 2) (.q 3)
def i32 : SArgs := short (.o 2) (.imm 5)
def sati (x : Args) : Args := { x with ar := { rnd := .rne, sat := .sati, neg := 0 } }
def sel7 (x : Args) : Args := { x with c := .sel 7 }
def sc (x : Args) : Args := { x with d := .s 63, a := .s 1, b := .imm 7 }

theorem witness_IntegerArithmetic : ∀ i ∈ ([
    .iadd .w32 r32, .iadd .w64 r64, .isub .w32 r32, .isub .w64 r64, .imul .w32 r32, .imul .w64 (sati r64), .iadd .w32 (sati r32),
    .iadd32S i32, .isub32S i32, .imul32S { i32 with ar := (sati plain).ar }, .iadd64S i32] : List Instr),
    ∃ c x, Issues i onStr c x ∧ c.any = true := all_issue (by decide)

/-- Neither clause of the saturation shuts the other's operands out. -/
theorem witness_IntegerArithmetic_sati : goes (.iadd .w32 (sati r32)) onStr (fun _ x => x.ar.sat == .sati) = true ∧
    goes (.iadd .w32 (sc plain)) onBob (fun _ x => x.ar.sat != .sati) = true ∧
    goes (.iadd .w64 (sc plain)) (onMgt 17) (fun _ x => x.ar.sat != .sati) = true := by decide

theorem witness_IntegerWideArithmetic : ∀ i ∈ ([
    .imulh .s32 r32, .imulh .n64 r64, .imad .w32 { r32 with c := .v 63 }, .imad .w64 (sati { r64 with c := .s 1 }), .iabs .w32 (args (.v 3) (.q 0) (.q 0)),
    .iabs .w64 (sati (args (.v 2) (.o 6) (.q 0)))] : List Instr), ∃ c x, Issues i onStr c x ∧ c.any = true := all_issue (by decide)

theorem witness_IntegerMinMax : ∀ i ∈ ([.imin .s32 r32, .imin .n64 r64, .imax .n32 r32, .imax .s64 r64, .iminS32S i32, .imaxS32S i32] : List Instr),
    ∃ c x, Issues i onStr c x ∧ c.any = true := all_issue (by decide)

theorem witness_LogicAndShifts : ∀ i ∈ ([
    .and .w32 r32, .or .w64 r64, .xor .w32 r32, .not .w64 (args (.v 2) (.o 2) (.q 0)), .shl .w32 r32, .shr .w64 r64, .sar .w32 r32, .rot .w64 r64,
    .and32S i32, .or32S i32, .xor32S i32, .shl32S i32, .shr32S i32, .sar32S i32] : List Instr),
    ∃ c x, Issues i onStr c x ∧ c.any = true := all_issue (by decide)

theorem witness_BitFieldsAndCounts : ∀ i ∈ ([
    .bfx .s32 r32, .bfx .n64 r64, .bfi .w32 { r32 with c := .o 7 }, .popc .w64 (args (.v 2) (.o 2) (.q 0)), .popc32S (short (.o 2) (.q 0)),
    .clz .w32 (args (.v 2) (.o 2) (.q 0)), .ctz .w64 (args (.v 2) (.o 2) (.q 0)), .brev .w32 (args (.v 2) (.o 2) (.q 0)),
    .bperm .w64 { r64 with c := .v 62 }, .clmul .w32 r32, .clmulh .w64 r64] : List Instr),
    ∃ c x, Issues i onStr c x ∧ c.any = true := all_issue (by decide)

theorem witness_CompareAndSelect : (∀ i ∈ ([
    .iset .eq .s32 (sel7 r32), .iset .lt .n64 (sel7 r64), .isetEq32S i32, .isetLtS32S i32, .isetLtN32S i32, .sel .w64 (sel7 r64),
    .plop (argsC (.v 1) (.imm 63) (.imm 15) 0)] : List Instr), ∃ c x, Issues i onStr c x ∧ c.any = true) ∧
    (∀ i ∈ ([.plop (argsC (.v 1) (.imm 64) (.imm 15) 0), .plop (argsC (.v 1) (.imm 63) (.imm 16) 0)] : List Instr),
      ∃ c sp x, MayIssue i onStr c sp x ∧ decide (64 ≤ c.uni .w32 x.a ∨ 16 ≤ c.uni .w32 x.b) = true) :=
  ⟨all_issue (by decide), all_may (by decide)⟩

theorem witness_MovesAndAddresses : (∀ i ∈ ([
    .mov .w64 (args (.v 2) (.o 2) (.q 0)), .mov32S (short (.imm 31) (.q 0)), .movi .w32 (args (.v 1) (.imm 9) (.imm 1)),
    .movi .w64 (args (.v 2) (.imm 9) (.imm 3)), .lea .w32 { r32 with c := .v 5 }, .lea .w64 { r64 with c := .v 5 }] : List Instr),
    ∃ c x, Issues i onStr c x ∧ c.any = true) ∧
    (∀ i ∈ ([.movi .w32 (args (.v 1) (.imm 9) (.imm 2)), .movi .w64 (args (.v 2) (.imm 9) (.imm 4))] : List Instr),
      ∃ c sp x, MayIssue i onStr c sp x ∧ decide (2 ≤ c.uni .w64 x.b) = true) := ⟨all_issue (by decide), all_may (by decide)⟩

theorem witness_LaneExchange : ∀ i ∈ ([
    .qxch .horz (args (.v 3) (.o 1) (.q 0)), .qxch .rot (args (.v 3) (.o 1) (.q 0)), .qbc 3 (args (.v 3) (.o 1) (.q 0)), .shfl .idx r32, .shfl .up r32,
    .shfl .down r32, .shfl .bfly r32, .vote .all (sel7 (args (.v 3) (.o 1) (.q 0))), .vote .any (sel7 (args (.v 3) (.o 1) (.q 0))),
    .vote .uni (sel7 (args (.v 3) (.o 1) (.q 0))), .vote .ballot (argsC (.v 3) (.o 1) (.q 0) 6)] : List Instr),
    ∃ c x, Issues i onStr c x ∧ c.any = true := all_issue (by decide)

theorem witness_FloatArithmetic : ∀ i ∈ ([
    .fadd .f32 r32, .fadd .f64 r64, .faddF32S i32, .faddBF16S i32, .fmul .f16 r32, .fmulF32S i32, .fmulBF16S i32, .ffma .bf16 { r32 with c := .v 5 },
    .fscale .f32 r32, .hfma2 true { r32 with c := .v 5 }, .dot2 false { r32 with c := .v 5 }] : List Instr),
    ∃ c x, Issues i onStr c x ∧ c.any = true := all_issue (by decide)

theorem witness_FloatExactRounding :
    FVal.decode Fmt.f32 0x7F7FFFFF ≠ .nan ∧ FVal.decode Fmt.bf16 0x7F80 = .inf false ∧ FVal.decode Fmt.f64 (2 ^ 63) ≠ .nan ∧
    FVal.decode Fmt.f16 1 ≠ .nan := by decide

/-- The exact powers of two of FEXP2 and FLOG2. -/
theorem witness_FloatSpecialValues : (FVal.fin false 1 0).rat = (1 : Int) ∧ (FVal.fin false 1 0).rat = 2 ^ (0 : Int) ∧
    (FVal.fin false 1 1).rat = 2 ^ (1 : Int) := by
  simp [FVal.rat]

theorem witness_FloatCompareAndClass : ∀ i ∈ ([
    .fset .lt .f32 (sel7 r32), .fset .nan .bf16 (argsC (.v 3) (.o 1) (.q 2) 0), .fsetLtF32S i32, .fsetEqF32S i32, .fmin .f32 r32, .fmax .f16 r32,
    .fminF32S i32, .fmaxF32S i32, .fclass .bf16 (args (.v 3) (.o 1) (.q 0))] : List Instr),
    ∃ c x, Issues i onStr c x ∧ c.any = true := all_issue (by decide)

theorem witness_FloatTranscendental : onStr.reqs = [] ∧ ∀ i ∈ ([
    .frcp (args (.v 3) (.o 1) (.q 0)), .frsq (args (.v 3) (.o 1) (.q 0)), .fsqrt (args (.v 3) (.o 1) (.q 0)), .fexp2 (args (.v 3) (.o 1) (.q 0)),
    .flog2 (args (.v 3) (.o 1) (.q 0)), .ftanh (args (.v 3) (.o 1) (.q 0))] : List Instr),
    ∃ c x, Issues i onStr c x ∧ c.any = true := ⟨rfl, all_issue (by decide)⟩

theorem witness_Conversions :
    let f (n : BitVec 8) : Args := argsC (.v 3) (.o 1) (.imm 1) n
    let ok (i : Instr) (p : Nat → Nat → Bool) : Bool := goes i onStr fun c x => c.any && p (fmtDst x.c) (fmtSrc x.c)
    ok (.cvt (f 0x02)) (fun d s => d == 0 && s == 2) = true ∧ ok (.cvt (f 0x9A)) (fun d s => decide (8 ≤ d ∧ d < 16 ∧ 8 ≤ s ∧ s < 16)) = true ∧
    ok (.pack (f 0x10)) (fun d s => d == 1 && s == 0) = true ∧ ok (.rnd (f 0x20)) (fun d s => decide (s < 4 ∧ d < 7 ∧ d ≠ 3 ∧ d ≠ 0)) = true ∧
    ok (.mxsc (f 0x60)) (fun d s => d == 6 && decide (s < 3)) = true ∧
    (∀ i ∈ ([.cvtBF16F32S (short (.o 2) (.q 0)), .cvtF32BF16S (short (.o 2) (.q 0))] : List Instr), ∃ c x, Issues i onStr c x ∧ c.any = true) ∧
    -- the last element of two, and the index after it
    goes (.unpk (f 0x01)) onStr (fun c x => fmtSrc x.c == 1 && decide (c.uni .w32 x.b = 1 ∧ 1 < 32 / (Fmt.ofCode 1).width)) = true ∧
    goes (.unpk (argsC (.v 3) (.o 1) (.s 1) 0x01)) (onStr (withS [2])) (fun c x => c.parts != [] && decide (32 / (Fmt.ofCode 1).width ≤ c.uni .w32 x.b)) = true ∧
    may (.unpk (argsC (.v 3) (.o 1) (.imm 2) 0x01)) onStr (fun c x => x.b == .imm 2 && fmtSrc x.c == 1 && decide (32 / (Fmt.ofCode 1).width ≤ c.uni .w32 x.b)) = true :=
  ⟨by decide, by decide, by decide, by decide, by decide, all_issue (by decide), by decide, by decide, by decide⟩

theorem witness_VectorResultLanes : (onStr.strand? 1 0).isSome = true ∧ sregOf (.v 3) = none ∧ sregOf (.q 0) = none := by decide

theorem witness_PushesAndScalarResults : (({} : Lane).q.length = 16) ∧ ((onStr.thr? (.str 1 0)).map (·.ss.length)) = some 64 ∧
    (((onMgt).thr? (.mgt 0)).map (·.ss.length)) = some 64 := by decide

theorem witness_ComputeFrame : ∃ c x t, Issues (.iadd .w32 r32) onStr c x ∧ Gives (.iadd .w32 r32) onStr c x .w32 (fun l => (c.src .w32 x.a l + c.src .w32 x.b l) % 2 ^ 32) ∧
    exec (.iadd .w32 r32) onStr = .next t := by
  refine ⟨_, _, _, rfl, rfl, rfl⟩

theorem witness_PredicateFrame : (onStr.strand? 1 0).isSome = true ∧ (7 : Nat) < 8 := by decide

/-! Part C: control. -/

def to' (d b : Opnd) : Args := args d (.imm 0x20) b
def toBob (d b : Opnd) : Args := args d (.imm 0x40) b
def thrS : Strand := withS [0x1100, 5]
def withStack (st : List W64) (t : Strand) : Strand := { t with a := t.a.map fun x => { x with stack := st } }

/-- The target is good and the whole slot goes, not to the join address. -/
def goesTo (i : Instr) (t : Strand) (k : Entry) (T : Cx → Args → Mask) (tgt : Cx → Args → Nat) : Bool :=
  let s := onStr t
  goes i s fun c x => resOk (s.checkTarget c.ex k (tgt c x)) && t.join != .addr (BitVec.ofNat 64 (tgt c x)) && c.parts != [] &&
    (withHelpers c.helper t.ended (T c x) &&& c.mask) != 0 && (c.mask &&& ~~~ (withHelpers c.helper t.ended (T c x) &&& c.mask)) == 0

theorem witness_BranchesTransfer_strand :
    let at' (c : Cx) (x : Args) : Nat := immTarget c x.a
    let all (c : Cx) (_ : Args) : Mask := c.act
    goesTo (.bra (to' (.q 0) (.q 0))) thrS .branch all at' = true ∧
    goesTo (.brc (to' (.q 0) (.imm 1))) thrS .branch (fun c x => condLanes c x.b) at' = true ∧
    goesTo (.brx (args (.q 0) (.s 1) (.q 0))) thrS .branch (fun c _ => maskOf c.parts) (fun c x => c.src .w64 x.a 0) = true ∧
    goesTo (.call (to' (.q 0) (.q 0))) thrS .call all at' = true ∧ goesTo (.call (to' (.v 2) (.q 0))) thrS .call all at' = true ∧
    goesTo (.ret plain) (withStack [0x1100] thrS) .branch all (fun _ _ => 0x1100) = true ∧
    goesTo (.retr (args (.q 0) (.s 1) (.q 0))) thrS .branch all (fun c x => c.src .w64 x.a 0) = true ∧
    goesTo (.loop (to' (.s 2) (.q 0))) thrS .branch all at' = true ∧
    goesTo (.dqbr (to' (.q 0) (.q 0))) { thrS with dq := [true] } .branch all at' = true := by decide

/-- A strand with both slots, whose slot B runs elsewhere. -/
def both (j : Join) (t : Strand) : Strand :=
  { t with a := t.a.map (fun x => { x with mask := 1 }), b := some { pos := { pc := 0x1080, kind := .inside 0x1000 0x403 }, mask := 2 }, join := j }

/-- In a strand that has diverged: away from the join address, and to it, beside a slot that runs. -/
theorem witness_BranchesTransfer_diverged :
    goesTo (.bra (to' (.q 0) (.q 0))) (both .atExit thrS) .branch (fun c _ => c.act) (fun c x => immTarget c x.a) = true ∧
    (let t := both (.addr 0x1100) (withStack [0x1100] thrS)
     (∀ i ∈ ([.bra (to' (.q 0) (.q 0)), .ret plain, .brx (args (.q 0) (.s 1) (.q 0))] : List Instr), ∃ c x, Issues i (onStr t) c x ∧
        (decide (c.ex = .str 1 0 ∧ (onStr t).strand? 1 0 = some t ∧ t.join = .addr (BitVec.ofNat 64 0x1100)) && c.parts == [0] && c.mask == 1 &&
          (State.slotOf t (!c.slotB)).any (fun z => !z.waiting) && resOk ((onStr t).checkTarget c.ex .branch 0x1100)) = true)) :=
  ⟨by decide, all_issue (by decide)⟩

theorem witness_BranchesTransfer_scalar : (∀ i ∈ ([.bra (toBob (.q 0) (.q 0)), .brc (toBob (.q 0) (.imm 1)), .call (toBob (.q 0) (.q 0)),
      .loop (toBob (.s 2) (.q 0))] : List Instr),
    ∃ c x, Issues i (onBob (sregs [0, 5])) c x ∧ (c.any && resOk ((onBob (sregs [0, 5])).checkTarget c.ex .call (immTarget c x.a))) = true) ∧
    (∀ i ∈ ([.bra (toBob (.q 0) (.q 0)), .brc (toBob (.q 0) (.imm 1)), .call (toBob (.q 0) (.q 0)), .loop (toBob (.s 2) (.q 0))] : List Instr),
      ∃ c x, Issues i onMgt c x ∧ (c.any && resOk (onMgt.checkTarget c.ex .call (immTarget c x.a))) = true) ∧
    goes (.ret plain) (onMgt 0 { st := .running, stack := [0x1200] }) = true := ⟨all_issue (by decide), all_issue (by decide), by decide⟩

/-- No lane takes it: a guard on P0, which is 0; a false condition; a count of 1; a false decision; an empty return stack. -/
theorem witness_BranchesFallThrough :
    let off (x : Args) : Args := { x with g := { pred := 0, neg := false } }
    (∀ i ∈ ([.nop plain, .nopShort Guard.always] : List Instr), ∃ c x, Issues i onStr c x ∧ c.any = true) ∧
    (∀ i ∈ ([.bra (off (to' (.q 0) (.q 0))), .call (off (to' (.q 0) (.q 0))), .ret (off plain), .loop (off (to' (.s 2) (.q 0))), .dqbr (off (to' (.q 0) (.q 0))),
      .brx (off (args (.q 0) (.s 1) (.q 0))), .retr (off (args (.q 0) (.s 1) (.q 0)))] : List Instr),
      ∃ c x, Issues i (onStr thrS) c x ∧ (c.act == 0 && c.parts == []) = true) ∧
    goes (.brc (to' (.q 0) (.imm 0))) onStr (fun c x => condLanes c x.b == 0) = true ∧
    goes (.loop (to' (.s 2) (.q 0))) (onStr (withS [0, 1])) (fun c _ => c.act != 0 && c.s 2 == 1) = true ∧
    goes (.dqbr (to' (.q 0) (.q 0))) (onStr { thrS with dq := [false] }) (fun c _ => c.act != 0) = true ∧
    goes (.ret plain) onStr (fun c _ => c.act != 0 && decide (stackOf onStr c = [])) = true :=
  ⟨all_issue (by decide), all_issue (by decide), by decide, by decide, by decide, by decide⟩

/-- Lane 1 alone goes: its O0 is 1. -/
theorem witness_BranchDiverges :
    let t : Strand := { thread 3 with lanes := [{}, ({} : Lane).setO 0 1] ++ List.replicate 30 {} }
    goes (.brc (to' (.q 0) (.o 0))) (onStr t) (fun c x =>
      let tk := withHelpers c.helper t.ended (condLanes c x.b) &&& c.mask
      tk == 2 && c.mask &&& ~~~ tk == 1 && Hdr.reconv c.hdr == 0 && c.thr.pends.isEmpty && resOk ((onStr t).checkTarget c.ex .branch (immTarget c x.a))) = true := by
  decide

/-- Lane 1 alone goes in every other form: a guard on P0, which it alone has; V1 and V2 hold 0x1100 in it and 0x1180 in lane 0 for BRX. -/
theorem witness_BranchDiverges_forms :
    let one (v : W32) : Lane := { p := 1, v := [(2, v)] }
    let t (r : List W64) (d : List Bool) : Strand := withStack r { thrS with dq := d, lanes := ({} : Lane) :: one 0 :: List.replicate 30 {} }
    let s (r : List W64) (d : List Bool) : State := onStr (t r d)
    let g (x : Args) : Args := { x with g := { pred := 0, neg := false } }
    let ok (s : State) (t : Strand) (T : Cx → Args → Mask) (tgt : Cx → Args → Nat) (k : Entry) (c : Cx) (x : Args) : Bool :=
      let tk := withHelpers c.helper t.ended (T c x) &&& c.mask
      tk == 2 && c.mask &&& ~~~ tk == 1 && Hdr.reconv c.hdr == 0 && c.thr.pends.isEmpty && resOk (s.checkTarget c.ex k (tgt c x))
    let act (c : Cx) (_ : Args) : Mask := c.act
    let at' (c : Cx) (x : Args) : Nat := immTarget c x.a
    goes (.bra (g (to' (.q 0) (.q 0)))) (s [] []) (ok (s [] []) (t [] []) act at' .branch) = true ∧
    goes (.call (g (to' (.q 0) (.q 0)))) (s [] []) (fun c x => ok (s [] []) (t [] []) act at' .call c x && stackOf (s [] []) c == []) = true ∧
    goes (.call (g (to' (.v 2) (.q 0)))) (s [] []) (ok (s [] []) (t [] []) act at' .call) = true ∧
    goes (.ret (g plain)) (s [0x1100] []) (fun c x => ok (s [0x1100] []) (t [0x1100] []) act (fun _ _ => 0x1100) .branch c x &&
      stackOf (s [0x1100] []) c == [0x1100]) = true ∧
    goes (.retr (g (args (.q 0) (.s 1) (.q 0)))) (s [] []) (ok (s [] []) (t [] []) act (fun c x => c.src .w64 x.a 1) .branch) = true ∧
    goes (.loop (g (to' (.s 2) (.q 0)))) (s [] []) (fun c x => ok (s [] []) (t [] []) act at' .branch c x && c.s 2 == 5) = true ∧
    goes (.dqbr (g (to' (.q 0) (.q 0)))) (s [] [true]) (ok (s [] [true]) (t [] [true]) act at' .branch) = true ∧
    (let u : Strand := { thrS with lanes := { v := [(2, 0x1180)] } :: { v := [(2, 0x1100)] } :: List.replicate 30 {} }
     let w : State := { onStr u with mem := Memory.write (onStr u).mem 0x1180 8 (3 + 4 * 4 + 2 ^ 31 + 2 ^ 48 + 2 ^ 49) }
     goes (.brx (args (.q 0) (.v 2) (.q 0))) w (fun c x => c.parts == [0, 1] && c.src .w64 x.a 0 == 0x1180 && c.src .w64 x.a 1 == 0x1100 &&
       ok w u (fun _ _ => 2) (fun c x => c.src .w64 x.a 1) .branch c x && resOk (w.checkTarget c.ex .branch 0x1180))) = true := by
  decide

/-- A save area that nothing fills. -/
def roomy (s : State) : State := s.modCtx 0 0 fun c => { c with regs := SMap.put c.regs 0x40 (BitVec.allOnes 64) }

/-- The same where the block names 0x1100 as the place to meet again, and where the strand has diverged before. -/
theorem witness_BranchDiverges_named :
    let h : W64 := 0x403 + 32 * 2 ^ 32
    let t0 : Strand := { thread 3 with lanes := [{}, ({} : Lane).setO 0 1] ++ List.replicate 30 {} }
    let t : Strand := { t0 with a := t0.a.map fun x => { x with pos := { pc := 0x1008, kind := .inside 0x1000 h } } }
    let n : Strand := { t with b := some { pos := { pc := 0x1100, kind := .entered }, mask := 4, waiting := true }, join := .addr 0x1100 }
    let on (t : Strand) : State := roomy { onStr t with cur := { (onStr t).cur with hdr := h, nxt := { pc := 0x1010, kind := .inside 0x1000 h } } }
    let ok (t : Strand) (i : Instr) : Bool := goes i (on t) fun c x =>
      let tk := withHelpers c.helper t.ended (condLanes c x.b) &&& c.mask
      decide ((on t).strand? 1 0 = some t ∧ c.nxt.kind ≠ .entered) && tk == 2 && c.mask &&& ~~~ tk == 1 && Hdr.reconv c.hdr == 32 && c.thr.pends.isEmpty &&
        resOk ((on t).checkTarget c.ex .branch (immTarget c x.a)) &&
        resOk ((on t).checkTarget c.ex .branch (Word.ofInt 64 ((c.blk.toNat : Int) + 8 * Hdr.reconv c.hdr)))
    ok t (.brc (to' (.q 0) (.o 0))) = true ∧ ok n (.brc (to' (.q 0) (.o 0))) = true ∧ n.frames.length < 64 ∧ n.join ≠ .none := by
  decide

theorem witness_SlotsMerge : let x : PcSlot := { pos := { pc := 8, kind := .entered }, mask := 1, waiting := true }
    let t : Strand := { a := some x, b := some { x with mask := 2 }, join := .addr 8 }
    let run : PcSlot := { x with mask := 4, waiting := false }
    t.a = some x ∧ t.join = .addr 8 ∧ t.frames = [] ∧ x.mask ||| 2 ≠ 0 ∧
    -- inside another divergence; one slot ended; a slot that runs
    (let u : Strand := { t with frames := [{ sib := some run, join := .addr 8, posB := true }] }
     u.frames ≠ [] ∧ run.waiting = false) ∧
    (let u : Strand := { t with b := none }
     u.a = some x ∧ u.b = none ∧ u.join = .addr 8 ∧ x.mask ≠ 0) ∧
    -- both ended, inside another divergence
    (let u : Strand := { a := none, join := .addr 8, emptied := { segs := [1] }, frames := [{ sib := some run, join := .atExit, posB := false }] }
     u.a = none ∧ u.b = none ∧ u.join ≠ .none ∧ u.frames ≠ [] ∧ run.waiting = false) ∧
    (let u : Strand := { t with b := some run }
     u.b = some run ∧ run.waiting = false) := by decide

/-- It has room for items of a kind, whatever their size. -/
theorem roomy_room {s : State} {c k n : Nat} {d : Nat} (hi : s.areaItems c = [0, 0, 0, 0, 0])
    (hr : (s.ctxReg d c 0x40).toNat = 2 ^ 64 - 1) (hn : n ≤ 4096) : s.areaRoom d c [(k, n)] = true := by
  have h1 := (Config.saveBytes k).isLt
  have h2 : n * (Config.saveBytes k).toNat ≤ 4096 * 2 ^ 20 := Nat.mul_le_mul hn (Nat.le_of_lt h1)
  have h3 : areaBytes [0, 0, 0, 0, 0] = 0 := by simp [areaBytes]
  have : n * (Config.saveBytes k).toNat ≤ 2 ^ 64 - 1 := Nat.le_trans h2 (by decide)
  simp only [State.areaRoom, hi, hr, h3, List.map_cons, List.map_nil, List.sum_cons, List.sum_nil, Nat.zero_add, Nat.add_zero]
  exact Bool.or_eq_true_iff.mpr (.inr (decide_eq_true this))

/-- The same for items of two kinds. -/
theorem roomy_room2 {s : State} {c k n j m : Nat} {d : Nat} (hi : s.areaItems c = [0, 0, 0, 0, 0])
    (hr : (s.ctxReg d c 0x40).toNat = 2 ^ 64 - 1) (hn : n ≤ 4096) (hm : m ≤ 4096) : s.areaRoom d c [(k, n), (j, m)] = true := by
  have h1 : n * (Config.saveBytes k).toNat ≤ 4096 * 2 ^ 20 := Nat.mul_le_mul hn (Nat.le_of_lt (Config.saveBytes k).isLt)
  have h2 : m * (Config.saveBytes j).toNat ≤ 4096 * 2 ^ 20 := Nat.mul_le_mul hm (Nat.le_of_lt (Config.saveBytes j).isLt)
  have h3 : areaBytes [0, 0, 0, 0, 0] = 0 := by simp [areaBytes]
  have : n * (Config.saveBytes k).toNat + m * (Config.saveBytes j).toNat ≤ 2 ^ 64 - 1 :=
    Nat.le_trans (Nat.add_le_add h1 h2) (by decide)
  simp only [State.areaRoom, hi, hr, h3, List.map_cons, List.map_nil, List.sum_cons, List.sum_nil, Nat.zero_add, Nat.add_zero]
  exact Bool.or_eq_true_iff.mpr (.inr (decide_eq_true this))

theorem witness_BranchDiverges_room : (roomy (onStr (both (.addr 0x1100) (thread 3)))).roomFor (.str 1 0) 0 1 = true :=
  roomy_room (by decide) (by decide) (by decide)

theorem witness_StrandControl_room : (roomy onStr).roomFor (.str 1 0) 2 2 = true ∧ (roomy onStr).roomFor (.str 1 0) 1 1 = true :=
  ⟨roomy_room (by decide) (by decide) (by decide), roomy_room (by decide) (by decide) (by decide)⟩

theorem witness_StrandControl :
    -- every lane ends, or one of two
    goes (.exit plain) onStr (fun c _ => c.act == 3) = true ∧ (thread 3).isOver = false ∧
    goes (.exit { plain with g := { pred := 0, neg := true } }) (onStr { thread 3 with lanes := { p := 1 } :: List.replicate 31 {} })
      (fun c _ => c.act == 2 && c.mask == 3) = true ∧
    goes (.join plain) (onStr { thread 3 with join := .atExit }) (fun c _ => c.mask &&& ~~~ c.helper &&& ~~~ c.act == 0) = true ∧
    goes (.join plain) onStr (fun c _ => c.mask &&& ~~~ c.helper &&& ~~~ c.act == 0) = true ∧
    goes (.join plain) (onStr { thread 3 with join := .addr 0x1100 }) (fun c _ => c.mask &&& ~~~ c.helper &&& ~~~ c.act == 0 && c.parts != []) = true ∧
    goes (.join { plain with g := { pred := 0, neg := true } }) (onStr { thread 3 with lanes := { p := 1 } :: List.replicate 31 {} })
      (fun c _ => c.mask &&& ~~~ c.helper &&& ~~~ c.act != 0 && c.parts != []) = true ∧
    goes (.brsp (to' (.q 0) (.imm 1))) (roomy onStr) (fun c x => resOk ((roomy onStr).checkTarget c.ex .brsp (immTarget c x.a)) &&
      (roomy onStr).released c.ex && (lanesOf (condLanes c x.b &&& ~~~ c.helper)).length == 2) = true ∧
    ((roomy onStr).panel? 1).map (·.records) = some 0 ∧
    -- the lanes' queues have their 16 entries, and their files are canonical
    (({} : Lane).q.length = 16 ∧ SMap.rising ({} : Lane).v = true) := by decide

theorem witness_BobbinControl :
    let s0 := onBob (sregs [0x2000, 1])
    let s : State := { s0 with mem := Memory.write (Memory.write s0.mem 0x2008 8 (3 + 2 ^ 32 * 2)) 0x2010 8 1 }
    let walking (w : Walk) : State := s.modBob 1 fun b => { b with walk := some w }
    goes (.exit plain) s = true ∧
    goes (.walk (args (.q 0) (.s 1) (.q 0))) s (fun c x => (match s.readWords c.ex (c.uni .w64 x.a) 4 with
      | .ok ws => ws == [0, 0x200000003, 1, 0] | .trap _ => false | .miss _ => false | .held => false) && !s.notYet c.ex (c.uni .w64 x.a) 32) = true ∧
    goes (.wnext (toBob (.s 3) (.q 0))) (walking { x := 3, y := 2, z := 1, done := [0, 4] }) = true ∧
    goes (.wnext (toBob (.s 3) (.q 0))) (walking { x := 1, y := 2, z := 1, done := [0, 2 ^ 20] })
      (fun c x => resOk (s.checkTarget c.ex .branch (immTarget c x.a)) && decide (∃ n : Fin 64, x.d = .s (BitVec.ofFin n))) = true ∧
    goes (.wnext (toBob (.s 3) (.q 0))) s = true ∧ (s.panel? 1).map (·.bob.walk) = some none ∧
    goes (.dqpush (args (.q 0) (.s 2) (.imm 1))) s (fun c x => lanesOf (BitVec.ofNat 32 (c.uni .w64 x.a)) == [0]) = true := by decide

/-! Part D: memory. S1 holds 0x2000 and S2 a small number; the translation of the page is in the core's TLB. -/

def mem1 : State := onStr (withS [0x2000, 0x40])

/-- A strand that holds an SC stamp, at a clock of the module. -/
def stampedAt (lc : W64) (ss : List W64) : State :=
  { (onStr { withS ss with thr := { (withS ss).thr with points := [(false, 2, 0)] } }).addReq
      { ex := .str 1 0, op := .point, stamp := some { lc := 0, pkg := 0, socket := 0, core := 0 } } .homeL2Access with lc := lc }

theorem witness_GlobalAccessesIssue :
    let pol (c : Cx) (x : Args) (os : List Nat) : Bool := polOk (polRaw mem1 c x) os && mem1.acquired c && mem1.released c.ex && c.any
    let lanes (c : Cx) (ls : List Nat) (n : Nat) (x : Args) (k : Acc) : Bool := ls != [] &&
      excOk (checkLanes mem1 c ls (fun l => globalPlace mem1 c.ex (c.src .w64 x.a l) n k))
    mem1.reqs = [] ∧
    goes (.ld .g .b32 (args (.v 3) (.s 1) (.q 0))) mem1 (fun c x => pol c x [0] && lanes c (loadLanes c x.d) 4 x .read) = true ∧
    goes (.ld .g .b64 { args (.s 3) (.s 1) (.q 0) with mp := .inline 2 }) mem1 (fun c x =>
      pol c x [2] && (polOf (polRaw mem1 c x)).acq && lanes c (loadLanes c x.d) 8 x .read) = true ∧
    goes (.st .g .b8 (args (.q 0) (.s 1) (.v 1))) mem1 (fun c x => pol c x [0] && lanes c c.parts 1 x .write) = true ∧
    goes (.st .g .b64 { args (.q 0) (.s 1) (.v 2) with mp := .inline 3 }) mem1 (fun c x => pol c x [3] && lanes c c.parts 8 x .write) = true ∧
    goes (.atom .exch .w64 (args (.v 4) (.s 1) (.v 2))) mem1 (fun c x => pol c x [0] && lanes c (accessLanes x.d c.parts) 8 x .both) = true ∧
    goes (.atcas .w32 (args (.v 4) (.s 1) (.v 2))) mem1 (fun c x => pol c x [0] && lanes c (accessLanes x.d c.parts) 4 x .both) = true ∧
    goes (.red .addF32 (args (.q 0) (.s 1) (.v 2))) mem1 (fun c x => pol c x [0] && lanes c c.parts 4 x .both && !mem1.walkOpen c.ex) = true ∧
    goes (.red .addOrdF32 { args (.q 0) (.s 1) (.v 2) with c := .v 5 }) mem1 (fun c x =>
      pol c { x with c := .q 0 } [0] && lanes c c.parts 4 x .both) = true ∧
    goes (.ldt (args (.v 3) (.s 1) (.imm 63))) { mem1 with mem := Memory.write mem1.mem 0x2000 8 0x2100 } (fun c x => pol c x [0] &&
      decide (c.uni .w64 x.b < 64)) = true ∧
    goes (.ld .g .b32 { args (.v 3) (.s 1) (.q 0) with g := { pred := 0, neg := false } }) mem1 (fun c _ => c.act == 0) = true := by decide

/-- TRAIN of channel 0 of socket 0x20, and an 8-byte store there. -/
theorem witness_GlobalAccessesIssue_device :
    let s := onMgt 0 { st := .running, thr := { ss := sregs [0xFFFFFFFF20010000, 1] } }
    let dev (c : Cx) (x : Args) (n : Nat) : Bool := c.act == 1 && c.helper == 0 && polRaw s c x == 0 &&
      (match deviceAddr c.ex (c.src .w64 x.a 0) with | some r => r.2 % 4 == 0 && s.devThere r.1 r.2 | none => false) &&
      c.src .w64 x.a 0 % n == 0
    goes (.ld .g .b32 (args (.s 3) (.s 1) (.q 0))) s (fun c x => dev c x 4) = true ∧
    goes (.st .g .b32 (args (.q 0) (.s 1) (.s 2))) s (fun c x => dev c x 4) = true ∧
    goes (.ld .g .b64 (args (.s 3) (.s 1) (.q 0))) s (fun c x => dev c x 8) = true ∧ s.rings.held = false ∧
    -- behind another stop while the rings hold new injections
    (let r : State := { onMgt 0 { st := .running, thr := { ss := sregs [0xFFFFFFFF2A010000, 1] } } with rings := { s.rings with held := true } }
     goes (.ld .g .b32 (args (.s 3) (.s 1) (.q 0))) r (fun c x => (match deviceAddr c.ex (c.src .w64 x.a 0) with
       | some q => r.devThere q.1 q.2 && devStop q.1 != (r.site c.ex).1 | none => false) && c.act == 1 && polRaw r c x == 0) = true) := by decide

theorem witness_LocalAccesses :
    let full : State := (onStr (withS [0x10, 0x40])).modPanel 1 fun p => { p with full := [4] }
    let s : State := onStr (withS [0x10, 0x40])
    let sp (s : State) (c : Cx) (ls : List Nat) (n : Nat) (x : Args) (wr : Bool) : Bool := ls != [] &&
      (match checkLanes s c ls (fun l => s.spAccess c.ex false (c.src .w32 x.a l) n wr),
          checkLanes s c ls (fun l => s.spPlace c.ex false (c.src .w32 x.a l) n) with
        | .ok got, .ok at' => ((got.filterMap (·.2)).all fun q => !s.spBusy wr n q) && s.pointReady c ((polOf (polRaw s c x)).order == 5) n (got.filterMap (·.2)) &&
            (at'.filterMap (·.2) == got.filterMap (·.2)) && (dupLane (got.filterMap fun g => g.2.map fun q => (g.1, q))).isNone == (n == 4 && ls.length == 1)
        | _, _ => false) && s.acquired c && s.released c.ex
    let once (x : Args) : Args := { x with d := .s 5 }
    goes (.ld .sp .b32 (args (.v 3) (.s 1) (.q 0))) s (fun c x => sp s c (loadLanes c x.d) 4 x false && c.any) = true ∧
    goes (.st .sp .b16 (args (.q 0) (.s 1) (.v 1))) s (fun c x => sp s c c.parts 2 x true && c.any) = true ∧
    -- an SC load whose stamp is safe
    (let safe : State := stampedAt 9 [0x10, 0x40]
     goes (.ld .sp .b32 { args (.v 3) (.s 1) (.q 0) with mp := .inline (5 + 8 * 4) }) safe (fun c x => sp safe c (loadLanes c x.d) 4 x false &&
       polOk (polRaw safe c x) [0, 1, 2, 5] && (polOf (polRaw safe c x)).order == 5 && c.any && c.thr.async.isNone) = true) ∧
    goes (.st .spool .b32 (args (.q 0) (.s 1) (.v 1))) s (fun c _ => c.parts != []) = true ∧
    goes (.st .spool .b32 { args (.q 0) (.s 1) (.v 1) with g := { pred := 0, neg := false } }) s (fun c _ => !c.any) = true ∧
    goes (.ldfe (once (args (.v 3) (.s 1) (.q 0)))) full (fun c x => sp full c (accessLanes x.d c.parts) 4 x false) = true ∧
    goes (.stfe { args (.q 0) (.s 1) (.v 1) with g := { pred := 0, neg := false } }) (onStr (withS [0x10] { thread 3 with lanes := { p := 1 } :: List.replicate 31 {} }))
      (fun c x => sp s c c.parts 4 x true && c.parts == [0]) = true ∧
    (full.panel? 1).map (fun p => p.isFull 0x10) = some true ∧ (s.panel? 1).map (fun p => p.isFull 0x10) = some false := by decide

/-- A Spool load inside the context's share of 16 units. -/
theorem witness_LocalAccesses_spool :
    let s : State := (onStr (withS [0x10])).modCtx 0 0 fun c => { c with regs := SMap.put c.regs 0x38 (BitVec.ofNat 64 (16 * 2 ^ 16)) }
    goes (.ld .spool .b32 (args (.v 3) (.s 1) (.q 0))) s (fun c x => c.any && s.pointReady c ((polOf (polRaw s c x)).order == 5) 0 [] && s.acquired c &&
      excOk (checkLanes s c (loadLanes c x.d) (fun l => s.spoolPlace c.ex (c.src .w32 x.a l) 4))) = true := by decide

theorem witness_CachesAndQueries :
    let sel (st : CtxSt) : State := (onMgt 0 { st := .running }).modCtx 0 0 fun c => { c with st := st }
    (∀ i ∈ ([.btset (args (.q 0) (.imm 63) (.s 1)), .pref (args (.q 0) (.s 1) (.q 0)), .sprq (args (.v 3) (.s 2) (.q 0)),
      .pgq (args (.v 3) (.s 1) (.q 0)), .cinv (args (.q 0) (.s 1) (.imm 0)), .cflush (args (.q 0) (.s 1) (.imm 64))] : List Instr),
      ∃ c x, Issues i mem1 c x ∧ (c.any && polOk (polRaw mem1 c x) [0] && mem1.acquired c && !mem1.peekHeld c.ex (c.src .w64 x.a 0) &&
        (rangePages (c.uni .w64 x.a) (c.uni .w64 x.b % 2 ^ 12)).all fun q => !mem1.peekHeld c.ex q.1) = true) ∧
    SMap.rising (mem1.ctx 0 0).bias = true ∧ mem1.reqs = [] ∧ mem1.rings.held = false ∧
    goes (.btset (args (.q 0) (.imm 63) (.s 1))) (sel .saved) = true ∧ goes (.btset (args (.q 0) (.imm 63) (.s 1))) (sel .free) = true :=
  ⟨all_issue (by decide), by decide⟩

/-- A context that names dies 0 and 1, loaded on both, while the rings hold new injections; and a line of the flushed range in L2. -/
theorem witness_CachesAndQueries_more :
    let two (c : Ctx) : Ctx := { c with st := .loaded, regs := SMap.put (SMap.put c.regs 0 (BitVec.ofNat 64 (2 ^ 31))) 1 (BitVec.ofNat 64 (2 ^ 31 + 1)) }
    let s : State := { (mem1.modCtx 0 0 two).modCtx 1 0 two with rings := { mem1.rings with held := true } }
    let l2 : State := mem1.modDie 0 fun d => { d with l2 := [(0x20, {})] }
    goes (.btset (args (.q 0) (.imm 63) (.s 1))) s (fun c _ => c.any && (s.holders (s.site c.ex).1 (s.ctxOf c.ex)).contains 1 && (s.site c.ex).1 == 0) = true ∧
    goes (.cflush (args (.q 0) (.s 1) (.imm 64))) l2 (fun c x => c.any && l2.pieces c.ex (c.uni .w64 x.a) (c.uni .w64 x.b) == [(0x2000, 0x2040)] &&
      (match l2.resolve c.ex 0x2000 with
        | .at' p => decide (p.byte / 256 = 0x20) && SMap.rising (l2.die (l2.dieKey p)).l2 && (l2.l2Line p).isSome
        | .range => false
        | .denied => false)) = true := by
  decide

/-- No channel is held, and the context is loaded on its one die. -/
theorem witness_CachesAndQueries_chan : (∀ q : Place, mem1.chanHeld q = false) ∧ 0 ∈ mem1.dmap 0 0 ∧ (mem1.ctx 0 0).st = .loaded := by
  refine ⟨fun q => ?_, by decide, by decide⟩
  have h : mem1.devRegs = [] := rfl
  simp [State.chanHeld, State.dev, h, SMap.lookD, SMap.look, devReset]

theorem witness_OrderingForms :
    -- an acquire-release of scope 2 and a store on its way
    let fence : Args := { plain with mp := .inline (4 + 8 * 2) }
    let sent : State := mem1.addReq { ex := .str 1 0, op := .store 0, n := 4 } .homeL2Access
    let hit : State := onStr { thread 3 with thr := { async := some { trap := .storeError } } }
    goes (.fence fence) mem1 (fun c x => c.any && fencePolOk (polRaw mem1 c x) && mem1.accepted c.ex && mem1.releasedIn c && mem1.returned c &&
      decide (2 ≤ (polOf (polRaw mem1 c x)).scope) && (polOf (polRaw mem1 c x)).acq) = true ∧
    -- an SC FENCE that takes its stamp, one whose stamp is safe, and one whose stamp is not
    (let ok (s : State) (p : Cx → Bool) : Bool := goes (.fence { plain with mp := .inline (5 + 8 * 4) }) s (fun c x => fencePolOk (polRaw s c x) &&
        (polOf (polRaw s c x)).order == 5 && s.accepted c.ex && s.releasedIn c && s.returned c && c.thr.async.isNone && (s.slot? c).isSome && p c)
     ok mem1 (fun c => (mem1.pointReq c).isNone) = true ∧
     ok (stampedAt 9 []) (fun c => (stampedAt 9 []).pointSafe c && ((stampedAt 9 []).pointReq c).isSome) = true ∧
     ok (stampedAt 0 []) (fun c => !(stampedAt 0 []).pointSafe c && ((stampedAt 0 []).pointReq c).isSome) = true) ∧
    goes (.fence { plain with mp := .inline 2 }) mem1 (fun c x => fencePolOk (polRaw mem1 c x)) = true ∧
    goes (.fence { plain with mp := .inline 7 }) mem1 (fun c x => !fencePolOk (polRaw mem1 c x) && c.parts != []) = true ∧
    goes (.fence fence) sent (fun c x => (polOf (polRaw sent c x)).rel && !sent.releasedIn c && fencePolOk (polRaw sent c x)) = true ∧
    -- a contribution that its home refused
    (let away : State := mem1.addReq { ex := .str 1 0, op := .store 0, n := 4, refused := true } .homeL2Access
     goes (.fence { plain with mp := .inline 2 }) away (fun c x => fencePolOk (polRaw away c x) && !away.accepted c.ex) = true) ∧
    goes (.drain plain) mem1 (fun c _ => c.any && mem1.drained c.ex && c.thr.async.isNone) = true ∧
    goes (.drain plain) sent (fun c _ => !sent.drained c.ex) = true ∧
    goes (.drain plain) hit (fun c _ => hit.drained c.ex && c.thr.async.isSome) = true ∧
    goes (.wfence plain) mem1 (fun c _ => mem1.acked c) = true ∧ goes (.scts { plain with d := .s 3 }) mem1 (fun c _ =>
      c.any && !(mem1.reqsIn c).any fun r => r.2.stamp.isSome && r.2.unperformed) = true := by decide

/-- A load, a store, an atomic and a compare-and-swap of byte 0x2000 of die 0, each the one request. -/
theorem witness_HomePerforms :
    let at0 : Place := { pkg := 0, socket := 0, vd := 0, byte := 0x2000 }
    let ready (op : ROp) : Bool :=
      let s := mem1.addReq { ex := .str 1 0, op := op, n := 4, win := 0x2000, place := some at0 } .homeL2Access
      (match SMap.look s.reqs mem1.nextId with | some r => s.homeReady mem1.nextId r | none => false) && !s.unreachable 0 && !s.groupBad at0 &&
        Memory.wf s.mem && SMap.rising (s.l1Of 0 0)
    ready (.load .b32) = true ∧ ready (.store 7) = true ∧ ready (.atom .add 1) = true ∧ ready (.cas 0 1) = true := by decide

/-- The same at a group with an uncorrectable error that L2 does not hold, an acquire, and requests that another package denied. -/
theorem witness_HomePerforms_errors :
    let at0 : Place := { pkg := 0, socket := 0, vd := 0, byte := 0x2000 }
    let ready (op : ROp) (p : Option Place) : Bool :=
      let s : State := { mem1.addReq { ex := .str 1 0, op := op, n := 4, win := 0x2000, place := p, acq := true, scope := 2 } .homeL2Access with badEcc := [at0.key / 32] }
      (match SMap.look s.reqs mem1.nextId with | some r => s.homeReady mem1.nextId r && r.acq && r.src.isNone | none => false) && !s.unreachable 0 &&
        s.badIn at0 4 && !s.l2Has at0 4
    (∀ op ∈ ([.load .b32, .atom .add 1, .cas 0 1] : List ROp), ready op (some at0) = true ∧ ready op none = true) ∧ ready (.store 7) none = true := by
  decide

/-- A store of package 3 into byte 0x2000 of die 0 is due here; one to virtual die 1, which the context does not name, is denied. -/
theorem witness_HomePerforms_far :
    let o : Origin := { pkg := 3, vdie := 0, core := 7, strand := 0, panel := 0 }
    let ready (a : Nat) : Bool :=
      let s := mem1.addReq { ex := .str 1 0, op := .store 7, n := 4, win := a, src := some o } .homeL2Access
      (match SMap.look s.reqs mem1.nextId with
        | some r => s.homeReady mem1.nextId (s.received r) && (match s.farPlace o r.ctx r.win with | some p => !s.groupBad p | none => true)
        | none => false) && Memory.wf s.mem
    ready 0x2000 = true ∧ (mem1.farPlace o 0 0x2000).isSome = true ∧ ready (2 ^ 37 + 0x2000) = true ∧ mem1.farPlace o 0 (2 ^ 37 + 0x2000) = none ∧
    -- a log with room
    (mem1.die 0).flog.entries.length < 256 := by
  decide

/-- A full log. -/
theorem witness_HomePerforms_full : let s := mem1.modDie 0 fun d => { d with flog := { d.flog with entries := List.replicate 256 (mem1.bareFlog 0 0 0 0 0) } }
    256 ≤ (s.die 0).flog.entries.length := by
  intro s
  rw [State.die_modDie_same]
  exact Nat.le_of_eq List.length_replicate.symm

theorem witness_ReductionsApply :
    let k : Contrib := { place := some { pkg := 0, socket := 0, vd := 0, byte := 0x2000 }, bits := 5, imm := none, lane := 0, va := 0x2000 }
    let ready (op : ROp) : Bool :=
      let s := mem1.addReq { ex := .str 1 0, op := op, n := 4, refused := true, place := k.place } .redApply
      (match SMap.look s.reqs mem1.nextId with | some r => s.homeReady mem1.nextId r && r.refused | none => false) && s.badEcc.isEmpty &&
        k.place.all fun p => p.key % 4 == 0 && decide (p.byte < 2 ^ 37 ∧ p.socket < 16) && !s.unreachable p.pkg
    ready (.red .addN32 Arith.plain 0 false [k]) = true ∧ ready (.red .addN64 Arith.plain 0 false [k]) = true ∧
    -- two contributions to one element
    ready (.red .maxF32 Arith.plain 0 false [k, { k with bits := 7, lane := 1 }]) = true ∧
    ready (.red .addF32 Arith.plain 7 false [k, { k with bits := 7, lane := 1 }]) = true ∧
    ready (.ord .addOrdF32 Arith.plain 0 false 0 k true) = true := by decide

/-- ORDINAL_ARRIVAL of contribution o with a record that awaits `next` and holds `held`. -/
def arrives (o : Nat) (rec' : Option OrdRec) : State :=
  let k : Contrib := { place := some { pkg := 0, socket := 0, vd := 0, byte := 0x2000 }, bits := 5, imm := none, lane := 0, va := 0x2000 }
  let s := mem1.addReq { ex := .str 1 0, op := .ord .addOrdF32 Arith.plain 0 false o k true, n := 4, place := k.place } .ordinalArrival
  s.modDie 0 fun d => { d with ords := match rec' with | some r => [(0x2000, r)] | none => [] }

theorem witness_ReductionsApply_ordinals :
    let ready (s : State) : Bool := match SMap.look s.reqs mem1.nextId with
      | some r => s.homeReady mem1.nextId r && s.badEcc.isEmpty && !s.unreachable 0 && SMap.rising (s.die 0).ords
      | none => false
    let r (n : Nat) (hs : List (Nat × Nat × Nat)) : OrdRec := { next := n, held := hs }
    -- stale; too far ahead; early; in turn, the last and not; and one that makes another the next
    (∀ x ∈ ([(3, some (r 4 [])), (7, some (r 4 [(7, 9, 0)])), (68, some (r 4 [])), (64, none), (67, some (r 4 [])), (4, some (r 4 [])),
      (2 ^ 31, none), (0, none), (0, some (r 0 [(1, 1, 0)]))] : List (Nat × Option OrdRec)), ready (arrives x.1 x.2) = true) ∧
    RedOp.addOrdF32.ord = true := by decide

/-! Part E: what comes back from memory, copies, knots and barriers. -/

/-- A load's value is on its way to V3 of lane 1. -/
def waiting : State :=
  let q : Pend := { id := 9, mask := 3, look := 0, wide := false, lanes := [{ lane := 1, q := none, reg := some (.v 3) }], sreg := none }
  { onStr { thread 3 with thr := { pends := [q] } } with
    reqs := [(5, { ex := .str 1 0, pend := some 9, lane := 1, op := .value, st := .data 77 none }),
             (6, { ex := .str 1 0, op := .store 0, st := .ack (some { trap := .storeError }) }),
             (7, { ex := .str 1 0, op := .spool .b32 0 0x100, n := 4 })] }

theorem witness_MemoryReturns_fill : ∃ r q z t, SMap.look waiting.reqs 5 = some r ∧ r.st = .data 77 none ∧ waiting.strand? 1 0 = some t ∧
    t.thr.pends.find? (fun q => q.id == 9) = some q ∧ q.sreg = none ∧ q.lanes.find? (fun z => z.lane == r.lane && !z.bad) = some z ∧
    z.reg = some (.v 3) ∧ r.lane < t.lanes.length ∧ SMap.rising (t.lanes.getD r.lane {}).v = true :=
  ⟨_, _, _, _, rfl, rfl, rfl, rfl, rfl, rfl, rfl, by decide, rfl⟩

theorem witness_MemoryReturns :
    (SMap.look waiting.reqs 6).map (·.st) = some (.ack (some { trap := .storeError })) ∧ waiting.alive (.str 1 0) 6 = true ∧
    ({ waiting with time := 2000 }.refreshing 0) = false ∧ waiting.refreshing 0 = true ∧ (waiting.refreshing 1 = false ∧ waiting.spoolWaits 0 0 0x100 = false) ∧ SMap.rising waiting.reqs = true ∧
    (let s := onStr.modDie 0 fun d => { d with l2 := [(8, {})] }
     (SMap.look (s.die 0).l2 8).map (·.dirty) = some 0) ∧
    (let s := onStr.askWalk (.str 1 0) false 5
     let p (w : PWalk) : Bool := w.ctx == 0 && w.page == 5
     ((s.die 0).walks.find? p).map (fun w => (w.waiters, w.stale)) = some ([.str 1 0], false) ∧ (s.die 0).walks.findIdx p = 0 ∧ s.walkHeld 0 0 5 = false) := by
  decide

/-- Sixteen bytes from 0x2000 to scratchpad byte 0, no COMPL; its last check fails where word 15 is not 0. -/
def copyS (pol : W64) : List W64 :=
  sregs (List.replicate 15 0 ++ [0x80001000, 0x2000, 0, 0, 0x100001000F, 0, 0, 0, 0, 0, 0, 0, 0, 0, 0, pol])
def copyT (pol mask : W64) : Strand :=
  let ss := copyS pol
  { thread 3 with ended := ~~~ 3, thr := { ss := if mask == 0 then ss else (ss.set 30 mask).set 18 0 } }
def copyD (c : Cx) : CDesc := (List.range 16).map fun n => BitVec.ofNat 64 (c.s (16 + n))
def copyX : Args := { args (.q 0) (.imm 0) (.imm 16) with c := .s 16 }

theorem witness_CopiesArriveAndComplete :
    let ok (s : State) (f : CpyForm) (c : Cx) (dests : List Nat) : Bool := soleIssuer s c && descFault f (copyD c) 0 16 == none &&
      (copyAddrTraps s c.ex f (copyD c) dests).isEmpty && (copyPoison s (copyRegs s (copyD c) dests)).isNone && s.acquired c && s.released c.ex &&
      (copyRegs s (copyD c) dests).all (fun r => (s.sbFree r.1).isSome) && s.copies.isEmpty
    let one := onStr (copyT 0 0)
    goes (.cpy copyX) one (fun c _ => ok one .cpy c [1]) = true ∧ goes (.cpyg copyX) one (fun c _ => ok one .cpyg c [1]) = true ∧
    goes (.cpy copyX) (onBob (copyS 0)) (fun c _ => ok (onBob (copyS 0)) .cpy c [1]) = true ∧
    goes (.cpy copyX) (onStr { copyT 0 0 with ended := 0 }) (fun c _ => !soleIssuer (onStr { copyT 0 0 with ended := 0 }) c) = true ∧
    goes (.cpy copyX) (onStr (copyT 1 0)) (fun c _ => soleIssuer (onStr (copyT 1 0)) c && descFault .cpy (copyD c) 0 16 == some (15, 0)) = true := by decide

/-- A CPYM to the one panel of a swatch. -/
theorem witness_CopiesArriveAndComplete_mcast :
    let d : List W64 := copyS 0
    let s0 := onBob ((d.set 30 (1 + 2 ^ 32 * (2 ^ 32 - 1))))
    let s : State := { s0.modPanel 1 fun p => { p with swatch := some 9 } with swatches := [(9, { panels := [1] })] }
    goes (.cpym copyX) s (fun c _ => (match s.panel? 1 with
      | some p => mcastDests s p (copyD c).mask == some [1] && descFault .cpym (copyD c) 0 16 == none &&
          (copyAddrTraps s c.ex .cpym (copyD c) [1]).isEmpty
      | none => false)) = true := by decide

/-- A copy of the panel that runs, from byte 0x2000 to scratchpad or back, as far as its indices and elements say. -/
def movingCopy (mode : W64) (todo : Option (List Nat)) (elts : List CElt) (fault : Option (Nat × W64)) : State :=
  let z : Copy := { panel := 1, bobSeq := true, k := 0, form := .cpy, d := ((copyS 0).drop 16).set 0 (0x80001000 + mode), missing := [],
                    slices := [(.bob 1, 0x1008, 0, 1)], sbs := [(0, 0, 1)], dests := [1], knot := some (1, 64), aknot := none, started := true,
                    todo := todo, elts := elts, fault := fault, ctx := 0, socket := 0 }
  { (onBob (copyS 0)).modCore 0 fun k => { k with sb := [(0, { op := 4, panel := 1, rlo := 0, rhi := 0, wlo := 0, whi := 16, age := 1 })] } with
    copies := [(4, z)] }

def elt0 : CElt := { near := 0, far := 0x2000, i0 := 0 }

/-- One panel with a canonical scratchpad is all there is. -/
theorem spadsOk_one {s : State} {p : Panel} (h : s.panels = [(1, p)]) (hw : Memory.wf p.spad = true) : s.spadsOk := by
  intro j q hj
  by_cases h1 : 1 = j
  · simp [State.panel?, h, SMap.look, h1] at hj
    exact hj ▸ hw
  · simp [State.panel?, h, SMap.look, h1] at hj

theorem witness_CopiesArriveAndComplete_spads : (movingCopy 0 (some []) [elt0] none).spadsOk := spadsOk_one rfl rfl

theorem witness_LocalAccesses_spads : (onStr (withS [0x10, 0x40])).spadsOk := spadsOk_one rfl rfl

theorem witness_CopiesArriveAndComplete_steps :
    let moving (mode : W64) (todo : Option (List Nat)) (elts : List CElt) : Bool :=
      let s := movingCopy mode todo elts none
      match SMap.look s.copies 4 with
      | some z =>
        let g : CDesc := z.d
        let w := z.place s
        z.started && z.fault.isNone && !z.sbs.any (fun b => s.sbOlder b.1 b.2.1) && g.mode == mode.toNat && !g.transpose && g.comp != 1 &&
          (!s.engWalkHeld w.d w.k w.c 0x2000) && Memory.wf s.mem && SMap.rising s.copies &&
          (match s.engPlace w.d w.k w.c 0x2000 .read, s.engPlace w.d w.k w.c 0x2000 .write with
            | .ok (_, q), .ok (_, r) => !s.unreachable q.pkg && !s.engBlocked w.d g.bytes true q && !s.engBlocked w.d g.bytes true r && !s.groupBad q && !s.badIn q g.bytes
            | _, _ => false)
      | none => false
    moving 0 none [] = true ∧ moving 0 (some [0]) [] = true ∧ moving 0 (some []) [elt0] = true ∧ moving 1 (some []) [elt0] = true ∧
    moving 0 (some []) [] = true ∧
    (let s := movingCopy 0 none [] (some (0x26, 0x2000))
     match SMap.look s.copies 4 with
      | some z => z.fault.isSome && z.slices.all (fun sl => s.alive sl.1 4) && z.sbs.all fun b => (SMap.look (s.core b.1).sb b.2.1).isSome
      | none => false) = true := by decide

/-- A transposed copy under a bias entry of 4-byte elements at a stride of 8, and under none; a copy from the Spool; one within global
memory; a CPYG whose outer indices stand at 0x2000. -/
theorem witness_CopiesArriveAndComplete_modes :
    let at' (mode : W64) (bias : W64) (f : CpyForm) (todo : List Nat) (elts : List CElt) : State :=
      let s := (movingCopy mode (some todo) elts none).modCtx 0 0 fun c => { c with regs := SMap.put c.regs 0x38 (BitVec.ofNat 64 (16 * 2 ^ 16)) }
      { s with copies := s.copies.map fun e => (e.1, { e.2 with bias := bias, form := f, d := e.2.d.set 14 0x2000 }) }
    let ready (s : State) (p : Copy → CDesc → CAt → Bool) : Bool := match SMap.look s.copies 4 with
      | some z => z.started && z.fault.isNone && !z.sbs.any (fun b => s.sbOlder b.1 b.2.1) && p z z.d (z.place s)
      | none => false
    let readable (s : State) (w : CAt) (va n : Nat) : Bool := !s.engWalkHeld w.d w.k w.c va &&
      (match s.engPlace w.d w.k w.c va .read with
        | .ok (_, q) => !s.unreachable q.pkg && !s.engBlocked w.d n true q && !s.badIn q n
        | .error _ => false)
    let elt : CElt := { near := 0, far := 0x2000, i0 := 2 }
    (let s := at' (2 ^ 21 + 2 ^ 9) (1 + 2 * 16 + 8 * 2 ^ 32) .cpy [] [elt]
     ready s (fun z g w => g.mode == 0 && g.transpose && biasEntry z.bias.toNat == some (4, 8) && g.bytes == 4 && readable s w 0x2000 4 && readable s w 0x2010 4 &&
       (match ((s.core (State.coreKey w.d w.k)).tlb.find? (·.hits w.c 0x2000)).or ((s.die w.d).tlb.find? (·.hits w.c 0x2000)) with
        | some tl => decide (0x2010 / 2 ^ tl.bits = 0x2000 / 2 ^ tl.bits)
        | none => (match s.walk w.d w.c (0x2000 / 2 ^ 16) with | .inr tl => decide (0x2010 / 2 ^ tl.bits = 0x2000 / 2 ^ tl.bits) | .inl _ => false))) = true) ∧
    (let s := at' (2 ^ 21 + 2 ^ 9) 0 .cpy [] [elt]
     ready s (fun z g _ => g.mode == 0 && g.transpose && biasEntry z.bias.toNat == none) = true) ∧
    (let s : State := { at' 2 0 .cpy [] [{ elt with far := 16 }] with time := 2000 }
     ready s (fun _ g w => g.mode == 2 && (match s.spoolIn w.d w.c 16 g.bytes with | .ok (v, off) => !s.spoolWaits w.d v off | _ => false)) = true) ∧
    (let s := at' 3 0 .cpy [] [{ elt with near := 0x2040 }]
     ready s (fun _ g w => g.mode == 3 && !g.transpose && readable s w 0x2000 g.bytes && !s.engWalkHeld w.d w.k w.c (Word.ofInt 64 0x2040) &&
       (match s.engPlace w.d w.k w.c (Word.ofInt 64 0x2040) .write with
        | .ok (_, q) => !s.unreachable q.pkg && !s.engBlocked w.d g.bytes true q && !s.groupBad q
        | .error _ => false) && Memory.wf s.mem) = true) ∧
    (let s := at' 0 0 .cpyg [1] []
     ready s (fun z g w => decide (z.form = .cpyg) && z.elts.isEmpty && readable s w ((g.aux + 4 * 1) % 2 ^ 64) 4) = true) := by decide

/-- A knot at scratchpad byte 64 with two arrivals left of two, and one more arrival than it has. -/
def knotted (w : Nat) : State :=
  (onStr (withS [64, 2])).modPanel 1 fun p => { p with spad := Memory.write [] 64 8 w }

theorem witness_KnotsAndBarriers_forms :
    let s := knotted (2 * 2 ^ 16 + 2)
    let at' (c : Cx) (x : Args) : Bool := match s.knotPlace c.ex (c.uni .w32 x.a) with
      | .ok k => s.pointReady c false 16 [k] && (s.sbPoison k.key 0 0 k.byte (k.byte + 16)).isNone && (s.sbPoison k.key k.byte (k.byte + 16) 0 0).isNone && s.knotPhase k.panel k.off == 0
      | .trap _ => false
      | .miss _ => false
      | .held => false
    s.reqs = [] ∧ (∀ i ∈ ([.kninit (args (.q 0) (.s 1) (.imm 2)), .knarr (args (.q 0) (.s 1) (.imm 1)), .knexp (args (.q 0) (.s 1) (.imm 1)),
      .knexpTile (args (.q 0) (.s 1) (.imm 1)), .knwait (args (.q 0) (.s 1) (.imm 0)), .knwait (args (.q 0) (.s 1) (.imm 1)),
      .kntry (args (.v 3) (.s 1) (.imm 1))] : List Instr),
      ∃ c x, Issues i s c x ∧ (c.any && s.acquired c && s.released c.ex && c.thr.async.isNone && at' c x) = true) := ⟨rfl, all_issue (by decide)⟩

theorem witness_KnotsAndBarriers_spads : (knotted (2 * 2 ^ 16 + 2)).spadsOk := spadsOk_one rfl (by decide)

theorem witness_KnotsAndBarriers_updates :
    let u (darr : Nat) : KnotUpd := { panel := 1, off := 64, addr := 64, darr := darr, who := [.str 1 0], by' := some (.str 1 0) }
    let s (w : Nat) (us : SMap KnotUpd) : State := { knotted w with knots := us }
    let due (s : State) (id : Nat) : Bool := match SMap.look s.knots id with
      | some u => (match s.panel? u.panel with | some p => p.core.isSome || p.done | none => true) &&
          (match u.by' with
            | none => true
            | some x => !s.mergeWaits x u.po && s.knots.all fun e => !(e.1 < id) || e.2.by' != u.by' || !e.2.po.before u.po ||
                e.2.panel != u.panel || e.2.off != u.off)
      | none => false
    -- complete, not complete with an arrival left and a drop, one arrival too many, the wrong unit, a transaction count out of range, not due
    due (s (2 * 2 ^ 16 + 2) [(3, u 2)]) 3 = true ∧ Word.bits ((s (2 * 2 ^ 16 + 2) [(3, u 2)]).knotW0 1 64) 31 16 = 2 ∧
    due (s (2 * 2 ^ 16 + 2) [(3, { u 1 with drops := 1 })]) 3 = true ∧ due (s (2 ^ 16 + 2) [(3, u 2)]) 3 = true ∧
    Word.bits ((s (2 ^ 16 + 2) [(3, u 2)]).knotW0 1 64) 31 16 < 2 ∧
    due (s (2 * 2 ^ 16 + 2) [(3, { u 0 with unit := some true })]) 3 = true ∧ Word.bit ((s (2 * 2 ^ 16 + 2) []).knotW1 1 64) 2 = false ∧
    due (s (2 * 2 ^ 16 + 2) [(3, { u 0 with dtx := 2 ^ 31 })]) 3 = true ∧ due (s (2 * 2 ^ 16 + 2) [(3, u 1), (4, u 1)]) 4 = false ∧
    -- one of a slot split off elsewhere does not hold it back; what a merge ordered before it does
    due (s (2 * 2 ^ 16 + 2) [(3, { u 1 with po := { seg := 7 } }), (4, u 1)]) 4 = true ∧
    due (s (2 * 2 ^ 16 + 2) [(3, { u 1 with off := 0 }), (4, { u 1 with po := { past := [0] } })]) 4 = false := by decide

/-- A barrier of one arrival and one of two; a swatch barrier. -/
theorem witness_KnotsAndBarriers_bars :
    let s := onStr
    let w : State := { s.modPanel 1 fun p => { p with swatch := some 9 } with swatches := [(9, { panels := [1] })] }
    let ok (s : State) (c : Cx) (n : Nat) (x : Args) : Bool := c.thr.pends.isEmpty && c.parts != [] && c.mask &&& ~~~ c.helper &&& ~~~ c.act == 0 && c.thr.async.isNone &&
      c.thr.arrival.isNone && s.released c.ex && s.acquired c && c.uni .w64 x.b == n
    goes (.bar (args (.q 0) (.imm 15) (.imm 1))) s (fun c x => ok s c 1 x) = true ∧
    goes (.bar (args (.q 0) (.imm 0) (.imm 2))) s (fun c x => ok s c 2 x) = true ∧
    goes (.sbar (args (.q 0) (.imm 3) (.imm 0))) w (fun c x => ok w c 0 x) = true ∧ w.swatchLive 9 = 1 ∧
    goes (.bar { args (.q 0) (.imm 15) (.imm 1) with g := { pred := 0, neg := false } }) (onStr { thread 3 with lanes := { p := 1 } :: List.replicate 31 {} })
      (fun c _ => c.parts != [] && c.mask &&& ~~~ c.helper &&& ~~~ c.act != 0) = true ∧
    goes (.sbar (args (.q 0) (.imm 3) (.imm 256))) (onStr { thread 1 with b := (thread 2).a }) (fun c _ => c.parts != []) = true ∧
    goes (.rsq (args (.s 3) (.imm 2) (.q 0))) s (fun c x => decide (c.uni .w64 x.a < 3)) = true ∧
    goes (.rsclr (args (.q 0) (.imm 64) (.q 0))) s (fun c x => c.uni .w64 x.a == 64) = true := by decide

/-! Part F: the matrix engine. S1 holds a control word of one K-step of this strand's registers, S2 its second word. -/

def mctlW : W64 := BitVec.ofNat 64 (2 ^ 32 + 2 ^ 20)
def onMat (w : W64 := mctlW) (sp : Option Sparse := none) : State :=
  (onStr (withS [w, 0])).modPanel 1 fun p => { p with sparse := sp }
def eng0 (op : EngOp) (tiles : List Nat) (steps : List (Nat × Int)) (run : Bool) (sb : Option Nat) : EngEntry :=
  { id := 1, panel := 1, issuer := .str 1 0, pc := 0x1008, tiles := tiles, op := op, sb := sb, steps := steps, running := run }
def withEng (e : EngEntry) (s : State := onMat) : State := s.modCore 0 fun k => { k with eng := [e] }
def tile (n : BitVec 8) : Opnd := .sel n

theorem witness_MatrixFormsEnter :
    let room (s : State) (c : Cx) : Bool := decide ((s.core 0).eng.length < 16) && (s.sbFree 0).isSome && s.acquired c
    let fits (s : State) (a pitch row : Nat) (p : Panel) : Bool := a % 4 == 0 && pitch % 4 == 0 && decide (row ≤ pitch) && decide (pitch ≤ 262140) &&
      decide (a + 63 * pitch + row ≤ p.spBytes) && (s.opPoison p false a (a + 63 * pitch + row)).isNone &&
      (s.opPoison p true a (a + 63 * pitch + row)).isNone && p.tileBad.isEmpty && !s.sbBusy 0 0 0 (p.spadBase * 4096 + a) (p.spadBase * 4096 + a + 63 * pitch + row)
    let pan (s : State) (f : Panel → Bool) : Bool := match s.panel? 1 with | some p => f p | none => false
    let s := onMat
    let busy := withEng (eng0 .mzero [0] [(0, 0)] false none)
    let hit := onStr { thread 3 with thr := { async := some { trap := .matrixFault } } }
    let late : State := { onStr { thread 3 with thr := { pends := [{ id := 9, mask := 3, look := 3, wide := false, lanes := [{ lane := 1, q := none, reg := some (.v 3) }], sreg := none }] } } with nextId := 20 }
    goes (.mzero (args (.q 0) (.imm 3) (.q 0))) s (fun c x => c.any && room s c && pan s fun p => tileMaskOk p (c.uni .w64 x.a) && panelKey p == 0) = true ∧
    goes (.mldt { args (.q 0) (.imm 0) (.imm 256) with c := tile 15 }) s (fun c x => c.any && room s c && pan s (fits s (c.uni .w32 x.a) (c.uni .w64 x.b) 256)) = true ∧
    goes (.mstt false { args (.q 0) (.imm 4) (.imm 256) with c := tile 1 }) s (fun c x => pan s (fits s (c.uni .w32 x.a) (c.uni .w64 x.b) 256)) = true ∧
    goes (.mstt true { args (.q 0) (.imm 0) (.imm 128) with c := tile 1 }) s (fun c x => pan s (fits s (c.uni .w32 x.a) (c.uni .w64 x.b) 128)) = true ∧
    goes (.maddt (args (.q 0) (.imm 1) (.imm 1))) s = true ∧
    goes (.mcvt { args (.q 0) (.imm 1) (.imm 2) with c := .sel 0x20 }) s = true ∧
    goes (.mwait (args (.q 0) (.imm 0) (.q 0))) s (fun c _ => c.thr.async.isNone && (s.core 0).eng.isEmpty && s.mstts.isEmpty) = true ∧
    goes (.mwait (args (.q 0) (.imm 1) (.q 0))) busy (fun _ _ => (busy.core 0).eng.any fun e => e.panel == 1 && e.tiles.contains 0) = true ∧
    goes (.mwait (args (.q 0) (.imm 1) (.q 0))) hit (fun c _ => c.thr.async.isSome) = true ∧
    -- OFENCE with no register awaited; with one, issued before it was first tried; with one that a later form awaits
    goes (.ofence plain) s (fun c _ => s.acquired c && pan s fun p => !p.strands.any fun t => t.2.thr.pends.any (s.fillBefore (.str 1 t.1) (ofenceFrom s c))) = true ∧
    (let due (s : State) (n : Nat) (busy : Bool) : Bool := goes (.ofence plain) s fun c _ => s.acquired c && ofenceFrom s c == n &&
       (match s.panel? 1 with
         | some p => p.strands.any (fun t => t.2.thr.pends.any (s.fillBefore (.str 1 t.1) n)) == busy
         | none => false)
     due late 20 true = true ∧ due (late.modThr (.str 1 0) fun t => { t with wait := .ofence 9 }) 9 false = true) := by decide

/-- Colidx 0, rowptr 64, values 128, 1 nonzero block of 1. -/
theorem witness_MatrixFormsEnter_mspc :
    let s := onStr (withS [BitVec.ofNat 64 64, BitVec.ofNat 64 (2 ^ 48 + 2 ^ 32 + 128)])
    goes (.mspc (args (.q 0) (.s 1) (.q 0))) s (fun c x =>
      let l := c.s ((sregOf x.a).getD 0)
      let h := c.s ((sregOf x.a).getD 0 + 1)
      Word.bits l 63 51 == 0 && Word.bits l 31 19 == 0 && Word.bits h 31 19 == 0 && Word.bits h 63 48 == 1 && Word.bits h 47 32 == 1 &&
      Word.bits l 18 0 == 64 && Word.bits h 18 0 == 128) = true := by decide

/-- MLOOP by its own strand, by the bobbin for strand 0, of each scaled kind, and sparse. -/
theorem witness_MatrixFormsEnter_mloop :
    let sp : Sparse := { colidx := 0, rowptr := 64, nnz := 1, nbc := 1, vals := 128 }
    let ok (s : State) (f : MFmt) (reuse : Bool) (c : Cx) (x : Args) : Bool := match s.panel? 1, s.strand? 1 0 with
      | some p, some _ =>
        let b := (sregOf x.b).getD 0
        let w := mctl f (c.s b) (c.s (b + 1))
        let av := match x.a with | .v i => i.toNat | _ => 0
        let r := mloopRange f w p.sparse
        (match c.ex with | .str _ _ => w.aself | _ => !w.aself && p.live.contains w.astr) && b != 63 && w.ksteps != 0 && decide (w.ainc ≤ 39) && w.zero &&
        decide (av + 16 * w.ainc * (w.ksteps - 1) + 15 < p.crec.vregs) && decide (w.asreg + w.asinc * (w.ksteps - 1) < p.crec.vregs) &&
        (!reuse || decide (w.ainc ≠ 0 ∧ w.ksteps ≤ 16)) && (if w.sparse then decide (w.binc = 0) && f != .e2m1 && p.sparse.isSome && decide (w.baddr < 1)
          else w.baddr % 32 == 0 && w.sbaddr % 32 == 0) &&
        decide (0 ≤ r.1) && decide (r.2 ≤ p.spBytes) && (s.opPoison p false r.1.toNat r.2.toNat).isNone &&
        decide (w.ksteps < 8) && s.acquired c
      | _, _ => false
    let op : Args := { args (.q 0) (.v 0) (.s 1) with c := tile 0 }
    goes (.mloop .bf16 false op) onMat (fun c x => ok onMat .bf16 false c x && (groupPend c (.mloop .bf16 false x)).isNone) = true ∧
    -- an A register that a form without a window awaits, and one whose load has failed
    (let late (b : Bool) := onMat.modThr (.str 1 0) fun t =>
       { t with pends := [{ id := 9, mask := if b then 3 else 0, look := 0, wide := false, lanes := [{ lane := 1, q := none, reg := some (.v 0), bad := b }],
                            sreg := none, fail := if b then some { trap := .dataError } else none }] }
     ∀ b ∈ [false, true], goes (.mloop .bf16 false op) (late b) (fun c x => ok (late b) .bf16 false c x && (groupPend c (.mloop .bf16 false x)).isSome) = true) ∧
    goes (.mloop .e2m1 false op) onMat (ok onMat .e2m1 false) = true ∧
    goes (.mloop .e4m3 true op) (onMat (BitVec.ofNat 64 (2 ^ 33 + 2 ^ 26 + 2 ^ 20)))
      (ok (onMat (BitVec.ofNat 64 (2 ^ 33 + 2 ^ 26 + 2 ^ 20))) .e4m3 true) = true ∧
    goes (.mloop .bf16 false op) (onMat (BitVec.ofNat 64 (2 ^ 32 + 2 ^ 20 + 2 ^ 19)) (some sp))
      (ok (onMat (BitVec.ofNat 64 (2 ^ 32 + 2 ^ 20 + 2 ^ 19)) (some sp)) .bf16 false) = true ∧
    goes (.mloop .bf16 false op) (onBob (sregs [BitVec.ofNat 64 (2 ^ 32)])) (ok (onBob (sregs [BitVec.ofNat 64 (2 ^ 32)])) .bf16 false) = true := by decide

theorem witness_MatrixSteps :
    let held : SbEntry := { op := 1, panel := 1, rlo := 0, rhi := 64, wlo := 0, whi := 0, age := 1 }
    let older (s : State) : State := s.modCore 0 fun k => { k with sb := [(0, { op := 1, panel := 1, rlo := 0, rhi := 0, wlo := 0, whi := 64, age := 0 }), (1, held)] }
    let l : Latch := { strand := 0, a := 0, ainc := 0, ksteps := 1, fmt := .bf16, asreg := 0, asinc := 0, slabs := [], scales := [] }
    let start := withEng (eng0 .mzero [0] [(0, 0)] false none)
    let wait := older (withEng (eng0 (.mldt 0 256) [0] [(0, 0)] false (some 1)))
    let go (e : EngEntry) : Bool := match ((withEng e).core 0).eng, (withEng e).panel? e.panel with
      | e1 :: _, some p => e1.running && (e1.steps[e1.step]?).isSome && p.tileBad.isEmpty && SMap.rising p.tiles
      | _, _ => false
    let fin := withEng { eng0 .mzero [0] [(0, 0)] true none with step := 1 }
    let grant (g : Grant) : State := onMat.modCore 0 fun k => { k with grant := g }
    let hot : State := (grant { pending := true }).modDie 0 fun d => { d with throttled := true }
    let held9 : Grant := { granted := true, emptyAt := some 10 }
    ((start.core 0).eng.headD (eng0 .mzero [] [] true none)).running = false ∧ ((wait.core 0).eng.map (·.sb)) = [some 1] ∧ wait.sbOlder 0 1 = true ∧
    go (eng0 (.mloop false l 0 0 0 0 none) [3] [(0, 0)] true none) = true ∧ go (eng0 .mzero [0] [(0, 0)] true none) = true ∧
    go (eng0 (.mldt 0 256) [0] [(0, 0)] true none) = true ∧ go (eng0 (.madd 1 Arith.plain) [0] [(0, 0)] true none) = true ∧
    go (eng0 (.mresc true [(0, 3)]) [0] [(0, 0)] true none) = true ∧ go (eng0 (.mresc false [(63, 3)]) [0] [(0, 0)] true none) = true ∧
    ((fin.core 0).eng.map fun e => decide (e.running = true ∧ e.steps.length ≤ e.step)) = [true] ∧
    (let s : State := { onMat with mstts := [(4, { panel := 1, issuer := .str 1 0, tile := 0, key := 0, sb := 0, bytes := [(0, 4, 1)] })] }
     (SMap.look s.mstts 4).isSome ∧ SMap.rising s.mstts = true ∧ s.mergeWaits (.str 1 0) {} = false ∧
       -- behind a store that a merge ordered before it
       (s.addReq { ex := .str 1 0, op := .store 0, po := { seg := 1 } } .homeL2Access).mergeWaits (.str 1 0) { seg := 2, past := [1] } = true) ∧
    ((grant { pending := true }).core 0).grant.pending = true ∧ ((grant { pending := true }).die 0).throttled = false ∧
    (hot.core 0).grant.pending = true ∧ (hot.die 0).throttled = true ∧
    held9.held = false ∧ held9.granted = true ∧ ({ grant held9 with time := 4010 } : State).time.toNat = 10 + 4000 ∧ ((grant held9).time.toNat < 10 + 4000) := by
  decide

/-! Part G: KV maps, streams and the softmax rows. -/

def kvm : KvMap :=
  { addr := 0x2000, lentab := 0x3000, bidx := 0x3100, pool := 0x4000, reftab := 0x3200, stk := 0x3300, nblk := 1, nseq := 2, maxb := 1, heads := 1,
    hd := 64, es := 1 }
def mapped (s : State) (m : KvMap := kvm) : State := { s with jobs := [(0, { gid := 1, maps := [(0, m)] })] }
/-- The words of a good descriptor, and of one whose last word is not 0. -/
def kvWords (pad : Nat) : State :=
  let w (i v : Nat) (m : List Host.Cell) : List Host.Cell := Memory.write m (0x2000 + 8 * i) 8 v
  let s := mapped (onStr (withS [0x2000, 0xFFFFFFFF00000000, 0, 1]))
  { s with mem := w 7 pad (w 6 (2 + 2 ^ 32 + 2 ^ 58) (w 5 (2 ^ 32) (w 4 0x3300 (w 3 0x3200 (w 2 0x4000 (w 1 0x3100 (w 0 0x3000 s.mem))))))) }

set_option maxRecDepth 8000 in
theorem witness_KvForms_map :
    let good := kvWords 0
    let bad := kvWords 1
    let mg : State := { onMgt 0 { st := .running, thr := { ss := sregs [0x2000] } } with mem := good.mem }
    let f (s : State) (c : Cx) (x : Args) : Option Nat := match (match c.ex with | .mgt _ => s.ctxWords 0 0 (c.uni .w64 x.a) 8 | _ => s.readWords c.ex (c.uni .w64 x.a) 8) with
      | .ok ws => some ((kvDescFault ws).getD 999)
      | .trap _ => none
      | .held => none
      | .miss _ => none
    let ok (s : State) (c : Cx) : Bool := c.any && s.acquired c && s.released c.ex && s.kvs.isEmpty && SMap.rising (s.job 0).maps
    goes (.kvmap (args (.q 0) (.s 1) (.q 0))) good (fun c x => ok good c && !good.notYet c.ex 0x2000 64 && f good c x == some 999) = true ∧
    goes (.kvmap (args (.q 0) (.s 0) (.q 0))) good (fun c x => ok good c && c.uni .w64 x.a == 0) = true ∧
    goes (.kvmap (args (.q 0) (.s 1) (.q 0))) bad (fun c x => ok bad c && f bad c x == some 56 && c.parts != []) = true ∧
    goes (.kvmap (args (.q 0) (.s 1) (.s 0))) mg (fun c x => ok mg c && f mg c x == some 999 && mg.partOk 0 0 (c.uni .w64 x.b) &&
      (mg.ctx 0 0).st == .loaded) = true := by decide

/-- A poisoned entry over bytes of the panel's scratchpad. -/
def poisoned (s : State) (lo hi : Nat) : State :=
  s.modCore 0 fun k => { k with sb := [(5, { op := 1, panel := 1, rlo := 0, rhi := 0, wlo := lo, whi := hi, age := 1, poison := true })] }

set_option maxRecDepth 8000 in
theorem witness_KvForms :
    let s := kvWords 0
    let none' := onStr (withS [0, 0xFFFFFFFF00000000])
    let lane (c : Cx) (x : Args) (n : Nat) : Bool := match s.panel? 1, s.kvMap 0 0 with
      | some p, some m => c.parts.all (fun l => match kvLane p m (c.src .w64 x.a l) (c.src .w32 x.b l) n none with | .ok o => o == c.src .w32 x.b l | _ => false) &&
          c.parts.all (fun l => !s.sbBusy (panelKey p) (p.spadBase * 4096 + c.src .w32 x.b l) (p.spadBase * 4096 + c.src .w32 x.b l + n) 0 0) && p.part == 0
      | _, _ => false
    let stream (s : State) (mg : Bool) (c : Cx) (v : Nat) : Bool := match s.kvMap 0 (s.kvPart c.ex (Word.bits v 30 28)) with
      | some m => (streamFault m mg v).isNone && s.released c.ex
      | none => false
    let mg : State := mapped (onMgt 0 { st := .running, thr := { ss := sregs [0, 1, 2 ^ 63] } })
    (s.core 0).sb = [] ∧ (s.sbFree 0).isSome = true ∧ (mg.ctx 0 0).st = .loaded ∧ mg.partOk 0 0 0 = true ∧
    goes (.kvld { args (.v 3) (.v 4) (.v 2) with c := .s 2 }) s (fun c x => c.any && s.acquired c && lane c x 64 &&
      Word.bits (c.uni .w64 x.c) 31 1 == 0 && c.uni .w64 x.c / 2 ^ 32 == 2 ^ 32 - 1) = true ∧
    goes (.kvapp (args (.q 0) (.v 4) (.v 2))) s (fun c x => c.any && lane c x 128 && s.released c.ex && (match s.panel? 1 with
      | some p => s.pointReady c false 128 (c.parts.map fun l => p.spLoc 1 (c.src .w32 x.b l))
      | none => false)) = true ∧
    (let q := poisoned s 0 16
     goes (.kvapp (args (.q 0) (.v 4) (.v 2))) q (fun c x => c.parts.head? == some 0 && lane c x 128 && (q.sbPoison 0 0 128 0 0).isSome &&
       (q.panel? 1).any (fun p => panelKey p == 0 && p.spadBase == 0)) = true) ∧
    goes (.kvapp (args (.q 0) (.v 4) (.v 2))) none' (fun c _ => (none'.kvMap 0 0).isNone && c.parts != []) = true ∧
    goes (.kvseal { plain with d := .s 5, a := .s 3 }) s (fun c x => stream s false c (c.uni .w64 x.a)) = true ∧
    goes (.kvfork { plain with d := .s 5, a := .s 3, b := .s 4 }) s (fun c x => stream s false c (c.uni .w64 x.a) && stream s false c (c.uni .w64 x.b)) = true ∧
    goes (.kvdrop { plain with d := .s 5, a := .s 3, b := .imm 0 }) s (fun c x => stream s false c (c.uni .w64 x.a) && !Word.bit (c.uni .w64 x.b) 63) = true ∧
    goes (.kvseal { plain with d := .s 5, a := .s 1 }) mg (fun c x => stream mg true c (c.uni .w64 x.a)) = true ∧
    goes (.kvfork { plain with d := .s 5, a := .s 1, b := .s 2 }) mg (fun c x => stream mg true c (c.uni .w64 x.b)) = true ∧
    goes (.kvdrop { plain with d := .s 5, a := .s 1, b := .s 3 }) mg (fun c x => Word.bit (c.uni .w64 x.b) 63 && Word.bits (c.uni .w64 x.b) 62 24 == 0) = true := by decide

theorem witness_KvEventsAndRows_events :
    let r : KvReq := { ex := .str 1 0, pend := 9, lane := 0, die := 0, core := 0, ctx := 0, part := 0, op := .seal 0 }
    let s : State := { mapped onStr with kvs := [(4, r)] }
    let two : State := { s with kvs := [(3, { r with pend := 8 }), (4, r)] }
    let far : State := { mapped onStr { kvm with lentab := 2 ^ 60 } with kvs := [(4, r)] }
    let late : State := { s with kvs := [(4, { r with op := .load 7 0 0 0 true 0 })] }
    let g : Kvld := { panel := 1, who := .str 1 0, key := 0, sb := 0, left := 0, bytes := 64, knot := some (1, 0, 0) }
    let ev (s : State) : Nat := match SMap.look s.kvs 4 with
      | some r => (match s.kvMap r.ctx r.part with
        | some m => if s.engWalkHeld r.die r.core r.ctx m.addr || s.gone (s.kvDie r m) || s.rings.held then 4 else
          (match kvEv { d := s.kvDie r m, k := 0x7F, c := r.ctx } m r.op { s with kvs := SMap.del s.kvs 4 } with
          | .ok _ _ => 1
          | .wait => 2
          | .fail _ _ => 3)
        | none => 0)
      | none => 0
    s.kvReady 4 r = true ∧ ev s = 1 ∧ two.kvReady 4 r = false ∧ far.kvReady 4 r = true ∧ ev far = 3 ∧ ev late = 1 ∧
    SMap.rising (s.core 0).sb = true ∧ (SMap.look ({ s with kvlds := [(7, g)] } : State).kvlds 7).map (fun z => (z.left, z.bad, z.knot)) = some (0, false, some (1, 0, 0)) := by
  decide

theorem witness_KvEventsAndRows :
    let s := onStr (withS [BitVec.ofNat 64 (0x3F800000 * 2 ^ 32 + 64 * 2 ^ 8 + 7), 4])
    (s.strand? 1 0).map (·.lanes.length) = some 32 ∧ (s.core 0).eng = [] ∧
    goes (.role (args (.q 0) (.imm 3) (.q 0))) s (fun c x => c.any && decide (c.uni .w64 x.a < 4)) = true ∧
    goes (.role (args (.q 0) (.imm 4) (.q 0))) s (fun c x => decide (4 ≤ c.uni .w64 x.a) && c.parts != []) = true ∧
    goes (.tmask (args (.q 0) (.imm 64) (.imm 3))) s (fun c x => s.acquired c && decide (c.uni .w64 x.b ≤ 3) && c.uni .w32 x.a % 8 == 0 &&
      (match s.panel? 1 with
        | some p => decide (c.uni .w32 x.a + 512 ≤ p.spBytes) && (s.sbPoison 0 (c.uni .w32 x.a) (c.uni .w32 x.a + 512) 0 0).isNone &&
            !s.sbBusy 0 (c.uni .w32 x.a) (c.uni .w32 x.a + 512) 0 0 && SMap.rising p.masks && s.pointReady c false 512 [p.spLoc 1 64]
        | none => false)) = true ∧
    (let q := poisoned s 64 128
     goes (.tmask (args (.q 0) (.imm 64) (.imm 3))) q (fun c x => c.parts != [] && c.uni .w32 x.a == 64 && (q.sbPoison 0 64 576 0 0).isSome) = true) ∧
    goes (.mrow { args (.v 0) (.imm 15) (.v 6) with c := .s 1 }) s (fun c x =>
      let w := c.uni .w64 x.c
      (match FVal.decode Fmt.f32 (w / 2 ^ 32) with | .fin false _ _ => true | _ => false) && Word.bits w 31 15 == 0 && Word.bits w 14 8 == 64 &&
      Word.bits w 7 3 == 0 && w % 8 == 7 && c.lanes.all (fun l => SMap.rising l.v)) = true ∧
    goes (.mresc { args (.q 0) (.imm 15) (.v 4) with c := .sel 1 }) s (fun c x => x.c == .sel 1) = true := by decide

/-! Part H: collectives and the fabric. S16 to S23 hold a descriptor: COMP 2, words of 4 bytes, source at 0, destination at 64. -/

def collS (w0 : Nat) (two : W64 := 64) (one : W64 := 0) : List W64 :=
  sregs ([one] ++ List.replicate 14 0 ++ [BitVec.ofNat 64 w0, 0, two, 4, 0, 0, 0, 0])
def onColl (w0 : Nat) (two : W64 := 64) : State := onStr { thread 3 with ended := ~~~ 3, thr := { ss := collS w0 two } }
def fabReg (n v : Nat) (s : State) : State := s.modCtx 0 0 fun c => { c with regs := SMap.put c.regs n (BitVec.ofNat 64 v) }
/-- A window of 2 stitch counters from counter 8 on, of which the first reads 5. -/
def withSc (s : State) : State := fabReg 0x3B (2 * 2 ^ 16 + 8) (s.modDie 0 fun d => { d with stitch := [(8, 5)] })

def fabOk (s : State) (c : Cx) : Bool := c.any && s.acquired c && c.thr.async.isNone && s.reqs.isEmpty
def collGood (s : State) (kind : Nat) (c : Cx) (x : Args) : Bool :=
  let ld : LDesc := (List.range 8).map fun n => BitVec.ofNat 64 (c.s ((sregOf x.a).getD 0 + n))
  fabOk s c && soleIssuer s c && (collWordFault kind false ld (match x.b with | .imm _ => true | _ => false)).isNone &&
  (match s.readGroup c.ex 0 0 ld.group, s.panel? 1 with
    | .ok g, some p => !s.groupNotYet c.ex ld.group && (collSizeFault kind g.n (g.rank s.sysNum (s.vdie 0 0 0)) ld).isNone &&
        (collAddrTraps s c.ex kind g.n (g.rank s.sysNum (s.vdie 0 0 0)) ld p).isEmpty && s.colls.isEmpty && s.panelReleased 1 p && s.released c.ex
    | _, _ => false)

theorem witness_FabricForms :
    let s := onColl (2 ^ 31)
    let b : State := onBob (collS (2 ^ 31))
    (s.core 0).sb = [] ∧ (s.sbFree 0).isSome = true ∧ (b.sbFree 0).isSome = true ∧
    goes (.coll .ag { plain with a := .s 16 }) s (collGood s 0) = true ∧ goes (.coll .ar { plain with a := .s 16 }) s (collGood s 2) = true ∧
    goes (.coll .pass { plain with a := .s 16 }) b (collGood b 4) = true ∧ goes (.coll .xch { plain with a := .s 16 }) s (collGood s 5) = true ∧
    goes (.norm { plain with a := .s 16 }) (onColl (2 ^ 31) 0) (collGood (onColl (2 ^ 31) 0) 8) = true ∧
    goes (.coll .ag { plain with a := .s 16 }) (onColl (2 ^ 31 + 16)) (fun c x => soleIssuer (onColl (2 ^ 31 + 16)) c &&
      collWordFault 0 false ((List.range 8).map fun n => BitVec.ofNat 64 (c.s ((sregOf x.a).getD 0 + n))) false == some (0, 4)) = true := by decide

theorem witness_FabricForms_queues :
    let s := fabReg 0x20 (0x3000 + 1) onStr
    let full : State := s.modCtx 0 0 fun c => { c with wi := [(0, 1)] }
    let t := withSc onStr
    let mb := fabReg 0x31 (2 ^ 63 + 7) onStr
    let at5 (s : State) (r : Nat) : Bool := match s.scPlace 0 0 r with | .ok q => s.sc q.1 q.2 == 5 && q == (0, 8) | .error _ => false
    let out (s : State) (r : Nat) : Bool := match s.scPlace 0 0 r with | .ok _ => false | .error _ => true
    goes (.cqrd { args (.s 4) (.imm 15) (.q 0) with d := .s 4 }) s (fun c x => fabOk s c && decide (c.uni .w64 x.a < 16)) = true ∧
    goes (.cqrd (args (.s 4) (.imm 0) (.q 0))) full (fun c _ => fabOk full c && resOk (full.ctxWords 0 0 (full.cqSlot 0 0 0 0) 4) &&
      SMap.lookD (full.ctx 0 0).ri 0 0 != SMap.lookD (full.ctx 0 0).wi 0 0) = true ∧
    goes (.scinc (args (.q 0) (.imm 0) (.imm 9))) t (fun c x => fabOk t c && at5 t (c.uni .w64 x.a) && t.released c.ex) = true ∧
    goes (.scrd (args (.s 3) (.imm 0) (.q 0))) t (fun c x => fabOk t c && at5 t (c.uni .w64 x.a)) = true ∧
    goes (.scwait (args (.q 0) (.imm 0) (.imm 5))) t (fun c x => !t.scFar c.ex 0 && at5 t (c.uni .w64 x.a) && c.uni .w64 x.b == 5) = true ∧
    goes (.scwait (args (.q 0) (.imm 0) (.imm 6))) t (fun c x => at5 t (c.uni .w64 x.a) && c.uni .w64 x.b == 6) = true ∧
    goes (.scinc (args (.q 0) (.imm 2) (.imm 1))) t (fun c x => out t (c.uni .w64 x.a) && c.parts != []) = true ∧
    goes (.scrd (args (.s 3) (.imm 2) (.q 0))) t (fun c x => out t (c.uni .w64 x.a)) = true ∧
    goes (.scwait (args (.q 0) (.imm 2) (.imm 5))) t (fun c x => out t (c.uni .w64 x.a)) = true ∧
    goes (.mbrd (args (.s 3) (.imm 1) (.q 0))) mb (fun c _ => fabOk mb c && (mb.ctxReg 0 0 0x31).getLsbD 63) = true ∧
    goes (.mbrd (args (.s 3) (.imm 7) (.q 0))) mb (fun _ _ => !(mb.ctxReg 0 0 0x37).getLsbD 63) = true ∧
    goes (.vdhop (args (.s 3) (.imm 0) (.imm 0))) onStr (fun c _ => fabOk onStr c && (onStr.dmap 0 0).length == 1) = true ∧
    goes (.vdq (args (.s 3) (.imm 255) (.q 0))) (onMgt 0 { st := .running }) (fun c x => c.uni .w64 x.a == 255 && fabOk (onMgt 0 { st := .running }) c &&
      ((onMgt 0 { st := .running }).ctx 0 0).st == .loaded) = true := by decide

/-- A trigger on counter 0 and one on the time base; a demand of one count at 0x3000; an exchange whose demand is posted. -/
theorem witness_FabricForms_triggers :
    let w0 := 2 ^ 31 + 2 ^ 7 + 2 ^ 8
    let s := withSc (onStr { thread 3 with thr := { ss := collS w0 64 5 } })
    let t := withSc (onStr { thread 3 with thr := { ss := collS w0 64 (BitVec.ofNat 64 (2 ^ 62)) } })
    let ok (s : State) (c : Cx) (x : Args) : Bool :=
      let ld : LDesc := (List.range 8).map fun n => BitVec.ofNat 64 (c.s ((sregOf x.a).getD 0 + n))
      let w := c.s ((sregOf x.b).getD 0)
      fabOk s c && decide (w / 2 ^ 62 ≤ 1) && Word.bits w 61 60 == 0 && Word.bits w 47 35 == 0 && decide (Word.bits w 34 32 ≤ 4) &&
      (w / 2 ^ 62 != 1 || w % 2 ^ 32 == 0) && (w / 2 ^ 62 != 0 || decide (Word.bits w 59 48 < (s.scWin 0 0).2)) &&
      (collWordFault (Word.bits w 34 32) true ld false).isNone && s.released c.ex && ld.comp != 1 &&
      (match s.readGroup c.ex 0 0 ld.group with
        | .ok g => !s.groupNotYet c.ex ld.group && (collSizeFault (Word.bits w 34 32) g.n (g.rank s.sysNum (s.vdie 0 0 0)) ld).isNone
        | _ => false)
    let u := onStr { thread 3 with thr := { ss := collS w0 64 0x3000 } }
    let q : Exch := { ctx := 0, group := 0, tag := 0, pos := 0, pkgs := [0], mask := 1, posts := [(0, [3])] }
    let v : State := { u with exchs := [q] }
    (s.die 0).trigs = [] ∧
    goes (.trig { plain with a := .s 16, b := .s 1 }) s (ok s) = true ∧ goes (.trig { plain with a := .s 16, b := .s 1 }) t (ok t) = true ∧
    goes (.dpost { plain with a := .s 16, b := .s 1 }) u (fun c x => fabOk u c && (match u.readGroup c.ex 0 0 0 with
      | .ok g => g.pkgs == [u.sysNum] && decide (g.n ≤ 4096) && resOk (u.readUnits c.ex (c.uni .w64 x.b) g.n)
      | _ => false) && u.released c.ex && !u.groupNotYet c.ex 0 && !u.notYet c.ex (c.uni .w64 x.b) 4 && u.issuerReleased c.ex) = true ∧
    goes (.lpq { args (.s 4) (.s 16) (.imm 0) with a := .s 16 }) u (fun c _ => fabOk u c && u.exchs.isEmpty) = true ∧
    (let far : State := onStr { thread 3 with thr := { ss := (collS w0 64 0x3000).set 23 (2 ^ 32) } }
     ∀ i ∈ ([.dpost { plain with a := .s 16, b := .s 1 }, .lpq { args (.s 4) (.s 16) (.imm 0) with a := .s 16 }] : List Instr),
       goes i far (fun c x => c.parts != [] && c.s ((sregOf x.a).getD 0 + 7) == 2 ^ 32) = true) ∧
    goes (.lpq { args (.s 4) (.s 16) (.imm 0) with a := .s 16 }) v (fun _ _ => (SMap.look q.posts (q.grp.rank v.sysNum (v.vdie 0 0 0))).isSome) = true := by decide

theorem witness_FabricSteps :
    let d : List W64 := (collS (2 ^ 31)).drop 16
    let z : Coll := { kind := 0, d := d, panel := some 1, slices := [(.str 1 0, 0x1008)], ctx := 0, socket := 0, pkgs := [0], mask := 1, rank := 0 }
    let w (z : Coll) : State := { onStr with colls := [(4, z)] }
    let held : State := (w { z with started := true, sb := some (0, 1) }).modCore 0 fun k => { k with
      sb := [(0, { op := 1, panel := 1, rlo := 0, rhi := 0, wlo := 0, whi := 64, age := 0 }), (1, { op := 4, panel := 1, rlo := 0, rhi := 64, wlo := 0, whi := 0, age := 1 })] }
    let g : Trig := { ctx := 0, time := false, cnt := 8, thresh := 5, kind := 0, d := d, pkgs := [0], mask := 1, rank := 0, order := 3, who := .str 1 0, pc := 0x1008 }
    let trig (g : Trig) : State := (withSc onStr).modDie 0 fun d => { d with trigs := [(2, g)] }
    let inc : State := { trig { g with thresh := 6 } with scIncs := [(7, { ctx := 0, socket := 0, home := 0, cnt := 8, amt := 1 })] }
    z.started = false ∧ (w { z with forced := some 4, started := true }).alive (.str 1 0) (z.since.getD 4) = true ∧ (z.ld.cq = false ∧ z.ld.comp ≠ 0) ∧
    held.sbOlder 0 1 = true ∧ held.endStatus { z with started := true, sb := some (0, 1) } = none ∧
    -- decided; waiting for its turn with its mates' sources read; an element to write; at its end; held with the rings
    (w { z with started := true, forced := some 4 }).endStatus { z with started := true, forced := some 4 } = some 4 ∧
    (let y : Coll := { z with started := true, src := some [[some 7, some 8, some 9, some 10]] }
     (w y).endStatus y = none ∧ (w y).collHeld y = false ∧ (mateAt ((w y).mates y) 0).map (·.src.isSome) = some true ∧ y.pkgs = [(w y).sysNum] ∧
       z.ld.count = 4 ∧ z.grp.n = 1) ∧
    (let y : Coll := { z with started := true, src := some [], out := some [(0, some 7, none)] }
     (w y).endStatus y = none ∧ y.ld.dstG = false ∧ (w y).panel? 1 = some (panelOf (thread 3))) ∧
    (let y : Coll := { z with started := true, src := some [], out := some [(0, some 7, none)], d := d.set 0 (BitVec.ofNat 64 (2 ^ 31 + 2 ^ 7 + 2 ^ 8)) |>.set 2 0x2000 }
     (w y).endStatus y = none ∧ y.ld.dstG = true ∧ (match (w y).engPlace ((w y).collAt y).d ((w y).collAt y).k ((w y).collAt y).c 0x2000 .write with
       | .ok (_, q) => !(w y).unreachable q.pkg && !(w y).engBlocked 0 y.ld.es false q && !(w y).groupBad q && !(w y).engWalkHeld 0 0x7F 0 0x2000
       | .error _ => false) = true) ∧
    (let y : Coll := { z with started := true, src := some [], out := some [] }
     (w y).endStatus y = none ∧ (mateAt ((w y).mates y) 0).map (·.wrote) = some true) ∧
    (let y : Coll := { z with started := true, mask := 3 }
     ({ w y with rings := { held := true } } : State).collHeld y = true) ∧
    -- a counter of a lost die, and one in reach
    (let l : State := inc.modDie 0 fun d => { d with lost := true }
     l.gone 0 = true ∧ inc.gone 0 = false) ∧
    (SMap.look inc.scIncs 7).isSome = true ∧ SMap.rising (inc.die 0).stitch = true ∧ (5 + 1 : Nat) = 6 ∧
    (trig g).trigDue 0 g = true ∧ (trig { g with thresh := 6 }).trigDue 0 { g with thresh := 6 } = false ∧ SMap.rising ((trig g).die 0).trigs = true := by decide

theorem witness_FabricSteps_exchange :
    let d : List W64 := (collS (2 ^ 31)).drop 16
    let q (b : Nat × Bool) : Exch := { ctx := 0, group := 0, tag := 0, pos := 0, pkgs := [0], mask := 1, posts := [(0, [3])], phases := some [[]], begun := [(0, b)] }
    let z : Coll := { kind := 5, d := d, ctx := 0, socket := 0, pkgs := [0], mask := 1, rank := 0, started := true, src := some [] }
    let s (b : Nat × Bool) : State := { onStr with colls := [(4, z)], exchs := [q b] }
    let ok (b : Nat × Bool) : Bool := ((s b).exchs.find? (fun q => q.ctx == z.ctx && q.group == z.ld.group && q.tag == z.ld.tag && q.pos == z.seq)) == some (q b) &&
      !(s b).spans (q b) && (SMap.look (q b).posts z.rank).isSome
    ok (1, true) = true ∧ ok (0, false) = true ∧
    (let s : State := { onStr with demands := [(3, { ctx := 0, socket := 0, group := 0, tag := 0, pos := 0, pkgs := [0], mask := 1, rank := 0, counts := [3] })] }
     (SMap.look s.demands 3).isSome = true ∧ s.exchs = [] ∧ s.rings.held = false ∧
       ({ s with rings := { s.rings with held := true } } : State).rings.held = true) ∧
    -- one exchange in progress is taken over
    ((s (1, true)).exchs = [q (1, true)] ∧ (s (1, true)).spans (q (1, true)) = false ∧ (q (1, true)).isOver = false ∧ (s (1, true)).arb.standby = true) ∧
    -- one that spans packages
    (let far : Exch := { q (1, true) with pkgs := [0, 5], mask := 3 }
     let y : State := { onStr with exchs := [far] }
     y.arb.crossPrimary = true ∧ y.spans far = true ∧ far.isOver = false ∧ far.phases.isSome = true) ∧
    (16 ≤ 16 ∧ State.reset.portsLost = [] ∧ SMap.rising State.reset.retries = true) ∧
    -- the rings hold, and a die's mailbox has rung meanwhile
    (let r : State := { onStr with rings := { held := true }, rung := [3] }
     r.rings.held = true ∧ 3 ∈ r.rung ∧ (r.dies.map (·.1)).contains 0 = true) ∧
    State.reset.arb.standby = true ∧ ({ State.reset with arb := { standby := false, failed := true } } : State).arb.failed = true ∧
    State.reset.arb.crossPrimary = true ∧ State.reset.arb.crossStandby = true ∧
    ({ State.reset with arb := { crossStandby := false } } : State).arb.crossPrimary = true := by decide

/-! Part I: scheduling. S1 and S2 hold what a test gives, S4 to S7 a continuation record. -/

def shapeW (sp : Nat) : W64 := BitVec.ofNat 64 (sp * 2 ^ 40 + 16 * 2 ^ 28)
def rec1 (sp : Nat) : Rec := { hdr := 0x1100, frame := 0, join := 0, shape := shapeW sp }
def onRec (one : W64 := 0x3000) (sp : Nat := 1) : State := onStr (withS [one, 0, 0, 0x1100, 0, 0, shapeW sp])
/-- The descriptor of a garment of 3 panels at 0x3000. -/
def garmentMem (n : Nat) (m : List Host.Cell) : List Host.Cell := Memory.write (Memory.write (Memory.write m 0x3000 8 0x1100) 0x3018 8 (shapeW 1).toNat) 0x3020 8 n
def withGarment (s : State) : State := { s with jobs := [(0, { gid := 5, garments := [(0, { live := 2 })] })] }
def fabQ (s : State) (toks : List W32) : State := fabReg 0x3C (2 ^ 16) (s.modDie 0 fun d => { d with tokens := [(0, toks)] })

theorem witness_SchedulingForms :
    let s := withGarment onRec
    let full : State := s.modDie 0 fun d => { d with rings := [(3, List.replicate 16 { crec := rec1 1, garment := 0 })] }
    let bad := onRec 0x3000 129
    let ok (s : State) (c : Cx) : Bool := c.any && s.acquired c && c.thr.async.isNone
    let fork : Args := { args (.q 0) (.s 4) (.imm 3) with a := .s 4 }
    goes (.fork fork) s (fun c x => ok s c && decide (c.uni .w64 x.b ≤ 3) && (recFault (recAt c x.a)).isNone && !s.ringFull 0 0 0 3) = true ∧
    goes (.fork fork) full (fun c x => ok full c && (recFault (recAt c x.a)).isNone && full.ringFull 0 0 0 3) = true ∧
    goes (.fork fork) bad (fun c x => ok bad c && recFault (recAt c x.a) == some (3, 40) && c.parts != []) = true ∧
    goes (.jctr { args (.q 0) (.s 1) (.imm 1) with c := .s 4 }) s (fun c x => ok s c && c.uni .w64 x.b % 2 ^ 32 != 0 && c.uni .w64 x.a % 64 == 0 &&
      (match s.placeOf c.ex (c.uni .w64 x.a) .write with
        | .ok (_, some pl) => s.reqs.isEmpty && s.kvs.isEmpty && !s.unreachable pl.pkg && !s.engBlocked 0 64 false pl && !s.groupBad pl && !Word.bit (s.readAt pl 8) 33
        | _ => false)) = true ∧
    goes (.yield plain) onStr (fun c _ => ok onStr c && (onStr.strand? 1 0).map (·.yieldAt) == some none) = true ∧
    (let y := onStr { thread 3 with yieldAt := some 9 }
     goes (.yield plain) y (fun c _ => ok y c && (match y.strand? 1 0 with
      | some z => z.yieldAt.isSome && !z.saving && (State.slotOf z (!c.slotB)).isNone
      | none => false)) = true) ∧
    goes (.prio (args (.q 0) (.imm 3) (.q 0))) s (fun c x => ok s c && c.uni .w64 x.a == 3) = true ∧
    goes (.prio (args (.q 0) (.imm 4) (.q 0))) s (fun c x => c.uni .w64 x.a == 4 && c.parts != []) = true ∧
    goes (.srd (args (.v 3) (.imm 0) (.q 0))) s (fun c x => (s.identity c (sregOf x.d).isSome (c.uni .w64 x.a) c.low).isSome) = true ∧
    goes (.srd (args (.s 3) (.imm 0) (.q 0))) s (fun c x => (s.identity c (sregOf x.d).isSome (c.uni .w64 x.a) c.low).isNone && c.parts != []) = true ∧
    Memory.wf s.mem = true := by decide

/-- The four words of a record written at a ring's first place. -/
def forkWords (s : State) (c : Cx) : EngS Unit :=
  let w : EngAt := { d := 0, k := 0x7F, c := 0 }
  let va := s.ringVa 0 0 0 3 0
  ((((s.advance c).wr w va 8 0x1100).bind fun s1 _ => s1.wr w (va + 8) 8 0).bind fun s2 _ => s2.wr w (va + 16) 8 0).bind
    fun s3 _ => s3.wr w (va + 24) 8 (shapeW 1).toNat

set_option maxRecDepth 8000 in
theorem witness_SchedulingForms_fork :
    let s := withGarment onRec
    let fork : Args := { args (.q 0) (.s 4) (.imm 3) with a := .s 4 }
    let off := fabReg 0x3E 0 s
    let wait : State := { s with rings := { held := true } }.modDie 0 fun d => { d with lost := true }
    let w : EngAt := { d := 0, k := 0x7F, c := 0 }
    goes (.fork fork) s (fun c _ => match forkWords s c with | .ok _ _ => true | .wait => false | .fail _ _ => false) = true ∧
    goes (.fork fork) off (fun c _ => match forkWords off c with | .fail _ _ => true | .ok _ _ => false | .wait => false) = true ∧
    goes (.fork fork) wait (fun c x => c.any && !wait.ringFull 0 0 0 3 &&
      (match forkWords wait c with | .wait => true | .ok _ _ => false | .fail _ _ => false)) = true ∧
    onStr.engWalkHeld 0 0x7F 0 0x3000 = false ∧ Memory.wf onStr.mem = true ∧
    (match onStr.engPlace w.d w.k w.c 0x3000 .write with
      | .ok (_, q) => !onStr.unreachable q.pkg && !onStr.engBlocked 0 8 false q && !onStr.groupBad q
      | .error _ => false) = true := by decide

set_option maxRecDepth 8000 in
theorem witness_SchedulingForms_lnch :
    let s (n : Nat) : State := { onRec with mem := garmentMem n onStr.mem }
    let g : State := { onMgt 0 { st := .running, thr := { ss := sregs [0x3000] } } with mem := garmentMem 3 onStr.mem }
    let ok (s : State) (f : Option (Nat × Nat)) (c : Cx) (x : Args) : Bool := c.any && s.acquired c && c.uni .w64 x.a % 8 == 0 && !s.notYet c.ex 0x3000 64 && s.pointReady c false 0 [] && c.parts != [] &&
      (match s.readWords c.ex (c.uni .w64 x.a) 8 with | .ok ws => garmentFault s 0 0 ws == f | _ => false)
    goes (.lnch { args (.q 0) (.s 1) (.q 0) with d := .s 3 }) (s 3) (ok (s 3) none) = true ∧
    goes (.lnch { args (.q 0) (.s 1) (.q 0) with d := .s 3 }) (s 0) (ok (s 0) (some (4, 0))) = true ∧
    goes (.lnch { args (.q 0) (.s 1) (.q 0) with d := .s 3 }) g (fun c x => ok g none c x && (g.ctx 0 0).st == .loaded) = true := by decide

theorem witness_SchedulingForms_queues :
    let s := fabQ onStr [7, 8]
    let e := fabQ onStr []
    let f := fabQ onStr (List.replicate 1024 0)
    let q (s : State) (r : Nat) : Option (Nat × Nat) := s.tokenQueue 0 0 r
    -- two virtual dies, while the rings are held
    let far : State := { fabReg 1 (2 ^ 31 + 1) (fabReg 0 (2 ^ 31) s) with rings := { held := true } }
    s.rings.held = false ∧ SMap.rising (s.die 0).tokens = true ∧ q s 1 = none ∧
    goes (.qpush (args (.q 0) (.imm 0x100) (.imm 1))) far (fun c x => q far (c.uni .w64 x.a) == some (1, 0) && c.any) = true ∧
    goes (.qpop (args (.s 3) (.imm 0x100) (.q 0))) far (fun c x => q far (c.uni .w64 x.a) == some (1, 0) && c.any) = true ∧
    goes (.qpush (args (.q 0) (.imm 0) (.v 1))) s (fun c x => c.any && !uniform x.b && c.parts == [0, 1] && q s (c.uni .w64 x.a) == some (0, 0) && s.released c.ex) = true ∧
    goes (.qpush (args (.q 0) (.imm 0) (.imm 1))) f (fun c x => uniform x.b && q f (c.uni .w64 x.a) == some (0, 0) && c.any) = true ∧
    goes (.qpush (args (.q 0) (.imm 1) (.imm 1))) s (fun c x => (q s (c.uni .w64 x.a)).isNone && c.parts != []) = true ∧
    goes (.qpop (args (.v 3) (.imm 0) (.q 0))) s (fun c x => c.parts == [0, 1] && (sregOf x.d).isNone && q s (c.uni .w64 x.a) == some (0, 0)) = true ∧
    goes (.qpop (args (.s 3) (.imm 0) (.q 0))) e (fun c x => (sregOf x.d).isSome && q e (c.uni .w64 x.a) == some (0, 0) && c.any) = true ∧
    goes (.qpop (args (.v 3) (.imm 1) (.q 0))) s (fun c x => (q s (c.uni .w64 x.a)).isNone && c.parts != []) = true := by decide

/-- A record in a ring, its head fitting a core; too big for any. -/
def ringed (sp : Nat) : State := onStr.modDie 0 fun d => { d with rings := [(0, [{ crec := rec1 sp, garment := 0 }])] }

theorem witness_PlacementSteps :
    let best (s : State) : Nat := match State.bestCand (s.candidates 0) with
      | some (.unit _ _ _ u at') => if at'.isEmpty then 1 else 2 + u.crec.nstr
      | some (.resume _) => 10
      | some (.strand _ _) => 11
      | none => 12
    let out := onStr { thread 3 with out := true }
    let held : State := onStr.modDie 0 fun d => { d with held := [{ ctx := 0, part := 0, level := 0, unit := { crec := rec1 1, garment := 0 } }] }
    let lost : State := onStr.modDie 3 fun d => { d with lost := true }
    -- its record lies in memory, whose channel trains
    let far : State := ((ringed 1).modDie 0 fun d => { d with rings := [(0, [{ crec := rec1 1, garment := 0, slot := some 0 }])] }).setDev 0x20 0x10000 1
    lost.gone 3 = true ∧ far.gone 0 = false ∧ far.headHeld 0 = true ∧ (ringed 1).gone 0 = false ∧ (ringed 1).headHeld 0 = false ∧
    (match (ringed 1).entriesOk 0 0 (rec1 1) with | .ok g => g | _ => false) = true ∧
    (match (ringed 1).entriesOk 0 0 { rec1 1 with hdr := 0x1200 } with | .ok g => !g | _ => false) = true ∧
    SMap.rising ((ringed 1).die 0).rings = true ∧ best (ringed 1) = 3 ∧ best (ringed 129) = 1 ∧ best out = 11 ∧
    (held.die 0).held.findIdx? (fun z => (held.ctx 0 z.ctx).st == .loaded && !held.ringFull 0 z.ctx z.part z.level) = some 0 ∧
    onStr.starvedRings 0 = [] ∧ (onStr.ctx 0 0).wdLimit = 0 ∧ (onStr.ctx 0 0).st ≠ .saving := by decide

/-- A saved panel that waits for a core; a partition of PRIO 1 that owns no group but reaches group 0, with a record that fits core 0
once the strand there leaves. -/
def awayPanel : State := { onStr.modPanel 1 (fun p => { p with core := none }) with jobs := [(0, { resume := [1] })] }
def pressed : State :=
  fabReg 0x11 (2 ^ 63 + 2 ^ 54 + 2 ^ 10) (onStr.modDie 0 fun d =>
    { d with rings := [(4, [{ crec := { rec1 1 with shape := BitVec.ofNat 64 (2 ^ 40 + 80 * 2 ^ 28 + 11 * 2 ^ 23) }, garment := 0 }])] })

theorem witness_PlacementSteps_others :
    (match State.bestCand (awayPanel.candidates 0) with | some (.resume xs) => xs == [(1, 0, 0)] | _ => false) = true ∧
    awayPanel.gone 0 = false ∧ awayPanel.headHeld 0 = false ∧
    pressed.starvedRings 0 = [(0, 1, 0)] ∧ (pressed.headOf 0 0 1 0).isSome = true ∧
    (let w := pressed.part 0 0 1
     Word.bit (partReach w) (0 / 8) = true ∧
     (match pressed.headOf 0 0 1 0 with
       | some u => (match pressed.choose' 0 0 u.crec (partPrio w) with | some (vs, b) => !b && vs.length == 1 | none => false)
       | none => false) = true) := by decide

theorem witness_PlacementSteps_complete :
    let p0 := { panelOf { thread 3 with isOver := true } with bob := { pos := { pc := 0x1008, kind := .inside 0x1000 0x403 }, isOver := true } }
    let s (j : W64) (n : Nat) : State := withGarment (box (.str 1 0) { p0 with crec := { p0.crec with join := j }, joined := n })
    let ok (s : State) : Bool := match s.panel? 1 with
      | some p => !p.done && p.live.isEmpty && p.bob.isOver && p.records == 0 && s.panelIdle 1 p && p.swatch.isNone &&
          (match s.garmentSub p.die p.ctx p.garment p.status with | some u => SMap.rising u.panels | none => false)
      | none => false
    let odd : State := { onStr with joins := [(7, { ctx := 0, socket := 0, addr := 0x3008, panel := some 1 })] }
    SMap.look odd.joins 7 = some { ctx := 0, socket := 0, addr := 0x3008, panel := some 1 } ∧ (odd.panel? 1).isSome = true ∧
    let join (v : Nat) : State := { onStr with mem := Memory.write onStr.mem 0x3000 8 v, joins := [(7, { ctx := 0, socket := 0, addr := 0x3000, panel := none })] }
    let jok (s : State) : Bool := match ({ s with joins := SMap.del s.joins 7 } : State).engPlace 0 0x7F 0 0x3000 .both with
      | .ok (_, pl) => !s.unreachable pl.pkg && !({ s with joins := SMap.del s.joins 7 } : State).engBlocked 0 8 true pl && !s.groupBad pl &&
          !({ s with joins := SMap.del s.joins 7 } : State).engWalkHeld 0 0x7F 0 0x3000 && Word.bit (s.readAt pl 8) 33 && s.readAt pl 8 % 2 ^ 32 != 0 && Memory.wf s.mem && pl.pkg == s.pkg
      | _ => false
    ok (s 0 0) = true ∧ (match (join (2 ^ 33 + 1)).engPlace 0 0x7F 0 0x3000 .both with | .ok (_, pl) => !(join (2 ^ 33 + 1)).badIn pl 8 | _ => false) = true ∧ ok (s 0x40 0) = true ∧ ok (s 0x40 2) = true ∧ jok (join (2 ^ 33 + 1)) = true ∧ jok (join (2 ^ 33 + 2)) = true ∧
    (onStr.panel? 1).map (·.live) = some [0] ∧ (onStr.panel? 1).map State.mustLeave = some false ∧
    -- a bobbin that has ended beside a saved strand, and an evicted one without a strand
    (∀ q ∈ [{ panelOf { thread 3 with out := true } with bob := { (panelOf (thread 3)).bob with isOver := true } },
        { panelOf { thread 3 with isOver := true } with bob := { (panelOf (thread 3)).bob with evict := true } }],
      q.core.isSome = true ∧ q.leaving = false ∧ q.killed = false ∧ q.done = false ∧ q.swatch = none ∧
      (∀ t ∈ q.strands, t.2.isOver = true ∨ t.2.out = true) ∧
      (q.bob.isOver = true ∧ (∃ t ∈ q.strands, t.2.isOver = false ∧ t.2.out = true) ∨ q.bob.isOver = false ∧ q.bob.evict = true)) := by decide

theorem witness_PlacementSteps_saves :
    let z (sv : Bool) (y : Option W64) : State := onStr { thread 3 with saving := sv, yieldAt := y }
    let busy : State := { z true none with kvs := [(3, { ex := .str 1 0, pend := 0, lane := 0, die := 0, core := 0, ctx := 0, part := 0, op := .seal 0 })] }
    let leave (s : State) : State := s.modPanel 1 fun p => { p with leaving := true }
    let lq (s : State) : Option Bool := (s.panel? 1).map fun p => s.panelQuiet 1 p && s.settled 1 p
    let r : SpawnRec := { tgt := 0x1100, v := [], q := [], o := [], p := 0 }
    let flush : State := (onStr { thread 3 with isOver := true }).modPanel 1 fun p => { p with spawn := [r] }
    let start : State := (onStr { thread 3 with isOver := true }).modPanel 1 fun p => { p with groups := [[r]] }
    -- a BRSP that waits for room while no group is formed; a strand that runs
    let crowd (w : Waiting) : State := onStr { thread 3 with thr := { wait := w } } |>.modPanel 1 fun p => { p with spawn := [r] }
    let alive (s : State) : Option (Bool × Bool × Bool) := (s.panel? 1).map fun p =>
      let xs := (p.strands.map (·.2)).filter fun t => !t.isOver
      ((fullestGroup p.spawn).isSome && p.groups.isEmpty, xs.any fun t => t.waits.any p.lacksRoom, xs.all fun t => t.waits.isEmpty)
    let wd (n : Nat) : State := { onStr.modCtx 0 0 fun c => { c with wdLimit := 100 } with time := BitVec.ofNat 64 n }
    -- a cooperative save; a saved panel whose two scoreboard entries find room
    (let co : State := onStr { thread 3 with saving := true, coop := some (4, 3) }
     co.quiet (.str 1 0) = true ∧ ({} : Lane).q.length = 16 ∧ SMap.rising ({} : Lane).v = true ∧ (co.strand? 1 0).map (·.lanes.length) = some 32) ∧
    (let e : SavedEntry := { op := 1, rlo := 0, rhi := 8, wlo := 0, whi := 0, poison := false }
     let s : State := awayPanel.modPanel 1 fun p => { p with saved := [e, { e with poison := true }] }
     (match State.bestCand (s.candidates 0) with | some (.resume xs) => xs == [(1, 0, 0)] | _ => false) = true ∧ SMap.rising (s.core 0).sb = true ∧
       2 ≤ s.sbRoom 0) ∧
    (z true none).quiet (.str 1 0) = true ∧ busy.quiet (.str 1 0) = false ∧ ((z false (some 9)).time.toNat < 9) ∧
    ((z false (some 0)).time.toNat ≥ (0 : W64).toNat) ∧
    lq (leave onStr) = some true ∧ lq (leave busy) = some false ∧
    (flush.panel? 1).map (fun p => (fullestGroup p.spawn, p.killed)) = some (some 0x1100, false) ∧
    (start.panel? 1).map (fun p => (start.strandRoom p 1, p.leaving, p.groups.length, (SMap.look p.strands 1).isNone)) = some (true, false, 1, true) ∧
    alive (crowd (.brsp 2100)) = some (true, true, false) ∧ alive (crowd .none) = some (true, false, false) ∧
    (thread 3).waits = [Waiting.none] ∧
    ({ wd 99 with panels := [] } : State).watched 0 0 = false ∧ (wd 99).watched 0 0 = true ∧ ((wd 99).time.toNat < (wd 99).lastProgress 0 0 + 100) ∧ ((wd 100).lastProgress 0 0 + 100 ≤ (wd 100).time.toNat) ∧
    (wd 100).saveRuns 0 0 = false ∧ (wd 100).ctxDies 0 0 = [0] ∧
    (let w : State := (wd 100).modCtx 0 0 fun c => { c with st := .saving }
     w.saveRuns 0 0 = true ∧ w.lastProgress 0 0 + 100 ≤ w.time.toNat) ∧ ((wd 0).ctx 0 0).st = .loaded := by decide

theorem witness_PlacementSteps_room :
    let out : State := roomy (onStr { thread 3 with saving := true })
    let leave : State := (roomy onStr).modPanel 1 fun p => { p with leaving := true }
    out.quiet (.str 1 0) = true ∧ out.roomFor (.str 1 0) 3 1 = true ∧
    ∀ p, leave.panel? 1 = some p → (leave.panelQuiet 1 p && leave.settled 1 p) = true ∧
      leave.areaRoom p.die p.ctx [(4, 1), (3, (p.strands.filter fun t => !t.2.isOver && !t.2.out).length)] = true :=
  ⟨by decide, roomy_room (by decide) (by decide) (by decide),
    fun p h => by cases h; exact ⟨by decide, roomy_room2 (by decide) (by decide) (by decide) (by decide)⟩⟩

/-- A save whose image lies in a package that is not there: no word is written. -/
theorem image_far (s : State) (h : s.pkg = 0) (hd : s.domain = []) (ha : (s.ctx 0 0).saveAt.toNat = 2 ^ 42) :
    ∃ u, s.writeImage 0 0 false 0 = some u := by
  have far (t : State) (h : t.pkg = 0) (hd : t.domain = []) (i : Nat) (hi : i < 8192) : t.resolveMod (2 ^ 42 + 8 * i) = .range := by
    have : Word.bits (2 ^ 42 + 8 * i) 47 42 = 1 := by simp only [Word.bits]; omega
    have ne : (SMap.look t.domain 1).isSome = false := by rw [hd]; rfl
    unfold State.resolveMod
    rw [this, h]
    dsimp only
    rw [ne]
    rfl
  have keep (f : Option State → Nat → Option State) (t : State) (n : Nat) (h : ∀ i, i < n → f (some t) i = some t) :
      (List.range n).foldl f (some t) = some t := by
    induction n with
    | zero => rfl
    | succ n ih =>
      rw [List.range_succ, List.foldl_append, ih fun i hi => h i (Nat.lt_succ_of_lt hi)]
      exact h n (Nat.lt_succ_self n)
  unfold State.writeImage
  simp only [ha]
  refine ⟨_, keep _ _ _ fun i hi => ?_⟩
  split
  · next he => cases he
  · next s1 he =>
    cases he
    split
    · next q hq => cases (far _ (by exact h) (by exact hd) i hi).symm.trans hq
    · rfl
    · rfl

theorem witness_PlacementSteps_image :
    let s : State := { State.reset.placeCtx.modCtx 0 0 (fun c => { c with st := .saving, saveAt := 2 ^ 42 }) with panels := [] }
    (s.ctx 0 0).st = .saving ∧ (s.panels.any fun p => p.2.ctx == 0 && p.2.die == 0 && p.2.core.isSome && !p.2.done) = false ∧
    ∃ u, s.writeImage 0 0 false 0 = some u := ⟨by decide, rfl, image_far _ rfl rfl (by decide)⟩

/-! Part J: traps, windows and system forms. -/

/-- Management core 0 with a parked table of one entry, strand 0 of panel 1, and S1. -/
def parkedAt (cl : Bool) : ParkEntry := { ex := .str 1 0, claimed := cl, order := 4 }
def onWin (one : W64) (win : Option Nat) (cl : Bool := true) (t : Strand := thread 3) (g : Mgt := {}) : State :=
  let s : State := (onMgt 0 { g with st := .running, window := win.map fun i => (i, 4), thr := { ss := sregs [one] } }).modDie 0 fun d => { d with parked := [(3, parkedAt cl)] }
  s.modStrand 1 0 fun _ => t

theorem witness_TrapsAndHandlers :
    let v (n : Nat) (c : Cx) (x : Args) : Bool := c.any && c.uni .w64 x.a == n
    goes (.trap (args (.q 0) (.imm 255) (.q 0))) onStr (v 255) = true ∧ goes (.bkpt (args (.q 0) (.imm 0) (.q 0))) onBob (v 0) = true ∧
    goes (.svc (args (.q 0) (.imm 255) (.q 0))) onStr (v 255) = true ∧ goes (.trap (args (.q 0) (.imm 256) (.q 0))) onStr (v 256) = true ∧
    goes (.bkpt (args (.q 0) (.imm 256) (.q 0))) onStr (v 256) = true ∧ goes (.svc (args (.q 0) (.imm 256) (.q 0))) onBob (v 256) = true ∧
    goes (.halt plain) onMgt (fun c _ => c.any) = true ∧
    -- helper lanes alone
    (∀ i ∈ ([.trap (args (.q 0) (.imm 255) (.q 0)), .bkpt (args (.q 0) (.imm 0) (.q 0)), .svc (args (.q 0) (.imm 256) (.q 0))] : List Instr),
      goes i (onStr { thread 3 with helper := 3 }) (fun c _ => c.any && c.parts == []) = true) := by decide

theorem witness_TrapsAndHandlers_dwin :
    let all : W64 := BitVec.allOnes 64
    let h : W64 := BitVec.ofNat 64 (handleOf 3 (parkedAt true))
    let go (s : State) (p : Nat → Bool) : Bool := goes (.dwin { args (.s 3) (.s 1) (.q 0) with d := .s 3 }) s fun c x =>
      c.any && s.acquired c && c.thr.async.isNone && (s.mgt 0).thr.ss.length == 64 && p (c.uni .w64 x.a)
    go (onWin all none) (fun v => v == 2 ^ 64 - 1 && (((onWin all none).die 0).parked.all fun e => e.2.claimed)) = true ∧
    go (onWin all none false) (fun v => v == 2 ^ 64 - 1 && ((onWin all none false).die 0).parked == [(3, parkedAt false)]) = true ∧
    go (onWin h none) (fun v => v != 2 ^ 64 - 1 && (((onWin h none).die 0).parked.find? (fun z => handleOf z.1 z.2 == v)) == some (3, parkedAt true)) = true ∧
    go (onWin 7 none) (fun v => (((onWin 7 none).die 0).parked.find? (fun z => handleOf z.1 z.2 == v)).isNone) = true := by decide

theorem witness_TrapsAndHandlers_tret :
    let go (s : State) (p : Nat → Bool) : Bool := goes (.tret { args (.s 3) (.s 1) (.q 0) with d := .s 3 }) s fun c x => c.any && s.acquired c && p (c.uni .w64 x.a)
    let win (s : State) : Bool := match s.openWin 0 with
      | some (3, e) => e.ex == .str 1 0 && !s.winSaving e.ex && (s.strand? 1 0).isSome
      | _ => false
    let broken : Strand := { thread 3 with ended := 1 }
    let intrap := onWin 3 none true (thread 3) { intrap := true }
    go intrap (fun v => v == 3 && (intrap.mgt 0).intrap) = true ∧ go (onWin 3 none) (fun v => v == 3 && !((onWin 3 none).mgt 0).intrap) = true ∧
    go (onWin 2 none) (fun v => decide (v < 3) && ((onWin 2 none).openWin 0).isNone) = true ∧
    go (onWin 0 (some 3) true broken) (fun v => v == 0 && win (onWin 0 (some 3) true broken) && !resumable broken) = true ∧
    go (onWin 0 (some 3)) (fun v => v == 0 && win (onWin 0 (some 3)) && resumable (thread 3) &&
      (onWin 0 (some 3)).released (.mgt 0) && SMap.rising ((onWin 0 (some 3)).die 0).parked) = true ∧
    go (onWin 1 (some 3)) (fun v => v == 1 && win (onWin 1 (some 3))) = true ∧ go (onWin 2 (some 3)) (fun v => v == 2 && win (onWin 2 (some 3))) = true ∧
    go (onWin 4 none) (fun v => v == 4) = true := by decide

theorem witness_TrapsAndHandlers_steps :
    let k : Park := { info := { trap := .storeError }, pc := 0x1008, kind := .async, slotB := false, more := 0 }
    let s : State := onStr { thread 3 with thr := { park := some k } }
    let busy : State := s.addReq { ex := .str 1 0, op := .store 0, n := 4 } .homeL2Access
    let w := onWin 0 (some 3) true (thread 3) { wsel := BitVec.ofNat 64 (3 * 2 ^ 28 + 2 ^ 16) }
    (s.thr (.str 1 0)).park = some k ∧ k.place = .draining ∧ s.released (.str 1 0) = true ∧ busy.released (.str 1 0) = false ∧
    ((onWin 0 (some 3)).openWin 0).isSome = true ∧ (w.winItem (.str 1 0) 0xF0000000F0000000).isNone = true := by decide

/-- A window on S5 of its strand. -/
theorem witness_TrapsAndHandlers_window :
    let sel : W64 := BitVec.ofNat 64 (3 * 2 ^ 28 + 5 * 2 ^ 16)
    selArea sel = 3 ∧ selIndex sel = 5 ∧ ((onWin 0 (some 3)).winItem (.str 1 0) sel).isSome = true ∧
    ((onWin 0 (some 3)).strand? 1 0).map (·.thr.ss.length) = some 64 := by decide

theorem witness_SystemForms :
    let tm : State := { onStr { thread 3 with thr := { ss := sregs [9] } } with time := 9 }
    let hit : State := onStr { thread 3 with thr := { ss := sregs [9], async := some { trap := .storeError } } }
    let low : State := onStr { thread 3 with thr := { ss := sregs [9] } }
    let sr (n : Nat) (c : Cx) (x : Args) : Bool := c.any && c.uni .w64 x.a == n
    onStr.reqs = [] ∧
    goes (.syrd (args (.s 3) (.imm 0x48) (.q 0))) onStr (sr 0x48) = true ∧ goes (.syrd (args (.s 3) (.imm 0x49) (.q 0))) onStr (sr 0x49) = true ∧
    goes (.syrd (args (.s 3) (.imm 0x80) (.q 0))) onStr (fun c x => sr 0x80 c x && !sysReach c.ex false 0x80) = true ∧
    goes (.sywr (args (.q 0) (.imm 0x41) (.imm 0))) onMgt (fun c _ => !sysReach c.ex true 0x41) = true ∧
    goes (.time (args (.s 3) (.q 0) (.q 0))) onStr = true ∧
    goes (.waitt (args (.q 0) (.s 1) (.q 0))) tm (fun c x => sr 9 c x && tm.time.toNat == 9) = true ∧
    goes (.waitt (args (.q 0) (.s 1) (.q 0))) low (fun c x => sr 9 c x && low.time.toNat == 0 && c.thr.async.isNone) = true ∧
    goes (.waitt (args (.q 0) (.s 1) (.q 0))) hit (fun c _ => c.thr.async.isSome) = true ∧
    goes (.pwreq (args (.q 0) (.imm 1) (.q 0))) onStr (fun c x => sr 1 c x && decide ((powerCore onStr c x.b).2 ≤ 79)) = true ∧
    goes (.pwreq (args (.q 0) (.imm 0) (.q 0))) onBob (sr 0) = true ∧ goes (.pwreq (args (.q 0) (.imm 2) (.q 0))) onStr (sr 2) = true ∧
    goes (.pwreq (args (.q 0) (.imm 0) (.imm 80))) onMgt (fun c x => sr 0 c x && decide (79 < (powerCore onMgt c x.b).2)) = true ∧
    goes (.pwrq (args (.s 3) (.q 0) (.q 0))) (onMgt 16) (fun c x => c.any && decide (16 ≤ (powerCore (onMgt 16) c x.a).1)) = true ∧
    goes (.pwrq (args (.s 3) (.q 0) (.q 0))) onStr (fun c x => c.any && decide ((powerCore onStr c x.a).1 < 16 ∧ (powerCore onStr c x.a).2 ≤ 79)) = true := by decide

theorem witness_SystemForms_registers :
    let slot (st : CtxSt) : State := onMgt.modCtx 0 0 fun c => { c with st := st }
    let go (i : Instr) (s : State) (n : Nat) : Bool := goes i s fun c x => c.any && c.uni .w64 x.a == n
    let w := onWin 0 (some 3) true (thread 3) { wsel := 0 }
    go (.syrd (args (.s 3) (.imm 0x80) (.q 0))) onMgt 0x80 = true ∧ sysReach (.mgt 0) false 0x80 = true ∧
    go (.syrd (args (.s 3) (.imm 0xC6) (.q 0))) w 0xC6 = true ∧ (w.openWin 0).map (·.1) = some 3 ∧ w.winWaits (.str 1 0) 0 = false ∧
    go (.sywr (args (.q 0) (.imm 0x40) (.imm 1))) (slot .free) 0x40 = true ∧ go (.sywr (args (.q 0) (.imm 0) (.imm 1))) (slot .preparing) 0 = true ∧
    ctxAnyMask 0x10 = 0 ∧ go (.sywr (args (.q 0) (.imm 0x10) (.imm 1))) (slot .loaded) 0x10 = true ∧
    ([0x80, 0x82, 0x83, 0x85, 0x86].all fun n => sysReach (.mgt 0) true n && go (.sywr (args (.q 0) (.imm (BitVec.ofNat 36 n)) (.imm 1))) onMgt n) = true := by decide

theorem witness_SystemForms_contexts :
    let slot (st : CtxSt) (one : W64 := 0) (q : Option Nat := none) : State :=
      (onMgt 0 { st := .running, thr := { ss := sregs [one] }, tlbi := q }).modCtx 0 0 fun c => { c with st := st }
    let go (i : Instr) (s : State) (f : Cx → Args → Bool := fun _ _ => true) : Bool := goes i s fun c x => c.any && s.acquired c && s.released c.ex && f c x
    let noMap : State := (slot .preparing).modCtx 0 0 fun c => { c with regs := [] }
    let noPart : State := (slot .preparing).modCtx 0 0 fun c => { c with regs := SMap.put c.regs 0x10 0 }
    let cs (b : Opnd) : Instr := .ctxs { args (.s 3) (.s 1) b with d := .s 3 }
    let late : State := (slot .loaded 0 (some 99)).addReq { ex := .str 1 0, op := .store 0, n := 4, va := 0 } .homeL2Access
    go (.tlbi { args (.q 0) (.s 1) (.imm 1) with a := .s 1 }) (slot .loaded) (fun _ _ => (((slot .loaded).mgt 0).tlbi).isNone) = true ∧
    go (.tlbi { args (.q 0) (.s 1) (.imm 1) with a := .s 1 }) late (fun c x => late.tlbBusy 0 (c.uni .w64 x.a) (c.uni .w64 x.b) 99) = true ∧
    go (.tlbi { args (.q 0) (.s 1) (.imm 1) with a := .s 1 }) (slot .saved 0 (some 0)) (fun c x => !(slot .saved 0 (some 0)).tlbBusy 0 (c.uni .w64 x.a) (c.uni .w64 x.b) 0) = true ∧
    (let far : State := { slot .loaded with rings := { held := true } }
     far.dmap 0 0 = [0] ∧ (fabReg 1 (2 ^ 31 + 1) (fabReg 0 (2 ^ 31) far)).dmap 0 0 = [0, 1] ∧
     go (.tlbi { args (.q 0) (.s 1) (.imm 1) with a := .s 1 }) (fabReg 1 (2 ^ 31 + 1) (fabReg 0 (2 ^ 31) far)) = true) ∧
    go (.ctxl (args (.s 3) (.imm 7) (.q 0))) (slot .ended) = true ∧
    go (.ctxl (args (.s 3) (.imm 7) (.q 0))) (slot .saved) (fun _ _ => ((slot .saved).imageAt 7).isNone) = true ∧
    go (.ctxl (args (.s 3) (.imm 0) (.q 0))) (slot .preparing) (fun _ _ => (slot .preparing).mapOk 0 0 && (slot .preparing).partsOk 0 0) = true ∧
    go (.ctxl (args (.s 3) (.imm 0) (.q 0))) noMap (fun _ _ => !noMap.mapOk 0 0) = true ∧
    go (.ctxl (args (.s 3) (.imm 0) (.q 0))) noPart (fun _ _ => noPart.mapOk 0 0 && !noPart.partsOk 0 0) = true ∧
    go (.ctxl (args (.s 3) (.imm 0) (.q 0))) (slot .ended) = true ∧
    go (cs (.imm 0)) (slot .loaded 0x10000) (fun c x => c.uni .w64 x.a % 2 ^ 16 == 0) = true ∧ go (cs (.imm 1)) (slot .saving) = true ∧
    go (cs (.imm 2)) (slot .ended) (fun _ _ => SMap.rising ((slot .ended).die 0).ctxs) = true ∧ go (cs (.imm 0)) (slot .free) = true ∧
    go (cs (.imm 1)) (slot .free) = true ∧ go (cs (.imm 2)) (slot .loaded) = true ∧ go (cs (.imm 3)) (slot .loaded) = true ∧
    go (cs (.imm 2)) (slot .ended 8) (fun c x => c.uni .w64 x.a % 2 ^ 16 == 8) = true ∧
    go (.wdog { args (.s 3) (.s 1) (.q 0) with d := .s 3 }) (slot .free 1000) = true := by decide

theorem witness_SystemForms_time : State.reset.ptp.length = 4 := rfl

/-- WDOG on a package management core, for a slot that is PREPARING on the one die it names. -/
theorem witness_SystemForms_wdog :
    let s : State := (onMgt 16 { st := .running, thr := { ss := sregs [1000] } }).modCtx 0 0 fun c => { c with st := .preparing }
    goes (.wdog { args (.s 3) (.s 1) (.q 0) with d := .s 3 }) s (fun c _ => c.any) = true ∧
    (List.range 16).find? (fun e => (s.ctx e 0).st != .free) = some 0 ∧ s.dmap 0 0 = [0] ∧ s.rings.held = false := by decide

/-- The words of an image at 0x10000. -/
def imgMem (w : Nat → Nat) (n : Nat) : List Host.Cell := (List.range n).foldl (fun m i => Memory.write m (0x10000 + 8 * i) 8 (w i)) []

theorem imgMem_reads (w : Nat → Nat) (n : Nat) : Memory.wf (imgMem w n) = true ∧
    ∀ i, i < n → Memory.read (imgMem w n) (0x10000 + 8 * i) 8 = w i % 256 ^ 8 := by
  induction n with
  | zero => exact ⟨rfl, fun i h => absurd h (Nat.not_lt_zero i)⟩
  | succ n ih =>
    have e : imgMem w (n + 1) = Memory.write (imgMem w n) (0x10000 + 8 * n) 8 (w n) := by
      unfold imgMem
      rw [List.range_succ, List.foldl_append]
      rfl
    rw [e]
    refine ⟨Memory.wf_write 8 _ _ ih.1, fun i hi => ?_⟩
    by_cases h : i = n
    · rw [h]
      exact Memory.read_write_same 8 _ _ ih.1
    · rw [Memory.read_write_other 8 _ (by omega) ih.1]
      exact ih.2 i (by omega)

/-- A saved slot whose image stands in memory, n words of it, and the CTXL that loads it. -/
def anImage : Image := { slot := 0, vdie := 0, latched := false, head := 5, ctx := {}, gid := 0, tokens := [], panels := [1] }
def imaged (n : Nat) : State :=
  let s := (onMgt 0 { st := .running, thr := { ss := sregs [0x10000] } }).modCtx 0 0 fun c => { c with st := .saved }
  { s with images := [(1, anImage)], mem := imgMem (fun i => if i = 0 then 5 else Config.imageWord 1 i) n }

theorem imaged_place (n i : Nat) (hi : i < 8192) :
    (imaged n).resolveMod (0x10000 + 8 * i) = .at' { pkg := 0, socket := 0, vd := 0, byte := 0x10000 + 8 * i } := by
  have h1 : Word.bits (0x10000 + 8 * i) 47 42 = 0 := by simp only [Word.bits, Nat.shiftRight_eq_div_pow]; omega
  have h2 : Word.bits (0x10000 + 8 * i) 40 0 = 0x10000 + 8 * i := by simp only [Word.bits, Nat.shiftRight_eq_div_pow]; omega
  have h3 : Word.bit (0x10000 + 8 * i) 41 = false := Nat.testBit_lt_two_pow (by omega)
  have h4 : (0x10000 + 8 * i) / 2 ^ 37 = 0 := by omega
  have h5 : (0x10000 + 8 * i) % 2 ^ 37 = 0x10000 + 8 * i := by omega
  have h6 : resolveIn (List.range 16) 0 (0x10000 + 8 * i) = some { pkg := 0, socket := 0, vd := 0, byte := 0x10000 + 8 * i } := by
    unfold resolveIn homeOf
    simp only [h2, h3, h4, h5, List.length_range]
    rw [if_neg (by omega)]
    rfl
  have hp : (imaged n).pkg = 0 := rfl
  have hd : ((imaged n).die 0).lost = false ∧ ((imaged n).die 0).off = false := ⟨rfl, rfl⟩
  unfold State.resolveMod
  simp only [h1, hp, h6, hd.1, hd.2, Bool.or_self, Bool.and_false, true_or, Bool.true_or, if_true, decide_true, Bool.false_eq_true, if_false]

theorem imaged_at (n : Nat) (hn : 8192 ≤ n) : (imaged n).imageAt 0x10000 = some anImage := by
  have hi : (imaged n).images = [(1, anImage)] := rfl
  have hh : anImage.head = 5 := rfl
  unfold State.imageAt
  dsimp only
  rw [hi, List.find?_cons_of_pos]
  · rfl
  · rw [List.all_eq_true]
    intro i hm
    have h := List.mem_range.mp hm
    have hb : (imaged n).groupBad { pkg := 0, socket := 0, vd := 0, byte := 0x10000 + 8 * i } = false := rfl
    have hr : (imaged n).readAt { pkg := 0, socket := 0, vd := 0, byte := 0x10000 + 8 * i } 8 =
        (if i = 0 then 5 else Config.imageWord 1 i) % 256 ^ 8 := by
      have hk : (imaged n).mem = imgMem (fun i => if i = 0 then 5 else Config.imageWord 1 i) n := rfl
      unfold State.readAt Place.key
      rw [hk, Nat.zero_mul, Nat.zero_mul, Nat.zero_add]
      exact (imgMem_reads _ n).2 i (Nat.lt_of_lt_of_le h hn)
    simp only [imaged_place n i h, hb, hr, hh, if_false, Bool.false_eq_true]
    by_cases h0 : i = 0
    · subst h0; decide
    · simp only [h0, if_false]
      exact beq_self_eq_true _

theorem witness_SystemForms_image : ∃ z, (imaged 8192).imageAt 0x10000 = some z ∧ z.slot = 0 ∧ z.vdie = 0 ∧ z.latched = false ∧ 1 ∈ z.panels :=
  ⟨anImage, imaged_at 8192 (Nat.le_refl _), rfl, rfl, rfl, by decide⟩

theorem witness_SystemForms_image_issues : (imaged 8192).vdie 0 0 0 = 0 ∧ ((imaged 8192).ctx 0 0).st = .saved ∧
    ((imaged 8192).panel? 1).isSome = true ∧
    goes (.ctxl (args (.s 3) (.s 1) (.q 0))) (imaged 8192) (fun c x => c.any && c.uni .w64 x.a == 0x10000) = true := by decide

/-! Part K: devices, the host, and the invariants. -/

theorem witness_DeviceSteps :
    let up := State.reset.setDev 0x20 0x10000 1
    let run : State := { up.setDev 0x20 0x10008 2 with tests := [(devKey 0x20 0x10000, (1, 2, 3))] }
    let msg := State.reset.setDev 0x10 0x1000 7
    let two : State := { State.reset with stage := 2, trained := (List.range 1023).map fun i => i + 1 }
    SMap.rising up.devRegs = true ∧ SMap.rising run.devRegs = true ∧ SMap.rising msg.devRegs = true ∧ State.reset.dev 0x20 0x10000 ≠ 1 ∧
    up.dev 0x20 0x10000 = 1 ∧ Word.bit (up.dev 0x20 0x10008) 1 = false ∧ Word.bit (run.dev 0x20 0x10008) 1 = true ∧
    SMap.look run.tests (devKey 0x20 0x10000) = some (1, 2, 3) ∧ SMap.rising run.tests = true ∧ SMap.look up.tests (devKey 0x20 0x10000) = none ∧
    State.reset.dev 0x10 0x1040 = State.reset.dev 0x10 0x1070 ∧ msg.dev 0x10 0x1000 ≠ msg.dev 0x10 0x1030 ∧ msg.dev 0x10 0x3008 < 2 ^ 32 - 1 ∧
    -- a free mailbox of another die while the rings hold
    (let r : State := { State.reset with rings := { held := true } }
     r.rings.held = true ∧ r.dev 0x10 0x1040 = r.dev 0x10 0x1070 ∧ SMap.rising r.devRegs = true) ∧
    two.stage = 2 ∧ ({ up with tested := [devKey 0x20 0x10000] } : State).trainedNow 0x20 0 = true ∧ up.trainedNow 0x20 0 = false ∧ State.reset.trainedNow 0x20 0 = false ∧ run.trainedNow 0x20 0 = false ∧
    -- repairs of a lane in each half, of the first of each half's neighbours, and of none
    (Word.bit (0x80 + 32) 7 = true ∧ 32 ≤ Word.bits (0x80 + 32) 6 0) ∧ (Word.bit (0x8000 + 31 * 2 ^ 8) 15 = true ∧ Word.bits (0x8000 + 31 * 2 ^ 8) 14 8 < 32) ∧
    (Word.bit 0xA09F 7 = true ∧ Word.bits 0xA09F 6 0 < 32 ∧ Word.bit 0xA09F 15 = true ∧ 32 ≤ Word.bits 0xA09F 14 8 ∧ Word.bits 0xA09F 14 8 < 64) := by decide

/-- A mailbox message with a command and its first word. -/
def mailed (m cmd a : Nat) (s : State) : State :=
  let b := 0x1000 + 64 * m
  (((s.setDev 0x10 b 1).setDev 0x10 (b + 4) (cmd * 2 ^ 24)).setDev 0x10 (b + 8) a).setDev 0x10 (b + 16) 0x8000
def booted : State := { onMgt with stage := 2 }

theorem witness_HostSteps_boot :
    let len (n : Nat) : State := { State.reset with stage := 1, bootLen := n }
    State.reset.romWaits = true ∧ booted.romWaits = false ∧ (len 0).off = false ∧ (len 0).imgErr (fun i => Memory.byte (len 0).image i) 0 ≠ 0 ∧
    State.reset.stage = 0 ∧ ({ State.reset with off := true } : State).off = true ∧ booted.off = false ∧ Memory.wf State.reset.image = true ∧
    Memory.wf State.reset.mem = true := by decide

theorem witness_HostSteps_agent : State.reset.agent = true ∧ State.reset.stage = 0 ∧ booted.agent = true ∧ booted.stage = 2 ∧ booted.agentHeld 0 .write (groupPieces 0x3000 4) = false ∧
    ({ booted with rings := { held := true } } : State).agentHeld 0 .write (groupPieces 0x3000 4) = true ∧
    booted.devThere 0x10 0x2000 = true ∧ booted.devThere 0x10 0x3FFC = false ∧ booted.agentDie 0 = 0 ∧
    (match booted.engPlace 0 0x7F 0 0x3000 .write with | .ok (_, p) => !booted.groupBad p | .error _ => false) = true := by decide

theorem witness_HostSteps_commands :
    let ok (s : State) (m cmd : Nat) : Bool := s.mboxBusy m && s.mboxCmd m == cmd && SMap.rising s.devRegs && Memory.wf s.mem
    let sel (s : State) : State := s.modMgt 0 fun g => { g with ctxsel := 0 }
    let launch : State := { mailed 0 1 0x3000 booted with mem := garmentMem 3 onStr.mem }
    ok (mailed 0 5 0 booted) 0 5 = true ∧ ok (mailed 0 1 4 booted) 0 1 = true ∧ ((mailed 0 1 4 booted).ctx 0 0).st = .loaded ∧
    (mailed 0 1 4 booted).mboxWord 0 1 % 8 ≠ 0 ∧ (booted.ctx 0 1).st = .free ∧ ok launch 0 1 = true ∧
    (match (sel launch).readWords (.mgt 0) 0x3000 8 with | .ok ws => (garmentFault (sel launch) 0 0 ws).isNone | _ => false) = true ∧
    (sel launch).notYet (.mgt 0) 0x3000 64 = false ∧
    -- a place that cannot be reached yet, one that is none, a bad descriptor, units for another die, and a mailbox while the rings are held
    (let s := launch.setDev 0x20 0x28000 1
     ok s 0 1 = true ∧ (sel s).notYet (.mgt 0) 0x3000 64 = true) ∧
    (let s := mailed 0 1 (2 ^ 48) booted
     ok s 0 1 = true ∧ (sel s).notYet (.mgt 0) (2 ^ 48) 64 = false ∧
       (match (sel s).readWords (.mgt 0) (2 ^ 48) 8 with | .trap _ => true | _ => false) = true) ∧
    (let s : State := { mailed 0 1 0x3000 booted with mem := garmentMem 0 onStr.mem }
     ok s 0 1 = true ∧ (sel s).notYet (.mgt 0) 0x3000 64 = false ∧
       (match (sel s).readWords (.mgt 0) 0x3000 8 with | .ok ws => (garmentFault (sel s) 0 0 ws).isSome | _ => false) = true) ∧
    (let s0 : State := fabReg 1 (2 ^ 31 + 1) (fabReg 0 (2 ^ 31) launch)
     let s : State := s0
     ok { s0 with rings := { s0.rings with held := true } } 0 1 = true ∧ launch.rings.held = false ∧
     ok s 0 1 = true ∧ (sel s).notYet (.mgt 0) 0x3000 64 = false ∧
       (match (sel s).readWords (.mgt 0) 0x3000 8 with
        | .ok ws => (garmentFault (sel s) 0 0 ws).isNone && (sel s).launchDies 0 0 ws == [0, 1]
        | _ => false) = true) := by decide

set_option maxRecDepth 8000 in
theorem witness_HostSteps_package :
    let ok (s : State) (cmd : Nat) : Bool := s.mboxBusy 16 && s.mboxCmd 16 == cmd && SMap.rising s.devRegs && Memory.wf s.mem
    let quote := mailed 16 2 0x3000 booted
    let far := mailed 16 2 (2 ^ 48) booted
    let certs := (mailed 16 3 0x3000 booted).setDev 0x10 0x1410 0
    let shuttle := mailed 16 4 0x3000 (booted.modCtx 0 0 fun c => { c with st := .free })
    let held : State := { quote with rings := { held := true } }
    ok quote 2 = true ∧ (quote.getBytes 0x3000 32).isSome = true ∧ quote.placed (quote.mboxWord 16 2) 192 = true ∧
    quote.rangeHeld 0x3000 32 true = false ∧ quote.rangeHeld (quote.mboxWord 16 2) 192 false = false ∧
    ok held 2 = true ∧ (held.rangeHeld (held.mboxWord 16 1) 32 true || held.rangeHeld (held.mboxWord 16 2) 192 false) = true ∧
    ok far 2 = true ∧ (far.getBytes (far.mboxWord 16 1) 32).isNone = true ∧ far.rangeHeld (far.mboxWord 16 1) 32 true = false ∧
    far.rangeHeld (far.mboxWord 16 2) 192 false = false ∧
    ok certs 3 = true ∧ certs.mboxWord 16 2 = 0 ∧ certs.rangeHeld (certs.mboxWord 16 1) 0 false = false ∧
    ok (mailed 16 4 0x3000 booted) 4 = true ∧ (booted.ctx 0 0).st = .loaded ∧
    ok shuttle 4 = true ∧ (List.range 16).all (fun d => (List.range 16).all fun c => (shuttle.ctx d c).st != .loaded) = true ∧
    shuttle.rangeHeld 0x3000 256 true = false ∧
    (match shuttle.getBytes 0x3000 256 with
      | some h => imgLe (fun i => h.getD i 0) 16 8 == 0 && !shuttle.rangeHeld 0x3000 0 true && (shuttle.getBytes 0x3000 0).isSome
      | none => false) = true ∧
    ok (mailed 16 9 0 booted) 9 = true := by decide

/-- The certificates cut to no byte at all. -/
theorem witness_HostSteps_certs (s : State) : (s.certs.take 0).length = 0 := rfl

/-- A load of 40 bytes from 0x3000 into the share, and its last step; while a kernel runs, while a channel trains, and from nowhere. -/
theorem witness_HostSteps_spool :
    let s := fabReg 0x38 (16 * 2 ^ 16) ({ onMgt with panels := [] })
    let w := (s.ctxReg 0 0 0x38).toNat
    let reads (s : State) (a : Nat) : Nat := match s.engRead 0 0x7F 0 a 32 true with
      | .ok s1 _ => if Memory.wf (s1.die 0).spool then 1 else 0
      | .wait => 2
      | .fail _ _ => 3
    reads s 0x3000 = 1 ∧ min 40 (32 - 0x3000 % 32) = 32 ∧ reads (s.setDev 0x20 0x10000 1) 0x3000 = 2 ∧ reads s (2 ^ 40) = 3 ∧
    s.kernelRuns 0 = false ∧ s.panels = [] ∧ (s.job 0).garments = [] ∧ s.dies.all (fun d => d.2.rings.isEmpty && d.2.held.isEmpty) = true ∧
    (Word.bits w 11 0 * 65536 ≤ 0 ∧ 0 + 40 ≤ min (Word.bits w 28 16) 4096 * 65536) ∧ s.gone 0 = false ∧ (s.modDie 0 fun d => { d with lost := true }).gone 0 = true ∧
    (s.ctx 0 0).st = .loaded ∧ (onMgt.panels.any fun p => p.2.ctx == 0 && !p.2.done) = true ∧ (onMgt.ctx 0 3).st ≠ .loaded := by decide

theorem witness_HostSteps_losses :
    let cut : State := { onStr with rings := { chain := some ((List.range 18).map fun i => (5 + 1 + i) % 18) } }
    (onStr.die 0).lost = false ∧ onStr.rings.chain = none ∧ (onStr.dmap 0 0) = [0] ∧ (onStr.ctx 0 0).st = .loaded ∧
    ((onStr.modDie 2 fun d => { d with lost := true }).die 2).lost = true ∧
    ((9, 10) ∈ List.zip ((List.range 18).map fun i => (5 + 1 + i) % 18) (((List.range 18).map fun i => (5 + 1 + i) % 18).drop 1)) ∧ cut.rings.split = false ∧
    -- a stop at an end of a chain, IOD-E's at one too, and stops inside one
    (let cutAt (k : Nat) : State := { onStr with rings := { chain := some ((List.range 17).map fun i => (k + i) % 18) } }
     (∀ x ∈ ([(cutAt (ringPos 0), ringPos 0), (cutAt (ringPos 0 + 2), ringPos 0), (cutAt 9, 9), (cutAt 11, 9)] : List (State × Nat)), x.1.rings.split = false ∧
       x.1.rings.chain.any (fun ch => ch.contains x.2 && (ch.head? == some x.2 || ch.getLast? == some x.2)) = true) ∧
     ∀ k ∈ [ringPos 0, 9], cut.rings.chain.any (fun ch => ch.contains k && !(ch.head? == some k || ch.getLast? == some k)) = true) ∧
    (onStr.die 16).lost = false ∧ (onStr.die 17).lost = false ∧
    (let h := onStr.modCore 0 fun k => { k with grant := { standing := [1] } }
     (SMap.look h.cores 0).map (fun q => (q.grant.held, q.grant.granted)) = some (true, false)) := by decide

theorem witness_MemoryCanonical : onStr.memOk := by unfold State.memOk; decide

theorem witness_MemoryCanonical_step : ∃ t, step { onStr with agenda := [.heartbeat] } = .next t := ⟨_, rfl⟩

theorem witness_EveryStepCompletes : SMap.rising onStr.panels = true ∧ (∀ e ∈ onStr.panels, SMap.rising e.2.strands = true) ∧ onStr.stepsOnly :=
  ⟨by decide, by decide, fun _ h => by rcases h with h | h <;> cases h⟩

/-! Single steps against values worked out in the spec's examples or by hand from a rule. -/

/-- A strand of lanes 0 and 1 whose O1 and O2 hold given words in both. -/
def twoO (a b : W32) : State :=
  let l : Lane := { o := [0, a, b] ++ List.replicate 5 0 }
  onStr { thread 3 with lanes := l :: l :: List.replicate 30 {} }
/-- V3 of lane 1 after an instruction, and the newest queue value. -/
def v3 (i : Instr) (s : State) (v : W32) : Bool := nexts (exec i s) fun t => (t.strand? 1 0).any fun z => (z.lanes.getD 1 {}).vAt 3 == v && (z.lanes.getD 1 {}).qAt 0 == v &&
  (z.lanes.getD 2 {}).vAt 3 == 0
def o12 : Args := args (.v 3) (.o 1) (.o 2)

/-- The carry-less products and bit fields of R135's table. -/
theorem test_clmul : v3 (.clmul .w32 o12) (twoO 0x80000000 0x80000003) 0x80000000 = true := by decide
theorem test_clmulh : v3 (.clmulh .w32 o12) (twoO 0x80000000 0x80000003) 0x40000001 = true := by decide
theorem test_bfx_field : v3 (.bfx .s32 o12) (twoO 0xF30 0x408) 0xFFFFFFFF = true := by decide
theorem test_bfx_top : v3 (.bfx .s32 o12) (twoO 0xF30 0x41E) 0 = true := by decide
/-- One step of the CRC-32 fold (chapter 16). -/
theorem test_crc_reduce : v3 (.clmulh .w32 o12) (twoO 0xFFFFFFFF 0x04D101DF) 0x03B0FF4A = true := by decide
theorem test_crc_fold : v3 (.clmul .w32 o12) (twoO 0xFC4F00B5 0x04C11DB7) 0xC704DD7B = true := by decide
theorem test_brev : v3 (.brev .w32 o12) (twoO 0xC704DD7B 0) 0xDEBB20E3 = true := by decide

/-- Arithmetic that wraps, and that saturates (R132). -/
theorem test_iadd_wraps : v3 (.iadd .w32 o12) (twoO 0x7FFFFFFF 1) 0x80000000 = true := by decide
theorem test_iadd_sati : v3 (.iadd .w32 (sati o12)) (twoO 0x7FFFFFFF 1) 0x7FFFFFFF = true := by decide

/-- 1.5 · 2 + 1.5 is 4.5, and a sum midway between two values goes to the even one (R152). -/
theorem test_ffma : v3 (.ffma .f32 { o12 with c := .o 1 }) (twoO 0x3FC00000 0x40000000) 0x40900000 = true := by decide
theorem test_fadd_even : v3 (.fadd .f32 o12) (twoO 0x3F800000 0x33800000) 0x3F800000 = true := by decide

/-- MXSC.E2M1.F32 of a strand whose largest magnitude is 23.25, and CVT.E2M1.F32 of 1.875 (chapter 6). -/
theorem test_mxsc : v3 (.mxsc { o12 with c := .sel 0x60 }) (twoO 0x41BA0000 0) 0x81 = true := by decide
theorem test_cvt_e2m1 : v3 (.cvt { o12 with c := .sel 0x60 }) (twoO 0x3FF00000 0) 4 = true := by decide

/-- SHFL.DOWN by 16 from a lane that is not active reads 0 (R143). -/
theorem test_shfl_inactive : v3 (.shfl .down { o12 with b := .imm 16 }) (twoO 10 0) 0 = true := by decide

/-- The worked example of R17: a segment wrap takes 2 hops to 16, and renumbers the chain. -/
theorem test_ring_wrap : State.reset.hops 2 4 = 2 ∧ nexts (exec (.ringSegmentLoss 3) State.reset) (fun t => t.hops 2 4 == 16 && t.hops 3 0 == 15) = true := by
  decide

/-- The worked example of R29: interleaved OFFSET 0x2C5234 with 16 and with 14 virtual dies. -/
def dies (n : Nat) : State := (List.range n).foldl (fun s v => s.modCtx 0 0 fun c => { c with regs := SMap.put c.regs v (BitVec.ofNat 64 (2 ^ 31 + v)) }) State.reset
theorem test_interleave :
    (match (dies 16).resolveCtx 0 0 (2 ^ 41 + 0x2C5234) with | .at' p => p.socket == 1 && p.byte == 0x2D234 | _ => false) = true ∧
    (match (dies 14).resolveCtx 0 0 (2 ^ 41 + 0x2C5234) with | .at' p => p.socket == 9 && p.byte == 0x31234 | _ => false) = true := by decide

/-- The worked example of SPRQ: bank 11 at 1,234,567 ns. -/
theorem test_sprq : (nexts (exec (.sprq (args (.v 3) (.o 1) (.q 0))) { twoO 0xB00 0 with time := 1234567 }) fun t =>
    t.reqs.map (fun r => (r.2.lane, r.2.st)) == [(0, .data 0x0D69000B none), (1, .data 0x0D69000B none)]) = true := by decide

/-- CTRL of the object of the worked example of R376. -/
theorem test_join_object : joinObject 5 0 1 3 (rec1 2) % 2 ^ 64 = 0x0000050600000003 := by decide

/-- TRAP parks its strand at its address; a management core's trap goes to SY.MVEC with SY.MEPC at the instruction (R385, R390). -/
theorem test_trap_parks : nexts (exec (.trap (args (.q 0) (.imm 7) (.q 0))) onStr) (fun t => (t.thr (.str 1 0)).park.any fun k =>
    k.info.trap == .trap && k.info.d0 == 7 && k.pc == 0x1008) = true := by decide
theorem test_management_trap : nexts (exec (.prio plain) (onMgt 0 { st := .running, mvec := 0x1200 })) (fun t =>
    (t.mgt 0).intrap && (t.mgt 0).mepc == 0x1008 && (t.mgt 0).pos.pc == 0x1200) = true := by decide

/-- A store reaches its home: byte order is little-endian (R3). -/
theorem test_store_bytes :
    let s := mem1.addReq { ex := .str 1 0, op := .store 0x04030201, n := 4, place := some { pkg := 0, socket := 0, vd := 0, byte := 0x2000 } } .homeL2Access
    (nexts (exec (.homeL2Access 2) s) fun t => Memory.byte t.mem 0x2000 == 1 && Memory.byte t.mem 0x2003 == 4) = true := by decide

/-- A placed EXIT ends its strand in one step from reset (log 4). -/
theorem test_first_step : nexts (step (State.reset.withFetchWord 64 0x7025)) (fun t => t.panels.all fun p => p.2.strands.all fun z => z.2.isOver) = true := by decide

/-- A store to the Spool traps where only helper lanes are active (R185, R190). -/
theorem test_st_spool_helpers : nexts (exec (.st .spool .b32 (args (.q 0) (.s 1) (.v 1))) (onStr { withS [0x10] with helper := 3 })) (fun t =>
    (t.thr (.str 1 0)).park.any fun k => k.info.trap == .spoolStore) = true := by decide

/-- A release FENCE waits for a store of its slot's own segment, and not for one that the sibling slot sent (R206, R225). -/
theorem test_fence_lineage :
    let sent (seg : Nat) : State := (onStr { thread 3 with segs := 3 }).addReq { ex := .str 1 0, op := .store 0, n := 4, po := { seg := seg } } .homeL2Access
    let pc (seg : Nat) : Out → Bool := fun o => nexts o fun t => t.posOf (.str 1 0) false == some (if seg = 0 then { pc := 0x1008, kind := .inside 0x1000 0x403 }
      else { pc := 0x1010, kind := .inside 0x1000 0x403 })
    ∀ seg ∈ [0, 2], pc seg (exec (.fence { plain with mp := .inline 3 }) (sent seg)) = true := by decide

/-- BRX sends the lanes of the least target, and the others issue it again (R105). -/
theorem test_brx_least :
    let u : Strand := { thread 3 with lanes := { v := [(2, 0x1180)] } :: { v := [(2, 0x1100)] } :: List.replicate 30 {} }
    let w : State := { onStr u with mem := Memory.write (onStr u).mem 0x1180 8 (3 + 4 * 4 + 2 ^ 31 + 2 ^ 48 + 2 ^ 49) }
    nexts (exec (.brx (args (.q 0) (.v 2) (.q 0))) w) (fun t => (t.strand? 1 0).any fun z =>
      z.a.any (fun x => x.mask == 1 && x.pos.pc == 0x1008) && z.b.any (fun x => x.mask == 2 && x.pos.pc == 0x1100) && z.join == .atExit) = true := by decide

/-- HOSTMB of another die waits for the rings, and comes as they open (R19, R424). -/
theorem test_doorbell_rings :
    let r : State := { State.reset with rings := { held := true } }
    nexts (exec (.doorbell 3) r) (fun t => (t.mgt 3).mevent == 0 && nexts (exec .ringReopen t) fun u => (u.mgt 3).mevent == 0x20) = true := by decide

/-- CTXS mode 1 accepts no slot that is PREPARING, and no mode an address inside 64 KiB (R414). -/
theorem test_ctxs_traps :
    let m (st : CtxSt) (a : W64) (b : BitVec 36) : Out := exec (.ctxs { args (.s 3) (.s 1) (.imm b) with d := .s 3 })
      ((onMgt 0 { st := .running, thr := { ss := sregs [a] } }).modCtx 0 0 fun c => { c with st := st })
    nexts (m .preparing 0 1) (fun t => (t.mgt 0).intrap && (t.mgt 0).mcause.toNat % 256 == Trap.ctxState.code && (t.mgt 0).mdet == 1) = true ∧
    nexts (m .loaded 8 0) (fun t => (t.mgt 0).intrap && (t.mgt 0).mcause.toNat % 256 == Trap.misaligned.code && (t.mgt 0).mdet == 8) = true := by decide

end Sys2Proof.Tests
end

section
/-! PROOFS. The statements of chapter 0: the state after reset, a strand's trap, and the frame of the computing forms. -/

namespace Sys2Proof.Machine

/-! The state after reset. -/

theorem State.reset_mgt_other {m : Nat} (h : m ≠ 16) : State.reset.mgt m = {} := by
  have hm : (16 : Nat) ≠ m := fun e => h e.symm
  simp [State.mgt, State.reset, SMap.lookD, SMap.look, hm]

theorem State.reset_mgt_registers (m : Nat) :
    (State.reset.mgt m).intrap = false ∧ (State.reset.mgt m).mvec = 0 ∧ (State.reset.mgt m).meven = 0 ∧
      (State.reset.mgt m).ctxsel = 0 := by
  by_cases h : m = 16
  · subst h; exact ⟨rfl, rfl, rfl, rfl⟩
  · rw [State.reset_mgt_other h]; exact ⟨rfl, rfl, rfl, rfl⟩

/-- Settles O58: the state after reset lists one management core, and every other part of it is empty. -/
theorem resetState : Obligations.ResetState := by
  unfold Obligations.ResetState
  refine ⟨Memory.wf_nil, ?_, ?_, ?_, rfl, rfl, rfl, rfl, rfl, rfl, rfl, rfl, rfl, rfl, rfl, rfl, rfl, ?_,
    State.reset_mgt_registers, fun _ _ => rfl, fun _ => ⟨rfl, rfl, rfl⟩, fun _ => ⟨rfl, rfl⟩⟩
  · intro h p hp
    cases hp
  · intro i hi
    rcases hi with hi | hi <;> cases hi
  · intro e he
    cases he
  · intro m hm
    rw [State.reset_mgt_other hm]

/-! A strand's trap. -/

/-- Settles O10: taking a strand's trap is one update of that strand and one step posted. -/
theorem trapParksStrand : Obligations.TrapParksStrand := by
  unfold Obligations.TrapParksStrand
  intro s h n t b pc f k ht
  obtain ⟨ps, hps⟩ := State.modStrand_only s h n fun t => { t with thr := parkThr pc f k b t.thr }
  have hu : s.takeTrap (.str h n) b pc f k =
      (s.modStrand h n fun t => { t with thr := parkThr pc f k b t.thr }).post (.executorPark h n) := rfl
  refine ⟨?_, ?_, ⟨ps, ?_⟩, fun j hj => ?_, fun j hj => ?_⟩
  · show (s.modStrand h n _).strand? h n = _
    rw [State.modStrand_strand ht]
    cases k <;> rfl
  · rw [hu, hps]; rfl
  · rw [hu, hps]; rfl
  · exact State.modPanel_panel_other s _ hj
  · exact State.strand?_modStrand_other s _ (.inr hj)

/-! What a lane keeps of its predicates. -/

@[simp] theorem Lane.setO_p (n : Lane) (k : Nat) (x : W32) : (n.setO k x).p = n.p := rfl
@[simp] theorem Lane.setV_p (n : Lane) (k : Nat) (x : W32) : (n.setV k x).p = n.p := rfl
@[simp] theorem Lane.push_p (n : Lane) (w : Wd) (x : Nat) : (n.push w x).p = n.p := by cases w <;> rfl

@[simp] theorem writeOpnd_p (n : Lane) (w : Wd) (d : Opnd) (v : Nat) : (writeOpnd n w d v).p = n.p := by
  cases d <;> cases w <;> rfl

@[simp] theorem Cx.deadWrite_p (c : Cx) (w : Wd) (d : Opnd) (l : Nat) (n : Lane) : (c.deadWrite w d l n).p = n.p := by
  unfold Cx.deadWrite
  split
  · rfl
  · exact writeOpnd_p n w d 0

/-! What a computing form changes of its own strand. -/

/-- The lanes, stack and wait of a program-counter slot: all but its place. -/
def PcSlot.held (q : PcSlot) : Mask × List W64 × Bool := (q.mask, q.stack, q.waiting)

/-- A lane after a computing form issued in context `c`: its predicates stay, and all of it outside the slot and the active lanes. -/
def LaneKept (c : Cx) (l : Nat) (k k' : Lane) : Prop :=
  k'.p = k.p ∧ (c.mask.getLsbD l = false → c.act.getLsbD l = false → k' = k)

/-- A strand after a part of a computing form with destination `d`, issued in context `c`. -/
structure StrandKept (c : Cx) (d : Opnd) (u u' : Strand) : Prop where
  rest : u' = { u with
    lanes := u'.lanes, thr := u'.thr, a := u'.a, b := u'.b, lastB := u'.lastB, tried := u'.tried, fflags := u'.fflags }
  tried : u'.tried = none ∨ u'.tried = u.tried
  slotA : u'.a.map PcSlot.held = u.a.map PcSlot.held
  slotB : u'.b.map PcSlot.held = u.b.map PcSlot.held
  async : u'.thr.async = u.thr.async
  park : u'.thr.park = u.thr.park
  scStamp : u'.thr.scStamp = u.thr.scStamp
  ss : sregOf d = none → u'.thr.ss = u.thr.ss
  lanes : ∀ l k, u.lanes[l]? = some k → ∃ k', u'.lanes[l]? = some k' ∧ LaneKept c l k k'

theorem LaneKept.refl (c : Cx) (l : Nat) (k : Lane) : LaneKept c l k k := ⟨rfl, fun _ _ => rfl⟩

theorem LaneKept.trans {c : Cx} {l : Nat} {k k' k'' : Lane} (h : LaneKept c l k k') (h' : LaneKept c l k' k'') :
    LaneKept c l k k'' :=
  ⟨h'.1.trans h.1, fun hm ha => (h'.2 hm ha).trans (h.2 hm ha)⟩

theorem lanes_kept_refl (c : Cx) (ks : List Lane) (l : Nat) (k : Lane) (h : ks[l]? = some k) :
    ∃ k', ks[l]? = some k' ∧ LaneKept c l k k' := ⟨k, h, LaneKept.refl c l k⟩

theorem StrandKept.refl (c : Cx) (d : Opnd) (u : Strand) : StrandKept c d u u :=
  ⟨rfl, .inr rfl, rfl, rfl, rfl, rfl, rfl, fun _ => rfl, lanes_kept_refl c u.lanes⟩

theorem StrandKept.trans {c : Cx} {d : Opnd} {u v w : Strand} (h : StrandKept c d u v) (h' : StrandKept c d v w) :
    StrandKept c d u w where
  rest := by rw [h'.rest, h.rest]
  tried := h'.tried.elim .inl fun e => by rw [e]; exact h.tried
  slotA := h'.slotA.trans h.slotA
  slotB := h'.slotB.trans h.slotB
  async := h'.async.trans h.async
  park := h'.park.trans h.park
  scStamp := h'.scStamp.trans h.scStamp
  ss := fun hd => (h'.ss hd).trans (h.ss hd)
  lanes := fun l k hk => by
    obtain ⟨k', hk', h1⟩ := h.lanes l k hk
    obtain ⟨k'', hk'', h2⟩ := h'.lanes l k' hk'
    exact ⟨k'', hk'', h1.trans h2⟩

/-- What a change of an executor's common part may do in a computing form. -/
def ThrKept (d : Opnd) (f : Thr → Thr) : Prop :=
  ∀ t, (f t).async = t.async ∧ (f t).park = t.park ∧ (f t).scStamp = t.scStamp ∧ (sregOf d = none → (f t).ss = t.ss)

theorem StrandKept.setThr (c : Cx) {d : Opnd} {f : Thr → Thr} (hf : ThrKept d f) (u : Strand) :
    StrandKept c d u { u with thr := f u.thr } := by
  obtain ⟨hasync, hpark, hstamp, hss⟩ := hf u.thr
  exact ⟨rfl, .inr rfl, rfl, rfl, hasync, hpark, hstamp, hss, lanes_kept_refl c u.lanes⟩

/-! The frame of a part of a computing form. -/

/-- `t` is `s` after a part of a form that computes, issued in context `c` with destination `d`. -/
structure ComputeKept (c : Cx) (d : Opnd) (s t : State) : Prop where
  only : ExecutorsOnly s t
  panels : ∀ h p, s.panel? h = some p → ∃ q, t.panel? h = some q ∧ q = { p with strands := q.strands, bob := q.bob }
  strands : ∀ h n, c.ex ≠ .str h n → t.strand? h n = s.strand? h n
  mgts : ∀ m, c.ex ≠ .mgt m → t.mgt m = s.mgt m
  own : ∀ h n u, c.ex = .str h n → s.strand? h n = some u → ∃ u', t.strand? h n = some u' ∧ StrandKept c d u u'

theorem ComputeKept.refl (c : Cx) (d : Opnd) (s : State) : ComputeKept c d s s :=
  ⟨⟨s.panels, s.mgts, rfl⟩, fun _ p hp => ⟨p, hp, rfl⟩, fun _ _ _ => rfl, fun _ _ => rfl,
    fun _ _ u _ hu => ⟨u, hu, StrandKept.refl c d u⟩⟩

theorem ComputeKept.trans {c : Cx} {d : Opnd} {s t u : State} (h : ComputeKept c d s t) (h' : ComputeKept c d t u) :
    ComputeKept c d s u where
  only := State.only_trans h.only h'.only
  panels := fun j p hp => by
    obtain ⟨q, hq, eq⟩ := h.panels j p hp
    obtain ⟨r, hr, er⟩ := h'.panels j q hq
    exact ⟨r, hr, by rw [er, eq]⟩
  strands := fun j n hn => (h'.strands j n hn).trans (h.strands j n hn)
  mgts := fun m hm => (h'.mgts m hm).trans (h.mgts m hm)
  own := fun j n x hc hx => by
    obtain ⟨y, hy, k1⟩ := h.own j n x hc hx
    obtain ⟨z, hz, k2⟩ := h'.own j n y hc hy
    exact ⟨z, hz, k1.trans k2⟩

/-- A panel changed in its strands and its bobbin stands where it stood. -/
theorem State.modPanel_panels_kept (s : State) (h : Nat) (f : Panel → Panel)
    (hf : ∀ p, f p = { p with strands := (f p).strands, bob := (f p).bob }) (j : Nat) (p : Panel) (hp : s.panel? j = some p) :
    ∃ q, (s.modPanel h f).panel? j = some q ∧ q = { p with strands := q.strands, bob := q.bob } := by
  by_cases hj : j = h
  · subst hj
    exact ⟨f p, State.modPanel_panel hp f, hf p⟩
  · exact ⟨p, by rw [State.modPanel_panel_other s f hj, hp], rfl⟩

theorem State.modPanel_mgt (s : State) (h : Nat) (f : Panel → Panel) (m : Nat) : (s.modPanel h f).mgt m = s.mgt m := by
  obtain ⟨ps, hps⟩ := State.modPanel_only s h f
  rw [hps]; rfl

theorem ComputeKept.modStrand {c : Cx} {h n : Nat} (hc : c.ex = .str h n) {d : Opnd} {f : Strand → Strand}
    (hf : ∀ u, StrandKept c d u (f u)) (s : State) : ComputeKept c d s (s.modStrand h n f) where
  only := by
    obtain ⟨ps, hps⟩ := State.modStrand_only s h n f
    exact ⟨ps, s.mgts, hps⟩
  panels := State.modPanel_panels_kept s h _ fun p => by split <;> rfl
  strands := fun j k hjk => State.strand?_modStrand_other s f <|
    Decidable.not_and_iff_not_or_not.1 fun hn => hjk (by rw [hc, hn.1, hn.2])
  mgts := fun m _ => State.modPanel_mgt s h _ m
  own := fun j k u hjk hu => by
    obtain ⟨rfl, rfl⟩ : h = j ∧ n = k := by simpa [hc] using hjk
    exact ⟨f u, State.modStrand_strand hu f, hf u⟩

theorem State.modBob_strand? (s : State) (h : Nat) (f : Bobbin → Bobbin) (j n : Nat) :
    (s.modBob h f).strand? j n = s.strand? j n := by
  by_cases hj : j = h
  · subst hj
    simp only [State.strand?, State.modBob, State.panel?_modPanel_same]
    cases s.panel? j <;> rfl
  · simp only [State.strand?, State.modBob, State.modPanel_panel_other s _ hj]

theorem ComputeKept.modBob {c : Cx} {h : Nat} (hc : c.ex = .bob h) (d : Opnd) (f : Bobbin → Bobbin) (s : State) :
    ComputeKept c d s (s.modBob h f) where
  only := by
    obtain ⟨ps, hps⟩ := State.modBob_only s h f
    exact ⟨ps, s.mgts, hps⟩
  panels := State.modPanel_panels_kept s h _ fun _ => rfl
  strands := fun j n _ => State.modBob_strand? s h f j n
  mgts := fun m _ => State.modPanel_mgt s h _ m
  own := fun j n u hjn _ => by rw [hc] at hjn; cases hjn

theorem ComputeKept.modMgt {c : Cx} {m : Nat} (hc : c.ex = .mgt m) (d : Opnd) (f : Mgt → Mgt) (s : State) :
    ComputeKept c d s (s.modMgt m f) where
  only := ⟨s.panels, _, rfl⟩
  panels := fun _ p hp => ⟨p, hp, rfl⟩
  strands := fun _ _ _ => rfl
  mgts := fun j hj => State.modMgt_mgt_other s f fun e => hj (e ▸ hc)
  own := fun j n u hjn _ => by rw [hc] at hjn; cases hjn

/-! The parts of a computing form. -/

theorem ComputeKept.modThr (c : Cx) {d : Opnd} {f : Thr → Thr} (hf : ThrKept d f) (s : State) :
    ComputeKept c d s (s.modThr c.ex f) := by
  cases hc : c.ex with
  | str h n => exact ComputeKept.modStrand hc (StrandKept.setThr c hf) s
  | bob h => exact ComputeKept.modBob hc d (fun b => { b with thr := f b.thr }) s
  | mgt m => exact ComputeKept.modMgt hc d (fun g => { g with thr := f g.thr }) s

theorem StrandKept.setSlotPos (c : Cx) (d : Opnd) (b : Bool) (p : Pos) (u : Strand) :
    StrandKept c d u (State.setSlot u b ((State.slotOf u b).map fun x => { x with pos := p })) := by
  have held (o : Option PcSlot) : (o.map fun x => { x with pos := p }).map PcSlot.held = o.map PcSlot.held := by
    cases o <;> rfl
  cases b
  · exact ⟨rfl, .inr rfl, held u.a, rfl, rfl, rfl, rfl, fun _ => rfl, lanes_kept_refl c u.lanes⟩
  · exact ⟨rfl, .inr rfl, rfl, held u.b, rfl, rfl, rfl, fun _ => rfl, lanes_kept_refl c u.lanes⟩

theorem ComputeKept.setPos (c : Cx) (d : Opnd) (b : Bool) (p : Pos) (s : State) :
    ComputeKept c d s (s.setPos c.ex b p) := by
  cases hc : c.ex with
  | str h n => exact ComputeKept.modStrand hc (StrandKept.setSlotPos c d b p) s
  | bob h => exact ComputeKept.modBob hc d (fun x => { x with pos := p }) s
  | mgt m => exact ComputeKept.modMgt hc d (fun x => { x with pos := p }) s

theorem Thr.setWait_kept (t : Thr) (b : Bool) (w : Waiting) :
    (t.setWait b w).async = t.async ∧ (t.setWait b w).park = t.park ∧ (t.setWait b w).scStamp = t.scStamp ∧
      (t.setWait b w).ss = t.ss := by
  cases b <;> exact ⟨rfl, rfl, rfl, rfl⟩

/-- What an issue changes of its executor's common part (R65, R98, R393). -/
def issuedThr (s : State) (c : Cx) (t : Thr) : Thr :=
  { t.setWait c.slotB .none with
    pends := t.pends.map fun p => if p.mask &&& c.mask != 0 then { p with look := p.look - 1 } else p
    walkFails := [], awaiting := none, arrival := none, points := t.points.filter (·.1 != c.slotB)
    lastProgress := s.time.toNat }

theorem issuedThr_kept (s : State) (c : Cx) (d : Opnd) : ThrKept d (issuedThr s c) := fun t => by
  obtain ⟨hasync, hpark, hstamp, hss⟩ := t.setWait_kept c.slotB .none
  exact ⟨hasync, hpark, hstamp, fun _ => hss⟩

theorem State.issued_strand {c : Cx} {h n : Nat} (hc : c.ex = .str h n) (s : State) :
    s.issued c = (s.modThr c.ex (issuedThr s c)).modStrand h n fun t => { t with lastB := c.slotB, tried := none } := by
  unfold State.issued
  simp only [hc]
  rfl

theorem State.issued_scalar {c : Cx} (hc : c.ex.scalar = true) (s : State) : s.issued c = s.modThr c.ex (issuedThr s c) := by
  unfold State.issued
  cases he : c.ex with
  | str h n => rw [he] at hc; cases hc
  | bob h => rfl
  | mgt m => rfl

theorem ComputeKept.issued (c : Cx) (d : Opnd) (s : State) : ComputeKept c d s (s.issued c) := by
  have hthr := ComputeKept.modThr c (issuedThr_kept s c d) s
  cases hc : c.ex with
  | str h n =>
    rw [State.issued_strand hc]
    exact hthr.trans (ComputeKept.modStrand hc (f := fun t => { t with lastB := c.slotB, tried := none })
      (fun u => ⟨rfl, .inl rfl, rfl, rfl, rfl, rfl, rfl, fun _ => rfl, lanes_kept_refl c u.lanes⟩) _)
  | bob h => rwa [State.issued_scalar (by rw [hc]; rfl)]
  | mgt m => rwa [State.issued_scalar (by rw [hc]; rfl)]

theorem ComputeKept.advance (c : Cx) (d : Opnd) (s : State) : ComputeKept c d s (s.advance c) :=
  (ComputeKept.issued c d s).trans (ComputeKept.setPos c d c.slotB c.nxt _)

/-- A function applied to the lanes of a mask that lies in the issuing slot or the active lanes, predicates kept. -/
theorem StrandKept.setLanes (c : Cx) (d : Opnd) {m : Mask} (k : Nat) {f : Nat → Lane → Lane}
    (hm : m = c.mask ∨ m = c.act) (hf : ∀ l n, (f l n).p = n.p) (u : Strand) :
    StrandKept c d u { u with
      lanes := u.lanes.mapIdx fun l n => if m.getLsbD l then f l n else n
      thr := { u.thr with pends := u.thr.pends.map (Pend.shift k m) } } := by
  refine ⟨rfl, .inr rfl, rfl, rfl, rfl, rfl, rfl, fun _ => rfl, fun l x hx => ?_⟩
  refine ⟨if m.getLsbD l then f l x else x, by simp [List.getElem?_mapIdx, hx], ?_, fun hmask hact => ?_⟩
  · split
    · exact hf l x
    · rfl
  · have hl : m.getLsbD l = false := hm.elim (fun e => e ▸ hmask) fun e => e ▸ hact
    simp [hl]

theorem ComputeKept.modLanes (c : Cx) (d : Opnd) {m : Mask} (k : Nat) (f : Nat → Lane → Lane)
    (hm : m = c.mask ∨ m = c.act) (hf : ∀ l n, (f l n).p = n.p) (s : State) : ComputeKept c d s (s.modLanes c.ex m k f) := by
  cases hc : c.ex with
  | str h n => exact ComputeKept.modStrand hc (StrandKept.setLanes c d k hm hf) s
  | bob h => exact ComputeKept.refl c d s
  | mgt n => exact ComputeKept.refl c d s

theorem ComputeKept.setS (c : Cx) (n : BitVec 6) (v : Nat) (s : State) : ComputeKept c (.s n) s (s.setS c.ex n.toNat v) :=
  ComputeKept.modThr c (f := fun t => { t with ss := t.ss.set n.toNat (BitVec.ofNat 64 v) })
    (fun _ => ⟨rfl, rfl, rfl, fun hd => absurd hd (by simp [sregOf])⟩) s

theorem ComputeKept.writeVec (c : Cx) (w : Wd) (d : Opnd) (v : Nat → Nat) (s : State) :
    ComputeKept c d s (s.writeVec c w d v) := by
  unfold State.writeVec
  split
  · split
    · exact ComputeKept.setS c _ _ s
    · exact ComputeKept.refl c _ s
  · refine ComputeKept.modLanes c _ _ _ (.inr rfl) (fun l n => ?_) s
    split <;> simp

theorem ComputeKept.bumpSr (c : Cx) (d : Opnd) (ar : Arith) (s : State) : ComputeKept c d s (s.bumpSr c ar) := by
  unfold State.bumpSr
  split
  · exact ComputeKept.modLanes c d 0 (fun _ n => { n with sr := n.sr + 1 }) (.inl rfl) (fun _ _ => rfl) s
  · exact ComputeKept.refl c d s

theorem ComputeKept.addFlags (c : Cx) (d : Opnd) (fl : FFlags) (s : State) : ComputeKept c d s (s.addFlags c.ex fl) := by
  cases hc : c.ex with
  | str h n =>
    exact ComputeKept.modStrand hc (f := fun t => { t with fflags := t.fflags ||| fl })
      (fun u => ⟨rfl, .inr rfl, rfl, rfl, rfl, rfl, rfl, fun _ => rfl, lanes_kept_refl c u.lanes⟩) s
  | bob h => exact ComputeKept.refl c d s
  | mgt m => exact ComputeKept.refl c d s

/-! The forms that complete by a result. -/

/-- What follows the issue of a computing form. -/
theorem ComputeKept.of_gives {i : Instr} {s t : State} {c : Cx} {x : Args} {w : Wd} {v : Nat → Nat} {r : Nat → FRes}
    (h : Gives i s c x w v ∨ GivesFlags i s c x w r) (ht : exec i s = .next t) : ComputeKept c x.d (s.advance c) t := by
  rcases h with h | h
  · obtain rfl : _ = t := Host.Outcome.next.inj (h.symm.trans ht)
    exact ComputeKept.writeVec c w x.d v _
  · obtain rfl : _ = t := Host.Outcome.next.inj (h.symm.trans ht)
    exact ((ComputeKept.bumpSr c x.d x.ar _).trans (ComputeKept.writeVec c w x.d _ _)).trans (ComputeKept.addFlags c x.d _ _)

/-- The issue of a strand's instruction forgets the slot that was last found stalled (R98). -/
theorem State.advance_tried {s : State} {c : Cx} {h n : Nat} (hc : c.ex = .str h n) {u u' : Strand}
    (hu : s.strand? h n = some u) (hu' : (s.advance c).strand? h n = some u') : u'.tried = none := by
  have hi : (s.issued c).strand? h n = some { u with thr := issuedThr s c u.thr, lastB := c.slotB, tried := none } := by
    rw [State.issued_strand hc, hc]
    simp [State.modThr, hu]
  have e : s.advance c = (s.issued c).modStrand h n fun t =>
      State.setSlot t c.slotB ((State.slotOf t c.slotB).map fun x => { x with pos := c.nxt }) := by
    simp [State.advance, State.setPos, hc]
  rw [e, State.modStrand_strand hi] at hu'
  obtain rfl := Option.some.inj hu'
  cases c.slotB <;> rfl

/-- Settles O29: an issue, its results and its flags each stay within the frame, and so does their sequence. -/
theorem computeFrame : Obligations.ComputeFrame := by
  unfold Obligations.ComputeFrame
  intro i s t c x w v r _ hg ht
  have hadv := ComputeKept.advance c x.d s
  have hres := ComputeKept.of_gives hg ht
  obtain ⟨only, panels, strands, mgts, own⟩ := hadv.trans hres
  refine ⟨only, fun a => ?_, panels, strands, mgts, fun h n u hc hu => ?_⟩
  · obtain ⟨ps, ms, rfl⟩ := only
    rfl
  · obtain ⟨u', hu', hk⟩ := own h n u hc hu
    have tried : u'.tried = none := by
      obtain ⟨u1, hu1, -⟩ := hadv.own h n u hc hu
      obtain ⟨u2, hu2, hk2⟩ := hres.own h n u1 hc hu1
      obtain rfl : u2 = u' := Option.some.inj (hu2.symm.trans hu')
      exact hk2.tried.elim id fun e => e.trans (State.advance_tried hc hu hu1)
    refine ⟨u', hu', ?_, ⟨hk.slotA, hk.slotB⟩, hk.async, hk.park, hk.scStamp, hk.ss, fun l k hl => ?_⟩
    · rw [← tried]; exact hk.rest
    · obtain ⟨k', hk', hp, hsame⟩ := hk.lanes l k hl
      exact ⟨k', hk', hp, hsame⟩

end Sys2Proof.Machine
end

section
/-! PROOFS. No step stops the machine (O60): the outcomes that go on, and the checks of an issue. -/

namespace Sys2Proof.Machine

/-- An outcome that is a next state: the machine goes on. -/
def GoesOn (o : Out) : Prop := ∃ t, o = .next t

/-! The shared outcomes. -/

theorem GoesOn.next (t : State) : GoesOn (.next t) := ⟨t, rfl⟩
theorem GoesOn.ite {p : Prop} [Decidable p] {a b : Out} (ha : GoesOn a) (hb : GoesOn b) : GoesOn (if p then a else b) := by
  split
  · exact ha
  · exact hb

theorem GoesOn.wait (s : State) : GoesOn (waitOut s) := ⟨_, rfl⟩
theorem GoesOn.waitAs (s : State) (c : Cx) (w : Waiting) : GoesOn (waitAs s c w) := ⟨_, rfl⟩
theorem GoesOn.miss (s : State) (c : Cx) (p : Nat) : GoesOn (missOut s c p) := ⟨_, rfl⟩
theorem GoesOn.trap (s : State) (c : Cx) (t : TrapInfo) : GoesOn (trapOut s c t) := ⟨_, rfl⟩
theorem GoesOn.async (s : State) (c : Cx) (t : TrapInfo) : GoesOn (asyncOut s c t) := ⟨_, rfl⟩
theorem GoesOn.deferred (s : State) (c : Cx) (p : Pend) (t : TrapInfo) : GoesOn (deferredOut s c p t) := ⟨_, rfl⟩

theorem GoesOn.awaitPend (s : State) (c : Cx) (p : Pend) : GoesOn (awaitPend s c p) := by
  unfold Machine.awaitPend
  split
  · exact GoesOn.wait s
  · split
    · exact GoesOn.deferred s c p _
    · exact GoesOn.wait s

theorem GoesOn.pointWait (s : State) (c : Cx) (sc : Bool) : GoesOn (pointWait s c sc) := by
  rcases pointWait_cases s c sc with h | ⟨-, -, h⟩ <;> rw [h] <;> exact GoesOn.wait _

theorem GoesOn.send (s : State) (c : Cx) (x : Args) (w : Wd) (upd : State → Nat → State) (got : List Nat) :
    GoesOn (sendForm s c x w upd got) := ⟨_, rfl⟩

/-! The checks and waits before an effect go on where what follows them does. -/

theorem GoesOn.andThen {α : Type} {s : State} {c : Cx} {r : Res α} {f : α → Out} (hf : ∀ a, GoesOn (f a)) :
    GoesOn (andThen s c r f) := by
  rcases andThen_cases s c r f with ⟨a, -, h⟩ | ⟨t, -, h⟩ | ⟨p, -, h⟩ | ⟨-, h⟩ <;> rw [h]
  · exact hf a
  · exact GoesOn.trap s c t
  · exact GoesOn.miss s c p
  · exact GoesOn.wait s

theorem GoesOn.afterNext {o : Out} (h : GoesOn o) (f : State → State) : GoesOn (afterNext o f) := by
  obtain ⟨t, rfl⟩ := h
  exact GoesOn.next (f t)

theorem GoesOn.andRead {α : Type} {s : State} {c : Cx} {at' : Nat → Option Place} {va n : Nat} {wait : Bool} {r : Res α}
    {f : α → Out} (hf : ∀ a, GoesOn (f a)) : GoesOn (andRead s c at' va n wait r f) := by
  rcases andRead_cases s c at' va n wait r f with ⟨-, h⟩ | h <;> rw [h]
  · exact GoesOn.wait s
  · exact GoesOn.andThen fun a => GoesOn.afterNext (hf a) _

theorem GoesOn.withWords {s : State} {c : Cx} {va n : Nat} {k : List W64 → Out} (hk : ∀ ws, GoesOn (k ws)) :
    GoesOn (withWords s c va n k) := GoesOn.andRead hk

theorem GoesOn.andCtx {s : State} {c : Cx} {d k va n : Nat} {f : List W64 → Out} (hf : ∀ ws, GoesOn (f ws)) :
    GoesOn (andCtx s c d k va n f) := by
  unfold Machine.andCtx
  split
  · exact GoesOn.wait s
  · exact GoesOn.afterNext (GoesOn.andRead hf) _

theorem GoesOn.ordered {s : State} {c : Cx} {rel acq : Bool} {k : Unit → Out} (hk : GoesOn (k ())) :
    GoesOn (ordered s c rel acq k) := by
  rcases ordered_cases s c rel acq k with h | ⟨-, t, -, h⟩ | ⟨-, -, -, h⟩ <;> rw [h]
  · exact GoesOn.wait s
  · exact GoesOn.async s c t
  · exact hk

theorem GoesOn.withPol {s : State} {c : Cx} {v : Nat} {os : List Nat} {k : Pol → Out} (hk : ∀ p, GoesOn (k p)) :
    GoesOn (withPol s c v os k) := by
  unfold Machine.withPol
  split
  · exact hk _
  · exact GoesOn.trap s c _

theorem GoesOn.slotGate {s : State} {c : Cx} {ok : List CtxSt} {k : Unit → Out} (hk : GoesOn (k ())) :
    GoesOn (slotGate s c ok k) := by
  unfold Machine.slotGate
  split
  · dsimp only
    split
    · exact hk
    · exact GoesOn.trap s c _
  · exact hk
  · exact hk

theorem GoesOn.whenClosed {s : State} {c : Cx} {k : Unit → Out} (hk : GoesOn (k ())) : GoesOn (whenClosed s c k) := by
  unfold Machine.whenClosed
  split
  · exact GoesOn.awaitPend s c _
  · exact hk

theorem GoesOn.awaitGroup {s : State} {c : Cx} {i : Instr} {k : Unit → Out} (hk : GoesOn (k ())) :
    GoesOn (awaitGroup s c i k) := by
  rcases awaitGroup_cases s c i k with ⟨p, -, h⟩ | ⟨-, h⟩ <;> rw [h]
  · exact GoesOn.awaitPend s c p
  · exact hk

/-- What the checks of lanes answer in their place goes on. -/
theorem GoesOn.of_checkLanes {α : Type} {s : State} {c : Cx} {ls : List Nat} {f : Nat → Res α} {o : Out}
    (h : checkLanes s c ls f = .error o) : GoesOn o := by
  unfold checkLanes at h
  dsimp only at h
  split at h
  · cases h; exact GoesOn.trap s c _
  · split at h
    · cases h; exact GoesOn.wait s
    · split at h
      · cases h; exact GoesOn.next _
      · split at h
        · cases h; exact GoesOn.trap s c _
        · cases h

/-! The issue. -/

/-- An executor that a context names stands in the state. -/
def State.stands (s : State) : Ex → Prop
  | .str h n => ∃ t, s.strand? h n = some t
  | .bob h => ∃ p, s.panel? h = some p
  | .mgt _ => True

theorem State.mkCx_stands {s : State} {c : Cx} (h : s.mkCx = some c) : s.stands c.ex := by
  unfold State.mkCx at h
  split at h
  · split at h
    · cases h
    · next t ht =>
      split at h
      · cases h
      · cases h; exact ⟨t, ht⟩
  · split at h
    · cases h
    · next p hp => cases h; exact ⟨p, hp⟩
  · split at h
    · cases h; trivial
    · cases h

@[simp] theorem Cx.guarded_ex (c : Cx) (g : Guard) : (c.guarded g).ex = c.ex := by
  unfold Cx.guarded
  split <;> rfl

/-- What an instruction's meaning may build on where its checks passed: its operands stand at levels its form allows, and it runs on an
executor that the form allows and that stands in the state. -/
structure MayRun (i : Instr) (s : State) (c : Cx) (sp : Spec) (x : Args) : Prop where
  ex : exOk c.ex sp.ex = true
  fields : fieldsOk (s.who c.ex) i sp x = true
  stands : s.stands c.ex

/-- The checks of an issue answer an outcome that goes on, or let the instruction run. -/
inductive IssueGoesOn (i : Instr) (s : State) (sp : Spec) (x : Args) : Issue → Prop where
  | out {o : Out} (h : GoesOn o) : IssueGoesOn i s sp x (.out o)
  | go {c : Cx} (h : MayRun i s c sp x) : IssueGoesOn i s sp x (.go c x)

theorem issue_goesOn {i : Instr} {s : State} {sp : Spec} {x : Args} (hc : s.mkCx.isSome = true) (hs : i.spec = some sp)
    (hf : i.fields = some x) : IssueGoesOn i s sp x (issue i s) := by
  obtain ⟨c0, hc⟩ := Option.isSome_iff_exists.1 hc
  have hst := State.mkCx_stands hc
  unfold issue
  rw [hc, hs, hf]
  dsimp -zeta only
  extract_lets c h trap locs group parts inWin early closes must bad look hidden helpers
  have hex : c.ex = c0.ex := c0.guarded_ex x.g
  have tr (t : TrapInfo) : IssueGoesOn i s sp x (.out (trapOut s c t)) := .out (GoesOn.trap s c t)
  have wait (p : Pend) : IssueGoesOn i s sp x (.out (awaitPend s c p)) := .out (GoesOn.awaitPend s c p)
  have hearly (o : Out) (ho : early = some o) : GoesOn o := by
    dsimp only [early] at ho
    split at ho
    · cases ho
    · split at ho <;> cases ho
      · exact GoesOn.trap s c _
      · exact GoesOn.miss s c _
      · exact GoesOn.wait s
  clear_value c early must look hidden
  split
  · next hr =>
    split
    · exact .out (GoesOn.async s c _)
    · next hn => simp [hn] at hr
  split
  · exact tr _
  split
  · exact tr _
  split
  · exact tr _
  split
  · exact tr _
  next hexOk =>
  split
  · exact tr _
  split
  · exact tr _
  next hfields =>
  split
  · next o => exact .out (hearly o rfl)
  split
  · exact tr _
  split
  · exact wait _
  split
  · exact tr _
  split
  · exact wait _
  exact .go ⟨by simpa using hexOk, by simpa using hfields, by rw [hex]; exact hst⟩

/-- An instruction goes on where its meaning does, run on what the checks of its issue let through. -/
theorem GoesOn.run {i : Instr} {s : State} {sp : Spec} {x : Args} {k : Cx → Args → Out} (hc : s.mkCx.isSome = true)
    (hs : i.spec = some sp) (hf : i.fields = some x) (hk : ∀ c, MayRun i s c sp x → GoesOn (k c x)) : GoesOn (run i s k) := by
  have h := issue_goesOn hc hs hf
  unfold Machine.run
  split
  · next e => rw [e] at h; cases h
  · next o e => rw [e] at h; cases h with | out h => exact h
  · next c x e => rw [e] at h; cases h with | go h => exact hk c h

/-! Executors and operands that a form's description leaves. -/

theorem State.panel?_of_strand? {s : State} {h n : Nat} {t : Strand} (ht : s.strand? h n = some t) : ∃ p, s.panel? h = some p := by
  unfold State.strand? at ht
  split at ht
  · next p hp => exact ⟨p, hp⟩
  · cases ht

section
variable {i : Instr} {s : State} {c : Cx} {sp : Spec} {x : Args}

theorem MayRun.strand (h : MayRun i s c sp x) (hb : sp.ex.bob = false) (hm : sp.ex.mgt = false) (hp : sp.ex.pkg = false) :
    ∃ j n t, c.ex = .str j n ∧ s.strand? j n = some t := by
  obtain ⟨hex, -, hst⟩ := h
  cases he : c.ex with
  | str j n => rw [he] at hst; obtain ⟨t, ht⟩ := hst; exact ⟨j, n, t, rfl, ht⟩
  | bob j => simp [he, exOk, hb] at hex
  | mgt m => simp [he, exOk, hm, hp] at hex

theorem MayRun.bobbin (h : MayRun i s c sp x) (hs : sp.ex.str = false) (hm : sp.ex.mgt = false) (hp : sp.ex.pkg = false) :
    ∃ j p, c.ex = .bob j ∧ s.panel? j = some p := by
  obtain ⟨hex, -, hst⟩ := h
  cases he : c.ex with
  | str j n => simp [he, exOk, hs] at hex
  | bob j => rw [he] at hst; obtain ⟨p, hp⟩ := hst; exact ⟨j, p, rfl, hp⟩
  | mgt m => simp [he, exOk, hm, hp] at hex

theorem MayRun.management (h : MayRun i s c sp x) (hs : sp.ex.str = false) (hb : sp.ex.bob = false) : ∃ m, c.ex = .mgt m := by
  obtain ⟨hex, -, -⟩ := h
  cases he : c.ex with
  | str j n => simp [he, exOk, hs] at hex
  | bob j => simp [he, exOk, hb] at hex
  | mgt m => exact ⟨m, rfl⟩

theorem MayRun.panel (h : MayRun i s c sp x) (hm : sp.ex.mgt = false) (hp : sp.ex.pkg = false) :
    ∃ j p, c.ex.panel = some j ∧ s.panel? j = some p := by
  obtain ⟨hex, -, hst⟩ := h
  cases he : c.ex with
  | str j n =>
    rw [he] at hst
    obtain ⟨t, ht⟩ := hst
    obtain ⟨p, hp⟩ := State.panel?_of_strand? ht
    exact ⟨j, p, rfl, hp⟩
  | bob j => rw [he] at hst; obtain ⟨p, hp⟩ := hst; exact ⟨j, p, rfl, hp⟩
  | mgt m => simp [he, exOk, hm, hp] at hex

/-- A destination that may be an S register only is one. -/
theorem MayRun.sreg (h : MayRun i s c sp x) {w : Wd} (hd : sp.d = .val Lv.sOnly w) : ∃ n, x.d = .s n := by
  obtain ⟨-, hf, -⟩ := h
  simp only [fieldsOk, Bool.and_eq_true, fldOk, hd] at hf
  obtain ⟨⟨⟨⟨⟨hf, -⟩, -⟩, -⟩, -⟩, -⟩ := hf
  cases hx : x.d with
  | s n => exact ⟨n, rfl⟩
  | _ => simp [hx, dstOk, Lv.sOnly] at hf

end

/-! Outcomes that several meanings share. -/

theorem GoesOn.sendVals (s : State) (c : Cx) (x : Args) (w : Wd) (f : Nat → Nat) : GoesOn (sendVals s c x w f) :=
  GoesOn.send s c x w _ _

theorem GoesOn.sendRegs (s : State) (c : Cx) (x : Args) (vals : List Nat) : GoesOn (sendRegs s c x vals) := GoesOn.next _

theorem GoesOn.sendQuiet (s : State) (c : Cx) (x : Args) (w : Wd) (upd : State → Nat → State) (got : List Nat) :
    GoesOn (sendQuiet s c x w upd got) := GoesOn.next _

theorem GoesOn.waitToken (s : State) (c : Cx) : GoesOn (waitToken s c) := by
  unfold Machine.waitToken
  split
  · exact GoesOn.async s c _
  · exact GoesOn.waitAs s c _

theorem GoesOn.peeking {s : State} {e : Ex} {vas : List Nat} {k : State → Out} (hk : ∀ s, GoesOn (k s)) :
    GoesOn (peeking s e vas k) := by
  unfold Machine.peeking
  split
  · exact GoesOn.wait s
  · exact hk _

theorem GoesOn.feWords {s : State} {c : Cx} {x : Args} {ls : List Nat} {w : Bool} {k : List (Nat × SpLoc) → Out}
    (hk : ∀ ps, GoesOn (k ps)) : GoesOn (feWords s c x ls w k) := by
  unfold Machine.feWords
  split
  · next o h => exact GoesOn.of_checkLanes h
  · dsimp only
    split
    · exact GoesOn.trap s c _
    · split
      · next o h => exact GoesOn.of_checkLanes h
      · split
        · exact GoesOn.wait s
        · exact hk _

theorem GoesOn.withKnot {s : State} {c : Cx} {a : Opnd} {w : Bool} {k : SpLoc → Out} (hk : ∀ p, GoesOn (k p)) :
    GoesOn (withKnot s c a w k) :=
  GoesOn.andThen fun p => by
    split
    · exact GoesOn.trap s c _
    · exact hk p

theorem GoesOn.withMap {s : State} {c : Cx} {part : Nat} {k : KvMap → Out} (hk : ∀ m, GoesOn (k m)) :
    GoesOn (withMap s c part k) := by
  unfold Machine.withMap
  split
  · exact hk _
  · exact GoesOn.trap s c _

theorem GoesOn.softTrap {s : State} {c : Cx} {x : Args} {k : W64 → Out} (hk : ∀ v, GoesOn (k v)) :
    GoesOn (softTrap s c x k) := by
  unfold Machine.softTrap
  split
  · exact GoesOn.next _
  · dsimp only
    split
    · exact GoesOn.trap s c _
    · exact hk _

theorem GoesOn.enqueue (s : State) (c : Cx) (h : Nat) (p : Panel) (tiles : List Nat) (op : EngOp) (steps : List (Nat × Int))
    (sb : Option (Nat × Nat)) (upd : State → State) : GoesOn (enqueue s c h p tiles op steps sb upd) := by
  unfold Machine.enqueue
  dsimp only
  split
  · exact GoesOn.wait s
  · split
    · exact GoesOn.wait s
    · exact GoesOn.next _

/-- A branch goes on: the one executor that it could find missing is a strand, and the strand that issues stands. -/
theorem GoesOn.branch {s : State} {c : Cx} (hc : s.stands c.ex) (t0 : Mask) (tgt : Nat) (k : Entry) (cont : Pos)
    (adj : List W64 → List W64) (upd : State → State) : GoesOn (branch s c t0 tgt k cont adj upd) := by
  unfold Machine.branch
  cases he : c.ex with
  | bob h => exact .ite (.next _) (.andThen fun _ => .next _)
  | mgt m => exact .ite (.next _) (.andThen fun _ => .next _)
  | str h n =>
    rw [he] at hc
    obtain ⟨t, ht⟩ := hc
    simp only [ht]
    refine .ite (.next _) (.andThen fun _ => .ite (.next _) (.whenClosed ?_))
    split
    · exact .ite (.trap ..) (.ite (.wait _) (.next _))
    · split
      · exact .ite (.trap ..) (.ite (.wait _) (.next _))
      · exact .trap ..
      · exact .miss ..
      · exact .wait _

/-! Forms that complete by a result. -/

section
variable {s : State} (hc : s.mkCx.isSome = true) {i : Instr} {sp : Spec} {x : Args}
include hc

theorem vecForm_goesOn (hs : i.spec = some sp) (hf : i.fields = some x) (w : Wd) (f : Cx → Args → Nat → Nat) :
    GoesOn (vecForm i w f s) := GoesOn.run hc hs hf fun _ _ => GoesOn.next _

theorem cmpForm_goesOn (hs : i.spec = some sp) (hf : i.fields = some x) (f : Cx → Args → Nat → Bool) :
    GoesOn (cmpForm i f s) := GoesOn.run hc hs hf fun _ _ => GoesOn.next _

theorem floatForm_goesOn (hs : i.spec = some sp) (hf : i.fields = some x) (w : Wd) (f : State → Cx → Args → Nat → FRes) :
    GoesOn (floatForm i w f s) := GoesOn.run hc hs hf fun _ _ => GoesOn.next _

theorem transForm_goesOn (hs : i.spec = some sp) (hf : i.fields = some x) (f : Arith → FVal → FRes) :
    GoesOn (transForm i f s) := GoesOn.run hc hs hf fun _ _ => .ite (.next _) (.next _)

/-- A matrix form runs on a strand or a bobbin, whose panel stands. -/
theorem matrixForm_goesOn (hs : i.spec = some sp) (hf : i.fields = some x) (hm : sp.ex.mgt = false) (hp : sp.ex.pkg = false)
    {k : Cx → Args → Nat → Panel → Out} (hk : ∀ c h p, GoesOn (k c x h p)) (idle : Cx → Args → State) :
    GoesOn (matrixForm i s k idle) := by
  refine .run hc hs hf fun c h => ?_
  obtain ⟨j, p, hj, hpj⟩ := h.panel hm hp
  simp only [hj, Option.getD_some, hpj]
  exact .ite (hk c j p) (.next _)

end

end Sys2Proof.Machine
end

section
/-! PROOFS. Every form goes on (O60): past the checks of its issue, each branch of its meaning completes, waits or traps. -/

namespace Sys2Proof.Machine

section
variable {s : State} (hc : s.mkCx.isSome = true)
include hc

/-! Memory forms. -/

theorem execLd_goesOn (space : Space) (w : LdW) (x : Args) : GoesOn (execLd space w x s) := by
  refine .run hc rfl rfl fun c _ => .ite (.next _) (.withPol fun _ => .ordered ?_)
  cases space with
  | g =>
    dsimp only
    split
    · exact .andThen fun _ => .send ..
    · split
      · next h => exact .of_checkLanes h
      · exact .send ..
  | spool =>
    dsimp only
    split
    · next h => exact .of_checkLanes h
    · exact .ite (.pointWait ..) (.send ..)
  | sp | sw =>
    dsimp only
    split
    · next h => exact .of_checkLanes h
    · exact .ite (.wait _) (.ite (.pointWait ..) (.send ..))

theorem execSt_goesOn (space : Space) (w : StW) (x : Args) : GoesOn (execSt space w x s) := by
  refine .run hc rfl rfl fun c _ => .ite (.next _) (.ite (.next _) (.withPol fun _ => .ordered ?_))
  dsimp only
  split
  · split
    · exact .andThen fun _ => .next _
    · split
      · next h => exact .of_checkLanes h
      · exact .next _
  · split
    · next h => exact .of_checkLanes h
    · exact .ite (.wait _) (.ite (.pointWait ..) (.next _))

theorem atomForm_goesOn {i : Instr} {sp : Spec} {x : Args} (hs : i.spec = some sp) (hf : i.fields = some x) (w : Wd)
    (op : Cx → Args → Nat → ROp) : GoesOn (atomForm i w op s) := by
  refine .run hc hs hf fun c _ => .ite (.next _) (.withPol fun _ => .ordered ?_)
  dsimp only
  split
  · next h => exact .of_checkLanes h
  · exact .send ..

theorem execPref_goesOn (x : Args) : GoesOn (execPref x s) :=
  .run hc rfl rfl fun _ _ => .ite (.next _) (.withPol fun _ => .ordered (.peeking fun _ => .next _))

theorem execCinv_goesOn (x : Args) : GoesOn (execCinv x s) :=
  .run hc rfl rfl fun _ _ => .ite (.next _) (.peeking fun _ => .next _)

theorem execBtset_goesOn (x : Args) : GoesOn (execBtset x s) :=
  .run hc rfl rfl fun _ _ => .ite (.next _) (.slotGate (.ite (.wait _) (.next _)))
end

section
variable {s : State} (hc : s.mkCx.isSome = true)
include hc

theorem execRed_goesOn (op : RedOp) (x : Args) : GoesOn (execRed op x s) := by
  refine .run hc rfl rfl fun c _ => .ite (.next _) (.withPol fun _ => .ite (.trap ..) (.ite (.wait _) (.ordered ?_)))
  dsimp only
  split
  · next h => exact .of_checkLanes h
  · exact .ite (.next _) (.ite (.next _) (.next _))

theorem execLdt_goesOn (x : Args) : GoesOn (execLdt x s) := by
  refine .run hc rfl rfl fun c _ => .ite (.next _) (.ite (.trap ..) (.withPol fun _ => .ordered ?_))
  dsimp only
  split
  · next h => exact .of_checkLanes h
  · exact .send ..

theorem execLdfe_goesOn (x : Args) : GoesOn (execLdfe x s) := by
  refine .run hc rfl rfl fun c h => ?_
  obtain ⟨j, p, hj, hp⟩ := h.panel rfl rfl
  simp only [hj, hp, Option.bind_some, Option.map_some]
  exact .ite (.next _) (.ordered (.feWords fun _ => .ite (.waitAs ..) (.next _)))

theorem execStfe_goesOn (x : Args) : GoesOn (execStfe x s) := by
  refine .run hc rfl rfl fun c h => ?_
  obtain ⟨j, p, hj, hp⟩ := h.panel rfl rfl
  simp only [hj, hp, Option.bind_some, Option.map_some]
  exact .ite (.next _) (.ordered (.feWords fun _ => .ite (.waitAs ..) (.next _)))

theorem execSprq_goesOn (x : Args) : GoesOn (execSprq x s) :=
  .run hc rfl rfl fun _ _ => .ite (.next _) (.sendVals ..)

theorem execPgq_goesOn (x : Args) : GoesOn (execPgq x s) :=
  .run hc rfl rfl fun _ _ => .ite (.next _) (.peeking fun _ => .sendVals ..)

theorem execCflush_goesOn (x : Args) : GoesOn (execCflush x s) :=
  .run hc rfl rfl fun _ _ => .ite (.next _) (.ite (.wait _) (.peeking fun _ => .next _))

/-! Control forms. -/

theorem execBrx_goesOn (x : Args) : GoesOn (execBrx x s) := by
  refine .run hc rfl rfl fun c h => ?_
  dsimp only
  split
  · exact .next _
  · split
    · exact .trap ..
    · exact .miss ..
    · exact .wait _
    · exact .next _
    · exact .branch h.stands ..

theorem execBrsp_goesOn (x : Args) : GoesOn (execBrsp x s) := by
  refine .run hc rfl rfl fun c h => ?_
  obtain ⟨j, n, t, he, ht⟩ := h.strand rfl rfl rfl
  obtain ⟨p, hp⟩ := State.panel?_of_strand? ht
  simp only [he, hp]
  exact .ite (.next _) (.andThen fun _ => .ite (.wait _) (.ite (.waitAs ..) (.ite (.wait _) (.next _))))

theorem execCall_goesOn (x : Args) : GoesOn (execCall x s) := by
  refine .run hc rfl rfl fun c h => .ite (.next _) ?_
  split
  · exact .ite (.trap ..) (.ite (.wait _) (.branch h.stands ..))
  · exact .branch h.stands ..

theorem execRet_goesOn (x : Args) : GoesOn (execRet x s) := by
  refine .run hc rfl rfl fun c h => .ite (.next _) ?_
  split
  · exact .trap ..
  · exact .branch h.stands ..

theorem execRetr_goesOn (x : Args) : GoesOn (execRetr x s) := by
  refine .run hc rfl rfl fun c h => ?_
  split
  · exact .next _
  · dsimp only
    split
    · exact .trap ..
    · exact .branch h.stands ..

theorem execJoin_goesOn (x : Args) : GoesOn (execJoin x s) := by
  refine .run hc rfl rfl fun c h => ?_
  obtain ⟨j, n, t, he, ht⟩ := h.strand rfl rfl rfl
  simp only [he]
  refine .ite (.next _) (.ite (.trap ..) ?_)
  split <;> exact .next _

theorem execExit_goesOn (x : Args) : GoesOn (execExit x s) := by
  refine .run hc rfl rfl fun c h => ?_
  obtain ⟨j, p, hj, hp⟩ := h.panel rfl rfl
  cases he : c.ex with
  | str j n => exact .next _
  | bob j => exact .next _
  | mgt m => simp [he, Ex.panel] at hj

theorem execLoop_goesOn (x : Args) : GoesOn (execLoop x s) := by
  refine .run hc rfl rfl fun c h => ?_
  obtain ⟨n, hd⟩ := h.sreg rfl
  simp only [hd]
  exact .ite (.next _) (.branch h.stands ..)

theorem execWalk_goesOn (x : Args) : GoesOn (execWalk x s) := by
  refine .run hc rfl rfl fun c h => ?_
  obtain ⟨j, p, he, hp⟩ := h.bobbin rfl rfl rfl
  simp only [he]
  exact .ite (.trap ..) (.withWords fun _ => .ite (.trap ..) (.ite (.trap ..) (.next _)))

theorem execWnext_goesOn (x : Args) : GoesOn (execWnext x s) := by
  refine .run hc rfl rfl fun c h => ?_
  obtain ⟨j, p, he, hp⟩ := h.bobbin rfl rfl rfl
  obtain ⟨n, hd⟩ := h.sreg rfl
  simp only [he, hd]
  split
  · exact .trap ..
  · exact .ite (.branch h.stands ..) (.next _)

theorem execDqpush_goesOn (x : Args) : GoesOn (execDqpush x s) := by
  refine .run hc rfl rfl fun c h => ?_
  obtain ⟨j, p, he, hp⟩ := h.bobbin rfl rfl rfl
  simp only [he, hp]
  exact .ite (.trap ..) (.ite (.wait _) (.next _))

theorem execDqbr_goesOn (x : Args) : GoesOn (execDqbr x s) := by
  refine .run hc rfl rfl fun c h => ?_
  obtain ⟨j, n, t, he, ht⟩ := h.strand rfl rfl rfl
  simp only [he, ht, Option.map_some]
  refine .ite (.next _) ?_
  cases t.dq with
  | nil => exact .ite (.trap ..) (.wait _)
  | cons d ds => exact .branch h.stands ..

/-! Ordering forms. -/

theorem execFence_goesOn (x : Args) : GoesOn (execFence x s) := by
  refine .run hc rfl rfl fun c _ => .ite (.next _) (.ite (.trap ..) (.ite (.wait _) (.ite (.wait _) (.ite (.wait _) ?_))))
  split
  · exact .async ..
  · exact .ite (.pointWait ..) (.next _)

theorem execDrain_goesOn (x : Args) : GoesOn (execDrain x s) := by
  refine .run hc rfl rfl fun c _ => .ite (.next _) (.ite (.wait _) ?_)
  split
  · exact .async ..
  · exact .next _

theorem execWfence_goesOn (x : Args) : GoesOn (execWfence x s) :=
  .run hc rfl rfl fun _ _ => .ite (.next _) (.ite (.wait _) (.next _))

theorem execScts_goesOn (x : Args) : GoesOn (execScts x s) :=
  .run hc rfl rfl fun _ _ => .ite (.next _) (.ite (.wait _) (.next _))

/-! Knots, barriers and scoreboard forms. -/

theorem execKninit_goesOn (x : Args) : GoesOn (execKninit x s) :=
  .run hc rfl rfl fun _ _ => .ite (.next _) (.ite (.trap ..) (.withKnot fun _ => .ordered (.ite (.wait _) (.next _))))

theorem execKnarr_goesOn (x : Args) : GoesOn (execKnarr x s) :=
  .run hc rfl rfl fun _ _ => .ite (.next _) (.ite (.trap ..) (.withKnot fun _ => .ordered (.next _)))

theorem expectForm_goesOn {i : Instr} {sp : Spec} {x : Args} (hs : i.spec = some sp) (hf : i.fields = some x) (unit : Bool) :
    GoesOn (expectForm i unit s) :=
  .run hc hs hf fun _ _ => .ite (.next _) (.ite (.trap ..) (.withKnot fun _ => .ordered (.next _)))

theorem execKnwait_goesOn (x : Args) : GoesOn (execKnwait x s) :=
  .run hc rfl rfl fun _ _ => .ite (.next _) (.ite (.trap ..) (.withKnot fun _ => .ordered (.ite (.waitAs ..) (.next _))))

theorem execKntry_goesOn (x : Args) : GoesOn (execKntry x s) :=
  .run hc rfl rfl fun _ _ => .ite (.next _) (.ite (.trap ..) (.withKnot fun _ => .ite (.wait _) (.ordered (.send ..))))

/-- A barrier form runs on a strand, which stands with its panel. -/
theorem barForm_goesOn {i : Instr} {sp : Spec} {x : Args} (hs : i.spec = some sp) (hf : i.fields = some x) (hb : sp.ex.bob = false)
    (hm : sp.ex.mgt = false) (hp : sp.ex.pkg = false) (sb : Bool) : GoesOn (barForm i sb s) := by
  refine .run hc hs hf fun c h => ?_
  obtain ⟨j, n, t, he, ht⟩ := h.strand hb hm hp
  obtain ⟨p, hp⟩ := State.panel?_of_strand? ht
  simp -zeta only [he, ht, hp]
  refine .ite (.next _) (.ite (.trap ..) (.ite (.trap ..) (.ite (.trap ..) (.whenClosed ?_))))
  extract_lets w live
  split
  · exact .async ..
  · exact .ite (.ite (.waitAs ..) (.waitAs ..)) (.next _)
  · exact .ite (.wait _) (.ite (.next _) (.ite (.waitAs ..) (.waitAs ..)))

theorem execRsq_goesOn (x : Args) : GoesOn (execRsq x s) :=
  .run hc rfl rfl fun _ _ => .ite (.next _) (.ite (.trap ..) (.send ..))

theorem execRsclr_goesOn (x : Args) : GoesOn (execRsclr x s) :=
  .run hc rfl rfl fun _ _ => .ite (.next _) (.ite (.trap ..) (.next _))

end

/-- The panel that the meanings of forms look up for their executor. -/
theorem MayRun.panelHere {i : Instr} {s : State} {c : Cx} {sp : Spec} {x : Args} (h : MayRun i s c sp x) (hm : sp.ex.mgt = false)
    (hp : sp.ex.pkg = false) : ∃ p, s.panel? (c.ex.panel.getD 0) = some p := by
  obtain ⟨j, p, hj, hpj⟩ := h.panel hm hp
  exact ⟨p, by rw [hj]; exact hpj⟩

section
variable {s : State} (hc : s.mkCx.isSome = true)
include hc

/-! Copies and matrix forms. -/

theorem copyForm_goesOn {i : Instr} {sp : Spec} {x : Args} (hs : i.spec = some sp) (hf : i.fields = some x) (hm : sp.ex.mgt = false)
    (hp : sp.ex.pkg = false) (f : CpyForm) : GoesOn (copyForm i f s) := by
  refine .run hc hs hf fun c h => ?_
  obtain ⟨p, hpj⟩ := h.panelHere hm hp
  extract_lets +onlyGivenNames c1 j
  simp -zeta only [c1, j, hpj]
  refine .ite (.trap ..) ?_
  extract_lets +onlyGivenNames b d lo cnt
  split
  · exact .trap ..
  split
  · exact .trap ..
  split
  · exact .trap ..
  extract_lets +onlyGivenNames bobSeq k old regs
  split
  · exact .trap ..
  split
  · exact .trap ..
  exact .ordered (.ite (.wait _) (.next _))

theorem execMloop_goesOn (f : MFmt) (reuse : Bool) (x : Args) : GoesOn (execMloop f reuse x s) := by
  refine matrixForm_goesOn hc rfl rfl rfl rfl (fun c h p => ?_) _
  dsimp -zeta only
  extract_lets +onlyGivenNames b m a n ill src
  split
  · exact .trap ..
  refine .ite (.trap ..) (.ite (.trap ..) (.ite (.trap ..) (.ite (.trap ..) (.ite (.trap ..) ?_))))
  split
  · exact .trap ..
  · exact .awaitGroup (.ordered (.ite (.wait _) (.enqueue ..)))

theorem execMzero_goesOn (x : Args) : GoesOn (execMzero x s) :=
  matrixForm_goesOn hc rfl rfl rfl rfl (fun _ _ _ => .ite (.trap ..) (.ite (.next _) (.enqueue ..))) _

theorem execMldt_goesOn (x : Args) : GoesOn (execMldt x s) := by
  refine matrixForm_goesOn hc rfl rfl rfl rfl (fun c h p => .ite (.trap ..) (.ite (.trap ..) (.ite (.trap ..) ?_))) _
  split
  · exact .trap ..
  · exact .ordered (.enqueue ..)

theorem execMaddt_goesOn (x : Args) : GoesOn (execMaddt x s) :=
  matrixForm_goesOn hc rfl rfl rfl rfl (fun _ _ _ => .enqueue ..) _

theorem execMcvt_goesOn (x : Args) : GoesOn (execMcvt x s) :=
  matrixForm_goesOn hc rfl rfl rfl rfl (fun _ _ _ => .enqueue ..) _

theorem execMstt_goesOn (bf : Bool) (x : Args) : GoesOn (execMstt bf x s) := by
  refine matrixForm_goesOn hc rfl rfl rfl rfl (fun c h p => .ite (.trap ..) (.ite (.trap ..) (.ite (.trap ..) ?_))) _
  split
  · exact .trap ..
  refine .ordered ?_
  dsimp only
  split
  · exact .wait _
  · exact .ite (.wait _) (.next _)

theorem execMwait_goesOn (x : Args) : GoesOn (execMwait x s) := by
  refine matrixForm_goesOn hc rfl rfl rfl rfl (fun c h p => .ite (.trap ..) (.ite (.wait _) ?_)) _
  split
  · exact .async ..
  · exact .next _

theorem execOfence_goesOn (x : Args) : GoesOn (execOfence x s) :=
  matrixForm_goesOn hc rfl rfl rfl rfl (fun _ _ _ => .ordered (.ite (.waitAs ..) (.next _))) _

theorem execMspc_goesOn (x : Args) : GoesOn (execMspc x s) :=
  matrixForm_goesOn hc rfl rfl rfl rfl (fun _ _ _ => .ite (.trap ..) (.ite (.trap ..) (.ite (.trap ..) (.ite (.trap ..)
    (.ite (.trap ..) (.ite (.trap ..) (.ite (.trap ..) (.next _)))))))) _

theorem execMresc_goesOn (x : Args) : GoesOn (execMresc x s) :=
  matrixForm_goesOn hc rfl rfl rfl rfl (fun _ _ _ => .ite (.trap ..) (.enqueue ..)) _

/-! KV forms, roles and masks. -/

theorem execKvmap_goesOn (x : Args) : GoesOn (execKvmap x s) := by
  refine .run hc rfl rfl fun c _ => .ite (.next _) (.slotGate (.ite (.trap ..) (.ordered ?_)))
  extract_lets +onlyGivenNames idle put
  have hput (m : Option KvMap) : GoesOn (put m) := .ite (.wait _) (.next _)
  clear_value put
  refine .ite (hput _) (.ite (.trap ..) ?_)
  extract_lets +onlyGivenNames go
  have hgo (ws : List W64) : GoesOn (go ws) := by
    dsimp only [go]
    split
    · exact .trap ..
    · exact hput _
  exact .ite (.andCtx hgo) (.andRead hgo)

theorem execKvld_goesOn (x : Args) : GoesOn (execKvld x s) := by
  refine .run hc rfl rfl fun c h => .ite (.next _) ?_
  obtain ⟨p, hp⟩ := h.panelHere rfl rfl
  extract_lets +onlyGivenNames j
  simp -zeta only [j, hp]
  refine .withMap fun m => .ite (.trap ..) ?_
  dsimp only
  split
  · exact .trap ..
  refine .ite ?_ (.andThen fun q => ?_)
  all_goals
    split
    · exact .trap ..
    refine .ordered ?_
    split
    · exact .wait _
    · exact .send ..

theorem execKvapp_goesOn (x : Args) : GoesOn (execKvapp x s) := by
  refine .run hc rfl rfl fun c h => .ite (.next _) ?_
  obtain ⟨p, hp⟩ := h.panelHere rfl rfl
  extract_lets +onlyGivenNames j
  simp -zeta only [j, hp]
  refine .withMap fun m => ?_
  extract_lets +onlyGivenNames n key rs
  split
  · exact .trap ..
  extract_lets +onlyGivenNames offs ck b
  split
  · exact .trap ..
  exact .ordered (.ite (.wait _) (.sendQuiet ..))

theorem streamForm_goesOn {i : Instr} {sp : Spec} {x : Args} (hs : i.spec = some sp) (hf : i.fields = some x) (two : Bool)
    (op : KvMap → Cx → Args → KvOp ⊕ TrapInfo) : GoesOn (streamForm i two s op) := by
  refine .run hc hs hf fun c _ => .ite (.next _) (.slotGate (.ite (.trap ..) (.withMap fun m => ?_)))
  split
  · exact .trap ..
  split
  · exact .trap ..
  · exact .ordered (.sendQuiet ..)

theorem execRole_goesOn (x : Args) : GoesOn (execRole x s) := by
  refine .run hc rfl rfl fun c h => .ite (.next _) (.ite (.trap ..) ?_)
  obtain ⟨j, n, t, he, -⟩ := h.strand rfl rfl rfl
  simp only [he]
  exact .next _

theorem execTmask_goesOn (x : Args) : GoesOn (execTmask x s) := by
  refine .run hc rfl rfl fun c h => .ite (.next _) ?_
  obtain ⟨p, hp⟩ := h.panelHere rfl rfl
  extract_lets +onlyGivenNames j
  simp -zeta only [j, hp]
  refine .ite (.trap ..) (.ite (.trap ..) (.ite (.trap ..) ?_))
  split
  · exact .trap ..
  · exact .ordered (.ite (.wait _) (.next _))

theorem execMrow_goesOn (x : Args) : GoesOn (execMrow x s) := by
  refine .run hc rfl rfl fun c h => .ite (.next _) ?_
  obtain ⟨p, hp⟩ := h.panelHere rfl rfl
  extract_lets +onlyGivenNames j
  simp -zeta only [j, hp]
  exact .ite (.trap ..) (.next _)

/-! Collectives, counters, mailboxes and triggers. -/

theorem collForm_goesOn {i : Instr} {sp : Spec} {x : Args} (hs : i.spec = some sp) (hf : i.fields = some x) (hm : sp.ex.mgt = false)
    (hp : sp.ex.pkg = false) (kind : Nat) : GoesOn (collForm i kind s) := by
  refine .run hc hs hf fun c h => ?_
  obtain ⟨p, hpj⟩ := h.panelHere hm hp
  extract_lets +onlyGivenNames c1 j
  simp -zeta only [c1, j, hpj]
  refine .ite (.trap ..) ?_
  extract_lets +onlyGivenNames b d tile
  split
  · exact .trap ..
  refine .andRead fun g => ?_
  extract_lets +onlyGivenNames rank
  split
  · exact .trap ..
  split
  · exact .trap ..
  extract_lets +onlyGivenNames bobSeq k old
  split
  · exact .trap ..
  split
  · exact .trap ..
  exact .ordered (.ite (.wait _) (.next _))

theorem execCqrd_goesOn (x : Args) : GoesOn (execCqrd x s) :=
  .run hc rfl rfl fun _ _ => .ite (.next _) (.ite (.trap ..) (.slotGate (.ite (.sendRegs ..)
    (.ordered (.andCtx fun _ => .sendRegs ..)))))

theorem execScinc_goesOn (x : Args) : GoesOn (execScinc x s) := by
  refine .run hc rfl rfl fun c _ => .ite (.next _) (.ite (.trap ..) (.slotGate ?_))
  split
  · exact .trap ..
  · exact .ordered (.next _)

theorem execScrd_goesOn (x : Args) : GoesOn (execScrd x s) := by
  refine .run hc rfl rfl fun c _ => .ite (.next _) (.slotGate ?_)
  split
  · exact .trap ..
  · exact .ordered (.ite (.wait _) (.sendRegs ..))

theorem execScwait_goesOn (x : Args) : GoesOn (execScwait x s) := by
  refine .run hc rfl rfl fun c _ => .ite (.next _) (.slotGate ?_)
  split
  · exact .trap ..
  · exact .ordered (.ite (.waitAs ..) (.next _))

theorem execMbrd_goesOn (x : Args) : GoesOn (execMbrd x s) :=
  .run hc rfl rfl fun _ _ => .ite (.next _) (.ite (.trap ..) (.slotGate (.ordered (.ite (.next _) (.waitAs ..)))))

theorem execVdhop_goesOn (x : Args) : GoesOn (execVdhop x s) :=
  .run hc rfl rfl fun _ _ => .ite (.next _) (.slotGate (.ite (.trap ..) (.ordered (.sendRegs ..))))

theorem execVdq_goesOn (x : Args) : GoesOn (execVdq x s) :=
  .run hc rfl rfl fun _ _ => .ite (.next _) (.ite (.trap ..) (.slotGate (.ordered (.sendRegs ..))))

theorem execTrig_goesOn (x : Args) : GoesOn (execTrig x s) := by
  refine .run hc rfl rfl fun c _ => .ite (.next _) (.ite (.trap ..) (.slotGate (.ite (.trap ..) ?_)))
  dsimp only
  split
  · exact .trap ..
  refine .andRead fun g => ?_
  split
  · exact .trap ..
  split
  · exact .trap ..
  refine .ordered ?_
  split
  · exact .wait _
  · exact .next _

theorem execDpost_goesOn (x : Args) : GoesOn (execDpost x s) :=
  .run hc rfl rfl fun _ _ => .ite (.next _) (.ite (.trap ..) (.andRead fun _ => .ite (.trap ..) (.ite (.trap ..)
    (.andRead fun _ => .ordered (.ite (.wait _) (.next _))))))

theorem execLpq_goesOn (x : Args) : GoesOn (execLpq x s) := by
  refine .run hc rfl rfl fun c _ => .ite (.next _) (.slotGate (.ite (.trap ..) (.ordered ?_)))
  dsimp only
  split <;> exact .sendRegs ..

end

section
variable {s : State} (hc : s.mkCx.isSome = true)
include hc

/-! Scheduling forms. -/

theorem execFork_goesOn (x : Args) : GoesOn (execFork x s) := by
  refine .run hc rfl rfl fun c h => .ite (.next _) ?_
  obtain ⟨j, p, hj, hp⟩ := h.panel rfl rfl
  simp -zeta only [hj, hp, Option.bind_some]
  extract_lets +onlyGivenNames r l
  split
  · exact .trap ..
  refine .ite (.wait _) ?_
  split
  · exact .next _
  · exact .wait _

theorem execJctr_goesOn (x : Args) : GoesOn (execJctr x s) := by
  refine .run hc rfl rfl fun c h => .ite (.next _) ?_
  obtain ⟨j, p, hj, hp⟩ := h.panel rfl rfl
  simp -zeta only [hj, hp, Option.bind_some]
  dsimp only
  split
  · exact .trap ..
  refine .ite (.trap ..) (.andThen fun q => .ordered ?_)
  split
  · exact .next _
  refine .ite (.wait _) ?_
  split
  · exact .wait _
  · exact .next _
  · exact .next _
  · refine .ite ?_ (.next _)
    split
    · exact .next _
    · exact .wait _

theorem execLnch_goesOn (x : Args) : GoesOn (execLnch x s) := by
  refine .run hc rfl rfl fun c _ => .ite (.next _) (.slotGate (.ite (.trap ..) (.withWords fun ws => .ordered ?_)))
  split
  · exact .trap ..
  · exact .ite (.wait _) (.next _)

theorem execYield_goesOn (x : Args) : GoesOn (execYield x s) := by
  refine .run hc rfl rfl fun c h => ?_
  obtain ⟨j, n, t, he, ht⟩ := h.strand rfl rfl rfl
  simp only [he, ht]
  exact .ite (.next _) (.next _)

theorem execQpush_goesOn (x : Args) : GoesOn (execQpush x s) := by
  refine .run hc rfl rfl fun c _ => .ite (.next _) (.slotGate ?_)
  dsimp only
  split
  · exact .trap ..
  · exact .ite (.waitToken ..) (.ordered (.next _))

theorem execQpop_goesOn (x : Args) : GoesOn (execQpop x s) := by
  refine .run hc rfl rfl fun c _ => .ite (.next _) (.slotGate ?_)
  dsimp only
  split
  · exact .trap ..
  · exact .ite (.waitToken ..) (.ordered (.next _))

theorem execPrio_goesOn (x : Args) : GoesOn (execPrio x s) :=
  .run hc rfl rfl fun _ _ => .ite (.next _) (.ite (.trap ..) (.next _))

theorem execSrd_goesOn (x : Args) : GoesOn (execSrd x s) :=
  .run hc rfl rfl fun _ _ => .ite (.next _) (.ite (.trap ..) (.next _))

/-! System forms. -/

theorem execTrap_goesOn (x : Args) : GoesOn (execTrap x s) := .run hc rfl rfl fun _ _ => .softTrap fun _ => .trap ..

theorem execBkpt_goesOn (x : Args) : GoesOn (execBkpt x s) := .run hc rfl rfl fun _ _ => .softTrap fun _ => .trap ..

theorem execSvc_goesOn (x : Args) : GoesOn (execSvc x s) := .run hc rfl rfl fun _ _ => .softTrap fun _ => .next _

theorem execDwin_goesOn (x : Args) : GoesOn (execDwin x s) := by
  refine .run hc rfl rfl fun c h => ?_
  obtain ⟨m, he⟩ := h.management rfl rfl
  simp -zeta only [he]
  refine .ite (.next _) ?_
  extract_lets +onlyGivenNames j tab opened
  have hopened (i : Option (Nat × ParkEntry)) (v : Nat) (claim : State → State) : GoesOn (opened i v claim) := .ordered (.next _)
  clear_value opened
  refine .ite ?_ ?_
  · dsimp only
    split <;> exact hopened ..
  · split
    · exact hopened ..
    · exact .trap ..

theorem execTret_goesOn (x : Args) : GoesOn (execTret x s) := by
  refine .run hc rfl rfl fun c h => ?_
  obtain ⟨m, he⟩ := h.management rfl rfl
  simp -zeta only [he]
  refine .ite (.next _) (.ite (.trap ..) (.ite (.ite (.trap ..) (.next _)) ?_))
  split
  · exact .trap ..
  · exact .ite (.wait _) (.ite (.ite (.next _) (.ordered (.next _))) (.ite (.next _) (.next _)))

theorem execSyrd_goesOn (x : Args) : GoesOn (execSyrd x s) := by
  refine .run hc rfl rfl fun c h => .ite (.next _) (.ite (.trap ..) ?_)
  dsimp only
  split
  · exact .trap ..
  next hr =>
  cases he : c.ex with
  | str j k => exact .ite (.wait _) (.next _)
  | bob j => simp [he, sysReach] at hr
  | mgt m =>
    refine .ite (.next _) ?_
    split
    · exact .next _
    · split
      · exact .trap ..
      · exact .ite (.wait _) (.next _)

theorem execSywr_goesOn (x : Args) : GoesOn (execSywr x s) := by
  refine .run hc rfl rfl fun c h => ?_
  obtain ⟨m, he⟩ := h.management rfl rfl
  simp -zeta only [he]
  refine .ite (.next _) (.ite (.trap ..) (.ite (.trap ..) (.ite (.ite (.trap ..) (.next _)) (.ite ?_ (.next _)))))
  split
  · exact .next _
  · exact .ite (.trap ..) (.ite (.wait _) (.next _))

theorem execTlbi_goesOn (x : Args) : GoesOn (execTlbi x s) := by
  refine .run hc rfl rfl fun c h => ?_
  obtain ⟨m, he⟩ := h.management rfl rfl
  simp -zeta only [he]
  refine .ite (.next _) (.slotGate (.ordered (.ite (.wait _) ?_)))
  split
  · exact .wait _
  · exact .ite (.wait _) (.next _)

theorem execCtxl_goesOn (x : Args) : GoesOn (execCtxl x s) := by
  refine .run hc rfl rfl fun c h => ?_
  obtain ⟨m, he⟩ := h.management rfl rfl
  simp -zeta only [he]
  refine .ite (.next _) (.ite (.ite (.trap ..) (.ite (.trap ..) (.ite (.trap ..) (.next _))))
    (.ite (.ite (.trap ..) (.wait _)) ?_))
  split
  · exact .trap ..
  · exact .ite (.trap ..) (.next _)

theorem execCtxs_goesOn (x : Args) : GoesOn (execCtxs x s) := by
  refine .run hc rfl rfl fun c h => ?_
  obtain ⟨m, he⟩ := h.management rfl rfl
  simp -zeta only [he]
  refine .ite (.next _) (.ite (.trap ..) (.ite (.trap ..) (.ite (.trap ..) ?_)))
  split <;> exact .next _

theorem execWdog_goesOn (x : Args) : GoesOn (execWdog x s) := by
  refine .run hc rfl rfl fun c h => ?_
  obtain ⟨m, he⟩ := h.management rfl rfl
  simp -zeta only [he]
  refine .ite (.next _) ?_
  dsimp only
  split
  · exact .trap ..
  · exact .ite (.wait _) (.next _)

theorem execWaitt_goesOn (x : Args) : GoesOn (execWaitt x s) := by
  refine .run hc rfl rfl fun c _ => .ite (.next _) ?_
  split
  · exact .async ..
  · exact .wait _

theorem execPwreq_goesOn (x : Args) : GoesOn (execPwreq x s) :=
  .run hc rfl rfl fun _ _ => .ite (.next _) (.ite (.trap ..) (.ite (.ite (.next _) (.next _)) (.next _)))

theorem execPwrq_goesOn (x : Args) : GoesOn (execPwrq x s) :=
  .run hc rfl rfl fun _ _ => .ite (.next _) (.ite (.next _) (.ite (.trap ..) (.next _)))

theorem execHalt_goesOn (x : Args) : GoesOn (execHalt x s) := by
  refine .run hc rfl rfl fun c h => ?_
  obtain ⟨m, he⟩ := h.management rfl rfl
  simp only [he]
  exact .ite (.next _) (.next _)

end

end Sys2Proof.Machine
end

section
/-! PROOFS. Every step of the module goes on, and with the forms all that the dispatch names (O60). -/

namespace Sys2Proof.Machine

/-! The module's steps. -/

section
variable (s : State)

theorem execPendingFill_goesOn (id : Nat) : GoesOn (execPendingFill id s) := by
  unfold execPendingFill
  split
  · split <;> exact .next _
  · exact .next _

theorem execWriteAck_goesOn (id : Nat) : GoesOn (execWriteAck id s) := by
  unfold execWriteAck
  split
  · split <;> exact .next _
  · exact .next _

theorem execHomeL2Access_goesOn (id : Nat) : GoesOn (execHomeL2Access id s) := by
  unfold execHomeL2Access
  split
  · exact .ite (.next _) (.ite (.next _) (.ite (.next _) (.next _)))
  · exact .next _

theorem execRedApply_goesOn (id : Nat) : GoesOn (execRedApply id s) := by
  unfold execRedApply
  split
  · split
    · exact .ite (.next _) (.ite (.next _) (.next _))
    · exact .next _
  · exact .next _

theorem execOrdinalArrival_goesOn (id : Nat) : GoesOn (execOrdinalArrival id s) := by
  unfold execOrdinalArrival
  split
  · split
    · refine .ite (.next _) (.ite (.next _) ?_)
      split
      · exact .next _
      · exact .ite (.next _) (.ite (.next _) (.ite (.next _) (.next _)))
    · exact .next _
  · exact .next _

theorem execOrdinalRetry_goesOn (id : Nat) : GoesOn (execOrdinalRetry id s) := by
  unfold execOrdinalRetry
  split <;> exact .next _

theorem execL2Eviction_goesOn (line : Nat) : GoesOn (execL2Eviction line s) := by
  unfold execL2Eviction
  dsimp only
  split
  · exact .next _
  · exact .ite (.next _) (.next _)

theorem execPageWalk_goesOn (d x : Nat) : GoesOn (execPageWalk d x s) := by
  unfold execPageWalk
  dsimp only
  split
  · exact .next _
  · refine .ite (.next _) (.ite (.next _) ?_)
    split <;> exact .next _

theorem execKnotUpdate_goesOn (id : Nat) : GoesOn (execKnotUpdate id s) := by
  unfold execKnotUpdate
  split
  · exact .ite (.next _) (.ite (.next _) (.next _))
  · exact .next _

theorem execCopyComplete_goesOn (h id : Nat) : GoesOn (execCopyComplete h id s) := by
  unfold execCopyComplete
  split
  · exact .next _
  dsimp only
  refine .ite (.next _) (.ite (.next _) ?_)
  split
  · exact .next _
  · split <;> exact .next _
  · split <;> exact .next _
  · refine .ite (.next _) ?_
    split <;> exact .next _

theorem execCopyFault_goesOn (h id : Nat) : GoesOn (execCopyFault h id s) := by
  unfold execCopyFault
  split
  · exact .next _
  · split <;> exact .next _

theorem execMatrixEntryStart_goesOn (d k : Nat) : GoesOn (execMatrixEntryStart d k s) := by
  unfold execMatrixEntryStart
  dsimp only
  split
  · exact .next _
  · exact .ite (.next _) (.ite (.next _) (.next _))

theorem execMatstep_goesOn (d k : Nat) : GoesOn (execMatstep d k s) := by
  unfold execMatstep
  dsimp only
  split
  · exact .next _
  · split
    · exact .ite (.next _) (.next _)
    · exact .next _

theorem execMatrixEntryComplete_goesOn (d k : Nat) : GoesOn (execMatrixEntryComplete d k s) := by
  unfold execMatrixEntryComplete
  dsimp only
  split
  · exact .next _
  · exact .ite (.next _) (.next _)

theorem execMsttComplete_goesOn (id : Nat) : GoesOn (execMsttComplete id s) := by
  unfold execMsttComplete
  split
  · exact .next _
  · exact .ite (.next _) (.next _)

theorem execGrantReturn_goesOn (d k : Nat) : GoesOn (execGrantReturn d k s) := by
  unfold execGrantReturn
  dsimp only
  split
  · exact .next _
  · exact .ite (.next _) (.ite (.next _) (.next _))

theorem execKvEvent_goesOn (id : Nat) : GoesOn (execKvEvent id s) := by
  unfold execKvEvent
  split
  · exact .next _
  refine .ite (.next _) ?_
  split
  · exact .next _
  refine .ite (.next _) ?_
  dsimp only
  split <;> exact .next _

theorem execKvldComplete_goesOn (id : Nat) : GoesOn (execKvldComplete id s) := by
  unfold execKvldComplete
  split
  · exact .next _
  · exact .ite (.next _) (.next _)

/-- The end of a collective finishes it or is tried again. -/
theorem execCollComplete_goesOn (id : Nat) : GoesOn (execCollComplete id s) := by
  unfold execCollComplete
  split
  · exact .next _
  next x _ =>
  extract_lets +onlyGivenNames again q idle plan done
  have hdone (s1 : State) (y : Coll) (st bytes : Nat) : GoesOn (done s1 y st bytes) := by
    dsimp only [done]
    split <;> exact .next _
  clear_value done
  refine .ite (.next _) (.ite (.next _) ?_)
  split
  · exact hdone ..
  refine .ite (.next _) (.ite ?_ (.ite (.next _) (.ite (.next _) (.ite (.next _) ?_))))
  · split
    · exact .next _
    · exact .ite (.next _) (.next _)
  split
  · exact .next _
  · split <;> exact .next _
  · refine .ite (.next _) ?_
    dsimp only
    split <;> exact hdone ..

theorem execStitchIncrement_goesOn (id : Nat) : GoesOn (execStitchIncrement id s) := by
  unfold execStitchIncrement
  split
  · exact .ite (.next _) (.next _)
  · exact .next _

theorem execTriggerFire_goesOn (d i : Nat) : GoesOn (execTriggerFire d i s) := by
  unfold execTriggerFire
  split
  · exact .next _
  · exact .ite (.next _) (.ite (.next _) (.next _))

theorem execExchangeDemand_goesOn (id : Nat) : GoesOn (execExchangeDemand id s) := by
  unfold execExchangeDemand
  split
  · exact .next _
  · refine .ite (.next _) ?_
    dsimp only
    split <;> exact .next _

theorem execExchangePhase_goesOn (id : Nat) : GoesOn (execExchangePhase id s) := by
  unfold execExchangePhase
  split
  · exact .next _
  refine .ite (.next _) (.ite (.next _) (.ite (.next _) (.ite (.next _) (.ite (.next _) ?_))))
  split
  · exact .next _
  · exact .ite (.next _) (.ite (.next _) (.ite (.next _) (.ite (.next _) (.next _))))

theorem execPanelPlacement_goesOn (d : Nat) : GoesOn (execPanelPlacement d s) := by
  unfold execPanelPlacement
  refine .ite (.next _) (.ite (.next _) ?_)
  split
  · exact .next _
  · exact .next _
  · exact .next _
  · split <;> exact .next _

theorem execDistributorPush_goesOn (d : Nat) : GoesOn (execDistributorPush d s) := by
  unfold execDistributorPush
  dsimp only
  split
  · exact .next _
  · split <;> exact .next _

theorem execForcedSave_goesOn (h i : Nat) : GoesOn (execForcedSave h i s) := by
  unfold execForcedSave
  split
  · exact .next _
  refine .ite (.next _) (.ite (.ite (.next _) (.next _)) ?_)
  split
  · exact .next _
  · exact .ite (.next _) (.next _)

theorem execPanelSwapOut_goesOn (h : Nat) : GoesOn (execPanelSwapOut h s) := by
  unfold execPanelSwapOut
  split
  · exact .next _
  · exact .ite (.next _) (.ite (.ite (.next _) (.next _)) (.ite (.ite (.next _) (.next _)) (.next _)))

theorem execPreemption_goesOn (d : Nat) : GoesOn (execPreemption d s) := by
  unfold execPreemption
  dsimp only
  split <;> exact .next _

theorem execPanelComplete_goesOn (h : Nat) : GoesOn (execPanelComplete h s) := by
  unfold execPanelComplete
  split
  · exact .next _
  refine .ite (.next _) (.ite (.next _) (.ite (.next _) (.ite (.next _) (.ite (.next _) ?_))))
  split <;> exact .next _

/-- A join's decrement is made, tried again or logged as a fault. -/
theorem execJoinDecrement_goesOn (id : Nat) : GoesOn (execJoinDecrement id s) := by
  unfold execJoinDecrement
  split
  · exact .next _
  refine .ite (.next _) (.ite (.next _) ?_)
  split
  · exact .next _
  dsimp only
  split
  · exact .next _
  · exact .next _
  refine .ite (.next _) ?_
  split
  · exact .next _
  · exact .next _
  · exact .next _
  · exact .ite (.next _) (.next _)

theorem execGatherFlush_goesOn (h : Nat) : GoesOn (execGatherFlush h s) := by
  unfold execGatherFlush
  split
  · exact .next _
  refine .ite (.next _) ?_
  split <;> exact .next _

theorem execGatheredStrandStart_goesOn (h : Nat) : GoesOn (execGatheredStrandStart h s) := by
  unfold execGatheredStrandStart
  split
  · exact .next _
  split
  · exact .next _
  refine .ite (.next _) ?_
  split <;> exact .next _

theorem execContextSaveDone_goesOn (d c : Nat) : GoesOn (execContextSaveDone d c s) := by
  refine .ite (.next _) (.ite (.next _) ?_)
  split <;> exact .next _

theorem execWatchdogExpiry_goesOn (d c : Nat) : GoesOn (execWatchdogExpiry d c s) :=
  .ite (.next _) (.ite (.next _) (.ite (.next _) (.next _)))

theorem execExecutorPark_goesOn (h slot : Nat) : GoesOn (execExecutorPark h slot s) := by
  unfold execExecutorPark
  dsimp only
  split
  · exact .ite (.next _) (.ite (.next _) (.next _))
  · exact .next _

theorem execPatternTestDone_goesOn (sock ch : Nat) : GoesOn (execPatternTestDone sock ch s) := by
  unfold execPatternTestDone
  dsimp only
  split <;> exact .next _

theorem execImageVerification_goesOn : GoesOn (execImageVerification s) := by
  refine .ite (.next _) ?_
  dsimp only
  split <;> exact .next _

theorem execWdata_goesOn (m : Nat) (v : W64) : GoesOn (execWdata m v s) := by
  unfold execWdata
  split
  · split <;> exact .next _
  · exact .next _

theorem execDeviceRegisterWrite_goesOn (sock off v : Nat) : GoesOn (execDeviceRegisterWrite sock off v s) :=
  .ite (.next _) (.ite (.next _) (.ite (.next _) (.ite (.next _) (.next _))))

/-! The host's steps. -/

theorem execRdmaWrite_goesOn (key addr : Nat) (data : List (BitVec 8)) : GoesOn (execRdmaWrite key addr data s) := by
  refine .ite (.next _) (.ite (.ite (.next _) (.ite (.next _) (.ite (.next _) (.ite (.next _) (.ite (.next _) (.next _))))))
    (.ite (.next _) (.ite (.ite (.next _) (.ite (.next _) (.next _))) ?_)))
  split
  · exact .next _
  · exact .ite (.next _) (.ite (.next _) (.ite (.next _) (.next _)))

theorem execRdmaRead_goesOn (key addr len : Nat) : GoesOn (execRdmaRead key addr len s) := by
  refine .ite (.next _) (.ite (.next _) (.ite (.next _) (.ite (.ite (.next _) (.next _)) ?_)))
  split
  · exact .next _
  · exact .ite (.next _) (.ite (.next _) (.ite (.next _) (.next _)))

theorem execLaunch_goesOn (m : Nat) : GoesOn (execLaunch m s) := by
  refine .ite (.next _) (.ite (.next _) (.ite (.next _) (.ite (.next _) (.ite (.next _) (.ite (.next _) ?_)))))
  split
  · exact .next _
  · exact .next _
  · exact .next _
  · split <;> exact .next _

theorem execSpoolLoadCopy_goesOn (socket ctx src dst len : Nat) : GoesOn (execSpoolLoadCopy socket ctx src dst len s) := by
  refine .ite (.next _) (.ite (.next _) ?_)
  split
  · exact .next _
  · split <;> exact .next _

theorem execRingSegmentLoss_goesOn (pos : Nat) : GoesOn (execRingSegmentLoss pos s) := by
  unfold execRingSegmentLoss
  dsimp only
  split <;> exact .next _

end

/-- Every instruction and every step answers a next state; a form does so where an executor issues. -/
theorem exec_goesOn (i : Instr) {s : State} (hc : i.fields.isSome = true → s.mkCx.isSome = true) : GoesOn (exec i s) := by
  cases i with
  | nopShort g | nop x | plop x | vote m x => exact .run (hc rfl) rfl rfl fun _ _ => .next _
  | iadd32S x | isub32S x | imul32S x | iminS32S x | imaxS32S x | and32S x | or32S x | xor32S x | shl32S x | shr32S x
  | sar32S x | mov32S x | iadd64S x | popc32S x | isetEq32S x | isetLtS32S x | isetLtN32S x | fsetLtF32S x | fsetEqF32S x
  | iadd w x | isub w x | imul w x | imulh t x | imad w x | imin t x | imax t x | iabs w x | and w x | or w x | xor w x
  | not w x | shl w x | shr w x | sar w x | rot w x | bfx t x | bfi w x | popc w x | clz w x | ctz w x | brev w x | bperm w x
  | clmul w x | clmulh w x | sel w x | mov w x | movi w x | lea w x | qxch m x | qbc l x | shfl m x | fclass f x | mxsc x
    => exact vecForm_goesOn (hc rfl) rfl rfl _ _
  | faddF32S x | fmulF32S x | fminF32S x | fmaxF32S x | faddBF16S x | fmulBF16S x | cvtBF16F32S x | cvtF32BF16S x | fadd f x
  | fmul f x | ffma f x | fscale f x | fmin f x | fmax f x | hfma2 bf x | dot2 bf x | cvt x | pack x | rnd x
    => unfold exec; exact floatForm_goesOn (hc rfl) rfl rfl _ _
  | bra x | brc x => exact .run (hc rfl) rfl rfl fun _ h => .branch h.stands ..
  | iset k t x | fset k f x => exact cmpForm_goesOn (hc rfl) rfl rfl _
  | frcp x | frsq x | fsqrt x | fexp2 x | flog2 x | ftanh x => exact transForm_goesOn (hc rfl) rfl rfl _
  | unpk x => exact .run (hc rfl) rfl rfl fun _ _ => .ite (.trap ..) (.next _)
  | atom op w x | atcas w x => unfold exec; exact atomForm_goesOn (hc rfl) rfl rfl _ _
  | cpy x | cpyg x | cpym x => unfold exec; exact copyForm_goesOn (hc rfl) rfl rfl rfl rfl _
  | knexp x | knexpTile x => unfold exec; exact expectForm_goesOn (hc rfl) rfl rfl _
  | bar x | sbar x => unfold exec; exact barForm_goesOn (hc rfl) rfl rfl rfl rfl rfl _
  | kvseal x | kvfork x | kvdrop x => unfold exec; exact streamForm_goesOn (hc rfl) rfl rfl _ _
  | coll k x | norm x => unfold exec; exact collForm_goesOn (hc rfl) rfl rfl rfl rfl _
  | time x => exact .run (hc rfl) rfl rfl fun _ _ => .ite (.next _) (.next _)
  | grantWithdrawal socket core | heartbeat | ringReopen | bootlen len | flogPop socket | tbstep step | portLoss port
  | thermalThrottle socket | thermalRecovery socket | thermalShutdown socket | send qp | rdmaAtomic qp | ptpEventFrame port rx
  | arbiterReturn | otpFloorRaise | powerOn | powerOff => exact .next _
  | quote | certs | shuttle => exact .ite (.next _) (.ite (.next _) (.ite (.next _) (.next _)))
  | spoolRefresh bank | standbyTakeover | train socket channel on | repair socket channel value | flitRetry port
  | computeDieLoss socket | iodELoss | iodWLoss => exact .ite (.next _) (.next _)
  | powerGrant socket core | doorbell m | patternTestStart socket channel value | arbiterPackageLoss primary
    => exact .ite (.next _) (.ite (.next _) (.next _))
  | brx x => exact execBrx_goesOn (hc rfl) x
  | brsp x => exact execBrsp_goesOn (hc rfl) x
  | call x => exact execCall_goesOn (hc rfl) x
  | ret x => exact execRet_goesOn (hc rfl) x
  | retr x => exact execRetr_goesOn (hc rfl) x
  | join x => exact execJoin_goesOn (hc rfl) x
  | exit x => exact execExit_goesOn (hc rfl) x
  | loop x => exact execLoop_goesOn (hc rfl) x
  | walk x => exact execWalk_goesOn (hc rfl) x
  | wnext x => exact execWnext_goesOn (hc rfl) x
  | dqpush x => exact execDqpush_goesOn (hc rfl) x
  | dqbr x => exact execDqbr_goesOn (hc rfl) x
  | ld space w x => exact execLd_goesOn (hc rfl) space w x
  | st space w x => exact execSt_goesOn (hc rfl) space w x
  | red op x => exact execRed_goesOn (hc rfl) op x
  | ldt x => exact execLdt_goesOn (hc rfl) x
  | btset x => exact execBtset_goesOn (hc rfl) x
  | ldfe x => exact execLdfe_goesOn (hc rfl) x
  | stfe x => exact execStfe_goesOn (hc rfl) x
  | pref x => exact execPref_goesOn (hc rfl) x
  | sprq x => exact execSprq_goesOn (hc rfl) x
  | pgq x => exact execPgq_goesOn (hc rfl) x
  | cinv x => exact execCinv_goesOn (hc rfl) x
  | cflush x => exact execCflush_goesOn (hc rfl) x
  | fence x => exact execFence_goesOn (hc rfl) x
  | drain x => exact execDrain_goesOn (hc rfl) x
  | wfence x => exact execWfence_goesOn (hc rfl) x
  | scts x => exact execScts_goesOn (hc rfl) x
  | kninit x => exact execKninit_goesOn (hc rfl) x
  | knarr x => exact execKnarr_goesOn (hc rfl) x
  | knwait x => exact execKnwait_goesOn (hc rfl) x
  | kntry x => exact execKntry_goesOn (hc rfl) x
  | rsq x => exact execRsq_goesOn (hc rfl) x
  | rsclr x => exact execRsclr_goesOn (hc rfl) x
  | mloop f reuse x => exact execMloop_goesOn (hc rfl) f reuse x
  | mzero x => exact execMzero_goesOn (hc rfl) x
  | mldt x => exact execMldt_goesOn (hc rfl) x
  | mstt bf x => exact execMstt_goesOn (hc rfl) bf x
  | mwait x => exact execMwait_goesOn (hc rfl) x
  | ofence x => exact execOfence_goesOn (hc rfl) x
  | mspc x => exact execMspc_goesOn (hc rfl) x
  | mcvt x => exact execMcvt_goesOn (hc rfl) x
  | maddt x => exact execMaddt_goesOn (hc rfl) x
  | kvmap x => exact execKvmap_goesOn (hc rfl) x
  | kvld x => exact execKvld_goesOn (hc rfl) x
  | kvapp x => exact execKvapp_goesOn (hc rfl) x
  | role x => exact execRole_goesOn (hc rfl) x
  | tmask x => exact execTmask_goesOn (hc rfl) x
  | mrow x => exact execMrow_goesOn (hc rfl) x
  | mresc x => exact execMresc_goesOn (hc rfl) x
  | mbrd x => exact execMbrd_goesOn (hc rfl) x
  | trig x => exact execTrig_goesOn (hc rfl) x
  | scinc x => exact execScinc_goesOn (hc rfl) x
  | scrd x => exact execScrd_goesOn (hc rfl) x
  | scwait x => exact execScwait_goesOn (hc rfl) x
  | cqrd x => exact execCqrd_goesOn (hc rfl) x
  | dpost x => exact execDpost_goesOn (hc rfl) x
  | lpq x => exact execLpq_goesOn (hc rfl) x
  | vdhop x => exact execVdhop_goesOn (hc rfl) x
  | vdq x => exact execVdq_goesOn (hc rfl) x
  | fork x => exact execFork_goesOn (hc rfl) x
  | jctr x => exact execJctr_goesOn (hc rfl) x
  | lnch x => exact execLnch_goesOn (hc rfl) x
  | yield x => exact execYield_goesOn (hc rfl) x
  | qpush x => exact execQpush_goesOn (hc rfl) x
  | qpop x => exact execQpop_goesOn (hc rfl) x
  | prio x => exact execPrio_goesOn (hc rfl) x
  | srd x => exact execSrd_goesOn (hc rfl) x
  | trap x => exact execTrap_goesOn (hc rfl) x
  | tret x => exact execTret_goesOn (hc rfl) x
  | syrd x => exact execSyrd_goesOn (hc rfl) x
  | sywr x => exact execSywr_goesOn (hc rfl) x
  | tlbi x => exact execTlbi_goesOn (hc rfl) x
  | ctxs x => exact execCtxs_goesOn (hc rfl) x
  | ctxl x => exact execCtxl_goesOn (hc rfl) x
  | dwin x => exact execDwin_goesOn (hc rfl) x
  | waitt x => exact execWaitt_goesOn (hc rfl) x
  | pwreq x => exact execPwreq_goesOn (hc rfl) x
  | pwrq x => exact execPwrq_goesOn (hc rfl) x
  | wdog x => exact execWdog_goesOn (hc rfl) x
  | bkpt x => exact execBkpt_goesOn (hc rfl) x
  | halt x => exact execHalt_goesOn (hc rfl) x
  | svc x => exact execSvc_goesOn (hc rfl) x
  | pendingFill id => exact execPendingFill_goesOn s id
  | writeAck id => exact execWriteAck_goesOn s id
  | homeL2Access id => exact execHomeL2Access_goesOn s id
  | redApply id => exact execRedApply_goesOn s id
  | ordinalArrival id => exact execOrdinalArrival_goesOn s id
  | ordinalRetry id => exact execOrdinalRetry_goesOn s id
  | l2Eviction line => exact execL2Eviction_goesOn s line
  | pageWalk socket page => exact execPageWalk_goesOn s socket page
  | executorPark panel slot => exact execExecutorPark_goesOn s panel slot
  | copyComplete panel id => exact execCopyComplete_goesOn s panel id
  | copyFault panel id => exact execCopyFault_goesOn s panel id
  | knotUpdate id => exact execKnotUpdate_goesOn s id
  | kvldComplete id => exact execKvldComplete_goesOn s id
  | kvEvent id => exact execKvEvent_goesOn s id
  | matrixEntryStart socket core => exact execMatrixEntryStart_goesOn s socket core
  | matstep socket core => exact execMatstep_goesOn s socket core
  | matrixEntryComplete socket core => exact execMatrixEntryComplete_goesOn s socket core
  | msttComplete id => exact execMsttComplete_goesOn s id
  | grantReturn socket core => exact execGrantReturn_goesOn s socket core
  | collComplete id => exact execCollComplete_goesOn s id
  | stitchIncrement id => exact execStitchIncrement_goesOn s id
  | triggerFire socket idx => exact execTriggerFire_goesOn s socket idx
  | exchangeDemand id => exact execExchangeDemand_goesOn s id
  | exchangePhase id => exact execExchangePhase_goesOn s id
  | panelPlacement socket => exact execPanelPlacement_goesOn s socket
  | distributorPush socket => exact execDistributorPush_goesOn s socket
  | panelComplete panel => exact execPanelComplete_goesOn s panel
  | joinDecrement id => exact execJoinDecrement_goesOn s id
  | preemption socket => exact execPreemption_goesOn s socket
  | forcedSave panel slot => exact execForcedSave_goesOn s panel slot
  | panelSwapOut panel => exact execPanelSwapOut_goesOn s panel
  | gatherFlush panel => exact execGatherFlush_goesOn s panel
  | gatheredStrandStart panel => exact execGatheredStrandStart_goesOn s panel
  | watchdogExpiry socket ctx => exact execWatchdogExpiry_goesOn s socket ctx
  | contextSaveDone socket ctx => exact execContextSaveDone_goesOn s socket ctx
  | imageVerification => exact execImageVerification_goesOn s
  | patternTestDone socket channel => exact execPatternTestDone_goesOn s socket channel
  | deviceRegisterWrite socket offset value => exact execDeviceRegisterWrite_goesOn s socket offset value
  | wdata socket value => exact execWdata_goesOn s socket value
  | ringSegmentLoss position => exact execRingSegmentLoss_goesOn s position
  | rdmaWrite region addr data => exact execRdmaWrite_goesOn s region addr data
  | rdmaRead region addr len => exact execRdmaRead_goesOn s region addr len
  | launch mailbox => exact execLaunch_goesOn s mailbox
  | spoolLoadCopy socket ctx src dst len => exact execSpoolLoadCopy_goesOn s socket ctx src dst len

end Sys2Proof.Machine
end

section
/-! PROOFS. What is chosen to issue stands, so that every step of the machine answers a next state (O60). -/

namespace Sys2Proof.Machine

/-! Who issues: the slot that is chosen stands, and still stands as its instruction is fetched. -/

theorem SMap.rising_of_above {α : Type} {m : SMap α} {b : Nat} (h : SMap.above b m = true) : SMap.rising m = true := by
  cases m with
  | nil => rfl
  | cons e m =>
    simp only [SMap.above, Bool.and_eq_true] at h
    exact h.2

theorem SMap.lt_of_above {α : Type} {m : SMap α} {b : Nat} (h : SMap.above b m = true) {e : Nat × α} (he : e ∈ m) : b < e.1 := by
  induction m generalizing b with
  | nil => cases he
  | cons f m ih =>
    simp only [SMap.above, Bool.and_eq_true, decide_eq_true_eq] at h
    obtain ⟨hb, hm⟩ := h
    cases he with
    | head => exact hb
    | tail _ he => exact Nat.lt_trans hb (ih hm he)

/-- A rising map holds no key twice, so what it lists is what a look-up finds. -/
theorem SMap.look_of_mem {α : Type} {m : SMap α} (h : SMap.rising m = true) {k : Nat} {v : α} (he : (k, v) ∈ m) :
    SMap.look m k = some v := by
  induction m with
  | nil => cases he
  | cons f m ih =>
    cases he with
    | head => simp [SMap.look]
    | tail _ he =>
      have hlt : f.1 < k := SMap.lt_of_above h he
      rw [SMap.look, if_neg (Nat.ne_of_lt hlt), if_neg (Nat.lt_asymm hlt), ih (SMap.rising_of_above h) he]

theorem mem_of_choose {α : Type} {n : Nat} {xs : List α} {x : α} (h : choose n xs = some x) : x ∈ xs := by
  unfold choose at h
  split at h
  · cases h
  · cases h; exact List.mem_singleton_self _
  · exact List.mem_of_getElem? h

/-- The slot's executor stands in the state, and a strand's slot is one of its own. -/
def State.canIssue (s : State) (u : Ex × Bool) : Prop :=
  match u.1 with
  | .str h i => ∃ t, s.strand? h i = some t ∧ (State.slotOf t u.2).isSome = true
  | .bob h => ∃ p, s.panel? h = some p
  | .mgt m => m < 18

theorem State.posOf_of_canIssue {s : State} {e : Ex} {b : Bool} (h : s.canIssue (e, b)) : ∃ p, s.posOf e b = some p := by
  cases e with
  | str j i =>
    obtain ⟨t, ht, hb⟩ := h
    obtain ⟨x, hx⟩ := Option.isSome_iff_exists.1 hb
    exact ⟨x.pos, by simp [State.posOf, ht, hx]⟩
  | bob j =>
    obtain ⟨p, hp⟩ := h
    exact ⟨p.bob.pos, by simp [State.posOf, hp]⟩
  | mgt m => exact ⟨_, rfl⟩

theorem State.mkCx_of_canIssue {s : State} (h : s.canIssue (s.cur.ex, s.cur.slotB)) : s.mkCx.isSome = true := by
  unfold State.mkCx
  cases he : s.cur.ex with
  | str j i =>
    rw [he] at h
    obtain ⟨t, ht, hb⟩ := h
    obtain ⟨x, hx⟩ := Option.isSome_iff_exists.1 hb
    simp only [ht, hx, Option.isSome_some]
  | bob j =>
    rw [he] at h
    obtain ⟨p, hp⟩ := h
    simp only [hp, Option.isSome_some]
  | mgt m =>
    rw [he] at h
    have hm : m < 18 := h
    simp only [hm, if_true, Option.isSome_some]

/-! What a slot to issue needs is kept by every update on the way to its instruction. -/

theorem State.canIssue_of_panels {s t : State} (hp : t.panels = s.panels) {u : Ex × Bool} (h : s.canIssue u) : t.canIssue u := by
  have hpanel (j : Nat) : t.panel? j = s.panel? j := by rw [State.panel?, hp]; rfl
  obtain ⟨e, b⟩ := u
  cases e with
  | str j i =>
    obtain ⟨x, hx, hb⟩ := h
    exact ⟨x, by rw [State.strand?, hpanel]; exact hx, hb⟩
  | bob j =>
    obtain ⟨p, hp⟩ := h
    exact ⟨p, by rw [hpanel, hp]⟩
  | mgt m => exact h

theorem State.canIssue_modPanel {s : State} {h : Nat} {f : Panel → Panel} {j : Nat} {b : Bool} (hj : s.canIssue (.bob j, b)) :
    (s.modPanel h f).canIssue (.bob j, b) := by
  obtain ⟨p, hp⟩ := hj
  by_cases hjh : j = h
  · subst hjh
    exact ⟨f p, State.modPanel_panel hp f⟩
  · exact ⟨p, by rw [State.modPanel_panel_other s f hjh, hp]⟩

theorem State.canIssue_modStrand {s : State} {h i : Nat} {f : Strand → Strand}
    (hf : ∀ t b, (State.slotOf (f t) b).isSome = (State.slotOf t b).isSome) {u : Ex × Bool} (hu : s.canIssue u) :
    (s.modStrand h i f).canIssue u := by
  obtain ⟨e, b⟩ := u
  cases e with
  | str j k =>
    obtain ⟨t, ht, hb⟩ := hu
    by_cases hjk : j = h ∧ k = i
    · obtain ⟨rfl, rfl⟩ := hjk
      exact ⟨f t, State.modStrand_strand ht f, by rw [hf]; exact hb⟩
    · exact ⟨t, by rw [State.strand?_modStrand_other s f (Decidable.not_and_iff_not_or_not.1 hjk), ht], hb⟩
  | bob j => exact State.canIssue_modPanel hu
  | mgt m => exact hu

theorem State.canIssue_setPos {s : State} {e : Ex} {b : Bool} {p : Pos} {u : Ex × Bool} (hu : s.canIssue u) :
    (s.setPos e b p).canIssue u := by
  cases e with
  | str j i => exact State.canIssue_modStrand (fun t b' => by cases b <;> cases b' <;> simp [State.setSlot, State.slotOf]) hu
  | bob j =>
    obtain ⟨e', b'⟩ := u
    cases e' with
    | str j' i =>
      obtain ⟨t, ht, hb⟩ := hu
      exact ⟨t, by rw [State.setPos, State.modBob_strand?, ht], hb⟩
    | bob j' => exact State.canIssue_modPanel hu
    | mgt m => exact hu
  | mgt m => exact State.canIssue_of_panels (s := s) rfl hu

theorem State.fetchSoft_panels (s : State) (e : Ex) (va n : Nat) : (s.fetchSoft e va n).panels = s.panels := by
  unfold State.fetchSoft
  split
  · next p _ =>
    obtain ⟨a, r, h⟩ := s.correctedAll_only (groupsOf p n)
    obtain ⟨b, c, d, h'⟩ := State.crossHomes_only [p] (s.correctedAll (groupsOf p n)) (s.site e).1 (s.site e).2
    rw [h', h]
  · rfl

theorem State.canIssue_picked {s : State} (v : Ex × Bool) {u : Ex × Bool} (hu : s.canIssue u) : (s.picked v).canIssue u := by
  unfold State.picked
  extract_lets s1
  have h1 : s1.panels = s.panels := by dsimp only [s1]; split <;> rfl
  have hu1 := State.canIssue_of_panels h1 hu
  split
  · exact hu1
  · exact State.canIssue_of_panels (State.modCore_panels ..) hu1
  · refine State.canIssue_modStrand (fun t b => ?_) (State.canIssue_of_panels (State.modCore_panels ..) hu1)
    rfl

/-! The choice. -/

theorem State.slotOf_of_mem_slotsOf {t : Strand} {b : Bool} (h : b ∈ State.slotsOf t) : (State.slotOf t b).isSome = true := by
  unfold State.slotsOf at h
  extract_lets run at h
  have hrun (b : Bool) (hb : b ∈ run) : (State.slotOf t b).isSome = true := by
    obtain ⟨-, hb⟩ := List.mem_filter.1 hb
    split at hb
    · next x hx => rw [hx]; rfl
    · cases hb
  split at h
  · next b' _ hb' =>
    obtain rfl := List.mem_singleton.1 h
    obtain ⟨-, hb'⟩ := Option.filter_eq_some_iff.1 hb'
    exact hrun b (by simpa using hb')
  · next hxy =>
    have hall := List.length_filter_eq_length_iff.1 (show run.length = [false, true].length by rw [hxy]; rfl)
    exact hrun b (List.mem_filter.2 ⟨by cases b <;> simp, hall b (by cases b <;> simp)⟩)
  · exact hrun b h

theorem State.canIssue_of_mem_panelUnits {s : State} {h : Nat} {p : Panel} (hp : s.panel? h = some p)
    (hr : SMap.rising p.strands = true) {u : Ex × Bool} (hu : u ∈ s.panelUnits h p) : s.canIssue u := by
  unfold State.panelUnits at hu
  split at hu
  · obtain ⟨hu, -⟩ := List.mem_filter.1 hu
    rcases List.mem_append.1 hu with hu | hu
    · obtain ⟨⟨i, t⟩, ht, hu⟩ := List.mem_flatMap.1 hu
      split at hu
      · obtain ⟨b, hb, rfl⟩ := List.mem_map.1 hu
        exact ⟨t, by simp only [State.strand?, hp, SMap.look_of_mem hr ht], State.slotOf_of_mem_slotsOf hb⟩
      · cases hu
    · split at hu
      · cases hu
      · obtain rfl := List.mem_singleton.1 hu
        exact ⟨p, hp⟩
  · cases hu

theorem State.canIssue_of_mem_units {s : State} (hs : SMap.rising s.panels = true)
    (hp : ∀ e ∈ s.panels, SMap.rising e.2.strands = true) {u : Ex × Bool} (hu : u ∈ s.units) : s.canIssue u := by
  rcases List.mem_append.1 hu with hu | hu
  · obtain ⟨hu, -⟩ := List.mem_filter.1 hu
    obtain ⟨⟨h, p⟩, hmem, hu⟩ := List.mem_flatMap.1 hu
    exact State.canIssue_of_mem_panelUnits (SMap.look_of_mem hs hmem) (hp _ hmem) hu
  · obtain ⟨g, hg, rfl⟩ := List.mem_map.1 hu
    have hlt := (List.mem_filter.1 hg).2
    simp only [Bool.and_eq_true, decide_eq_true_eq] at hlt
    exact hlt.1.1

theorem State.mem_units_of_nextUnit {s : State} {u : Ex × Bool} (h : s.nextUnit = some u) : u ∈ s.units := by
  unfold State.nextUnit at h
  extract_lets us due any at h
  have hdue (v : Ex × Bool) (hv : v ∈ due) : v ∈ s.units := by simpa using (List.mem_filter.1 hv).2
  have hany (v : Ex × Bool) (hv : any = some v) : v ∈ s.units := by
    dsimp -zeta only [any] at hv
    clear_value due
    cases due with
    | nil => exact mem_of_choose hv
    | cons w ws =>
      dsimp only at hv
      split at hv
      · cases hv; exact hdue v List.mem_cons_self
      · exact mem_of_choose hv
  split at h
  · split at h
    · exact hany u h
    · next hus =>
      have hmem := mem_of_choose h
      rw [← hus] at hmem
      exact (List.mem_filter.1 hmem).1
  · exact hany u h

/-! The fetch and the step. -/

/-- A fetch answers an outcome that goes on, or an instruction of an executor that issues. -/
inductive FetchGoesOn : Fetched → Prop where
  | out {o : Out} (h : GoesOn o) : FetchGoesOn (.out o)
  | go {s : State} {i : Instr} (h : s.mkCx.isSome = true) : FetchGoesOn (.go s i)

theorem fetchTrap_goesOn (s : State) (e : Ex) (b : Bool) (pc : Nat) (t : TrapInfo) : FetchGoesOn (s.fetchTrap e b pc t) := .out (.next _)

theorem fetch_goesOn {s : State} {e : Ex} {b : Bool} (h : s.canIssue (e, b)) : FetchGoesOn (s.fetch e b) := by
  obtain ⟨p, hp⟩ := State.posOf_of_canIssue h
  unfold State.fetch
  rw [hp]
  dsimp -zeta only
  split
  · exact .out (.next _)
  split
  · exact fetchTrap_goesOn ..
  · exact .out (.next _)
  · exact .out (.wait _)
  · exact .out (.next _)
  extract_lets fin
  split
  · exact fetchTrap_goesOn ..
  · exact .out (.next _)
  · exact .out (.wait _)
  extract_lets +onlyGivenNames s0 s1
  split
  · exact fetchTrap_goesOn ..
  · exact fetchTrap_goesOn ..
  · refine .go (State.mkCx_of_canIssue ?_)
    have h0 : s0.panels = s.panels := by
      dsimp only [s0]
      rw [State.fetchSoft_panels]
      split
      · rfl
      · exact State.fetchSoft_panels ..
    exact State.canIssue_of_panels (s := s1) rfl (State.canIssue_setPos (State.canIssue_of_panels h0 h))

theorem issueStep_goesOn {s : State} (hs : SMap.rising s.panels = true) (hp : ∀ e ∈ s.panels, SMap.rising e.2.strands = true) :
    GoesOn (issueStep s) := by
  unfold issueStep
  split
  · next u hu =>
    have hc := State.canIssue_of_mem_units hs hp (State.mem_units_of_nextUnit hu)
    have hf := fetch_goesOn (State.canIssue_picked u (State.canIssue_of_panels (t := { s with turn := none, free := s.free + 1 }) rfl hc))
    split
    · next e => rw [e] at hf; cases hf with | go h => exact exec_goesOn _ fun _ => h
    · next e => rw [e] at hf; cases hf with | out h => exact h
  · exact .next _

/-- Settles O60: every instruction and every step of the module goes on, and the slot that is chosen to issue stands. -/
theorem everyStepCompletes : Obligations.EveryStepCompletes := by
  intro s hs hp hsteps
  have none_goesOn {i : Instr} (hi : i.fields = none) (t : State) : GoesOn (exec i t) := exec_goesOn i fun h => by simp [hi] at h
  show GoesOn (step s)
  unfold step
  split
  · exact none_goesOn rfl _
  split
  · next i rest ha => exact none_goesOn (hsteps i (.inl (by simp [ha]))) _
  refine .ite (.next _) ?_
  split
  · exact issueStep_goesOn (s := s.tick) hs hp
  · exact .ite (.next _) (issueStep_goesOn (s := { s.tick with free := s.free + 1, flushes := 0, issues := s.issues + 1 }) hs hp)

end Sys2Proof.Machine
end

section
/-! PROOFS. The executor a form may not issue on (O8): every form goes through the checks of its issue, and what those answer where they
stop it is what the machine does. -/

namespace Sys2Proof.Machine

/-! The meaning of a form and the checks of its issue. -/

/-- Every form's meaning stands behind the checks of its issue; a step of the module has no form. -/
theorem exec_eq_run {i : Instr} {sp : Spec} (hs : i.spec = some sp) (s : State) : ∃ k, exec i s = run i s k := by
  cases i with
  | pendingFill | writeAck | homeL2Access | redApply | ordinalArrival | ordinalRetry | l2Eviction | spoolRefresh
  | pageWalk | executorPark | copyComplete | copyFault | spoolLoadCopy | knotUpdate | kvldComplete | kvEvent
  | matrixEntryStart | matstep | matrixEntryComplete | msttComplete | powerGrant | grantReturn | grantWithdrawal
  | collComplete | stitchIncrement | triggerFire | exchangeDemand | exchangePhase | heartbeat | standbyTakeover
  | ringReopen | panelPlacement | distributorPush | panelComplete | joinDecrement | preemption | forcedSave | panelSwapOut
  | gatherFlush | gatheredStrandStart | watchdogExpiry | contextSaveDone | powerOn | powerOff | bootlen
  | imageVerification | doorbell | train | patternTestStart | patternTestDone | repair | deviceRegisterWrite | flogPop
  | tbstep | wdata | launch | flitRetry | portLoss | computeDieLoss | ringSegmentLoss | iodELoss | iodWLoss
  | thermalThrottle | thermalRecovery | thermalShutdown | rdmaWrite | rdmaRead | send | rdmaAtomic | ptpEventFrame | quote
  | certs | shuttle | arbiterReturn | arbiterPackageLoss | otpFloorRaise => cases hs
  | _ => exact ⟨_, rfl⟩

/-- Where the checks of an issue stop a form, what they answer is all that happens. -/
theorem exec_of_issue_out {i : Instr} {s : State} {sp : Spec} {o : Out} (hs : i.spec = some sp) (h : issue i s = .out o) :
    exec i s = o := by
  obtain ⟨k, hk⟩ := exec_eq_run hs s
  rw [hk, Machine.run, h]

/-! A trap of the checks. -/

theorem State.mkCx_quiet {s : State} {c : Cx} (h : s.mkCx = some c) : c.quiet = false := by
  unfold State.mkCx at h
  split at h
  · split at h
    · cases h
    · split at h <;> cases h
      rfl
  · split at h <;> cases h
    rfl
  · split at h <;> cases h
    rfl

@[simp] theorem Cx.guarded_quiet (c : Cx) (g : Guard) : (c.guarded g).quiet = c.quiet := by
  unfold Cx.guarded
  split <;> rfl

@[simp] theorem Cx.guarded_thr (c : Cx) (g : Guard) : (c.guarded g).thr = c.thr := by
  unfold Cx.guarded
  split <;> rfl

/-- A trap that the checks of an issue answer is taken: no check before them has made the issue a quiet one (R10, R56). -/
theorem Traps.of_issue {i : Instr} {s : State} {c : Cx} {sp : Spec} {g : Guard} {f : TrapInfo} (hc : s.mkCx = some c)
    (hs : i.spec = some sp) (h : issue i s = .out (trapOut s (c.guarded g) f)) : Traps i s (c.guarded g) f := by
  have hq : (c.guarded g).quiet = false := by rw [Cx.guarded_quiet, State.mkCx_quiet hc]
  rw [Traps, exec_of_issue_out hs h, trapOut, hq]
  rfl

/-! The checks before that of the executor. -/

/-- The forms that a bobbin may not round by SR are forms that it may issue (R79, R274). -/
theorem exOk_of_bobSr {e : Ex} {i : Instr} {sp : Spec} (hs : i.spec = some sp) (h : bobSr e i = true) : exOk e sp.ex = true := by
  obtain ⟨he, hi⟩ := Bool.and_eq_true_iff.1 h
  cases e with
  | bob p =>
    split at hi
    · cases hs; rfl
    · cases hs; rfl
    · cases hi
  | str p n => cases he
  | mgt m => cases he

theorem guardOk_of_scalar_always {e : Ex} {g : Guard} (h : e.scalar = true → g = Guard.always) (i : Instr) :
    guardOk e i g = true := by
  unfold guardOk
  cases he : e.scalar with
  | false => rfl
  | true => rw [h he]; rfl

/-- With the checks before it passed, an executor that the form's row of R79 does not mark is what stops the issue (R66). -/
theorem issue_wrongExecutor {i : Instr} {s : State} {c : Cx} {sp : Spec} {x : Args} (hc : s.mkCx = some c) (hs : i.spec = some sp)
    (hf : i.fields = some x) (hr : c.thr.resumeTrap = false) (hsr : bobSr c.ex i = false) (hg : guardOk c.ex i x.g = true)
    (ha : mgtOnlyZero c.ex sp.a x.a = true) (hb : mgtOnlyZero c.ex sp.b x.b = true) (hx : exOk c.ex sp.ex = false) :
    issue i s = .out (trapOut s (c.guarded x.g) { trap := .wrongExecutor }) := by
  unfold issue
  rw [hc, hs, hf]
  simp [hr, hsr, hg, ha, hb, hx]

/-- Settles O8: the checks before that of the executor pass, and its trap is what the issue answers. -/
theorem wrongExecutorTraps : Obligations.WrongExecutorTraps := by
  intro i s c sp x hc hs hf hr hg ha hb hx
  have hsr : bobSr c.ex i = false := Bool.eq_false_iff.2 fun h => by simp [exOk_of_bobSr hs h] at hx
  exact .of_issue hc hs (issue_wrongExecutor hc hs hf hr hsr (guardOk_of_scalar_always hg i) ha hb hx)

end Sys2Proof.Machine
end
